-- ==== Sys2Proof/Word.lean ====
section
/-! DEFINITION. The word types of the ZC2410 (spec/00_scope.md, "Units"; spec/11, section 11.1) and the
fixed-size table `Tab` in which the model keeps every collection of a fixed number of like things
(24 lines, 96 station entries, 16 counter sets, 8 programs, 4 routine groups). -/

namespace Sys2Proof

/-- One octet of a frame or of a record (11.1). -/
abbrev Byte := BitVec 8

/-- A 48-bit station address, first octet in the most significant byte (11.1, "address"). -/
abbrev Addr := BitVec 48

/-- A reading of the timebase, in ms, wrapping after 2^48 - 1 (R187). -/
abbrev Time := BitVec 48

/-- A line, pair or home number, 0 to 23 (00_scope, "Lines, pairs and homes"). -/
abbrev LineNo := Fin 24

/-- A group address has the least significant bit of its first octet set (01, table 1.1, note 1). -/
def Addr.isGroup (a : Addr) : Bool := a.getLsbD 40

/-- A table of exactly `n` items. -/
structure Tab (n : Nat) (α : Type) where
  items : List α
  size : items.length = n
deriving DecidableEq, Repr

variable {n : Nat} {α β : Type}

/-- The item at an index. -/
def Tab.get (t : Tab n α) (i : Fin n) : α := t.items[i.val]'(by rw [t.size]; exact i.isLt)

/-- The table with one item replaced. -/
def Tab.set (t : Tab n α) (i : Fin n) (a : α) : Tab n α :=
  ⟨t.items.set i.val a, by rw [List.length_set]; exact t.size⟩

/-- The table with one item changed by a function. -/
def Tab.modify (t : Tab n α) (i : Fin n) (f : α → α) : Tab n α := t.set i (f (t.get i))

/-- The table with every item changed by a function. -/
def Tab.map (t : Tab n α) (f : α → β) : Tab n β :=
  ⟨t.items.map f, by rw [List.length_map]; exact t.size⟩

/-- The table that holds one value everywhere. -/
def Tab.fill (n : Nat) (a : α) : Tab n α := ⟨List.replicate n a, List.length_replicate⟩

/-- The indexes of a table in rising order. -/
def indexes (n : Nat) : List (Fin n) := List.finRange n

/-- The table whose item at each index is a function of the index. -/
def Tab.ofFn (f : Fin n → α) : Tab n α :=
  ⟨(indexes n).map f, by rw [List.length_map]; exact List.length_finRange⟩

/-- A counter raised by `k` holds at its maximum (R197; 00_scope, "Counters"). -/
def bumpTo (max c k : Nat) : Nat := min max (c + k)

/-- The nearer end of a range, or the value itself (00_scope, "Out-of-range values in commands"). -/
def clamp (lo hi v : Nat) : Nat := max lo (min hi v)

end Sys2Proof
end

