-- ==== Sys2Proof/Syntax.lean ====
section
/-! DEFINITION. The commands and events of the ZC2410 as syntax: one constructor of `Instr` per row of
spec/opcode_table.json, with the row's operands, and the enumerations the operands and the state share.
A value that a control frame carries is a plain number here, so that a value that names nothing can be
carried and refused by the command's own rule. -/

namespace Sys2Proof

/-- The two upstream classes (00_scope, "BULK, PRIO"). -/
inductive Cls | prio | bulk
deriving DecidableEq, Repr

/-- The port a control frame came from (R177). -/
inductive Port | uplink | craft
deriving DecidableEq, Repr

/-- The origin a command has available to it (R179). -/
inductive Origin | uplink | craftService | craft
deriving DecidableEq, Repr

/-- The nine line states (R86). -/
inductive LineState | disabled | down | training | up | quiet | dormant | draining | held | barred
deriving DecidableEq, Repr

/-- The standing of a pair after its last completed test (R15, R141). -/
inductive Grade | none | good | marginal | faulty
deriving DecidableEq, Repr

/-- The sense edge field of a line record (R14). -/
inductive SenseEdge | rising | falling | both
deriving DecidableEq, Repr

/-- The four cabinet power states (R158). -/
inductive PowerState | mains | battery | conserve | reserve
deriving DecidableEq, Repr

/-- The sleep mode on shed (R164). -/
inductive SleepMode | quiet | dormant
deriving DecidableEq, Repr

/-- The state of the capacity source (R48). -/
inductive CapSource | none | advised | lost
deriving DecidableEq, Repr

/-- The cause of a wake request (R91). -/
inductive WakeCause | start | sense | downstream
deriving DecidableEq, Repr

/-- The legs of a pair (R108, R112). -/
inductive Leg | tr | tg | rg
deriving DecidableEq, Repr

/-- The kinds of measurement (R112). -/
inductive Kind | foreign | resistance | capacitance | tone
deriving DecidableEq, Repr

/-- The verdict of a measurement; NOT_RUN is given by the Test Sequencer (section 6.4, R139). -/
inductive Verdict | pass | marginal | faulty | overRange | guarded | notRun
deriving DecidableEq, Repr

/-- A measurement spec: the fields of R112 that apply to its kind, in range. -/
inductive Spec
  /-- leg, window (ms), marginal limit and faulty limit (mV). -/
  | foreign (leg : Leg) (window marginal faulty : Nat)
  /-- leg, source volts (V), window (ms), marginal limit and faulty limit (ohm). -/
  | resistance (leg : Leg) (volts window marginal faulty : Nat)
  /-- leg, source current (uA), target (mV), marginal limit and faulty limit (percent). -/
  | capacitance (leg : Leg) (current target marginal faulty : Nat)
  /-- leg, tone frequency (Hz), on time and off time (ms), duration (s). -/
  | tone (leg : Leg) (freq onTime offTime duration : Nat)
deriving DecidableEq, Repr

/-- A measurement spec as WRITE PROGRAM carries it, before any check: each field present or absent (R112, R131). -/
structure RawSpec where
  kind : Option Nat
  leg : Option Nat
  volts : Option Nat
  current : Option Nat
  window : Option Nat
  target : Option Nat
  freq : Option Nat
  onTime : Option Nat
  offTime : Option Nat
  duration : Option Nat
  marginal : Option Nat
  faulty : Option Nat
deriving DecidableEq, Repr

/-- The fields WRITE LINE may carry: those of R14 other than admin, each present or absent (R17).
The counter set and the routine group may also carry the value none. -/
structure LineFields where
  vlan : Option Nat := none
  committed : Option Nat := none
  weight : Option Nat := none
  cap : Option Nat := none
  stationLimit : Option Nat := none
  learning : Option Nat := none
  broadcast : Option Nat := none
  defaultClass : Option Nat := none
  downLimit : Option Nat := none
  prioLimit : Option Nat := none
  bulkLimit : Option Nat := none
  counterSet : Option (Option Nat) := none
  routineGroup : Option (Option Nat) := none
  powerPriority : Option Nat := none
  quietDelay : Option Nat := none
  dormantDelay : Option Nat := none
  wakeOnDown : Option Nat := none
  senseEdge : Option Nat := none
  keepOnFault : Option Nat := none
  recordedLength : Option Nat := none
deriving DecidableEq, Repr

/-- The settings SET UPLINK may carry (R63); the backhaul address may carry the value none. -/
structure UplinkFields where
  ceiling : Option Nat := none
  allowance : Option Nat := none
  fallback : Option Nat := none
  hold : Option Nat := none
  spare : Option Nat := none
  backhaul : Option (Option Addr) := none
  ethertype : Option Nat := none
deriving DecidableEq, Repr

/-- The seven limits SET TEST LIMITS may carry (R156). -/
structure LimitFields where
  settle : Option Nat := none
  discharge : Option Nat := none
  guardVolts : Option Nat := none
  cablePf : Option Nat := none
  drain : Option Nat := none
  suspend : Option Nat := none
  deferral : Option Nat := none
deriving DecidableEq, Repr

/-- The six policy fields WRITE POWER POLICY may carry (R174). -/
structure PolicyFields where
  budget : Option Nat := none
  sleep : Option Nat := none
  quietCap : Option Nat := none
  scale : Option Nat := none
  wakeSense : Option Nat := none
  wakeDown : Option Nat := none
deriving DecidableEq, Repr

/-- The four values SET BATTERY THRESHOLDS may carry (R175). -/
structure ThresholdFields where
  conserve : Option Nat := none
  reserve : Option Nat := none
  hysteresis : Option Nat := none
  stableDelay : Option Nat := none
deriving DecidableEq, Repr

/-- The five items SET MANAGEMENT may carry (R186); the manager address may carry the value none. -/
structure ManagementFields where
  station : Option Addr := none
  vlan : Option Nat := none
  ethertype : Option Nat := none
  manager : Option (Option Addr) := none
  managerOnly : Option Nat := none
deriving DecidableEq, Repr

/-- One kind of SET NOTICES with its enable, its urgency or both (R203). -/
structure NoticeField where
  kind : Nat
  enable : Option Nat := none
  urgency : Option Nat := none
deriving DecidableEq, Repr

/-- The three forms of READ STATION (R12). -/
inductive StationQuery
  | byAddress (a : Addr)
  | byLine (line : Nat)
  | fromIndex (index : Nat)
deriving DecidableEq, Repr

/-- The scope of FLUSH LEARNED (R13). -/
inductive FlushScope
  | all
  | line (line : Nat)
deriving DecidableEq, Repr

/-- The two forms of READ TEST RECORD (R143). -/
inductive RecordQuery
  | bySequence (seq : Nat)
  | byLine (line : Nat)
deriving DecidableEq, Repr

/-- One sample of the sampler: the leg voltage in mV and the current in nA (R115). -/
structure Sample where
  mv : Int
  na : Nat
deriving DecidableEq, Repr

/-- The steps of the part: one constructor per row of spec/opcode_table.json, in the table's order. -/
inductive Instr
  /-- R204: power-up. -/
  | coldReset
  /-- R204: the RESET input asserted. -/
  | pinReset
  /-- R204: the core supply monitor below its minimum. -/
  | supplyReset
  /-- R190: the cold or warm reset ends and the start-up runs. -/
  | startUp
  /-- R191: the start-up completes; `sample` is the BATSENSE reading of that moment in mV. -/
  | startUpComplete (sample : Nat)
  /-- R22: a frame arrives at the uplink port. -/
  | uplinkFrameReceived (frame : List Byte)
  /-- R49: a capacity advisory with its advised figure in kbit/s. -/
  | capacityAdvisory (figure : Nat)
  /-- R77: a class pause with its class mask and its duration in us. -/
  | classPause (mask : Byte) (duration : Nat)
  /-- R25: a frame arrives at the craft port; `service` is the SERVICE input at that moment. -/
  | craftFrameReceived (service : Bool) (frame : List Byte)
  /-- R31: a frame arrives on a line link. -/
  | lineLinkFrameReceived (n : LineNo) (frame : List Byte)
  /-- R42: status report READY. -/
  | ready (n : LineNo)
  /-- R90: status report ACTIVITY. -/
  | activity (n : LineNo)
  /-- R92: status report LINK_UP with its two rates in kbit/s. -/
  | linkUp (n : LineNo) (down up : Nat)
  /-- R93: status report RATES with its two rates in kbit/s. -/
  | rates (n : LineNo) (down up : Nat)
  /-- R92: status report LINK_FAIL. -/
  | linkFail (n : LineNo)
  /-- R93: status report LINK_DOWN. -/
  | linkDown (n : LineNo)
  /-- R95: status report AWAKE. -/
  | awake (n : LineNo)
  /-- R103: an edge of a sense input, rising or falling. -/
  | senseEdge (n : LineNo) (rising : Bool)
  /-- R170: the grant of the oldest wake list entry. -/
  | wakeGrant
  /-- R8: the sweep timer expires. -/
  | agingSweep
  /-- R50: the advisory hold timer expires. -/
  | holdTimerExpiry
  /-- R67: the refill timer expires. -/
  | refill
  /-- R78: a class's pause timer expires. -/
  | pauseTimerExpiry (c : Cls)
  /-- R70: a choice of the Upstream Scheduler. -/
  | upstreamChoice
  /-- R76: the uplink transmission in progress completes. -/
  | transmissionComplete
  /-- R42: a hand-off to a transceiver starts. -/
  | handOffStart (n : LineNo)
  /-- R43: a hand-off completes. -/
  | handOffComplete (n : LineNo)
  /-- R44: drain complete. -/
  | drainComplete (n : LineNo)
  /-- R79: the uplink link goes down. -/
  | uplinkLinkDown
  /-- R80: the uplink link comes up. -/
  | uplinkLinkUp
  /-- R81: the craft transmitter takes an entry. -/
  | craftTransmissionStart
  /-- R81: the craft transmission completes. -/
  | craftTransmissionComplete
  /-- R81: the craft link goes down. -/
  | craftLinkDown
  /-- R92: a line's training timer expires. -/
  | trainingTimerExpiry (n : LineNo)
  /-- R95: a line's wake timer expires. -/
  | wakeTimerExpiry (n : LineNo)
  /-- R93: a line's idle timer reaches the effective quiet delay. -/
  | idleTimerExpiry (n : LineNo)
  /-- R94: a line's dormant timer expires. -/
  | dormantTimerExpiry (n : LineNo)
  /-- R99: a line's drain timer expires. -/
  | drainTimerExpiry (n : LineNo)
  /-- R109: the settle timer expires. -/
  | settleTimerExpiry
  /-- R122, R123: the last sample of the window in hand; the samples in the order they were taken. -/
  | windowEnd (samples : List Sample)
  /-- R124: the leg voltage reaches the target at capture time `t` (us). -/
  | captureTargetReached (t : Nat)
  /-- R124: the capture timer reaches its timeout. -/
  | captureTimeout
  /-- R127: the tone duration has elapsed. -/
  | toneDurationElapsed
  /-- R116: the discharge wait expires. -/
  | dischargeWaitExpiry
  /-- R120: the greatest of the three leg voltage magnitudes of the connected pair becomes `mv` (mV). -/
  | guardTrip (mv : Nat)
  /-- R151: EXTREQ is asserted. -/
  | extreqAsserted
  /-- R155: EXTREQ is released. -/
  | extreqReleased
  /-- R154: the suspend timer expires. -/
  | suspendTimerExpiry
  /-- R149: a routine group's half tick. -/
  | halfTick (g : Fin 4)
  /-- R149: a routine group's full tick. -/
  | fullTick (g : Fin 4)
  /-- R162: a sample of BATSENSE in mV. -/
  | batterySample (mv : Nat)
  /-- R160: MAINS_OK is deasserted. -/
  | mainsOkDeasserted
  /-- R161: MAINS_OK is asserted. -/
  | mainsOkAsserted
  /-- R161: the mains stable timer expires. -/
  | mainsStableTimerExpiry
  /-- R178: the head of the control queue is taken; `service` is the SERVICE input at that moment. -/
  | controlFrameTaken (service : Bool)
  /-- R206: an element whose identifier names no command. -/
  | unknownCommand (ident : Byte)
  /-- R202: a notice frame is built. -/
  | noticeFrameBuild
  /-- R9: WRITE STATION, entry form. -/
  | writeStation (o : Origin) (a : Addr) (line cls : Nat)
  /-- R10: WRITE STATION, table form. -/
  | writeStationTableForm (o : Origin) (aging : Nat)
  /-- R11: REMOVE STATION. -/
  | removeStation (o : Origin) (a : Addr)
  /-- R12: READ STATION. -/
  | readStation (o : Origin) (q : StationQuery)
  /-- R13: FLUSH LEARNED. -/
  | flushLearned (o : Origin) (scope : FlushScope)
  /-- R17: WRITE LINE. -/
  | writeLine (o : Origin) (line : Nat) (f : LineFields)
  /-- R19: READ LINE. -/
  | readLine (o : Origin) (line : Nat)
  /-- R104: ENABLE LINE, line form. -/
  | enableLine (o : Origin) (line : Nat)
  /-- R104: ENABLE LINE, settings form: training limit (s), wake limit (ms). -/
  | enableLineSettingsForm (o : Origin) (trainLimit wakeLimit : Option Nat)
  /-- R105: DISABLE LINE. -/
  | disableLine (o : Origin) (line : Nat)
  /-- R106: CLEAR BAR. -/
  | clearBar (o : Origin) (line : Nat)
  /-- R107: CLEAR SENSE with a line set, bit n naming line n (11.1). -/
  | clearSense (o : Origin) (lines : BitVec 32)
  /-- R63: SET UPLINK. -/
  | setUplink (o : Origin) (f : UplinkFields)
  /-- R65: READ UPLINK. -/
  | readUplink (o : Origin)
  /-- R131: WRITE PROGRAM. -/
  | writeProgram (o : Origin) (program : Nat) (specs : List RawSpec)
  /-- R131: READ PROGRAM. -/
  | readProgram (o : Origin) (program : Nat)
  /-- R134: REQUEST TEST; an absent override is the default no. -/
  | requestTest (o : Origin) (line program : Nat) (override : Option Nat)
  /-- R145: ABORT TEST. -/
  | abortTest (o : Origin) (line : Nat)
  /-- R157: READ TEST QUEUE. -/
  | readTestQueue (o : Origin)
  /-- R143: READ TEST RECORD. -/
  | readTestRecord (o : Origin) (q : RecordQuery)
  /-- R150: SET ROUTINE GROUP. -/
  | setRoutineGroup (o : Origin) (group : Nat) (base factor program : Option Nat)
  /-- R150: START ROUTINE GROUP. -/
  | startRoutineGroup (o : Origin) (group : Nat)
  /-- R150: STOP ROUTINE GROUP. -/
  | stopRoutineGroup (o : Origin) (group : Nat)
  /-- R156: SET TEST LIMITS. -/
  | setTestLimits (o : Origin) (f : LimitFields)
  /-- R152: CONNECT EXTERNAL. -/
  | connectExternal (o : Origin) (line : Nat)
  /-- R153: DISCONNECT EXTERNAL. -/
  | disconnectExternal (o : Origin)
  /-- R174: WRITE POWER POLICY. -/
  | writePowerPolicy (o : Origin) (state : Nat) (f : PolicyFields)
  /-- R175: SET BATTERY THRESHOLDS. -/
  | setBatteryThresholds (o : Origin) (f : ThresholdFields)
  /-- R176: READ POWER. -/
  | readPower (o : Origin)
  /-- R198: READ COUNTERS; an absent clear option is the default no. -/
  | readCounters (o : Origin) (set : Nat) (clear : Option Nat)
  /-- R198: READ GLOBAL COUNTERS. -/
  | readGlobalCounters (o : Origin) (clear : Option Nat)
  /-- R200: CLEAR EVENTS; bit k-1 of the mask names kind k (11.1). -/
  | clearEvents (o : Origin) (mask : BitVec 32)
  /-- R203: SET NOTICES. -/
  | setNotices (o : Origin) (fields : List NoticeField)
  /-- R204: CLEAR RESET CAUSE; bit k-1 of the mask names flag k (11.1). -/
  | clearResetCause (o : Origin) (mask : BitVec 32)
  /-- R194: READ STATUS. -/
  | readStatus (o : Origin)
  /-- R186: SET MANAGEMENT. -/
  | setManagement (o : Origin) (f : ManagementFields)
  /-- R187: SET TIME. -/
  | setTime (o : Origin) (t : Time)
  /-- R184: LOCK with an optional lock-at-start. -/
  | lock (o : Origin) (lockAtStart : Option Nat)
  /-- R189: SAVE CONFIGURATION. -/
  | saveConfiguration (o : Origin)
  /-- R189: the save ends; `good` says whether the image read back passes its check and matches the snapshot. -/
  | saveDone (good : Bool)
  /-- R192: TRAFFIC RESET. -/
  | trafficReset (o : Origin)
  /-- R193: DEVICE RESET. -/
  | deviceReset (o : Origin)
  /-- R193: the device reset timer expires. -/
  | deviceResetTimerExpiry
  /-- R81: the craft port's Ethernet link comes up. -/
  | craftLinkUp
deriving DecidableEq, Repr

end Sys2Proof
end

