-- ==== Sys2Proof/Decode.lean ====
section
/-! DEFINITION. The command that a word spells by the table's bits. No row of spec/opcode_table.json gives bits (the
part takes commands as events and as elements of control frames, which Machine/ControlFrames.lean reads), so no word
spells one. -/

namespace Sys2Proof

/-- The command a word spells: none, since the table gives no row any bits. -/
def decodeTableWord (_nbits _w : Nat) : Option Instr := none

end Sys2Proof
end

