-- ==== Sys2Proof/Config.lean ====
section
/-! DEFINITION. What the part fixes: the capacities, floors and default values the spec's rules state. No value
here is a choice of the model but where a line says so and names its log entry. The spec leaves no value of an
operation open, so the model has no uninterpreted constant. -/

namespace Sys2Proof.Config

/-- Cells of the pool and bytes of a cell (section 2.5). -/
def poolCells : Nat := 4096
def cellBytes : Nat := 128
/-- The reserve floor of the pool check (R35). -/
def reserveFloor : Nat := 64
/-- POOL_LOW is raised below the first figure while armed, and armed again at the second (R36). -/
def poolLowMark : Nat := 128
def poolArmMark : Nat := 256
/-- The least depth of a line's credit, in bits (R66). -/
def leastDepth : Nat := 12288
/-- Frame lengths in bytes, check sequence included (R22, R26). -/
def leastFrame : Nat := 64
def leastTaggedFrame : Nat := 68
def greatestFrame : Nat := 1522
def greatestLineFrame : Nat := 1518
/-- Places of the control queue, the management transmit list, the notice list, the test queue and the result
log (R177, R181, R201, R132, R142). -/
def controlPlaces : Nat := 4
def transmitPlaces : Nat := 16
def noticePlaces : Nat := 32
def testPlaces : Nat := 8
def logPlaces : Nat := 64
/-- Cells that must be free for a control frame to be taken (R178). -/
def takeCells : Nat := 12
/-- Maxima of frame and event counters and of byte counters (R197). -/
def countMax : Nat := 4294967295
def byteCountMax : Nat := 281474976710655
/-- The greatest rate a trained rate or a share may hold, in kbit/s (R84, R15). -/
def rateMax : Nat := 100000
/-- The greatest capacity figure stored, in kbit/s (R49). -/
def capacityMax : Nat := 1000000
/-- The capture timer's timeout in us (R124). -/
def captureTimeoutUs : Nat := 2000000
/-- The clamps of the measured values (R122, R115, R123, R125). -/
def voltMax : Nat := 150000
def currentMax : Nat := 60000000
def resistanceMax : Nat := 999999999
def capacitanceMax : Nat := 9999999
/-- The device reset timer, the refill period and the sweep period in ms (R193, R67, R8). -/
def deviceResetMs : Nat := 1000
def refillMs : Nat := 1
def sweepMs : Nat := 60000
/-- The tag protocol identifier and the ethertypes of the defaults (R20, R46, R185). -/
def tagProtocol : Nat := 0x8100
def controlEthertype : Nat := 0xB7E1
def advisoryEthertype : Nat := 0xB7E2
/-- Version and body length of a good image header (11.6). -/
def imageVersion : Nat := 1
def imageBodyLength : Nat := 4096
/-- The greatest number of bytes of a notice frame and of notices in one (R202). -/
def noticesPerFrame : Nat := 8
/-- The most commands of a control frame (R179). -/
def commandsPerFrame : Nat := 16

end Sys2Proof.Config
end

