-- ==== Sys2Proof/Machine/State.lean ====
section
/-! DEFINITION. The state of the ZC2410, block by block as 00_scope.md's table of blocks lists them, and the state
right after a power-up reset. Plain data throughout. Timers are `none` while stopped and otherwise hold what
remains of them. -/

namespace Sys2Proof.Machine

/-! ## Stations -/

/-- The origin of a station entry; a LEARNED entry carries its age in minutes, a STATIC one has none (table 1.1, note 2). -/
inductive EntryOrigin | static | learned (age : Nat)
deriving DecidableEq, Repr

/-- A valid station entry (table of section 1.1). -/
structure Entry where
  addr : Addr
  line : LineNo
  cls : Cls
  origin : EntryOrigin
deriving DecidableEq, Repr

/-- The Station Table (section 1.1): an invalid entry is `none`. -/
structure Stations where
  entries : Tab 96 (Option Entry)
  agingTime : Nat
  /-- The sweep timer, ms remaining; stopped until the start-up completes (R3, R191). -/
  sweep : Option Nat
deriving DecidableEq, Repr

/-! ## Lines -/

/-- The configuration half of a line record (R14). -/
structure LineConfig where
  enabled : Bool
  vlan : Nat
  committed : Nat
  weight : Nat
  cap : Nat
  stationLimit : Nat
  learning : Bool
  broadcast : Bool
  defaultClass : Cls
  downLimit : Nat
  prioLimit : Nat
  bulkLimit : Nat
  counterSet : Option (Fin 16)
  routineGroup : Option (Fin 4)
  powerPriority : Nat
  quietDelay : Nat
  dormantDelay : Nat
  wakeOnDown : Bool
  senseEdge : SenseEdge
  keepOnFault : Bool
  recordedLength : Nat
deriving DecidableEq, Repr

/-- The transceiver commands (R85, 11.4). -/
inductive TCmd | listen | start | wake | holdUpstream | releaseUpstream | lowPower | off
deriving DecidableEq, Repr

/-- One line: its record (R14, R15), its port state (R86) and its queues, wake store and hand-off (R37, R38, R42).
Queues and slots hold the numbers of frame records. -/
structure Line where
  cfg : LineConfig
  st : LineState
  downRate : Nat
  upRate : Nat
  grade : Grade
  lastTest : Option Nat
  sense : Bool
  share : Nat
  credit : Int
  /-- Whether the line was eligible at the last hand-over to the Upstream Scheduler (section 4.1). -/
  eligible : Bool
  /-- The idle timer: ms since it started, `none` while it does not run (R45). -/
  idle : Option Nat
  ready : Bool
  wakePending : Bool
  trainTimer : Option Nat
  wakeTimer : Option Nat
  /-- The dormant timer's count: ms since the line entered QUIET, `none` outside QUIET (R94). -/
  quietFor : Option Nat
  drainTimer : Option Nat
  trainFails : Nat
  /-- The state when taken (R98). -/
  takenFrom : Option LineState
  /-- The transceiver command sent last (R85). -/
  command : Option TCmd
  downQ : List Nat
  prioQ : List Nat
  bulkQ : List Nat
  wakeStore : Option Nat
  handOff : Option Nat
deriving DecidableEq, Repr

/-! ## Cell pool -/

/-- The origin of a frame record (R33). -/
inductive RecOrigin | uplink | line (n : LineNo) | part
deriving DecidableEq, Repr

/-- A frame record (R33). Its stored length and its cells follow from the bytes it stores. -/
structure FrameRec where
  bytes : List Byte
  cls : Option Cls
  origin : RecOrigin
  refs : Nat
deriving DecidableEq, Repr

/-- The cell pool (section 2.5). Records are numbered in the order they are made; `nextId` is the model's own
numbering and no part of the spec's state. -/
structure Pool where
  recs : List (Nat × FrameRec)
  nextId : Nat
  free : Nat
  armed : Bool
deriving DecidableEq, Repr

/-! ## Share Computer and Upstream Scheduler -/

/-- The results of the last recompute (R46, R65). -/
structure ShareResults where
  power : Option PowerState
  scale : Nat
  capacity : Nat
  uEff : Nat
  effective : Nat
  committedSum : Nat
  rounds : Nat
  residue : Nat
  eligibleLines : Nat
deriving DecidableEq, Repr

/-- The Share Computer (R46); the 24 shares stand in the line records. -/
structure Shares where
  ceiling : Nat
  allowance : Nat
  fallback : Nat
  hold : Nat
  spare : Bool
  backhaul : Option Addr
  ethertype : Nat
  source : CapSource
  advised : Option Nat
  lastAdvisory : Option Time
  holdTimer : Option Nat
  clampedAdvisories : Nat
  last : ShareResults
deriving DecidableEq, Repr

/-- An uplink transmission in progress: its record, and whether it is marked as spare (R74, R75). -/
structure UplinkTx where
  recId : Nat
  spare : Bool
deriving DecidableEq, Repr

/-- The Upstream Scheduler and the two Ethernet ports (sections 4.1, 4.5, 4.6). Pause timers count us. -/
structure Sched where
  effective : Nat
  prioPtr : LineNo
  bulkPtr : LineNo
  sparePtr : LineNo
  prioPause : Option Nat
  bulkPause : Option Nat
  /-- The refill timer, ms remaining; stopped until the start-up completes (R82). -/
  refill : Option Nat
  uplinkUp : Bool
  uplinkTx : Option UplinkTx
  craftUp : Bool
  craftTx : Option Nat
deriving DecidableEq, Repr

/-! ## Test access and measurement -/

/-- The states of the Test Access Matrix with the connected pair (R109). -/
inductive MatrixState | idle | settlingIn (n : LineNo) | connected (n : LineNo) | settlingOut
deriving DecidableEq, Repr

/-- The states of the Measurement Unit (R113). -/
inductive UnitState | idle | measuring | discharging
deriving DecidableEq, Repr

/-- The Test Access Matrix, the Measurement Unit and the guard comparator (06). -/
structure Access where
  matrix : MatrixState
  settleTimer : Option Nat
  settleTime : Nat
  dischargeTime : Nat
  guardVolts : Nat
  cablePf : Nat
  unit : UnitState
  /-- The spec of the measurement in hand, kept until its discharge wait ends (R113, R119). -/
  spec : Option Spec
  kTaken : Nat
  lengthTaken : Nat
  /-- ms since the START of the measurement in hand (R129); the capture timer's and the tone's count. -/
  elapsed : Nat
  dischargeTimer : Option Nat
  /-- A STOP is waiting for the discharge wait to end (R117). -/
  stopping : Bool
  sourceOn : Bool
  toneOn : Bool
  tripped : Bool
  /-- The guard indication of the measurement in hand (R128). -/
  indication : Bool
  /-- The greatest leg voltage magnitude last seen on the connected pair, mV (R119). -/
  legMv : Nat
deriving DecidableEq, Repr

/-! ## Test Sequencer -/

/-- A result as the Measurement Unit reports it (R128) or as the sequencer marks NOT_RUN (R139). -/
structure Result where
  kind : Kind
  leg : Leg
  verdict : Verdict
  value : Option Nat
  length : Option Nat
  guardSeen : Bool
deriving DecidableEq, Repr

/-- The eight states of the sequencer (R135). -/
inductive SeqState | idle | drainingWait | settling | measuring | discharging | releasing | suspended | external
deriving DecidableEq, Repr

/-- Who asked for a test or a connection (R142). -/
inductive TestOrigin | demand | routine | external
deriving DecidableEq, Repr

/-- The outcome of a test record (R142). -/
inductive Outcome
  | completed | abortedCmd | abortedPower | abortedExternal | abortedReset | skippedBusy | externalSession
deriving DecidableEq, Repr

/-- A request of the test queue (R132): a DEMAND request carries its power override, a ROUTINE request its issuing
group, its deferral count and its deferred-until-tick flag. -/
inductive TestRequest
  | demand (line : LineNo) (program : Fin 8) (override : Bool)
  | routine (line : LineNo) (program : Fin 8) (group : Fin 4) (count : Nat) (deferred : Bool)
deriving DecidableEq, Repr

/-- The current activity (R135). -/
structure Activity where
  line : LineNo
  program : Option (Fin 8)
  origin : TestOrigin
  override : Bool
  start : Time
  specs : List Spec
  next : Nat
  results : List Result
  pending : Option Outcome
  interrupted : Bool
  guardTripped : Bool
deriving DecidableEq, Repr

/-- The test-in-progress marker (R147). -/
structure Marker where
  line : LineNo
  program : Option (Fin 8)
  origin : TestOrigin
  start : Time
deriving DecidableEq, Repr

/-- A record of the test result log (R142). -/
structure TestRecord where
  seq : Nat
  line : LineNo
  program : Option (Fin 8)
  origin : TestOrigin
  start : Time
  stop : Time
  outcome : Outcome
  grade : Grade
  interrupted : Bool
  guardTripped : Bool
  results : List Result
deriving DecidableEq, Repr

/-- The bases a routine group may have, in minutes (R148). -/
inductive Base | m1 | m15 | m60 | m240
deriving DecidableEq, Repr

/-- A routine group (R148) with its due lines (R149). `subMs` is the part of the running second already counted and
`halfDue` is set from the moment the count reaches the half point until the half tick; both are the model's own. -/
structure Group where
  enabled : Bool
  base : Base
  factor : Nat
  program : Fin 8
  remaining : Nat
  missed : Nat
  due : Tab 24 Bool
  subMs : Nat
  halfDue : Bool
deriving DecidableEq, Repr

/-- The Test Sequencer (R135). A program that is absent is the empty list (R130). -/
structure Seq where
  st : SeqState
  act : Option Activity
  suspended : Bool
  extreq : Bool
  extack : Bool
  queue : List TestRequest
  programs : Tab 8 (List Spec)
  groups : Tab 4 Group
  log : List TestRecord
  counter : Nat
  marker : Option Marker
  suspendTimer : Option Nat
  drainLimit : Nat
  suspendLimit : Nat
  deferralLimit : Nat
deriving DecidableEq, Repr

/-! ## Power Manager -/

/-- An entry of the power policy table (R164). -/
structure Policy where
  budget : Nat
  sleep : SleepMode
  quietCap : Nat
  scale : Nat
  wakeSense : Bool
  wakeDown : Bool
deriving DecidableEq, Repr

/-- An entry of the wake list (R169). -/
structure WakeEntry where
  line : LineNo
  cause : WakeCause
  time : Time
deriving DecidableEq, Repr

/-- The Power Manager (R158). The awake count is the number of lines in the awake states, counted from the lines. -/
structure Power where
  state : Option PowerState
  mainsOk : Bool
  sample : Option (Nat × Time)
  stableTimer : Option Nat
  lastChange : Option Time
  policies : Tab 4 Policy
  conserve : Nat
  reserve : Nat
  hysteresis : Nat
  stableDelay : Nat
  wakeList : List WakeEntry
deriving DecidableEq, Repr

/-! ## Counters and Notices -/

/-- The drop causes that belong to a line (R21). -/
inductive LineCause
  | downQueueFull | downPoolFull | lineNotReady | wakeStoreBusy | held | upQueueFull | upPoolFull
  | spoof | learnRefused | shed | flush
deriving DecidableEq, Repr

/-- The global counters other than the traffic counters, the line drop causes and the histograms (R196). -/
inductive DevCount
  | badCheck | undersize | oversize | unknownDestination | vlanMismatch | untaggedDownstream
  | taggedFromHome | controlFromLine | framesTaken | controlOverflow | craftWithoutService | badFormat
  | advisories | classPauses | noticesDropped | logOverwrite | move | transmitAborted
deriving DecidableEq, Repr

/-- The counters of one set, and of the part as a whole (R195, R196). -/
structure CounterSet where
  downFrames : Nat
  downBytes : Nat
  upFrames : Nat
  upBytes : Nat
  spareFrames : Nat
  drops : Tab 11 Nat
deriving DecidableEq, Repr

/-- The twelve kinds of event (R199). -/
inductive EventKind
  | lineState | testDone | guardTrip | sense | powerState | advisoryLost | advisoryRestored | poolLow
  | saveDone | configDefaulted | resetCause | external
deriving DecidableEq, Repr

/-- The reasons of LINE_STATE (R89). -/
inductive Reason
  | enabled | disabled | wakeGranted | linkUp | linkFail | trainingTimeout | linkDown | idle | dormantDelay
  | wakeTimeout | shed | taken | drained | drainLimit | returned | barCleared | trafficReset
deriving DecidableEq, Repr

/-- The causes of POWER_STATE (R166). -/
inductive PowerCause | mainsLost | mainsStable | sample
deriving DecidableEq, Repr

/-- The details of an event, by kind (R199). -/
inductive Detail
  | lineState (left entered : LineState) (reason : Reason)
  | testDone (seq : Nat) (outcome : Outcome) (grade : Grade)
  | guardTrip (external : Bool) (unit : UnitState) (inHand : Option (Kind × Leg))
  | sense (rising : Bool)
  | powerState (left entered : PowerState) (cause : PowerCause) (sample : Option Nat) (awake shed : Nat)
  | advisoryLost (advised : Option Nat)
  | advisoryRestored (advised : Nat)
  | poolLow (free : Nat)
  | saveDone (good : Bool)
  | configDefaulted (noStore : Bool)
  | resetCause (flags : Tab 5 Bool)
  | external (asserted : Bool)
deriving DecidableEq, Repr

/-- A notice of the notice list (R201). -/
structure Notice where
  subject : Option LineNo
  detail : Detail
  time : Time
  count : Nat
deriving DecidableEq, Repr

/-- The setting of one kind in the notice settings (R203). -/
structure NoticeSetting where
  enabled : Bool
  urgent : Bool
deriving DecidableEq, Repr

/-- Counters and Notices (10). -/
structure Counts where
  sets : Tab 16 CounterSet
  total : CounterSet
  dev : Tab 18 Nat
  upHist : Tab 6 Nat
  downHist : Tab 6 Nat
  flags : Tab 12 Bool
  notices : List Notice
  settings : Tab 12 NoticeSetting
  /-- COLD, PIN, SUPPLY, DEVICE, TRAFFIC (R204). -/
  resetCause : Tab 5 Bool
deriving DecidableEq, Repr

/-! ## Management Engine and the configuration memory -/

/-- A STATIC station entry as the image holds it; its line may lie outside 0 to 23 (R3, R188). -/
structure ImageEntry where
  addr : Addr
  line : Nat
  cls : Cls
deriving DecidableEq, Repr

/-- A routine group as the image holds it (R148, R188). -/
structure ImageGroup where
  enabled : Bool
  base : Base
  factor : Nat
  program : Fin 8
deriving DecidableEq, Repr

/-- The body of the configuration image (R188). -/
structure ImageBody where
  stations : List ImageEntry
  agingTime : Nat
  lines : Tab 24 LineConfig
  trainLimit : Nat
  wakeLimit : Nat
  ceiling : Nat
  allowance : Nat
  fallback : Nat
  hold : Nat
  spare : Bool
  backhaul : Option Addr
  advisoryEthertype : Nat
  programs : Tab 8 (List Spec)
  groups : Tab 4 ImageGroup
  settleTime : Nat
  dischargeTime : Nat
  guardVolts : Nat
  cablePf : Nat
  drainLimit : Nat
  suspendLimit : Nat
  deferralLimit : Nat
  policies : Tab 4 Policy
  conserve : Nat
  reserve : Nat
  hysteresis : Nat
  stableDelay : Nat
  station : Option Addr
  vlan : Nat
  ethertype : Nat
  manager : Option Addr
  managerOnly : Bool
  lockAtStart : Bool
  notices : Tab 12 NoticeSetting
deriving DecidableEq, Repr

/-- The image in the configuration memory: its header (11.6) and its body. `crcGood` says whether the CRC-32
computed over the body as it lies equals the header's, and `codesExist` whether every enumeration, index and mode
value in it names one that exists: the body's arrangement is not reported (log entry 6). -/
structure StoredImage where
  version : Nat
  bodyLength : Nat
  crcGood : Bool
  codesExist : Bool
  body : ImageBody
deriving DecidableEq, Repr

/-- The external configuration memory (00_scope, "Config memory"; 11.6). -/
structure Memory where
  answers : Bool
  identity : Option Addr
  image : StoredImage
deriving DecidableEq, Repr

/-- Where the part stands between a reset and service: held from the reset's beginning until the start-up runs,
started until the start-up completes, then running (R190, R191). -/
inductive Phase | held (cold : Bool) | started | running
deriving DecidableEq, Repr

/-- The source of the station address (R194). -/
inductive StationSource | identity | image | command | unset
deriving DecidableEq, Repr

/-- The result of the image check (R190, R194). -/
inductive ImageCheck | passed | noStore | imageFailed
deriving DecidableEq, Repr

/-- The part of the transmit list an entry stands in (R181). -/
inductive TxPart | reply | urgent | routine
deriving DecidableEq, Repr

/-- An entry of the management transmit list (R181). -/
structure TxEntry where
  recId : Nat
  port : Port
  part : TxPart
deriving DecidableEq, Repr

/-- A pending device reset: the record of its reply, if one was built, and the device reset timer (R193). -/
structure DevReset where
  reply : Option Nat
  timer : Nat
deriving DecidableEq, Repr

/-- The statuses a command can end with, in code order (R181, 11.2). -/
inductive Status
  | ok | clamped | accepted | badFormat | badCommand | badParam | locked | access | busy | notFound
  | tableFull | limit | duplicate | queueFull | power | noStore
deriving DecidableEq, Repr

/-- A result item of a reply: its identifier and its value (11.2). -/
structure Item where
  ident : Nat
  value : List Byte
deriving DecidableEq, Repr

/-- How a command ended: its status and its result items. -/
structure CmdResult where
  status : Status
  items : List Item
deriving DecidableEq, Repr

/-- The Management Engine (09). `lastResult` is the model's own: how the last command carried out ended, which the
outside sees in the reply's element. `service` is the SERVICE input as the part last saw it. -/
structure Mgmt where
  phase : Phase
  controlQ : List (Port × List Byte)
  txList : List TxEntry
  locked : Bool
  lockAtStart : Bool
  station : Option Addr
  stationSource : StationSource
  identity : Option Addr
  vlan : Nat
  ethertype : Nat
  manager : Option Addr
  managerOnly : Bool
  time : Time
  timeUnset : Bool
  storePresent : Bool
  imageCheck : Option ImageCheck
  save : Option ImageBody
  lastSave : Option (Bool × Time)
  devReset : Option DevReset
  noticeNumber : BitVec 16
  service : Bool
  lastResult : Option CmdResult
deriving DecidableEq, Repr

/-- The whole part, its configuration memory, and the commands that wait, first in, first out. -/
structure State where
  pending : List Instr
  stations : Stations
  lines : Tab 24 Line
  /-- The two device-wide settings of the Line Ports: training limit (s) and wake limit (ms) (R86). -/
  trainLimit : Nat
  wakeLimit : Nat
  pool : Pool
  shares : Shares
  sched : Sched
  access : Access
  seq : Seq
  power : Power
  counts : Counts
  mgmt : Mgmt
  memory : Memory
deriving DecidableEq, Repr

/-- The part stops on no step: every row of the table has an effect, or leaves the state as it is where its
occurrence cannot be, so no fault exists. -/
inductive Fault
deriving DecidableEq, Repr

/-- Why a step can have no meaning. -/
inductive Refusal
  /-- Raised by `exec` alone for a row that is not modelled; safe, since no claim about such a row can be proved. -/
  | notModelled (mnemonic : String)
deriving DecidableEq, Repr

/-! ## Reset values -/

/-- The defaults of R14. -/
def LineConfig.default (n : LineNo) : LineConfig :=
  { enabled := false, vlan := 100 + n.val, committed := 0, weight := 1, cap := 0, stationLimit := 4
    learning := true, broadcast := true, defaultClass := .bulk, downLimit := 128, prioLimit := 32
    bulkLimit := 128, counterSet := none, routineGroup := none, powerPriority := 0, quietDelay := 0
    dormantDelay := 0, wakeOnDown := true, senseEdge := .rising, keepOnFault := true, recordedLength := 0 }

/-- A line after a cold reset (R15, R87, R82). -/
def Line.reset (n : LineNo) : Line :=
  { cfg := .default n, st := .disabled, downRate := 0, upRate := 0, grade := .none, lastTest := none
    sense := false, share := 0, credit := 0, eligible := false, idle := none, ready := false
    wakePending := false, trainTimer := none, wakeTimer := none, quietFor := none, drainTimer := none
    trainFails := 0, takenFrom := none, command := none, downQ := [], prioQ := [], bulkQ := []
    wakeStore := none, handOff := none }

/-- The defaults of R164, in the order MAINS, BATTERY, CONSERVE, RESERVE. -/
def Policy.defaults : Tab 4 Policy :=
  ⟨[{ budget := 24, sleep := .quiet, quietCap := 0, scale := 100, wakeSense := true, wakeDown := true },
    { budget := 24, sleep := .quiet, quietCap := 600, scale := 100, wakeSense := true, wakeDown := true },
    { budget := 8, sleep := .quiet, quietCap := 60, scale := 50, wakeSense := true, wakeDown := true },
    { budget := 2, sleep := .dormant, quietCap := 30, scale := 25, wakeSense := true, wakeDown := false }], rfl⟩

/-- A routine group after a cold reset (R148). -/
def Group.reset (g : Fin 4) : Group :=
  { enabled := false, base := .m60, factor := 24, program := ⟨g.val, by omega⟩, remaining := 0, missed := 0
    due := .fill 24 false, subMs := 0, halfDue := false }

/-- The notice settings by default: GUARD_TRIP, POWER_STATE and ADVISORY_LOST are URGENT (R203). -/
def NoticeSetting.defaults : Tab 12 NoticeSetting :=
  .ofFn fun k => { enabled := true, urgent := k == 2 || k == 4 || k == 5 }

/-- A counter set of zeros (R197). -/
def CounterSet.zero : CounterSet :=
  { downFrames := 0, downBytes := 0, upFrames := 0, upBytes := 0, spareFrames := 0, drops := .fill 11 0 }

def Stations.reset : Stations := { entries := .fill 96 none, agingTime := 60, sweep := none }

def Pool.reset : Pool := { recs := [], nextId := 0, free := Config.poolCells, armed := true }

/-- Before the first recompute there are no results to read (R47); the figures are zero until then (log entry 2). -/
def ShareResults.reset : ShareResults :=
  { power := none, scale := 0, capacity := 0, uEff := 0, effective := 0, committedSum := 0, rounds := 0
    residue := 0, eligibleLines := 0 }

def Shares.reset : Shares :=
  { ceiling := 100000, allowance := 256, fallback := 2000, hold := 10, spare := true, backhaul := none
    ethertype := Config.advisoryEthertype, source := .none, advised := none, lastAdvisory := none
    holdTimer := none, clampedAdvisories := 0, last := .reset }

/-- R82, R80; the craft link is down until it is reported up (log entry 3). -/
def Sched.reset : Sched :=
  { effective := 0, prioPtr := 0, bulkPtr := 0, sparePtr := 0, prioPause := none, bulkPause := none
    refill := none, uplinkUp := false, uplinkTx := none, craftUp := false, craftTx := none }

/-- R111, R118. -/
def Access.reset : Access :=
  { matrix := .idle, settleTimer := none, settleTime := 5, dischargeTime := 10, guardVolts := 60, cablePf := 50
    unit := .idle, spec := none, kTaken := 0, lengthTaken := 0, elapsed := 0, dischargeTimer := none
    stopping := false, sourceOn := false, toneOn := false, tripped := false, indication := false, legMv := 0 }

/-- R147, R148; EXTREQ is released until it is asserted (log entry 3). -/
def Seq.reset : Seq :=
  { st := .idle, act := none, suspended := false, extreq := false, extack := false, queue := []
    programs := .fill 8 [], groups := .ofFn Group.reset, log := [], counter := 0, marker := none
    suspendTimer := none, drainLimit := 200, suspendLimit := 120, deferralLimit := 3 }

/-- R158, R175; MAINS_OK is taken as asserted until it is deasserted (log entry 3). -/
def Power.reset : Power :=
  { state := none, mainsOk := true, sample := none, stableTimer := none, lastChange := none
    policies := Policy.defaults, conserve := 11800, reserve := 11200, hysteresis := 300, stableDelay := 60
    wakeList := [] }

/-- R197, R199, R201, R203, R204: COLD alone is set. -/
def Counts.reset : Counts :=
  { sets := .fill 16 .zero, total := .zero, dev := .fill 18 0, upHist := .fill 6 0, downHist := .fill 6 0
    flags := .fill 12 false, notices := [], settings := NoticeSetting.defaults
    resetCause := ⟨[true, false, false, false, false], rfl⟩ }

/-- R177, R181, R183, R185, R187, R189, R193, R207. -/
def Mgmt.reset : Mgmt :=
  { phase := .held true, controlQ := [], txList := [], locked := false, lockAtStart := false, station := none
    stationSource := .unset, identity := none, vlan := 4000, ethertype := Config.controlEthertype
    manager := none, managerOnly := false, time := 0, timeUnset := true, storePresent := false
    imageCheck := none, save := none, lastSave := none, devReset := none, noticeNumber := 0
    service := false, lastResult := none }

/-- The image body that a snapshot of the default settings would hold. -/
def ImageBody.default : ImageBody :=
  { stations := [], agingTime := 60, lines := .ofFn LineConfig.default, trainLimit := 120, wakeLimit := 2000
    ceiling := 100000, allowance := 256, fallback := 2000, hold := 10, spare := true, backhaul := none
    advisoryEthertype := Config.advisoryEthertype, programs := .fill 8 []
    groups := .ofFn fun g => { enabled := false, base := .m60, factor := 24, program := ⟨g.val, by omega⟩ }
    settleTime := 5, dischargeTime := 10, guardVolts := 60, cablePf := 50, drainLimit := 200
    suspendLimit := 120, deferralLimit := 3, policies := Policy.defaults, conserve := 11800, reserve := 11200
    hysteresis := 300, stableDelay := 60, station := none, vlan := 4000
    ethertype := Config.controlEthertype, manager := none, managerOnly := false, lockAtStart := false
    notices := NoticeSetting.defaults }

/-- A configuration memory that answers, with no identity address and an image never written (log entry 4). -/
def Memory.reset : Memory :=
  { answers := true, identity := none
    image := { version := 0, bodyLength := 0, crcGood := false, codesExist := false, body := .default } }

/-- The part right after a cold reset, held until its start-up runs: the Cold columns of R3, R14, R15, R40, R47,
R82, R87, R111, R118, R147, R148, R158, R197, R204, R207. -/
def State.reset : State :=
  { pending := [], stations := .reset, lines := .ofFn Line.reset, trainLimit := 120, wakeLimit := 2000
    pool := .reset, shares := .reset, sched := .reset, access := .reset, seq := .reset, power := .reset
    counts := .reset, mgmt := .reset, memory := .reset }

end Sys2Proof.Machine
end

