-- ==== Sys2Proof/Machine/Operands.lean ====
section
/-! DEFINITION. Reading and writing operands: numbers on the wire (11.1), the codes of the enumerations (11.2),
the check sequence and the VLAN tag of a frame (R20, 11.6), result items (11.2), and the clamping of the numeric
fields a command carries (00_scope, "Out-of-range values in commands"). -/

namespace Sys2Proof.Machine

/-! ## Numbers on the wire -/

/-- The number a list of octets spells, most significant first (11, opening paragraph). -/
def beNat (bs : List Byte) : Nat := bs.foldl (fun a b => a * 256 + b.toNat) 0

/-- A number as `k` octets, most significant first. -/
def beBytes : Nat → Nat → List Byte
  | 0, _ => []
  | k + 1, v => BitVec.ofNat 8 (v / 256 ^ k) :: beBytes k v

/-- A number as `k` octets, least significant first: the check sequence's order (R20). -/
def leBytes (k v : Nat) : List Byte := (beBytes k v).reverse

/-- One bit of the CRC-32 with reflected input and output; 0xEDB88320 is 0x04C11DB7 reflected (11.6). -/
def crcBit (c : Nat) : Nat := if c % 2 = 1 then (c / 2) ^^^ 0xEDB88320 else c / 2

/-- One octet of the CRC-32. -/
def crcByte (c : Nat) (b : Byte) : Nat :=
  crcBit (crcBit (crcBit (crcBit (crcBit (crcBit (crcBit (crcBit (c ^^^ b.toNat))))))))

/-- The CRC-32 of 11.6: all ones first, inverted at the end. -/
def crc32 (bs : List Byte) : Nat := (bs.foldl crcByte 0xFFFFFFFF) ^^^ 0xFFFFFFFF

/-! ## Frames -/

/-- A frame without its check sequence. -/
def frameBody (f : List Byte) : List Byte := f.take (f.length - 4)

/-- A body with the check sequence computed over it (R20). -/
def withCheck (body : List Byte) : List Byte := body ++ leBytes 4 (crc32 body)

/-- Whether a frame's check sequence is the CRC-32 of what stands before it (R20, R22). -/
def checkGood (f : List Byte) : Bool :=
  decide (4 ≤ f.length) && f.drop (f.length - 4) == leBytes 4 (crc32 (frameBody f))

/-- The number in `k` octets of a frame from an offset. -/
def wireField (f : List Byte) (off k : Nat) : Nat := beNat ((f.drop off).take k)

def frameDst (f : List Byte) : Addr := BitVec.ofNat 48 (wireField f 0 6)
def frameSrc (f : List Byte) : Addr := BitVec.ofNat 48 (wireField f 6 6)

/-- A frame is tagged when the two bytes after its source address are 0x8100 (R20). -/
def isTagged (f : List Byte) : Bool := wireField f 12 2 == Config.tagProtocol

/-- The VLAN identifier of the first tag (R20). -/
def frameVlan (f : List Byte) : Nat := wireField f 14 2 % 4096

/-- Where the content after the ethertype begins (R23). -/
def contentAt (f : List Byte) : Nat := if isTagged f then 18 else 14

/-- The two bytes after the source address, or after the tag of a tagged frame (R23). -/
def frameEthertype (f : List Byte) : Nat := wireField f (contentAt f - 2) 2

/-- The frame with a service VLAN tag of priority 0 and drop-eligible 0 inserted, and a new check sequence (R32, R20). -/
def insertTag (vlan : Nat) (f : List Byte) : List Byte :=
  withCheck ((frameBody f).take 12 ++ beBytes 2 Config.tagProtocol ++ beBytes 2 vlan ++ (frameBody f).drop 12)

/-- The frame with its first tag removed and a new check sequence (R42, R20). -/
def removeTag (f : List Byte) : List Byte := withCheck ((frameBody f).take 12 ++ (frameBody f).drop 16)

/-- ceil(length / 128) cells (section 2.5). -/
def cellsFor (length : Nat) : Nat := (length + (Config.cellBytes - 1)) / Config.cellBytes

/-- The stored length of a record (R33). -/
def FrameRec.length (r : FrameRec) : Nat := r.bytes.length

/-- The cells of a record (R33). -/
def FrameRec.cells (r : FrameRec) : Nat := cellsFor r.length

/-! ## Codes -/

/-- Yes is 1 and no is 0 (11.1). -/
def boolOf : Nat → Option Bool
  | 0 => some false
  | 1 => some true
  | _ => none

end Sys2Proof.Machine

namespace Sys2Proof

open Machine

def Cls.ofCode : Nat → Option Cls
  | 0 => some .prio
  | 1 => some .bulk
  | _ => none

def SenseEdge.ofCode : Nat → Option SenseEdge
  | 0 => some .rising
  | 1 => some .falling
  | 2 => some .both
  | _ => none

def SleepMode.ofCode : Nat → Option SleepMode
  | 0 => some .quiet
  | 1 => some .dormant
  | _ => none

def PowerState.ofCode : Nat → Option PowerState
  | 0 => some .mains
  | 1 => some .battery
  | 2 => some .conserve
  | 3 => some .reserve
  | _ => none

def Kind.ofCode : Nat → Option Kind
  | 0 => some .foreign
  | 1 => some .resistance
  | 2 => some .capacitance
  | 3 => some .tone
  | _ => none

def Leg.ofCode : Nat → Option Leg
  | 0 => some .tr
  | 1 => some .tg
  | 2 => some .rg
  | _ => none

end Sys2Proof

namespace Sys2Proof.Machine

/-- The four bases in minutes (R148). -/
def Base.ofMinutes : Nat → Option Base
  | 1 => some .m1
  | 15 => some .m15
  | 60 => some .m60
  | 240 => some .m240
  | _ => none

def Base.minutes : Base → Nat
  | .m1 => 1
  | .m15 => 15
  | .m60 => 60
  | .m240 => 240

/-- The urgency codes: URGENT 0, ROUTINE 1, in the order R203 lists them. -/
def urgencyOf : Nat → Option Bool
  | 0 => some true
  | 1 => some false
  | _ => none

def boolCode (b : Bool) : Nat := if b then 1 else 0
end Sys2Proof.Machine

namespace Sys2Proof

open Machine

def Cls.code : Cls → Nat | .prio => 0 | .bulk => 1
def Grade.code : Grade → Nat | .none => 0 | .good => 1 | .marginal => 2 | .faulty => 3
def SenseEdge.code : SenseEdge → Nat | .rising => 0 | .falling => 1 | .both => 2
def SleepMode.code : SleepMode → Nat | .quiet => 0 | .dormant => 1
def PowerState.code : PowerState → Nat | .mains => 0 | .battery => 1 | .conserve => 2 | .reserve => 3
def CapSource.code : CapSource → Nat | .none => 0 | .advised => 1 | .lost => 2
def WakeCause.code : WakeCause → Nat | .start => 0 | .sense => 1 | .downstream => 2
def Leg.code : Leg → Nat | .tr => 0 | .tg => 1 | .rg => 2
def Kind.code : Kind → Nat | .foreign => 0 | .resistance => 1 | .capacitance => 2 | .tone => 3
def Verdict.code : Verdict → Nat
  | .pass => 0 | .marginal => 1 | .faulty => 2 | .overRange => 3 | .guarded => 4 | .notRun => 5
def LineState.code : LineState → Nat
  | .disabled => 0 | .down => 1 | .training => 2 | .up => 3 | .quiet => 4 | .dormant => 5
  | .draining => 6 | .held => 7 | .barred => 8
end Sys2Proof

namespace Sys2Proof.Machine

def SeqState.code : SeqState → Nat
  | .idle => 0 | .drainingWait => 1 | .settling => 2 | .measuring => 3 | .discharging => 4
  | .releasing => 5 | .suspended => 6 | .external => 7
def MatrixState.code : MatrixState → Nat
  | .idle => 0 | .settlingIn _ => 1 | .connected _ => 2 | .settlingOut => 3
def UnitState.code : UnitState → Nat | .idle => 0 | .measuring => 1 | .discharging => 2
def TestOrigin.code : TestOrigin → Nat | .demand => 0 | .routine => 1 | .external => 2
def Outcome.code : Outcome → Nat
  | .completed => 0 | .abortedCmd => 1 | .abortedPower => 2 | .abortedExternal => 3
  | .abortedReset => 4 | .skippedBusy => 5 | .externalSession => 6
def Status.code : Status → Nat
  | .ok => 0 | .clamped => 1 | .accepted => 2 | .badFormat => 3 | .badCommand => 4 | .badParam => 5
  | .locked => 6 | .access => 7 | .busy => 8 | .notFound => 9 | .tableFull => 10 | .limit => 11
  | .duplicate => 12 | .queueFull => 13 | .power => 14 | .noStore => 15
def StationSource.code : StationSource → Nat
  | .identity => 0 | .image => 1 | .command => 2 | .unset => 3
def ImageCheck.code : ImageCheck → Nat | .passed => 0 | .noStore => 1 | .imageFailed => 2
def PowerCause.code : PowerCause → Nat | .mainsLost => 0 | .mainsStable => 1 | .sample => 2
def Reason.code : Reason → Nat
  | .enabled => 0 | .disabled => 1 | .wakeGranted => 2 | .linkUp => 3 | .linkFail => 4
  | .trainingTimeout => 5 | .linkDown => 6 | .idle => 7 | .dormantDelay => 8 | .wakeTimeout => 9
  | .shed => 10 | .taken => 11 | .drained => 12 | .drainLimit => 13 | .returned => 14
  | .barCleared => 15 | .trafficReset => 16

/-- A line number that a command carries, if it names a line (R9, R17, R104). -/
def lineOf (v : Nat) : Option LineNo := if h : v < 24 then some ⟨v, h⟩ else none

/-- A program number that a command carries, if it names a program (R131). -/
def programOf (v : Nat) : Option (Fin 8) := if h : v < 8 then some ⟨v, h⟩ else none

/-- A routine group number, if it names a group (R150). -/
def groupOf (v : Nat) : Option (Fin 4) := if h : v < 4 then some ⟨v, h⟩ else none

/-- A counter set number, if it names a set (R198). -/
def setOf (v : Nat) : Option (Fin 16) := if h : v < 16 then some ⟨v, h⟩ else none

/-! ## Optional fields -/

/-- Whether an absent field, or a present one that a check accepts, may stand. -/
def fieldOk {α β : Type} (f : α → Option β) : Option α → Bool
  | none => true
  | some v => (f v).isSome

/-- The value to be stored in an enumeration field: the carried one, or the stored one (R17). -/
def keepOr {α β : Type} (f : α → Option β) (old : β) (o : Option α) : β := (o.bind f).getD old

/-- A carried number after clamping, or the stored one (R17, step 2). -/
def clampOr (lo hi old : Nat) : Option Nat → Nat
  | none => old
  | some v => clamp lo hi v

/-- Whether a carried number lies outside its range, so that the command ends CLAMPED. -/
def outside (lo hi : Nat) : Option Nat → Bool
  | none => false
  | some v => decide (v < lo ∨ hi < v)

/-- A clamping command's status (R181). -/
def clampStatus (any : Bool) : Status := if any then .clamped else .ok

/-- An ethertype a setting may hold: 0x0600 to 0xFFFF, except 0x8100 (R46, R185). -/
def ethertypeOk (v : Nat) : Bool := decide (0x0600 ≤ v ∧ v ≤ 0xFFFF ∧ v ≠ Config.tagProtocol)

/-! ## Result items -/

def Item.count (ident v : Nat) : Item := ⟨ident, beBytes 4 v⟩
def Item.wide (ident v : Nat) : Item := ⟨ident, beBytes 6 v⟩
def Item.short (ident v : Nat) : Item := ⟨ident, beBytes 2 v⟩
def Item.code (ident v : Nat) : Item := ⟨ident, beBytes 1 v⟩
def Item.yes (ident : Nat) (b : Bool) : Item := ⟨ident, beBytes 1 (boolCode b)⟩
def Item.addr (ident : Nat) (a : Addr) : Item := ⟨ident, beBytes 6 a.toNat⟩
def Item.time (ident : Nat) (t : Time) : Item := ⟨ident, beBytes 6 t.toNat⟩
def Item.line (ident : Nat) (n : LineNo) : Item := ⟨ident, beBytes 1 n.val⟩
/-- A signed number in two's complement (11.1, "signed"). -/
def Item.signed (ident : Nat) (v : Int) : Item := ⟨ident, beBytes 4 (BitVec.ofInt 32 v).toNat⟩

/-- An optional value: an absent one leaves its item out (11.2). -/
def Item.opt {α : Type} (f : α → Item) : Option α → List Item
  | none => []
  | some v => [f v]

/-- Items as they are carried: an identifier byte, a length byte and the value (11.2). -/
def encodeItems (items : List Item) : List Byte :=
  items.flatMap fun i => BitVec.ofNat 8 i.ident :: BitVec.ofNat 8 i.value.length :: i.value

/-- A string of items as one item value (11.2). -/
def Item.nest (ident : Nat) (items : List Item) : Item := ⟨ident, encodeItems items⟩

/-- The line set of the lines a predicate picks, bit n naming line n (11.1). -/
def lineSet (p : LineNo → Bool) : Nat :=
  (indexes 24).foldl (fun a n => if p n then a + 2 ^ n.val else a) 0

/-! ## Measurement specs -/

end Sys2Proof.Machine

namespace Sys2Proof

open Machine

def Spec.kind : Spec → Kind
  | .foreign .. => .foreign
  | .resistance .. => .resistance
  | .capacitance .. => .capacitance
  | .tone .. => .tone

def Spec.leg : Spec → Leg
  | .foreign leg .. => leg
  | .resistance leg .. => leg
  | .capacitance leg .. => leg
  | .tone leg .. => leg

/-- RESISTANCE, CAPACITANCE and TONE are the driving kinds (R112). -/
def Kind.driving : Kind → Bool
  | .foreign => false
  | _ => true

end Sys2Proof

namespace Sys2Proof.Machine

/-- The greatest limit a kind may have, in its own unit (R112). -/
def limitMax : Kind → Nat
  | .foreign => 150000
  | .resistance => 999999999
  | .capacitance => 1000
  | .tone => 0

end Sys2Proof.Machine

namespace Sys2Proof

open Machine

/-- A carried spec of an existing kind and leg with every field its kind needs, clamped, and whether anything was
clamped; `none` for BAD_PARAM. A field that does not apply is ignored (R131, steps 1 and 2). -/
def RawSpec.read (r : RawSpec) : Option (Spec × Bool) := do
  let kind ← r.kind.bind Kind.ofCode
  let leg ← r.leg.bind Leg.ofCode
  match kind with
  | .foreign =>
    let w ← r.window
    let m ← r.marginal
    let f ← r.faulty
    some (.foreign leg (clamp 20 1000 w) (clamp 0 150000 m) (clamp 0 150000 f),
      outside 20 1000 (some w) || outside 0 150000 (some m) || outside 0 150000 (some f))
  | .resistance =>
    let v ← r.volts
    let w ← r.window
    let m ← r.marginal
    let f ← r.faulty
    some (.resistance leg (clamp 10 100 v) (clamp 20 1000 w) (clamp 0 999999999 m) (clamp 0 999999999 f),
      outside 10 100 (some v) || outside 20 1000 (some w) || outside 0 999999999 (some m)
        || outside 0 999999999 (some f))
  | .capacitance =>
    let c ← r.current
    let t ← r.target
    let m ← r.marginal
    let f ← r.faulty
    some (.capacitance leg (clamp 1 100 c) (clamp 1000 20000 t) (clamp 0 1000 m) (clamp 0 1000 f),
      outside 1 100 (some c) || outside 1000 20000 (some t) || outside 0 1000 (some m) || outside 0 1000 (some f))
  | .tone =>
    let q ← r.freq
    let a ← r.onTime
    let b ← r.offTime
    let d ← r.duration
    some (.tone leg (clamp 200 3000 q) (clamp 50 2000 a) (clamp 50 2000 b) (clamp 1 600 d),
      outside 200 3000 (some q) || outside 50 2000 (some a) || outside 50 2000 (some b) || outside 1 600 (some d))

/-- Whether a spec's faulty limit lies on the good side of its marginal limit (R131, step 3). -/
def Spec.inverted : Spec → Bool
  | .foreign _ _ m f => decide (f < m)
  | .resistance _ _ _ m f => decide (m < f)
  | .capacitance _ _ _ m f => decide (f < m)
  | .tone .. => false

/-- A spec with every number brought into its present range, as the load of an image does (R188). -/
def Spec.clamped : Spec → Spec
  | .foreign leg w m f => .foreign leg (clamp 20 1000 w) (clamp 0 150000 m) (clamp 0 150000 f)
  | .resistance leg v w m f =>
    .resistance leg (clamp 10 100 v) (clamp 20 1000 w) (clamp 0 999999999 m) (clamp 0 999999999 f)
  | .capacitance leg c t m f =>
    .capacitance leg (clamp 1 100 c) (clamp 1000 20000 t) (clamp 0 1000 m) (clamp 0 1000 f)
  | .tone leg q a b d => .tone leg (clamp 200 3000 q) (clamp 50 2000 a) (clamp 50 2000 b) (clamp 1 600 d)

/-- A spec as items numbered in the order of R112; "tone on time, tone off time" and "marginal limit, faulty limit"
are two fields each. -/
def Spec.items : Spec → List Item
  | .foreign leg w m f =>
    [.code 1 Kind.foreign.code, .code 2 leg.code, .count 5 w, .count 11 m, .count 12 f]
  | .resistance leg v w m f =>
    [.code 1 Kind.resistance.code, .code 2 leg.code, .count 3 v, .count 5 w, .count 11 m, .count 12 f]
  | .capacitance leg c t m f =>
    [.code 1 Kind.capacitance.code, .code 2 leg.code, .count 4 c, .count 6 t, .count 11 m, .count 12 f]
  | .tone leg q a b d =>
    [.code 1 Kind.tone.code, .code 2 leg.code, .count 7 q, .count 8 a, .count 9 b, .count 10 d]

/-! ## The lock -/

end Sys2Proof

namespace Sys2Proof.Machine

/-- The lock forbids changes of protected items while it is engaged, from every origin but CRAFT-SERVICE (R16, R183). -/
def lockForbids (s : State) (o : Origin) : Bool := s.mgmt.locked && o != .craftService

end Sys2Proof.Machine
end

