-- ==== Sys2Proof/Machine/Flags.lean ====
section
/-! DEFINITION. Counters and Notices as shared operations (10): counting a drop, a delivery and a global occurrence,
raising an event with its summary flag, and offering its notice to the notice list. -/

namespace Sys2Proof.Machine

/-! ## Named updates of the state's blocks -/

/-- One line changed by a function. -/
def State.modLine (s : State) (n : LineNo) (f : Line → Line) : State := { s with lines := s.lines.modify n f }
def State.modCounts (s : State) (f : Counts → Counts) : State := { s with counts := f s.counts }
def State.modPool (s : State) (f : Pool → Pool) : State := { s with pool := f s.pool }
def State.modStations (s : State) (f : Stations → Stations) : State := { s with stations := f s.stations }
def State.modShares (s : State) (f : Shares → Shares) : State := { s with shares := f s.shares }
def State.modSched (s : State) (f : Sched → Sched) : State := { s with sched := f s.sched }
def State.modAccess (s : State) (f : Access → Access) : State := { s with access := f s.access }
def State.modSeq (s : State) (f : Seq → Seq) : State := { s with seq := f s.seq }
def State.modPower (s : State) (f : Power → Power) : State := { s with power := f s.power }
def State.modMgmt (s : State) (f : Mgmt → Mgmt) : State := { s with mgmt := f s.mgmt }

/-- A line's record and port state. -/
def State.line (s : State) (n : LineNo) : Line := s.lines.get n

/-! ## Counters -/

/-- The place of a line drop cause among the eleven of R195. -/
def LineCause.idx : LineCause → Fin 11
  | .downQueueFull => 0 | .downPoolFull => 1 | .lineNotReady => 2 | .wakeStoreBusy => 3 | .held => 4
  | .upQueueFull => 5 | .upPoolFull => 6 | .spoof => 7 | .learnRefused => 8 | .shed => 9 | .flush => 10

/-- The place of a global counter among those of R196. -/
def DevCount.idx : DevCount → Fin 18
  | .badCheck => 0 | .undersize => 1 | .oversize => 2 | .unknownDestination => 3 | .vlanMismatch => 4
  | .untaggedDownstream => 5 | .taggedFromHome => 6 | .controlFromLine => 7 | .framesTaken => 8
  | .controlOverflow => 9 | .craftWithoutService => 10 | .badFormat => 11 | .advisories => 12
  | .classPauses => 13 | .noticesDropped => 14 | .logOverwrite => 15 | .move => 16 | .transmitAborted => 17

/-- A frame or event counter raised by one (R197). -/
def bump (c : Nat) : Nat := bumpTo Config.countMax c 1

/-- A byte counter raised by a length (R197). -/
def bumpBytes (c len : Nat) : Nat := bumpTo Config.byteCountMax c len

/-- A global counter raised by one (R196). -/
def countDev (c : DevCount) (s : State) : State :=
  s.modCounts fun k => { k with dev := k.dev.modify c.idx bump }

/-- One drop under a line cause in one set. -/
def CounterSet.drop (c : LineCause) (k : CounterSet) : CounterSet := { k with drops := k.drops.modify c.idx bump }

/-- A drop under a line cause counted device-wide alone: at start-up, or of a replicated frame (R21). -/
def countDeviceDrop (c : LineCause) (s : State) : State :=
  s.modCounts fun k => { k with total := k.total.drop c }

/-- A count made for a line: in the set its record names, if it names one, and device-wide (R195). -/
def countFor (n : LineNo) (f : CounterSet → CounterSet) (s : State) : State :=
  let s := s.modCounts fun k => { k with total := f k.total }
  match (s.line n).cfg.counterSet with
  | none => s
  | some c => s.modCounts fun k => { k with sets := k.sets.modify c f }

/-- A drop counted on a line (R21). -/
def countDrop (n : LineNo) (c : LineCause) (s : State) : State := countFor n (CounterSet.drop c) s

/-- The histogram bin of a length: 64, 65 to 127, 128 to 255, 256 to 511, 512 to 1,023, 1,024 and above (R196). -/
def bin (len : Nat) : Fin 6 :=
  if len ≤ 64 then 0 else if len ≤ 127 then 1 else if len ≤ 255 then 2 else if len ≤ 511 then 3
  else if len ≤ 1023 then 4 else 5

/-- A delivery downstream of `len` bytes on a line (R43, R195, R196). -/
def countDelivered (n : LineNo) (len : Nat) (s : State) : State :=
  (countFor n (fun k => { k with downFrames := bump k.downFrames, downBytes := bumpBytes k.downBytes len }) s).modCounts
    fun k => { k with downHist := k.downHist.modify (bin len) bump }

/-- An upstream transmission of a line's frame of `len` bytes as the home sent it (R76, R196). -/
def countSent (n : LineNo) (len : Nat) (spare : Bool) (s : State) : State :=
  (countFor n (fun k => { k with
      upFrames := bump k.upFrames, upBytes := bumpBytes k.upBytes len
      spareFrames := if spare then bump k.spareFrames else k.spareFrames }) s).modCounts
    fun k => { k with upHist := k.upHist.modify (bin len) bump }

/-! ## Events and notices -/

/-- The kind of an event (R199). -/
def Detail.kind : Detail → EventKind
  | .lineState .. => .lineState
  | .testDone .. => .testDone
  | .guardTrip .. => .guardTrip
  | .sense .. => .sense
  | .powerState .. => .powerState
  | .advisoryLost .. => .advisoryLost
  | .advisoryRestored .. => .advisoryRestored
  | .poolLow .. => .poolLow
  | .saveDone .. => .saveDone
  | .configDefaulted .. => .configDefaulted
  | .resetCause .. => .resetCause
  | .external .. => .external

/-- The place of a kind among the twelve, in code order (11.2). -/
def EventKind.idx : EventKind → Fin 12
  | .lineState => 0 | .testDone => 1 | .guardTrip => 2 | .sense => 3 | .powerState => 4 | .advisoryLost => 5
  | .advisoryRestored => 6 | .poolLow => 7 | .saveDone => 8 | .configDefaulted => 9 | .resetCause => 10
  | .external => 11

/-- The wire code of a kind: 1 to 12 (11.2). -/
def EventKind.code (k : EventKind) : Nat := k.idx.val + 1

/-- Whether a notice reports the kind and subject of an event. -/
def Notice.isOf (subject : Option LineNo) (k : EventKind) (x : Notice) : Bool :=
  x.subject == subject && x.detail.kind == k

/-- The event's details and time put in the notice, and its count raised, holding at 255 (R201). -/
def Notice.fold (d : Detail) (t : Time) (x : Notice) : Notice :=
  { x with detail := d, time := t, count := bumpTo 255 x.count 1 }

/-- A waiting notice as an event of that kind and subject leaves it (R201). -/
def Notice.coalesce (subj : Option LineNo) (d : Detail) (t : Time) (x : Notice) : Notice :=
  if x.isOf subj d.kind = true then x.fold d t else x

/-- An event offered to the notice list: coalesced, appended, or dropped and counted (R201). -/
def offerNotice (subject : Option LineNo) (d : Detail) (s : State) : State :=
  if s.counts.notices.any (Notice.isOf subject d.kind) then
    s.modCounts fun k => { k with notices := k.notices.map (Notice.coalesce subject d s.mgmt.time) }
  else if s.counts.notices.length < Config.noticePlaces then
    s.modCounts fun k => { k with notices := k.notices ++
      [{ subject := subject, detail := d, time := s.mgmt.time, count := 1 }] }
  else countDev .noticesDropped s

/-- An event raised: its summary flag is set, and if its kind is enabled and a manager address is set it is offered
to the notice list (R199, R201). -/
def raise (subject : Option LineNo) (d : Detail) (s : State) : State :=
  let s := s.modCounts fun k => { k with flags := k.flags.set d.kind.idx true }
  if (s.counts.settings.get d.kind.idx).enabled && s.mgmt.manager.isSome then offerNotice subject d s else s

/-- Whether the start-up has completed and the part is in service (R191). -/
def State.running (s : State) : Bool := s.mgmt.phase == .running

end Sys2Proof.Machine
end

