-- ==== Sys2Proof/Machine/Ops.lean ====
section
/-! DEFINITION. The shared operations over the cell pool, the queues and the idle timers (02), and over the Station
Table (01). -/

namespace Sys2Proof.Machine

/-! ## Line states -/

/-- The awake states (R86). -/
def awakeState : LineState → Bool
  | .training | .up | .draining => true
  | _ => false

/-- The states eligible for a share (R53, R86). -/
def eligibleState : LineState → Bool
  | .up | .draining => true
  | _ => false

/-- The states from which a wake request is made and a wake granted (R91). -/
def asleepState : LineState → Bool
  | .down | .quiet | .dormant => true
  | _ => false

/-- The number of lines in the awake states (R158, R167). -/
def awakeCount (s : State) : Nat := s.lines.items.countP fun l => awakeState l.st

/-- The line of the running test or of the external connection in hand (R132). -/
def State.lineUnderTest (s : State) : Option LineNo := s.seq.act.map (·.line)

/-! ## Power policy in force -/

def PowerState.idx : PowerState → Fin 4
  | .mains => 0 | .battery => 1 | .conserve => 2 | .reserve => 3

/-- The entry of the state in force; the MAINS entry until a state is chosen (R164, log entry 5). -/
def currentPolicy (s : State) : Policy :=
  s.power.policies.get (match s.power.state with | some p => PowerState.idx p | none => 0)

/-- The awake budget in force; no line may be woken until a state is chosen (R167, log entry 5). -/
def awakeBudget (s : State) : Nat :=
  match s.power.state with
  | some _ => (currentPolicy s).budget
  | none => 0

/-! ## The cell pool -/

/-- The record of a number, if it is live (R33). -/
def State.record (s : State) (id : Nat) : Option FrameRec := s.pool.recs.lookup id

/-- The cells of a record, none if it is not live. -/
def State.cellsOf (s : State) (id : Nat) : Nat := (s.record id).elim 0 FrameRec.cells

/-- A queue's occupancy: the sum of the cells of the records its entries name (R37). -/
def occupancy (s : State) (q : List Nat) : Nat := (q.map s.cellsOf).sum

/-- The free count written, with POOL_LOW raised and the pool disarmed or armed as R36 says. -/
def setFree (free : Nat) (s : State) : State :=
  let s := s.modPool fun p => { p with free := free }
  if free < Config.poolLowMark then
    if s.pool.armed then raise none (.poolLow free) (s.modPool fun p => { p with armed := false }) else s
  else if Config.poolArmMark ≤ free then s.modPool fun p => { p with armed := true }
  else s

/-- A frame record made: its cells leave the free count (R33). Its number is the pool's `nextId` before. -/
def makeRecord (r : FrameRec) (s : State) : State :=
  setFree (s.pool.free - r.cells)
    (s.modPool fun p => { p with recs := p.recs ++ [(p.nextId, r)], nextId := p.nextId + 1 })

/-- A holder lets go: the count falls by one, and at zero the record ends and its cells return (R34).
DESIGN CHOICE: a number that names no live record, log entry 31. -/
def dropRef (id : Nat) (s : State) : State :=
  match s.record id with
  | none => s
  | some r =>
    if r.refs ≤ 1 then
      setFree (s.pool.free + r.cells) (s.modPool fun p => { p with recs := p.recs.filter fun x => x.1 != id })
    else
      s.modPool fun p => { p with recs := p.recs.map fun x =>
        (x.1, if x.1 == id then { x.2 with refs := x.2.refs - 1 } else x.2) }

/-- The pool check for a subscriber frame of `n` cells (R35). -/
def poolCheck (s : State) (n : Nat) : Bool := decide (n + Config.reserveFloor ≤ s.pool.free)

/-- The queue check of `n` cells against a limit (R35). -/
def queueCheck (s : State) (q : List Nat) (limit n : Nat) : Bool := decide (occupancy s q + n ≤ limit)

/-! ## Idle timers -/

/-- The conditions under which a line's idle timer runs (R45). -/
def Line.idleHolds (l : Line) : Bool :=
  l.st == .up && l.downQ.isEmpty && l.prioQ.isEmpty && l.bulkQ.isEmpty && l.wakeStore.isNone && l.handOff.isNone

/-- The idle timer stopped when a condition fails, kept while they hold, started from zero when they come to hold (R45). -/
def refreshIdle (n : LineNo) (s : State) : State :=
  s.modLine n fun l => { l with idle := if l.idleHolds then some (l.idle.getD 0) else none }

/-- The idle time status: whole seconds, 0 while the timer does not run (R15, R45).
DESIGN CHOICE: at the end of R15's range it holds, log entry 33. -/
def Line.idleSeconds (l : Line) : Nat := min Config.countMax (l.idle.getD 0 / 1000)

/-! ## Flushes -/

/-- Which holders of a line a flush empties (R39). -/
structure Flush where
  down : Bool
  up : Bool
  wake : Bool
  hand : Bool
  cause : LineCause
deriving DecidableEq, Repr

/-- Each reference dropped and counted on the line under the flush's cause (R21, R39). -/
def dropAll (n : LineNo) (c : LineCause) (ids : List Nat) (s : State) : State :=
  ids.foldl (fun s id => countDrop n c (dropRef id s)) s

/-- The references a flush of a line drops. -/
def Flush.refs (x : Flush) (l : Line) : List Nat :=
  (if x.down then l.downQ else []) ++ (if x.up then l.prioQ ++ l.bulkQ else [])
    ++ (if x.wake then l.wakeStore.toList else []) ++ (if x.hand then l.handOff.toList else [])

/-- The line with the flushed holders empty. -/
def Flush.empty (x : Flush) (l : Line) : Line :=
  { l with
    downQ := if x.down then [] else l.downQ
    prioQ := if x.up then [] else l.prioQ
    bulkQ := if x.up then [] else l.bulkQ
    wakeStore := if x.wake then none else l.wakeStore
    handOff := if x.hand then none else l.handOff }

/-- A flush of one line (R39). -/
def flush (n : LineNo) (x : Flush) (s : State) : State :=
  let ids := x.refs (s.line n)
  dropAll n x.cause ids (s.modLine n x.empty)

/-! ## The Station Table -/

/-- Whether an entry is LEARNED. -/
def Entry.isLearned (e : Entry) : Bool :=
  match e.origin with
  | .static => false
  | .learned _ => true

/-- The index of the one valid entry that holds an address (R1). -/
def lookupStation (s : State) (a : Addr) : Option (Fin 96) :=
  (indexes 96).find? fun i => (s.stations.entries.get i).any fun e => e.addr == a

/-- The lowest invalid index (R1). -/
def lowestInvalid (s : State) : Option (Fin 96) :=
  (indexes 96).find? fun i => (s.stations.entries.get i).isNone

/-- The entry that holds an address. -/
def entryFor (s : State) (a : Addr) : Option Entry := (lookupStation s a).bind s.stations.entries.get

/-- A line's station count, an entry at `but` not counted (R2). -/
def stationCount (s : State) (n : LineNo) (but : Option (Fin 96)) : Nat :=
  (indexes 96).countP fun i => some i != but && (s.stations.entries.get i).any fun e => e.line == n

/-- An entry written at an index. -/
def setStation (i : Fin 96) (e : Option Entry) (s : State) : State :=
  s.modStations fun t => { t with entries := t.entries.set i e }

/-- Every entry that a predicate picks made invalid. -/
def dropStations (p : Entry → Bool) (s : State) : State :=
  s.modStations fun t => { t with entries := t.entries.map fun e => e.filter fun x => !p x }

/-- Every LEARNED entry naming a line made invalid (R7). -/
def removeLearned (n : LineNo) (s : State) : State := dropStations (fun e => e.isLearned && e.line == n) s

end Sys2Proof.Machine
end

