-- ==== Sys2Proof/Machine/Recompute.lean ====
section
/-! DEFINITION. The share computation (R52 to R58) and its hand-over to the Upstream Scheduler (R61, R66, R68). -/

namespace Sys2Proof.Machine

/-- One line in the computation: whether it is eligible, its tentative share, its ceiling and its adjusted weight. -/
structure ShareCell where
  on : Bool
  g : Nat
  m : Nat
  w : Nat
deriving DecidableEq, Repr

/-- The ceiling of a line from its cap and trained upstream rate (R54). -/
def ceilingOf (l : Line) : Nat := if l.cfg.cap = 0 then l.upRate else min l.cfg.cap l.upRate

/-- The committed figure, cut to the ceiling (R54). -/
def committedOf (l : Line) : Nat := min l.cfg.committed (ceilingOf l)

/-- The adjusted weight (R55). -/
def adjustedWeight (l : Line) : Nat :=
  match l.grade with
  | .none | .good => l.cfg.weight
  | .marginal | .faulty => max 1 (l.cfg.weight / 2)

/-- The capacity in use (R48). -/
def capacityInUse (x : Shares) : Nat :=
  match x.source with
  | .advised => x.advised.getD 0
  | .none | .lost => x.fallback

/-- The scaled ceiling U_eff (R52). -/
def scaledCeiling (ceiling scale : Nat) : Nat := ceiling * scale / 100

/-- The effective capacity E: the difference when it is positive, 0 otherwise (R52). -/
def effectiveCapacity (capacity uEff allowance : Nat) : Nat := min capacity uEff - allowance

/-- A line's committed figure in the sum S: 0 when it is not eligible (R56). -/
def committedTerm (l : Line) : Nat := if eligibleState l.st then committedOf l else 0

/-- The sum S of the committed figures (R56). -/
def committedSum (ls : Tab 24 Line) : Nat := (ls.items.map committedTerm).sum

/-- A line's share after the committed part (R56). -/
def committedShare (sum effective : Nat) (l : Line) : Nat :=
  if effective < sum then committedTerm l * effective / sum else committedTerm l

/-- The excess X after the committed part (R56). -/
def excess (sum effective : Nat) : Nat := if effective < sum then 0 else effective - sum

/-- The cells the weighted rounds start from. -/
def shareCell (sum effective : Nat) (l : Line) : ShareCell :=
  { on := eligibleState l.st, g := committedShare sum effective l, m := ceilingOf l, w := adjustedWeight l }

/-- A line is unsaturated while its share is below its ceiling (R57). -/
def ShareCell.unsat (c : ShareCell) : Bool := c.on && decide (c.g < c.m)

/-- The weight of the unsaturated lines (R57, step 1). -/
def unsatWeight (cs : Tab 24 ShareCell) : Nat := (cs.items.map fun c => if c.unsat then c.w else 0).sum

/-- A line's tentative part (R57, step 2). -/
def tentative (x w : Nat) (c : ShareCell) : Nat := x * c.w / w

/-- Whether an unsaturated line's share and tentative part reach its ceiling (R57, step 3). -/
def ShareCell.reaches (x w : Nat) (c : ShareCell) : Bool := c.unsat && decide (c.m ≤ c.g + tentative x w c)

/-- Every unsaturated line raised by its tentative part (R57, step 3). -/
def grantRound (x w : Nat) (c : ShareCell) : ShareCell :=
  if c.unsat then { c with g := c.g + tentative x w c } else c

/-- A line that reaches its ceiling raised to it (R57, step 4). -/
def saturate (x w : Nat) (c : ShareCell) : ShareCell := if c.reaches x w then { c with g := c.m } else c

/-- What the saturated lines take of the excess (R57, step 4). -/
def taken (x w : Nat) (cs : Tab 24 ShareCell) : Nat :=
  (cs.items.map fun c => if c.reaches x w then c.m - c.g else 0).sum

/-- The weighted rounds (R57): the shares and the number of rounds begun. 25 rounds suffice, since each round but
the last saturates one of at most 24 lines. -/
def weightedRounds : Nat → Nat → Nat → Tab 24 ShareCell → Tab 24 ShareCell × Nat
  | 0, _, begun, cs => (cs, begun)
  | fuel + 1, x, begun, cs =>
    if x = 0 ∨ cs.items.any ShareCell.unsat = false then (cs, begun)
    else
      let w := unsatWeight cs
      if cs.items.any (ShareCell.reaches x w) then
        weightedRounds fuel (x - taken x w cs) (begun + 1) (cs.map (saturate x w))
      else (cs.map (grantRound x w), begun + 1)

/-- The shares of all lines and the number of rounds, from the effective capacity (R53 to R57). -/
def computeShares (ls : Tab 24 Line) (effective : Nat) : Tab 24 ShareCell × Nat :=
  let sum := committedSum ls
  weightedRounds 25 (excess sum effective) 0 (ls.map (shareCell sum effective))

/-- The share stored for a line: 0 when it is not eligible (R58). -/
def ShareCell.share (c : ShareCell) : Nat := if c.on then c.g else 0

/-- The depth of a line's credit (R66). -/
def depthOf (share : Nat) : Nat := max Config.leastDepth (8 * share)

/-- A line after the hand-over: its new share, and its credit by the table of R68. -/
def handOver (share : Nat) (l : Line) : Line :=
  { l with
    share := share
    credit := if eligibleState l.st && l.eligible then min l.credit (depthOf share) else 0
    eligible := eligibleState l.st }

/-- A recompute: inputs read at the moment, results stored at once and handed to the scheduler (R52 to R61, R68). -/
def recompute (s : State) : State :=
  let scale := (currentPolicy s).scale
  let capacity := capacityInUse s.shares
  let uEff := scaledCeiling s.shares.ceiling scale
  let effective := effectiveCapacity capacity uEff s.shares.allowance
  let r := computeShares s.lines effective
  { s with
    lines := .ofFn fun n => handOver (r.1.get n).share (s.lines.get n)
    sched := { s.sched with effective := effective }
    shares := { s.shares with last :=
      { power := s.power.state, scale := scale, capacity := capacity, uEff := uEff, effective := effective
        committedSum := committedSum s.lines, rounds := r.2
        residue := effective - (r.1.items.map ShareCell.share).sum
        eligibleLines := s.lines.items.countP fun l => eligibleState l.st } } }

end Sys2Proof.Machine
end

