-- ==== Sys2Proof/Machine/Ports.lean ====
section
/-! DEFINITION. The line state machine's shared operations (05): entering a state with its effects, the wake list and
its grants (08, sections 8.5), the effective quiet delay, and taking and returning a line for a test. -/

namespace Sys2Proof.Machine

/-! ## Entering a state -/

/-- The flush made as a line enters a state (R39, R97, R98, R99).
DEDUCED: a wake store frame stays through a drain, log entry 24. -/
def entryFlush (old new : LineState) (reason : Reason) : Flush :=
  if reason = .shed then { down := true, up := true, wake := true, hand := true, cause := .shed }
  else
    match new, old with
    | .down, _ | .disabled, _ | .barred, _ =>
      { down := true, up := true, wake := true, hand := true, cause := .flush }
    | .dormant, .quiet => { down := true, up := false, wake := false, hand := false, cause := .flush }
    | .held, .quiet => { down := true, up := false, wake := false, hand := false, cause := .held }
    | .held, .training | .held, .dormant =>
      { down := false, up := false, wake := true, hand := false, cause := .held }
    | .held, .draining => { down := true, up := true, wake := false, hand := true, cause := .flush }
    | _, _ => { down := false, up := false, wake := false, hand := false, cause := .flush }

/-- The timers that belong to the state left are stopped, and the wake pending mark is cleared on leaving UP (R88). -/
def leaveState (l : Line) : Line :=
  match l.st with
  | .training => { l with trainTimer := none }
  | .up => { l with idle := none, wakeTimer := none, wakePending := false }
  | .quiet => { l with quietFor := none }
  | .draining => { l with drainTimer := none }
  | _ => l

/-- The transceiver command that entering a state sends, if any (R85). -/
def entryCommand (old new : LineState) : Option TCmd :=
  match new with
  | .down => some .listen
  | .training => some .start
  | .up =>
    match old with
    | .quiet => some .wake
    | .draining => some .releaseUpstream
    | _ => none
  | .draining => some .holdUpstream
  | .quiet => some .lowPower
  | .dormant | .held | .disabled | .barred => some .off

/-- The part of the entry's effects that lies in the line itself (R88, R94): rates, ready indication, timers and the
transceiver command. The state when taken is cleared at the return, and with any other way out of DRAINING and HELD (R100). -/
def enterState (s : State) (new : LineState) (l : Line) : Line :=
  let old := l.st
  let l := { l with
    st := new
    command := (entryCommand old new).orElse fun _ => l.command
    takenFrom := if new = .draining ∨ new = .held then l.takenFrom else none }
  match new with
  | .down | .disabled | .barred | .dormant | .held => { l with downRate := 0, upRate := 0, ready := false }
  | .training => { l with trainTimer := some (s.trainLimit * 1000) }
  | .up => if old = .quiet then { l with wakePending := true, wakeTimer := some s.wakeLimit } else l
  | .quiet => { l with ready := false, quietFor := some 0 }
  | .draining => { l with drainTimer := some s.seq.drainLimit }

/-- The states whose entry removes the line's LEARNED entries (R7). -/
def losesLearned : LineState → Bool
  | .down | .disabled | .barred => true
  | _ => false

/-- A line's wake list entry removed (R169). -/
def removeWake (n : LineNo) (s : State) : State :=
  s.modPower fun p => { p with wakeList := p.wakeList.filter fun e => e.line != n }

/-- The LINE_STATE event of a change, raised once the start-up has completed (R89). -/
def lineStateEvent (n : LineNo) (old new : LineState) (reason : Reason) (s : State) : State :=
  if s.running then raise (some n) (.lineState old new reason) s else s

/-- A line enters a state with the effects of R88, but for the recompute and the grants that the change calls for. -/
def enterCore (n : LineNo) (new : LineState) (reason : Reason) (s : State) : State :=
  let old := (s.line n).st
  if old = new then s
  else
    let s := flush n (entryFlush old new reason) s
    let s := if asleepState old then removeWake n s else s
    let s := s.modLine n fun l => enterState s new (leaveState l)
    let s := if losesLearned new then removeLearned n s else s
    lineStateEvent n old new reason (refreshIdle n s)

/-- Whether a change calls for a recompute: eligibility or the stored trained upstream rate differs (R60, R88).
DEDUCED: log entry 27. -/
def callsRecompute (before after : Line) : Bool :=
  eligibleState before.st != eligibleState after.st || before.upRate != after.upRate

/-- The recompute that a line's change calls for. -/
def recomputeIf (n : LineNo) (before : Line) (s : State) : State :=
  if callsRecompute before (s.line n) then recompute s else s

/-! ## Wakes -/

/-- The awake state a grant takes a line into (R91). -/
def grantState : LineState → LineState
  | .quiet => .up
  | _ => .training

/-- One grant: the oldest entry off the wake list and its line into its awake state (R170). -/
def grantOne (e : WakeEntry) (s : State) : State :=
  let before := s.line e.line
  let s := s.modPower fun p => { p with wakeList := p.wakeList.drop 1 }
  if asleepState before.st then
    recomputeIf e.line before (enterCore e.line (grantState before.st) .wakeGranted s)
  else s

/-- Grants while the awake count is below the budget and the list is not empty (R170). -/
def grants : Nat → State → State
  | 0, s => s
  | fuel + 1, s =>
    match s.power.wakeList with
    | [] => s
    | e :: _ => if awakeCount s < awakeBudget s then grants fuel (grantOne e s) else s

/-- The grants an occasion of R170 makes. Each takes one entry off the list. -/
def grantAll (s : State) : State := grants s.power.wakeList.length s

/-- A wake request decided (R168): ignored for a listed line, and otherwise listed last and granted as the budget and
the entries before it allow, which is at once when there is room and nothing waits. -/
def wakeRequest (n : LineNo) (cause : WakeCause) (s : State) : State :=
  if s.power.wakeList.any fun e => e.line == n then s
  else grantAll (s.modPower fun p =>
    { p with wakeList := p.wakeList ++ [{ line := n, cause := cause, time := s.mgmt.time }] })

/-- A line enters a state, with the recompute the change calls for, and with the grants that its leaving of the awake
states makes room for (R88, R170). -/
def enter (n : LineNo) (new : LineState) (reason : Reason) (s : State) : State :=
  let before := s.line n
  let s := recomputeIf n before (enterCore n new reason s)
  if awakeState before.st && !awakeState new then grantAll s else s

/-- Whether wake on downstream is allowed for a line (R28). -/
def wakeOnDownAllowed (s : State) (n : LineNo) : Bool :=
  (s.line n).cfg.wakeOnDown && (currentPolicy s).wakeDown

/-! ## Quiet and dormant delays -/

/-- The effective quiet delay in seconds, `none` for never (R93). -/
def effectiveQuiet (p : Policy) (l : Line) : Option Nat :=
  if l.cfg.quietDelay = 0 then none
  else if p.quietCap = 0 then some l.cfg.quietDelay
  else some (min l.cfg.quietDelay p.quietCap)

/-- Whether a line's idle timer has run as long as its effective quiet delay (R93). -/
def idleReached (p : Policy) (l : Line) : Bool :=
  match l.idle, effectiveQuiet p l with
  | some t, some d => l.st == .up && decide (d ≤ t / 1000)
  | _, _ => false

/-- The effective quiet delay worked out anew for one line (R93). -/
def rederiveQuiet (n : LineNo) (s : State) : State :=
  if idleReached (currentPolicy s) (s.line n) then enter n .quiet .idle s else s

/-- The effective quiet delay worked out anew for every line, on a change of the policy in force (R93, R165).
DESIGN CHOICE: in ascending line order, log entry 35. -/
def rederiveAll (s : State) : State := (indexes 24).foldl (fun s n => rederiveQuiet n s) s

/-- The dormant timer compared with a new dormant delay, in QUIET (R94). -/
def rederiveDormant (n : LineNo) (s : State) : State :=
  let l := s.line n
  match l.quietFor with
  | some t =>
    if l.st = .quiet ∧ l.cfg.dormantDelay ≠ 0 ∧ l.cfg.dormantDelay * 1000 ≤ t then
      enter n .dormant .dormantDelay s
    else s
  | none => s

/-! ## Taking and returning a line -/

/-- The state and reason of a take (R98). -/
def takeState : LineState → Option LineState
  | .up => some .draining
  | .quiet | .training | .down | .dormant => some .held
  | .disabled | .barred | .draining | .held => none

/-- A line taken for a test or an external connection: the state when taken is recorded and the line drains, or is
held at once, or stays DISABLED or BARRED (R98). -/
def takeLine (n : LineNo) (s : State) : State :=
  let st := (s.line n).st
  match takeState st with
  | some new => enter n new .taken (s.modLine n fun l => { l with takenFrom := some st })
  | none => s

/-- Whether a take of a line in a state is reported held at once (R98). -/
def heldAtOnce : LineState → Bool
  | .up | .draining | .held => false
  | _ => true

/-- Whether drain complete holds for a line (R44). -/
def Line.drained (l : Line) : Bool :=
  l.st == .draining && l.downQ.isEmpty && l.prioQ.isEmpty && l.bulkQ.isEmpty && l.handOff.isNone

/-- The return state of a HELD line (R100): `graded` is the grade of the test that ends, if it completed. -/
def returnState (l : Line) (graded : Option Grade) : LineState :=
  if l.takenFrom = some .dormant then .dormant
  else if graded = some .faulty ∧ l.cfg.keepOnFault = false then .barred
  else .down

/-- A line returned: a HELD line to its return state, a DRAINING line to UP, a BARRED line released by a GOOD or
MARGINAL test; any other stays (R99, R100, R101). -/
def returnLine (n : LineNo) (graded : Option Grade) (s : State) : State :=
  let l := s.line n
  match l.st with
  | .held => enter n (returnState l graded) .returned s
  | .draining => enter n .up .returned s
  | .barred =>
    if graded = some .good ∨ graded = some .marginal then enter n .down .returned s else s
  | _ => s

/-! ## Rates -/

/-- Both trained rates stored, at most 100,000 each (R84). -/
def storeRates (down up : Nat) (l : Line) : Line :=
  { l with downRate := min Config.rateMax down, upRate := min Config.rateMax up }

/-- A RATES report taken: the rates are stored, with a recompute if the upstream rate changes (R93). -/
def takeRates (n : LineNo) (down up : Nat) (s : State) : State :=
  recomputeIf n (s.line n) (s.modLine n (storeRates down up))

end Sys2Proof.Machine
end

