-- ==== Sys2Proof/Machine/Sequencer.lean ====
section
/-! DEFINITION. The Test Access Matrix, the Measurement Unit and the Test Sequencer as shared operations (06, 07):
moving relays, starting and ending measurements, the steps of a test, selection, aborts, and the test result log. -/

namespace Sys2Proof.Machine

/-! ## The matrix and the guard -/

/-- The connected pair, if there is one (R108, R109). -/
def MatrixState.pair : MatrixState → Option LineNo
  | .settlingIn n | .connected n => some n
  | .idle | .settlingOut => none

/-- Whether pair `n` is in TEST, its relay drive energised (R108). -/
def State.inTest (s : State) (n : LineNo) : Bool := s.access.matrix.pair == some n

/-- CONNECT: in IDLE the pair's relay goes to TEST and the settle timer starts; refused otherwise (R109, R110). -/
def connectPair (n : LineNo) (a : Access) : Access :=
  match a.matrix with
  | .idle => { a with matrix := .settlingIn n, settleTimer := some a.settleTime, legMv := 0 }
  | _ => a

/-- RESETTLE: in CONNECTED the settle timer starts and the relay stays in TEST; refused otherwise (R109). -/
def resettlePair (a : Access) : Access :=
  match a.matrix with
  | .connected n => { a with matrix := .settlingIn n, settleTimer := some a.settleTime }
  | _ => a

/-- RELEASE: the connected pair's relay goes to SERVICE, which re-arms the guard, and the release settle starts;
ignored with no pair connected (R109, R121). -/
def releasePair (a : Access) : Access :=
  match a.matrix with
  | .settlingIn _ | .connected _ =>
    { a with matrix := .settlingOut, settleTimer := some a.settleTime, tripped := false, legMv := 0 }
  | _ => a

/-- The drive allowance of the measurement in hand, until the end of its discharge wait (R119). -/
def driveAllowance (a : Access) : Nat :=
  match a.unit, a.spec with
  | .idle, _ => 0
  | _, some (.resistance _ v _ _ _) => v * 1000
  | _, some (.capacitance _ _ t _ _) => t
  | _, _ => 0

/-- The trip level in mV (R119). -/
def tripLevel (a : Access) : Nat := a.guardVolts * 1000 + driveAllowance a

/-- The unit at the end of a measurement: source and tone off, into DISCHARGING after a driving kind and to IDLE
after FOREIGN (R116). -/
def endMeasurement (driving : Bool) (a : Access) : Access :=
  if driving then
    { a with unit := .discharging, sourceOn := false, toneOn := false, dischargeTimer := some a.dischargeTime }
  else { a with unit := .idle, spec := none, sourceOn := false, toneOn := false }

/-- A START taken: the spec, the cable capacitance and the recorded length are taken, and the source or the tone is
turned on unless the guard is tripped (R113, R114, R121). -/
def beginMeasurement (spec : Spec) (len : Nat) (a : Access) : Access :=
  { a with
    unit := .measuring, spec := some spec, kTaken := a.cablePf, lengthTaken := len, elapsed := 0
    indication := a.tripped, stopping := false
    sourceOn := !a.tripped && (spec.kind == .resistance || spec.kind == .capacitance)
    toneOn := !a.tripped && spec.kind == .tone }

/-! ## The tone -/

/-- The period of a tone of `f` Hz in us (R126). -/
def tonePeriod (f : Nat) : Nat := 1000000 / f

/-- The wave inside an on-burst, `us` after the burst's start: high for the first half of each period (R126). -/
def toneWave (f us : Nat) : Bool := decide (us % tonePeriod f < tonePeriod f / 2)

/-- The tone generator's output `us` after the start of a TONE measurement: the wave in the on-bursts of the cadence, each
counted from its own start, low in the off-bursts and once the duration has elapsed (R126). -/
def Spec.toneLevel (us : Nat) : Spec → Bool
  | .tone _ f on off duration =>
    let at_ := us % ((on + off) * 1000)
    decide (us < duration * 1000000) && decide (at_ < on * 1000) && toneWave f at_
  | _ => false

/-- The tone on the spec's leg, `us` into the present millisecond: nothing once a guard trip or a STOP has cut it (R126). -/
def Access.toneOutput (us : Nat) (a : Access) : Bool :=
  a.toneOn && a.spec.any (Spec.toneLevel (a.elapsed * 1000 + us))

/-! ## Results -/

/-- A verdict for which a result above a limit is bad (R122, R125). -/
def verdictAbove (v marginal faulty : Nat) : Verdict :=
  if faulty < v then .faulty else if marginal < v then .marginal else .pass

/-- A verdict for which a result below a limit is bad (R123). -/
def verdictBelow (v marginal faulty : Nat) : Verdict :=
  if v < faulty then .faulty else if v < marginal then .marginal else .pass

/-- A sampled voltage magnitude, read at the nearer end of the sampler's range (R115). -/
def Sample.volts (x : Sample) : Nat := min Config.voltMax x.mv.natAbs

/-- A sampled current, within the source's limit (R115). -/
def Sample.amps (x : Sample) : Nat := min Config.currentMax x.na

/-- The greatest voltage magnitude of the samples (R122). -/
def greatestVolts (xs : List Sample) : Nat := (xs.map Sample.volts).foldl max 0

/-- R from the means over N samples (R115, R123). -/
def resistanceOf (xs : List Sample) : Nat :=
  let v := (xs.map Sample.volts).sum / xs.length
  let i := (xs.map Sample.amps).sum / xs.length
  if i = 0 then Config.resistanceMax else min Config.resistanceMax (v * 1000000 / i)

/-- C in pF from the source current, the capture time and the target (R125). -/
def capacitanceOf (current t target : Nat) : Nat := min Config.capacitanceMax (current * t * 1000 / target)

/-- The deviation of a length from the recorded length, in whole percent (R125). -/
def deviation (len recorded : Nat) : Nat := (max len recorded - min len recorded) * 100 / recorded

/-- The verdict of a CAPACITANCE measurement, its cases tested in the order of R125's table. -/
def capacitanceVerdict (timedOut : Bool) (recorded len marginal faulty : Nat) : Verdict :=
  if timedOut then .overRange
  else if recorded = 0 then .pass
  else verdictAbove (deviation len recorded) marginal faulty

/-- The window of a sampled spec (R112). -/
def Spec.window : Spec → Option Nat
  | .foreign _ w _ _ => some w
  | .resistance _ _ w _ _ => some w
  | _ => none

/-- The result of a FOREIGN or RESISTANCE window from its samples (R122, R123). -/
def windowResult (spec : Spec) (xs : List Sample) (seen : Bool) : Result :=
  match spec with
  | .resistance leg _ _ m f =>
    { kind := .resistance, leg := leg, verdict := verdictBelow (resistanceOf xs) m f
      value := some (resistanceOf xs), length := none, guardSeen := seen }
  | .foreign leg _ m f =>
    { kind := .foreign, leg := leg, verdict := verdictAbove (greatestVolts xs) m f
      value := some (greatestVolts xs), length := none, guardSeen := seen }
  | .capacitance leg .. | .tone leg .. =>
    { kind := spec.kind, leg := leg, verdict := .pass, value := none, length := none, guardSeen := seen }

/-- The result of a CAPACITANCE measurement stopped at capture time `t` (R124, R125). -/
def captureResult (a : Access) (leg : Leg) (current target m f t : Nat) (timedOut : Bool) : Result :=
  let c := capacitanceOf current t target
  let len := c / a.kTaken
  { kind := .capacitance, leg := leg, verdict := capacitanceVerdict timedOut a.lengthTaken len m f
    value := some c, length := some len, guardSeen := a.indication }

/-- A result with verdict GUARDED: no value, guard indication set (R120, R121). -/
def guardedResult (spec : Spec) : Result :=
  { kind := spec.kind, leg := spec.leg, verdict := .guarded, value := none, length := none, guardSeen := true }

/-- The NOT_RUN result of a spec that was not started (R139). -/
def notRunResult (spec : Spec) : Result :=
  { kind := spec.kind, leg := spec.leg, verdict := .notRun, value := none, length := none, guardSeen := false }

/-- The grade of a completed test (R141). -/
def gradeOf (rs : List Result) : Grade :=
  if rs.any fun r => r.verdict == .faulty || r.verdict == .guarded then .faulty
  else if rs.any fun r => r.verdict == .marginal || r.verdict == .overRange then .marginal
  else .good

/-! ## The result log -/

/-- The sequence number after a counter value (R142). -/
def nextSequence (c : Nat) : Nat := if Config.countMax ≤ c then 1 else c + 1

/-- A record written to the log under the next sequence number, the oldest removed to make room (R142). -/
def writeRecord (r : TestRecord) (s : State) : State :=
  let seq := nextSequence s.seq.counter
  let full := decide (Config.logPlaces ≤ s.seq.log.length)
  let s := if full then countDev .logOverwrite s else s
  s.modSeq fun q => { q with
    counter := seq
    log := (if full then q.log.drop 1 else q.log) ++ [{ r with seq := seq }] }

/-- A grade written to a line record, with a recompute if it differs (R141, R60). -/
def writeGrade (n : LineNo) (g : Grade) (s : State) : State :=
  let changed := (s.line n).grade != g
  let s := s.modLine n fun l => { l with grade := g }
  if changed then recompute s else s

/-- Steps 1 to 5 of R140, and the clearing of the marker and the current activity of step 6: the record, the grade of
a completed test, the return of the line if one is asked for, and TEST_DONE. -/
def closeActivity (outcome : Outcome) (askReturn : Bool) (s : State) : State :=
  match s.seq.act with
  | none => s
  | some a =>
    let grade := if outcome = .completed then gradeOf a.results else .none
    let seq := nextSequence s.seq.counter
    let s := writeRecord
      { seq := seq, line := a.line, program := a.program, origin := a.origin, start := a.start
        stop := s.mgmt.time, outcome := outcome, grade := grade, interrupted := a.interrupted
        guardTripped := a.guardTripped, results := a.results } s
    let s := if outcome = .completed then
        (writeGrade a.line grade s).modLine a.line fun l => { l with lastTest := some seq }
      else s
    let s := if askReturn then
        returnLine a.line (if outcome = .completed then some grade else none) s
      else s
    let s := raise (some a.line) (.testDone seq outcome grade) s
    s.modSeq fun q => { q with act := none, marker := none, suspended := false, suspendTimer := none }

/-! ## Steps of a test -/

/-- Whether a test has a spec left to run and no GUARDED verdict (R139, R155). -/
def Activity.goesOn (a : Activity) : Bool :=
  decide (a.next < a.specs.length) && !(a.results.any fun r => r.verdict == .guarded)

/-- The current activity changed by a function. -/
def modAct (f : Activity → Activity) (s : State) : State :=
  s.modSeq fun q => { q with act := q.act.map f }

/-- A result appended, the guard tripped flag set from its indication, and after a GUARDED verdict every spec not yet
started appended as NOT_RUN (R139, R135). DESIGN CHOICE: no further spec being started, the index of the next spec is then
the number of specs, log entry 36. -/
def appendResult (r : Result) (a : Activity) : Activity :=
  let rest := if r.verdict = .guarded then (a.specs.drop a.next).map notRunResult else []
  { a with
    results := a.results ++ [r] ++ rest
    guardTripped := a.guardTripped || r.guardSeen
    next := if r.verdict = .guarded then a.specs.length else a.next }

/-- RELEASE and RELEASING (R139). -/
def releaseStep (s : State) : State :=
  (s.modAccess releasePair).modSeq fun q => { q with st := .releasing }

/-- CONNECT for a pair, and SETTLING (R138). -/
def connectStep (n : LineNo) (s : State) : State :=
  (s.modAccess (connectPair n)).modSeq fun q => { q with st := .settling }

/-- START for the next spec, and MEASURING; the index of the next spec, counted from 0, moves past it (DESIGN CHOICE, log
entry 36). A driving kind started with the guard tripped ends at once GUARDED (R113,
R121, R139). The START is refused by a unit that is not IDLE, a matrix that is not CONNECTED or a yielded bus. -/
def startStep (s : State) : State :=
  match s.seq.act with
  | none => s
  | some a =>
    match a.specs[a.next]?, s.access.matrix with
    | some spec, .connected n =>
      if s.access.unit = .idle ∧ s.seq.extack = false then
        let s := s.modSeq fun q => { q with
          st := .measuring, act := q.act.map fun a => { a with next := a.next + 1 } }
        let s := s.modAccess (beginMeasurement spec (s.line n).cfg.recordedLength)
        if spec.kind.driving && s.access.tripped then
          (modAct (appendResult (guardedResult spec)) (s.modAccess (endMeasurement true))).modSeq
            fun q => { q with st := .discharging }
        else s
      else s
    | _, _ => s

/-- The next spec, or the release (R139). -/
def nextStep (s : State) : State :=
  if s.seq.act.any Activity.goesOn then startStep s else releaseStep s

/-- The bus yielded to the external head (R151). -/
def suspendSeq (s : State) : State :=
  let s := raise s.lineUnderTest (.external true) s
  let s := s.modSeq fun q => { q with st := .suspended, extack := true }
  if s.seq.act.isSome then
    s.modSeq fun q => { q with
      suspended := true
      suspendTimer := some (q.suspendLimit * 1000)
      act := q.act.map fun a => { a with interrupted := true } }
  else s

/-- A step boundary: an asserted EXTREQ suspends the sequencer, and otherwise the step goes on (R151). -/
def boundary (k : State → State) (s : State) : State := if s.seq.extreq then suspendSeq s else k s

/-- A result reported by the unit (R139). -/
def resultStep (r : Result) (s : State) : State :=
  let s := modAct (appendResult r) s
  if r.kind.driving then s.modSeq fun q => { q with st := .discharging } else boundary nextStep s

/-- The held report: for an external connection CONNECT at once, since the bus is already yielded; for a test a step
boundary and then CONNECT (R138, R152). -/
def heldReport (s : State) : State :=
  match s.seq.act with
  | none => s
  | some a =>
    if s.seq.st = .drainingWait then
      if a.origin = .external then connectStep a.line s else boundary (connectStep a.line) s
    else s

/-- Drain complete reported for a DRAINING line: it is HELD with reason DRAINED and reported held (R44, R99).
DESIGN CHOICE: the grants that the entry makes room for come before the held report, log entry 37. -/
def drainReport (n : LineNo) (s : State) : State :=
  if (s.line n).drained then heldReport (enter n .held .drained s) else s

/-- The sequencer asks the Line Ports for a line in DRAINING_WAIT (R138, R152). A line that was not UP is reported held
at once (R98), and an UP line at its entry to DRAINING if nothing is left to drain (R44). DESIGN CHOICE: the grants that
an entry to HELD makes room for come before the held report, log entry 37. -/
def askForLine (n : LineNo) (s : State) : State :=
  let st := (s.line n).st
  let s := takeLine n s
  if heldAtOnce st then heldReport s else drainReport n s

/-- A STOP of the measurement in hand, and what follows the stopped report when it is made at once; a unit in IDLE
ignores it (R117, R144). -/
def stopStep (s : State) : State :=
  match s.access.unit with
  | .idle => s
  | .discharging => s.modAccess fun a => { a with stopping := true }
  | .measuring =>
    let driving := s.access.spec.any fun x => x.kind.driving
    let s := s.modAccess (endMeasurement driving)
    if driving then s.modAccess fun a => { a with stopping := true } else releaseStep s

/-! ## The test queue -/

def TestRequest.line : TestRequest → LineNo
  | .demand line .. => line
  | .routine line .. => line

def TestRequest.isDemand : TestRequest → Bool
  | .demand .. => true
  | .routine .. => false

def TestRequest.program : TestRequest → Fin 8
  | .demand _ p _ => p
  | .routine _ p _ _ _ => p

/-- The group that issued a ROUTINE request. -/
def TestRequest.group : TestRequest → Option (Fin 4)
  | .demand .. => none
  | .routine _ _ g _ _ => some g

/-- A new DEMAND request stands at the end of the demand part (R132). -/
def insertDemand (r : TestRequest) (q : List TestRequest) : List TestRequest :=
  q.filter TestRequest.isDemand ++ [r] ++ q.filter fun x => !x.isDemand

/-- The due mark of a line in a group written (R149). -/
def setDue (g : Fin 4) (n : LineNo) (b : Bool) (s : State) : State :=
  s.modSeq fun q => { q with groups := q.groups.modify g fun x => { x with due := x.due.set n b } }

/-- A ROUTINE request offered to the queue: coalesced, appended, or its line left due and counted as missed unless it
was due already (R133, R149). -/
def offerRoutine (g : Fin 4) (n : LineNo) (s : State) : State :=
  let grp := s.seq.groups.get g
  if s.lineUnderTest == some n || s.seq.queue.any fun r => r.line == n then setDue g n false s
  else if Config.testPlaces ≤ s.seq.queue.length then
    if grp.due.get n then s
    else setDue g n true (s.modSeq fun q => { q with
      groups := q.groups.modify g fun x => { x with missed := bump x.missed } })
  else setDue g n false (s.modSeq fun q => { q with
    queue := q.queue ++ [.routine n grp.program g 0 false] })

/-- A due line offered again, checked afresh: its mark is cleared if it is no longer a member or is DISABLED (R149). -/
def offerDue (g : Fin 4) (n : LineNo) (s : State) : State :=
  if (s.seq.groups.get g).due.get n then
    if (s.line n).cfg.routineGroup == some g && (s.line n).st != .disabled then offerRoutine g n s
    else setDue g n false s
  else s

/-- A place of the queue has become free: due lines are offered, group 0 first and lines in ascending order (R133, R149).
No selection is made in between: inside a walk the walk itself goes on to what joins, and outside IDLE there is none. -/
def placeFreed (s : State) : State :=
  (indexes 4).foldl (fun s g => (indexes 24).foldl (fun s n => offerDue g n s) s) s

/-- Whether the cabinet power state permits a request to be started (R136). -/
def permitted (p : Option PowerState) (r : TestRequest) : Bool :=
  match p with
  | some .mains | some .battery => true
  | some .conserve =>
    match r with
    | .demand _ _ override => override
    | .routine .. => false
  | _ => false

/-- Whether a request's deferred-until-tick flag is set. -/
def TestRequest.deferred : TestRequest → Bool
  | .demand .. => false
  | .routine _ _ _ _ d => d

/-- Whether a ROUTINE request's line is in use by its home (R137). -/
def inUse (s : State) (r : TestRequest) : Bool :=
  !r.isDemand && ((s.line r.line).st == .up || (s.line r.line).st == .training)

/-- The record of a skipped ROUTINE request, with TEST_DONE (R137). -/
def skipRecord (n : LineNo) (program : Fin 8) (s : State) : State :=
  let seq := nextSequence s.seq.counter
  raise (some n) (.testDone seq .skippedBusy .none) (writeRecord
    { seq := seq, line := n, program := some program, origin := .routine, start := s.mgmt.time
      stop := s.mgmt.time, outcome := .skippedBusy, grade := .none, interrupted := false
      guardTripped := false, results := [] } s)

/-- A ROUTINE request whose line is in use deferred to the back of the routine part, or skipped at the limit (R137). -/
def deferRequest (r : TestRequest) (s : State) : State :=
  let drop := fun s : State => s.modSeq fun q => { q with queue := q.queue.filter fun x => x != r }
  match r with
  | .demand .. => s
  | .routine n p g c _ =>
    -- R156: a count already at or above a lowered limit is skipped
    if s.seq.deferralLimit ≤ c then placeFreed (skipRecord n p (drop s))
    else (drop s).modSeq fun q => { q with queue := q.queue ++ [.routine n p g (c + 1) true] }

/-- A request started: it becomes the current activity with its program as it stands, the marker is set, its place in
the queue is offered to due lines, and the sequencer asks for the line (R133, R138). -/
def startRequest (r : TestRequest) (s : State) : State :=
  let n := r.line
  let origin : TestOrigin := if r.isDemand then .demand else .routine
  let override := match r with
    | .demand _ _ o => o
    | .routine .. => false
  let s := s.modSeq fun q => { q with
    queue := q.queue.filter fun x => x != r
    st := .drainingWait
    act := some
      { line := n, program := some r.program, origin := origin, override := override, start := s.mgmt.time
        specs := q.programs.get r.program, next := 0, results := [], pending := none, interrupted := false
        guardTripped := false }
    marker := some { line := n, program := some r.program, origin := origin, start := s.mgmt.time } }
  askForLine n (placeFreed s)

/-- The walk of a selection: the first request that is permitted and not deferred is deferred if its line is in use,
and the walk goes on, or is started, and the walk ends (R136). -/
def selectWalk : Nat → State → State
  | 0, s => s
  | fuel + 1, s =>
    match s.seq.queue.find? fun r => permitted s.power.state r && !r.deferred with
    | none => s
    | some r => if inUse s r then selectWalk fuel (deferRequest r s) else startRequest r s

/-- What the sequencer does in IDLE: an asserted EXTREQ suspends it, and otherwise it makes a selection (R136, R151).
The walk ends within 128 requests: eight queued and one for each due mark. -/
def idleStep (s : State) : State :=
  if s.seq.st = .idle ∧ s.running then boundary (selectWalk 128) s else s

/-- Something offered to the queue, with a selection if a request joins it (R136). -/
def joining (offer : State → State) (s : State) : State :=
  let t := offer s
  if s.seq.queue.length < t.seq.queue.length then idleStep t else t

/-- Places of the queue have become free outside a walk: due lines are offered in the order of R149, each with the
selection of its joining, and a last selection follows (R133, R136). -/
def placesFreed (s : State) : State :=
  idleStep ((indexes 4).foldl (fun s g => (indexes 24).foldl (fun s n => joining (offerDue g n) s) s) s)

/-- The sequencer enters IDLE with EXTACK deasserted (R140, R155). -/
def enterIdle (s : State) : State := idleStep (s.modSeq fun q => { q with st := .idle, extack := false })

/-! ## Ends and aborts -/

/-- Where the sequencer goes when an external connection has ended: SUSPENDED while EXTREQ is still asserted, and IDLE
with EXTACK deasserted otherwise (R153).
DESIGN CHOICE: the level of EXTREQ is read, whether or not it was released in between, log entry 40. -/
def afterExternal (s : State) : State :=
  if s.seq.extreq then s.modSeq fun q => { q with st := .suspended } else enterIdle s

/-- The released report (R140, R144, R153, R155). -/
def releasedReport (s : State) : State :=
  match s.seq.act with
  | none => enterIdle s
  | some a =>
    if a.origin = .external then
      afterExternal (closeActivity .externalSession true s)
    else enterIdle (closeActivity (a.pending.getD .completed) true s)

/-- The pending outcome set at an abort (R144). -/
def setPending (outcome : Outcome) (s : State) : State :=
  modAct (fun a => { a with pending := some outcome }) s

/-- An abort of the running test (R144).
DESIGN CHOICE: an abort in DISCHARGING keeps the NOT_RUN results already appended (R139), log entry 39. -/
def abortTestNow (outcome : Outcome) (s : State) : State :=
  match s.seq.st with
  | .drainingWait => enterIdle (closeActivity outcome true s)
  | .settling => releaseStep (setPending outcome s)
  | .measuring | .discharging => stopStep (setPending outcome s)
  | .suspended => closeActivity outcome true s
  | .releasing | .idle | .external => s

/-- The shed of the DRAINING line under test: the activity ends ABORTED_POWER at once with no return, and the sequencer
is IDLE, or SUSPENDED for an external connection being made (R97, R146). -/
def shedReport (n : LineNo) (s : State) : State :=
  match s.seq.act with
  | none => s
  | some a =>
    if a.line = n ∧ s.seq.st = .drainingWait then
      let s := closeActivity .abortedPower false s
      if a.origin = .external ∧ s.seq.extreq then s.modSeq fun q => { q with st := .suspended }
      else s.modSeq fun q => { q with st := .idle, extack := false }
    else s

/-- An external connection ended by DISCONNECT EXTERNAL or by the release of EXTREQ (R153). -/
def endExternal (s : State) : State :=
  match s.seq.st with
  | .drainingWait => afterExternal (closeActivity .externalSession true s)
  | .settling | .external => releaseStep s
  | _ => s

/-- The running test restrained by a new cabinet power state (R146). -/
def restrainTest (p : PowerState) (s : State) : State :=
  match s.seq.act with
  | none => s
  | some a =>
    if a.origin = .external then s
    else match p with
      | .mains | .battery => s
      | .conserve => if a.origin = .demand ∧ a.override then s else abortTestNow .abortedPower s
      | .reserve => abortTestNow .abortedPower s

/-- The guard trips: source and tone off, the guard latched, GUARD_TRIP raised, the activity's flag set, and a driving
measurement in hand ended GUARDED (R120, R135). -/
def tripGuard (n : LineNo) (s : State) : State :=
  let measuring := decide (s.access.unit = .measuring)
  let inHand := if measuring then s.access.spec else none
  let s := raise (some n) (.guardTrip s.seq.extack s.access.unit (inHand.map fun x => (x.kind, x.leg))) s
  let s := s.modAccess fun a => { a with
    sourceOn := false, toneOn := false, tripped := true
    indication := a.indication || measuring }
  let s := modAct (fun a => if a.line = n then { a with guardTripped := true } else a) s
  match inHand with
  | some x =>
    if x.kind.driving then
      resultStep (guardedResult x) (s.modAccess (endMeasurement true))
    else s
  | none => s

/-- The comparison of the guard comparator, made when the leg voltage or the threshold changes (R119, R121).
DESIGN CHOICE: the last reported voltage is compared again, log entry 11. -/
def guardCheck (s : State) : State :=
  match s.access.matrix.pair with
  | some n => if !s.access.tripped && decide (tripLevel s.access < s.access.legMv) then tripGuard n s else s
  | none => s

end Sys2Proof.Machine
end

