-- ==== Sys2Proof/Machine/PowerOps.lean ====
section
/-! DEFINITION. The Power Manager's shared operations (08): choosing a state, shedding, pruning, and entering a
cabinet power state. -/

namespace Sys2Proof.Machine

/-- The three-way choice of a battery state from a sample (R160). -/
def batteryChoice (p : Power) (mv : Nat) : PowerState :=
  if mv < p.reserve then .reserve else if mv < p.conserve then .conserve else .battery

/-- The state a sample moves to from a battery state, the rows of R162 tested in order; `none` leaves the state. -/
def sampleMove (p : Power) (st : PowerState) (mv : Nat) : Option PowerState :=
  match st with
  | .mains => none
  | .battery => if mv < p.reserve then some .reserve else if mv < p.conserve then some .conserve else none
  | .conserve =>
    if mv < p.reserve then some .reserve
    else if p.conserve + p.hysteresis ≤ mv then some .battery else none
  | .reserve =>
    if p.conserve + p.hysteresis ≤ mv then some .battery
    else if p.reserve + p.hysteresis ≤ mv then some .conserve else none

/-! ## Shedding -/

/-- Whether line `a` stands before line `b` in the order of shedding (R171). -/
def shedBefore (s : State) (a b : LineNo) : Bool :=
  let x := s.line a
  let y := s.line b
  let dx := decide (x.st = .draining)
  let dy := decide (y.st = .draining)
  if dx != dy then dy
  else if x.cfg.powerPriority ≠ y.cfg.powerPriority then decide (x.cfg.powerPriority < y.cfg.powerPriority)
  else if x.idleSeconds ≠ y.idleSeconds then decide (y.idleSeconds < x.idleSeconds)
  else decide (b.val < a.val)

/-- A line put in its place among lines already in order. -/
def shedInsert (s : State) (n : LineNo) : List LineNo → List LineNo
  | [] => [n]
  | m :: ms => if shedBefore s n m then n :: m :: ms else m :: shedInsert s n ms

/-- The awake lines in the order of shedding (R171). -/
def shedOrder (s : State) : List LineNo :=
  ((indexes 24).filter fun n => awakeState (s.line n).st).foldr (shedInsert s) []

/-- The state a shed line goes to (R97). -/
def shedState (mode : SleepMode) (st : LineState) : LineState :=
  match mode, st with
  | .dormant, _ => .dormant
  | .quiet, .training => .down
  | .quiet, _ => .quiet

/-- One line shed (R97): it leaves its awake state, and a DRAINING line's activity ends ABORTED_POWER. A line that is
not awake is not shed. No grant can follow, since the awake count does not fall below the budget. -/
def shedLine (n : LineNo) (s : State) : State :=
  let st := (s.line n).st
  if awakeState st then
    let s := enterCore n (shedState (currentPolicy s).sleep st) .shed s
    if st = .draining then shedReport n s else s
  else s

/-- The lines shed to bring the awake count down to the budget: the order is taken once (R171). -/
def shedLines (s : State) : List LineNo := (shedOrder s).take (awakeCount s - awakeBudget s)

/-- Shedding down to the budget in force: the recompute that the sheds call for is made with the inputs as the shedding
leaves them (R171, R59). DEDUCED: log entry 16. -/
def shedToBudget (s : State) : State :=
  let ns := shedLines s
  let called := ns.any fun n => eligibleState (s.line n).st
  let s := ns.foldl (fun s n => shedLine n s) s
  if called then recompute s else s

/-! ## Pruning -/

/-- What a wake list entry becomes under a new policy: it stays, stays as a DOWNSTREAM entry, or is removed (R172). -/
def prunedEntry (s : State) (e : WakeEntry) : Option WakeEntry :=
  let p := currentPolicy s
  match e.cause with
  | .start => some e
  | .downstream => if p.wakeDown then some e else none
  | .sense =>
    if p.wakeSense then some e
    else if (s.line e.line).st = .dormant ∧ (s.line e.line).wakeStore.isSome ∧ wakeOnDownAllowed s e.line then
      some { e with cause := .downstream }
    else none

/-- What the removal of an entry flushes: what caused a DOWNSTREAM entry, and the wake store of a DORMANT line (R172). -/
def pruneFlush (e : WakeEntry) (st : LineState) : Flush :=
  { down := e.cause == .downstream && st == .quiet, up := false, wake := st == .dormant, hand := false, cause := .shed }

/-- One entry removed, with its flush (R172, R39). -/
def pruneRemove (e : WakeEntry) (s : State) : State :=
  refreshIdle e.line (flush e.line (pruneFlush e (s.line e.line).st) s)

/-- Every wake list entry whose cause the policy in force does not permit removed or converted (R172). -/
def prune (s : State) : State :=
  let removed := s.power.wakeList.filter fun e => (prunedEntry s e).isNone
  let kept := s.power.wakeList.filterMap (prunedEntry s)
  removed.foldl (fun s e => pruneRemove e s) (s.modPower fun p => { p with wakeList := kept })

/-! ## Entering a power state -/

/-- The new cabinet power state and the time of the change (R165). -/
def setPowerState (p : PowerState) (s : State) : State :=
  s.modPower fun x => { x with state := some p, lastChange := some s.mgmt.time }

/-- A change of cabinet power state, in the order of R165. The routine counts run or stand still by the state
itself (R148); the sequencer restrains its test and makes a selection in step 6 (R146, R136). -/
def changePower (left p : PowerState) (cause : PowerCause) (s : State) : State :=
  let s := setPowerState p s
  let shed := (shedLines s).length
  let s := shedToBudget s
  let awake := awakeCount s
  let s := grantAll (prune s)
  let s := recompute (rederiveAll s)
  let s := idleStep (restrainTest p s)
  raise none (.powerState left p cause (s.power.sample.map (·.1)) awake shed) s

end Sys2Proof.Machine
end

