-- ==== Sys2Proof/Machine/Resets.lean ====
section
/-! DEFINITION. The resets, the configuration image and the start-up (09, sections 9.6 to 9.8; R204 and the reset
tables of every chapter). -/

namespace Sys2Proof.Machine

/-! ## The reset-cause record -/

/-- The flags COLD, PIN, SUPPLY, DEVICE, TRAFFIC (R204). -/
inductive ResetFlag | cold | pin | supply | device | traffic
deriving DecidableEq, Repr

def ResetFlag.idx : ResetFlag → Fin 5
  | .cold => 0 | .pin => 1 | .supply => 2 | .device => 3 | .traffic => 4

/-- One flag set and the others kept (R204). -/
def setResetFlag (f : ResetFlag) (s : State) : State :=
  s.modCounts fun k => { k with resetCause := k.resetCause.set f.idx true }

/-! ## Cold and warm resets -/

/-- Every block at its cold value but what lies outside the part: the waiting commands, the configuration memory and
the levels of MAINS_OK, EXTREQ and SERVICE as last seen. A save in hand is cut short (R189). DEDUCED: log entry 14. -/
def coldState (s : State) : State :=
  { State.reset with
    pending := s.pending
    memory := s.memory
    seq := { Seq.reset with extreq := s.seq.extreq }
    power := { Power.reset with mainsOk := s.power.mainsOk }
    mgmt := { Mgmt.reset with service := s.mgmt.service } }

/-- A warm reset: as a cold one, but the marker, the result log, the sequence counter and the reset-cause record are
retained, and the cause's flag is set (R40, R142, R147, R204). -/
def warmReset (f : ResetFlag) (s : State) : State :=
  let c := coldState s
  setResetFlag f
    { c with
      seq := { c.seq with log := s.seq.log, counter := s.seq.counter, marker := s.seq.marker }
      counts := { c.counts with resetCause := s.counts.resetCause }
      mgmt := { c.mgmt with phase := .held false } }

/-! ## The configuration image -/

/-- A line's configuration with every number brought into its present range (R188, R14). -/
def LineConfig.clamped (c : LineConfig) : LineConfig :=
  { c with
    vlan := clamp 1 4094 c.vlan, committed := clamp 0 100000 c.committed, weight := clamp 1 64 c.weight
    cap := clamp 0 100000 c.cap, stationLimit := clamp 1 8 c.stationLimit
    downLimit := clamp 16 1024 c.downLimit, prioLimit := clamp 8 512 c.prioLimit
    bulkLimit := clamp 16 1024 c.bulkLimit, powerPriority := clamp 0 7 c.powerPriority
    quietDelay := clamp 0 3600 c.quietDelay, dormantDelay := clamp 0 86400 c.dormantDelay
    recordedLength := clamp 0 20000 c.recordedLength }

/-- A policy entry with every number brought into its present range (R188, R164). -/
def Policy.clamped (p : Policy) : Policy :=
  { p with budget := clamp 0 24 p.budget, quietCap := clamp 0 3600 p.quietCap, scale := clamp 10 100 p.scale }

/-- The items of R188 as they stand. -/
def snapshot (s : State) : ImageBody :=
  { stations := s.stations.entries.items.filterMap fun e => e.bind fun x =>
      if x.isLearned then none else some { addr := x.addr, line := x.line.val, cls := x.cls }
    agingTime := s.stations.agingTime
    lines := s.lines.map Line.cfg
    trainLimit := s.trainLimit, wakeLimit := s.wakeLimit
    ceiling := s.shares.ceiling, allowance := s.shares.allowance, fallback := s.shares.fallback
    hold := s.shares.hold, spare := s.shares.spare, backhaul := s.shares.backhaul
    advisoryEthertype := s.shares.ethertype
    programs := s.seq.programs
    groups := s.seq.groups.map fun g =>
      { enabled := g.enabled, base := g.base, factor := g.factor, program := g.program }
    settleTime := s.access.settleTime, dischargeTime := s.access.dischargeTime
    guardVolts := s.access.guardVolts, cablePf := s.access.cablePf
    drainLimit := s.seq.drainLimit, suspendLimit := s.seq.suspendLimit, deferralLimit := s.seq.deferralLimit
    policies := s.power.policies
    conserve := s.power.conserve, reserve := s.power.reserve, hysteresis := s.power.hysteresis
    stableDelay := s.power.stableDelay
    station := if s.mgmt.stationSource = .command ∨ s.mgmt.stationSource = .image then s.mgmt.station else none
    vlan := s.mgmt.vlan, ethertype := s.mgmt.ethertype, manager := s.mgmt.manager
    managerOnly := s.mgmt.managerOnly, lockAtStart := s.mgmt.lockAtStart
    notices := s.counts.settings }

/-- The check of the stored image (R188, 11.6). -/
def imagePasses (m : Memory) : Bool :=
  m.answers && m.image.version == Config.imageVersion && m.image.bodyLength == Config.imageBodyLength
    && m.image.crcGood && m.image.codesExist

/-- One STATIC entry of the image loaded at the lowest invalid index, or skipped: a group address, a line outside 0 to
23, or an address already loaded (R3). DESIGN CHOICE: with no invalid index left it is skipped too, log entry 22. -/
def loadStation (e : ImageEntry) (s : State) : State :=
  match lineOf e.line, lowestInvalid s with
  | some n, some i =>
    if e.addr.isGroup || (lookupStation s e.addr).isSome then s
    else setStation i (some { addr := e.addr, line := n, cls := e.cls, origin := .static }) s
  | _, _ => s

/-- A routine group's interval in seconds (R148). -/
def interval (base : Base) (factor : Nat) : Nat := base.minutes * factor * 60

/-- A routine group as the image loads it: an enabled one has its count loaded with the full interval (R148). -/
def loadGroup (g : Fin 4) (x : ImageGroup) : Group :=
  let f := clamp 1 64 x.factor
  { Group.reset g with
    enabled := x.enabled, base := x.base, factor := f, program := x.program
    remaining := if x.enabled then interval x.base f else 0 }

/-- The image loaded whole, numbers clamped to their present ranges (R188). The line states are left to step 6 of
R190, and lock-at-start to step 4. DESIGN CHOICE: a value that is outside what its rule allows and is no number beyond an
end of a range is loaded as it stands, a group address as backhaul address among them, log entry 22. -/
def loadImage (b : ImageBody) (s : State) : State :=
  let s := b.stations.foldl (fun s e => loadStation e s) s
  { s with
    stations := { s.stations with agingTime := clamp 0 255 b.agingTime }
    lines := .ofFn fun n => { s.lines.get n with cfg := (b.lines.get n).clamped }
    trainLimit := clamp 10 600 b.trainLimit
    wakeLimit := clamp 100 10000 b.wakeLimit
    shares := { s.shares with
      ceiling := clamp 1000 1000000 b.ceiling, allowance := clamp 0 2048 b.allowance
      fallback := clamp 0 1000000 b.fallback, hold := clamp 1 60 b.hold, spare := b.spare
      backhaul := b.backhaul, ethertype := clamp 0x0600 0xFFFF b.advisoryEthertype }
    access := { s.access with
      settleTime := clamp 1 20 b.settleTime, dischargeTime := clamp 5 100 b.dischargeTime
      guardVolts := clamp 10 150 b.guardVolts, cablePf := clamp 20 100 b.cablePf }
    seq := { s.seq with
      programs := b.programs.map fun p => p.map Spec.clamped
      groups := .ofFn fun g => loadGroup g (b.groups.get g)
      drainLimit := clamp 1 1000 b.drainLimit, suspendLimit := clamp 1 600 b.suspendLimit
      deferralLimit := clamp 0 15 b.deferralLimit }
    power := { s.power with
      policies := b.policies.map Policy.clamped
      conserve := clamp 0 65535 b.conserve, reserve := clamp 0 65535 b.reserve
      hysteresis := clamp 0 1000 b.hysteresis, stableDelay := clamp 10 600 b.stableDelay }
    counts := { s.counts with settings := b.notices }
    mgmt := { s.mgmt with
      station := b.station.orElse fun _ => s.mgmt.station
      stationSource := if b.station.isSome then .image else s.mgmt.stationSource
      vlan := clamp 1 4094 b.vlan, ethertype := clamp 0x0600 0xFFFF b.ethertype
      manager := b.manager, managerOnly := b.managerOnly, lockAtStart := b.lockAtStart } }

/-! ## Start-up -/

/-- The station address the identity block gives, if it gives one (R185). -/
def identityAddress (id : Option Addr) : Option Addr :=
  id.filter fun a => !a.isGroup && a != 0 && a != BitVec.allOnes 48

/-- Steps 1 and 2 of R190: every transceiver sent OFF, the identity block read and the memory's presence recorded. -/
def readIdentity (s : State) : State :=
  { s with
    lines := s.lines.map fun l => { l with command := some .off }
    mgmt := { s.mgmt with
      identity := if s.memory.answers then s.memory.identity else none
      station := if s.memory.answers then identityAddress s.memory.identity else none
      stationSource :=
        if s.memory.answers && (identityAddress s.memory.identity).isSome then .identity else .unset
      storePresent := s.memory.answers } }

/-- Steps 3 and 4 of R190 after a warm reset: the image is loaded if it passes its check, and lock-at-start applied;
otherwise the defaults stand and CONFIG_DEFAULTED is raised. -/
def warmLoad (s : State) : State :=
  if imagePasses s.memory then
    let s := loadImage s.memory.image.body s
    s.modMgmt fun m => { m with imageCheck := some .passed, locked := m.lockAtStart }
  else
    let noStore := !s.memory.answers
    raise none (.configDefaulted noStore) (s.modMgmt fun m =>
      { m with imageCheck := some (if noStore then .noStore else .imageFailed) })

/-- Step 5 of R190: a set marker becomes an ABORTED_RESET record (R147). -/
def settleMarker (s : State) : State :=
  match s.seq.marker with
  | none => s
  | some m =>
    let seq := nextSequence s.seq.counter
    let s := writeRecord
      { seq := seq, line := m.line, program := m.program, origin := m.origin, start := m.start
        stop := s.mgmt.time, outcome := .abortedReset, grade := .none, interrupted := false
        guardTripped := false, results := [] } s
    (raise (some m.line) (.testDone seq .abortedReset .none) s).modSeq fun q => { q with marker := none }

/-- Step 6 of R190: every line whose admin is ENABLED enters DOWN; no LINE_STATE is raised, since the start-up has not
completed (R87, R89). -/
def enableLines (s : State) : State :=
  (indexes 24).foldl (fun s n => if (s.line n).cfg.enabled then enterCore n .down .enabled s else s) s

/-- The start-up of R190, steps 1 to 7. -/
def runStartUp (cold : Bool) (s : State) : State :=
  let s := readIdentity s
  let s := if cold then s else warmLoad s
  let s := enableLines (settleMarker s)
  (raise none (.resetCause s.counts.resetCause) s).modMgmt fun m => { m with phase := .started }

/-- The completion of the start-up (R191): the first sample, the power state (R163), the recompute, the timers, and
the sequencer's IDLE. -/
def completeStartUp (sample : Nat) (s : State) : State :=
  let chosen := if s.power.mainsOk then .mains else batteryChoice s.power sample
  let s := setPowerState chosen (s.modPower fun p => { p with sample := some (sample, s.mgmt.time) })
  let s := recompute s
  let s := s.modSched fun c => { c with refill := some Config.refillMs }
  let s := s.modStations fun t => { t with sweep := some Config.sweepMs }
  enterIdle (s.modMgmt fun m => { m with phase := .running })

/-! ## Traffic reset -/

/-- Whether a record was built by the Management Engine (R33, "origin"). -/
def State.isPart (s : State) (id : Nat) : Bool := (s.record id).any fun r => r.origin == RecOrigin.part

/-- The uplink transmission in progress abandoned, a subscriber frame's counted as transmit aborted, a management
frame's without a count (R41). -/
def discardUplink (s : State) : State :=
  match s.sched.uplinkTx with
  | none => s
  | some t =>
    let s := if s.isPart t.recId then s else countDev .transmitAborted s
    dropRef t.recId (s.modSched fun c => { c with uplinkTx := none })

/-- The craft transmission and every entry of the transmit list discarded without a count (R41). -/
def discardManagement (s : State) : State :=
  let ids := s.sched.craftTx.toList ++ s.mgmt.txList.map TxEntry.recId
  let s := (s.modSched fun c => { c with craftTx := none }).modMgmt fun m => { m with txList := [] }
  ids.foldl (fun s id => dropRef id s) s

/-- Every holder of every line flushed, and every other holder let go (R41). The free count is 4,096 and the pool is
armed afterwards (R36). -/
def releaseAll (s : State) : State :=
  let s := (indexes 24).foldl (fun s n =>
    flush n { down := true, up := true, wake := true, hand := true, cause := .flush } s) s
  (discardManagement (discardUplink s)).modPool fun p => { p with recs := [], free := Config.poolCells, armed := true }

/-- A line after the traffic reset's entry to DOWN: timers stopped, marks, ready indication and sense flag clear, and
rates and credit 0 (R15, R82, R87). -/
def Line.trafficCleared (l : Line) : Line :=
  { l with
    downRate := 0, upRate := 0, sense := false, credit := 0, idle := none, ready := false, wakePending := false
    trainTimer := none, wakeTimer := none, quietFor := none, drainTimer := none, takenFrom := none }

/-- Every line not DISABLED or BARRED goes to DOWN, with LINE_STATE and reason TRAFFIC_RESET for each that was not
there (R87). DESIGN CHOICE: in ascending line order, log entry 35. -/
def trafficLines (s : State) : State :=
  let s := (indexes 24).foldl (fun s n =>
    if (s.line n).st = .disabled ∨ (s.line n).st = .barred then s else enterCore n .down .trafficReset s) s
  { s with lines := s.lines.map Line.trafficCleared }

/-- The running test or external connection ended ABORTED_RESET, and the sequencer, matrix and unit at rest (R147,
R111, R118). DEDUCED: TEST_DONE is raised, log entry 15. -/
def trafficTests (s : State) : State :=
  let s := closeActivity .abortedReset false s
  let s := s.modSeq fun q => { q with
    st := .idle, suspended := false, extack := false, queue := [], suspendTimer := none
    groups := q.groups.map fun g => { g with due := .fill 24 false } }
  s.modAccess fun a => { a with
    matrix := .idle, settleTimer := none, unit := .idle, spec := none, dischargeTimer := none, stopping := false
    sourceOn := false, toneOn := false, tripped := false, indication := false, legMv := 0 }

/-- TRAFFIC RESET in the order of R192. -/
def doTrafficReset (s : State) : State :=
  let s := releaseAll s
  let s := dropStations Entry.isLearned s
  let s := trafficLines (s.modPower fun p => { p with wakeList := [] })
  let s := trafficTests s
  let s := s.modSched fun c => { c with
    prioPtr := 0, bulkPtr := 0, sparePtr := 0, prioPause := none, bulkPause := none }
  let s := setResetFlag .traffic (recompute s)
  idleStep s

end Sys2Proof.Machine
end

