-- ==== Sys2Proof/Machine/Backhaul.lean ====
section
/-! DEFINITION. Backhaul frames and the timers they drive: capacity advisories and the advisory hold (03, section 3.2),
class pauses (04, section 4.4). -/

namespace Sys2Proof.Machine

/-- The advised figure as it is stored (R49, step 2). -/
def storedFigure (figure : Nat) : Nat := min Config.capacityMax figure

/-- A capacity advisory taken, in the order of R49. -/
def takeAdvisory (figure : Nat) (s : State) : State :=
  let s := countDev .advisories s
  let wasLost := s.shares.source == .lost
  let s := s.modShares fun x => { x with
    clampedAdvisories := if Config.capacityMax < figure then bump x.clampedAdvisories else x.clampedAdvisories
    advised := some (storedFigure figure)
    lastAdvisory := some s.mgmt.time
    holdTimer := some (x.hold * 1000) }
  let s := if wasLost then raise none (.advisoryRestored (storedFigure figure)) s else s
  recompute (s.modShares fun x => { x with source := .advised })

/-- One class's pause timer after a class pause that names it: started, restarted or stopped (R77). -/
def pauseOf (duration : Nat) : Option Nat := if duration = 0 then none else some duration

/-- A class pause taken (R77): bit 0 of the mask names PRIO and bit 1 BULK (11.3). -/
def takePause (mask : Byte) (duration : Nat) (s : State) : State :=
  (countDev .classPauses s).modSched fun c => { c with
    prioPause := if mask.getLsbD 0 then pauseOf duration else c.prioPause
    bulkPause := if mask.getLsbD 1 then pauseOf duration else c.bulkPause }

/-- CAPACITY_ADVISORY (R49). Before the start-up has completed it is dropped as R22 states. -/
def execCapacityAdvisory (figure : Nat) (s : State) : Host.Outcome State Fault Refusal :=
  .next (if s.running then takeAdvisory figure s else countDeviceDrop .lineNotReady s)

/-- CLASS_PAUSE (R77). Before the start-up has completed it is dropped as R22 states. -/
def execClassPause (mask : Byte) (duration : Nat) (s : State) : Host.Outcome State Fault Refusal :=
  .next (if s.running then takePause mask duration s else countDeviceDrop .lineNotReady s)

/-- HOLD_TIMER_EXPIRY (R50). -/
def execHoldTimerExpiry (s : State) : Host.Outcome State Fault Refusal :=
  .next (match s.shares.holdTimer with
    | none => s
    | some _ =>
      let s := s.modShares fun x => { x with source := .lost, holdTimer := none }
      recompute (raise none (.advisoryLost s.shares.advised) s))

/-- PAUSE_TIMER_EXPIRY (R78): the class is no longer paused; the choice that may follow is UPSTREAM_CHOICE. -/
def execPauseTimerExpiry (c : Cls) (s : State) : Host.Outcome State Fault Refusal :=
  .next (s.modSched fun x =>
    match c with
    | .prio => { x with prioPause := none }
    | .bulk => { x with bulkPause := none })

end Sys2Proof.Machine
end

