-- ==== Sys2Proof/Machine/FramePath.lean ====
section
/-! DEFINITION. The frame path (02): reception checks, recognition, the downstream decision, replication, the upstream
source check, admission, and the hand-off to the transceivers. -/

namespace Sys2Proof.Machine

/-! ## Reception -/

/-- The first reception check a frame fails, if any (R22). -/
def receptionDrop (greatest : Nat) (f : List Byte) : Option DevCount :=
  if checkGood f = false then some .badCheck
  else if f.length < Config.leastFrame then some .undersize
  else if greatest < f.length then some .oversize
  else none

/-- A frame checked at its port: dropped under its cause, dropped as line not ready until the start-up completes, or
passed on (R22). -/
def receive (greatest : Nat) (f : List Byte) (pass : State → State) (s : State) : State :=
  match receptionDrop greatest f with
  | some c => countDev c s
  | none => if s.running then pass s else countDeviceDrop .lineNotReady s

/-! ## Queues -/

/-- The three queues of a line (section 2.6). -/
inductive QueueKind | down | prio | bulk
deriving DecidableEq, Repr

def Line.queue (l : Line) : QueueKind → List Nat
  | .down => l.downQ
  | .prio => l.prioQ
  | .bulk => l.bulkQ

/-- The queue's limit in cells (R14). -/
def Line.limit (l : Line) : QueueKind → Nat
  | .down => l.cfg.downLimit
  | .prio => l.cfg.prioLimit
  | .bulk => l.cfg.bulkLimit

def Line.setQueue (k : QueueKind) (q : List Nat) (l : Line) : Line :=
  match k with
  | .down => { l with downQ := q }
  | .prio => { l with prioQ := q }
  | .bulk => { l with bulkQ := q }

/-- A reference appended at the tail of a queue (R37). -/
def pushQueue (n : LineNo) (k : QueueKind) (id : Nat) (s : State) : State :=
  refreshIdle n (s.modLine n fun l => l.setQueue k (l.queue k ++ [id]))

/-- The queue check of a line's queue (R35). -/
def queueRoom (s : State) (n : LineNo) (k : QueueKind) (cells : Nat) : Bool :=
  queueCheck s ((s.line n).queue k) ((s.line n).limit k) cells

/-- Whether a subscriber frame passes both checks of admission (R35). -/
def accepts (s : State) (n : LineNo) (k : QueueKind) (cells : Nat) : Bool :=
  poolCheck s cells && queueRoom s n k cells

/-- A subscriber frame admitted to a queue, or dropped on the line under the cause of the check it fails (R35). -/
def queueFrame (n : LineNo) (k : QueueKind) (poolFull queueFull : LineCause) (r : FrameRec) (s : State) : State :=
  if poolCheck s r.cells = false then countDrop n poolFull s
  else if queueRoom s n k r.cells = false then countDrop n queueFull s
  else pushQueue n k s.pool.nextId (makeRecord r s)

/-! ## Downstream -/

/-- The record of a downstream subscriber frame, stored as it arrived (R26, R33). -/
def downRecord (f : List Byte) (refs : Nat) : FrameRec :=
  { bytes := f, cls := none, origin := .uplink, refs := refs }

/-- A unicast frame for a DORMANT line (R29). -/
def toWakeStore (n : LineNo) (f : List Byte) (s : State) : State :=
  let r := downRecord f 1
  if wakeOnDownAllowed s n = false then countDrop n .lineNotReady s
  else if (s.line n).wakeStore.isSome then countDrop n .wakeStoreBusy s
  else if poolCheck s r.cells = false then countDrop n .downPoolFull s
  else
    let id := s.pool.nextId
    wakeRequest n .downstream ((makeRecord r s).modLine n fun l => { l with wakeStore := some id })

/-- A unicast frame whose line and VLAN are settled, by the line's state (R28). -/
def decideUnicast (n : LineNo) (f : List Byte) (s : State) : State :=
  let r := downRecord f 1
  match (s.line n).st with
  | .up => queueFrame n .down .downPoolFull .downQueueFull r s
  | .quiet =>
    let ok := accepts s n .down r.cells
    let s := queueFrame n .down .downPoolFull .downQueueFull r s
    if ok && wakeOnDownAllowed s n then wakeRequest n .downstream s else s
  | .dormant => toWakeStore n f s
  | .draining | .held => countDrop n .held s
  | .down | .training | .disabled | .barred => countDrop n .lineNotReady s

/-- A tagged unicast frame looked up by its destination (R27). -/
def unicast (f : List Byte) (s : State) : State :=
  match entryFor s (frameDst f) with
  | none => countDev .unknownDestination s
  | some e =>
    if (s.line e.line).cfg.vlan = frameVlan f then decideUnicast e.line f s else countDev .vlanMismatch s

/-- The recipients of a tagged group frame (R30). -/
def recipients (s : State) (f : List Byte) : List LineNo :=
  (indexes 24).filter fun n =>
    (s.line n).cfg.vlan == frameVlan f && (s.line n).cfg.broadcast && (s.line n).st == .up

/-- A tagged group frame replicated, in the steps of R30. -/
def replicate (f : List Byte) (s : State) : State :=
  let cells := cellsFor f.length
  let rs := recipients s f
  let yes := rs.filter fun n => queueRoom s n .down cells
  let no := rs.filter fun n => !queueRoom s n .down cells
  if rs.isEmpty then countDev .unknownDestination s
  else if poolCheck s cells = false then countDeviceDrop .downPoolFull s
  else
    let s := no.foldl (fun s n => countDrop n .downQueueFull s) s
    if yes.isEmpty then s
    else
      let id := s.pool.nextId
      yes.foldl (fun s n => pushQueue n .down id s) (makeRecord (downRecord f yes.length) s)

/-- Subscriber traffic from the uplink sorted (R26). -/
def sortDownstream (f : List Byte) (s : State) : State :=
  if isTagged f = false then countDev .untaggedDownstream s
  else if f.length < Config.leastTaggedFrame then countDev .undersize s
  else if (frameDst f).isGroup then replicate f s
  else unicast f s

/-! ## Recognition -/

/-- Whether an uplink frame is a backhaul frame (R23). -/
def isBackhaul (s : State) (f : List Byte) : Bool :=
  s.shares.backhaul == some (frameSrc f) && frameEthertype f == s.shares.ethertype

/-- A backhaul frame consumed by its message (R23, 11.3). -/
def backhaulFrame (f : List Byte) (s : State) : State :=
  let at_ := contentAt f
  let b := frameBody f
  if at_ + 5 ≤ b.length ∧ wireField b at_ 1 = 1 then takeAdvisory (wireField b (at_ + 1) 4) s
  else if at_ + 4 ≤ b.length ∧ wireField b at_ 1 = 2 then
    takePause (BitVec.ofNat 8 (wireField b (at_ + 1) 1)) (wireField b (at_ + 2) 2) s
  else countDev .badFormat s

/-- The two of a control frame's three conditions that do not read its destination (R24). -/
def controlMarks (s : State) (f : List Byte) : Bool :=
  isTagged f && frameVlan f == s.mgmt.vlan && frameEthertype f == s.mgmt.ethertype

/-- Whether an uplink frame is a control frame; none is while the station address is unset (R24). -/
def isControl (s : State) (f : List Byte) : Bool :=
  s.mgmt.station == some (frameDst f) && controlMarks s f

/-- Whether a craft frame is a control frame; the destination is waived while the station address is unset (R25). -/
def isCraftControl (s : State) (f : List Byte) : Bool :=
  (s.mgmt.station.isNone || s.mgmt.station == some (frameDst f)) && controlMarks s f

/-- Whether manager-only refuses a control frame's source (R24). -/
def managerRefuses (s : State) (f : List Byte) : Bool :=
  s.mgmt.managerOnly && s.mgmt.manager.any fun a => a != frameSrc f

/-- A control frame joins the control queue, or is dropped as control overflow (R177). -/
def queueControl (p : Port) (f : List Byte) (s : State) : State :=
  if s.mgmt.controlQ.length < Config.controlPlaces then
    s.modMgmt fun m => { m with controlQ := m.controlQ ++ [(p, f)] }
  else countDev .controlOverflow s

/-- An uplink frame that has passed reception (R23, R24, R26). -/
def recogniseUplink (f : List Byte) (s : State) : State :=
  if isBackhaul s f then backhaulFrame f s
  else if isControl s f then
    if managerRefuses s f then countDev .badFormat s else queueControl .uplink f s
  else sortDownstream f s

/-- A craft frame that has passed reception (R25). -/
def recogniseCraft (service : Bool) (f : List Byte) (s : State) : State :=
  if service = false then countDev .craftWithoutService s
  else if isCraftControl s f then queueControl .craft f s
  else countDev .badFormat s

/-! ## Upstream -/

/-- A drop of the source check (R4). -/
def spoofed (n : LineNo) (s : State) : Option Cls × State := (none, countDrop n .spoof s)

/-- The entry of a LEARNED station moved to line `n` (R5). -/
def moveEntry (n : LineNo) (i : Fin 96) (e : Entry) (s : State) : Option Cls × State :=
  let c := (s.line n).cfg.defaultClass
  (some c, countDev .move (setStation i (some { e with line := n, cls := c, origin := .learned 0 }) s))

/-- An unknown source learned, or refused (R6). -/
def learnEntry (n : LineNo) (src : Addr) (s : State) : Option Cls × State :=
  let cfg := (s.line n).cfg
  match lowestInvalid s with
  | some i =>
    if cfg.learning && decide (stationCount s n none < cfg.stationLimit) then
      (some cfg.defaultClass,
        setStation i (some { addr := src, line := n, cls := cfg.defaultClass, origin := .learned 0 }) s)
    else (none, countDrop n .learnRefused s)
  | none => (none, countDrop n .learnRefused s)

/-- The source check: a class for a frame passed on, none for a frame dropped, and the table it leaves (R4 to R6). -/
def sourceCheck (n : LineNo) (src : Addr) (s : State) : Option Cls × State :=
  if src.isGroup then spoofed n s
  else
    match lookupStation s src with
    | none => learnEntry n src s
    | some i =>
      match s.stations.entries.get i with
      | none => learnEntry n src s
      | some e =>
        if e.line = n then
          (some e.cls,
            if e.isLearned then setStation i (some { e with origin := .learned 0 }) s else s)
        else if e.isLearned && (s.line n).cfg.learning
            && decide (stationCount s n (some i) < (s.line n).cfg.stationLimit) then moveEntry n i e s
        else spoofed n s

/-- The queue of an upstream class (R32). -/
def QueueKind.ofCls : Cls → QueueKind
  | .prio => .prio
  | .bulk => .bulk

/-- A frame passed on by the source check, tagged and queued (R32). -/
def queueUpstream (n : LineNo) (f : List Byte) (c : Cls) (s : State) : State :=
  queueFrame n (.ofCls c) .upPoolFull .upQueueFull
    { bytes := insertTag (s.line n).cfg.vlan f, cls := some c, origin := .line n, refs := 1 } s

/-- Whether an upstream frame is a control frame from a home (R31, check 2). -/
def controlFromHome (s : State) (f : List Byte) : Bool :=
  s.mgmt.station == some (frameDst f) && frameEthertype f == s.mgmt.ethertype

/-- An upstream frame that has passed reception, in the order of R31. -/
def upstream (n : LineNo) (f : List Byte) (s : State) : State :=
  if isTagged f then countDev .taggedFromHome s
  else if controlFromHome s f then countDev .controlFromLine s
  else
    match (s.line n).st with
    | .draining => countDrop n .held s
    | .up =>
      match sourceCheck n (frameSrc f) s with
      | (some c, s) => queueUpstream n f c s
      | (none, s) => s
    | _ => countDrop n .lineNotReady s

/-! ## Hand-offs -/

/-- The frame a hand-off would take: the wake store's, or the head of the downstream queue (R42). -/
def Line.nextDown (l : Line) : Option Nat := l.wakeStore.orElse fun _ => l.downQ.head?

/-- Whether a hand-off can start for a line (R42). -/
def Line.canHandOff (l : Line) : Bool :=
  eligibleState l.st && l.ready && l.handOff.isNone && l.nextDown.isSome

/-- The line with its next downstream frame in hand-off (R42). -/
def Line.handed (l : Line) : Line :=
  { l with
    handOff := l.nextDown
    ready := false
    wakeStore := none
    downQ := if l.wakeStore.isSome then l.downQ else l.downQ.drop 1 }

/-- The bytes that a line's hand-off gives the transceiver: the record's frame with its tag removed (R42). -/
def State.handedBytes (s : State) (n : LineNo) : Option (List Byte) :=
  ((s.line n).handOff.bind s.record).map fun r => removeTag r.bytes

/-! ## The steps -/

/-- UPLINK_FRAME_RECEIVED (R22). -/
def execUplinkFrameReceived (f : List Byte) (s : State) : Host.Outcome State Fault Refusal :=
  .next (receive Config.greatestFrame f (recogniseUplink f) s)

/-- CRAFT_FRAME_RECEIVED (R25). The SERVICE level is kept as last seen. DESIGN CHOICE: log entry 13. -/
def execCraftFrameReceived (service : Bool) (f : List Byte) (s : State) : Host.Outcome State Fault Refusal :=
  .next (receive Config.greatestFrame f (recogniseCraft service f) (s.modMgmt fun m => { m with service := service }))

/-- LINE_LINK_FRAME_RECEIVED (R31). -/
def execLineLinkFrameReceived (n : LineNo) (f : List Byte) (s : State) : Host.Outcome State Fault Refusal :=
  .next (receive Config.greatestLineFrame f (upstream n f) s)

/-- HAND_OFF_START (R42). -/
def execHandOffStart (n : LineNo) (s : State) : Host.Outcome State Fault Refusal :=
  .next (if (s.line n).canHandOff then refreshIdle n (s.modLine n Line.handed) else s)

/-- HAND_OFF_COMPLETE (R43). -/
def execHandOffComplete (n : LineNo) (s : State) : Host.Outcome State Fault Refusal :=
  .next (match (s.line n).handOff with
    | none => s
    | some id =>
      let len := ((s.handedBytes n).getD []).length
      countDelivered n len (refreshIdle n (dropRef id (s.modLine n fun l => { l with handOff := none }))))

/-- DRAIN_COMPLETE (R44): the last condition of drain complete comes true for a DRAINING line. -/
def execDrainComplete (n : LineNo) (s : State) : Host.Outcome State Fault Refusal := .next (drainReport n s)

end Sys2Proof.Machine
end

