-- ==== Sys2Proof/Machine/Scheduler.lean ====
section
/-! DEFINITION. The Upstream Scheduler and the two ports' transmitters (04): the choice of the next frame, the charge,
the completion of a transmission, refill, and the uplink and craft links. -/

namespace Sys2Proof.Machine

/-! ## The choice -/

/-- The lines in round-robin order from a pointer, wrapping from 23 to 0 (R72). -/
def roundRobin (p : LineNo) : List LineNo := (indexes 24).map fun k => p + k

/-- The line a pointer names after line `n` was served: (n + 1) mod 24 (R72). -/
def nextLine (n : LineNo) : LineNo := n + 1

/-- What a choice names (R70): a management frame, a line's PRIO or BULK frame chosen by a credited pass, or one chosen
by the spare pass. -/
inductive Choice
  | management (e : TxEntry)
  | credited (n : LineNo) (c : Cls)
  | spare (n : LineNo) (c : Cls)
deriving DecidableEq, Repr

/-- Whether a class is paused (section 4.4). -/
def Sched.paused (x : Sched) : Cls → Bool
  | .prio => x.prioPause.isSome
  | .bulk => x.bulkPause.isSome

/-- A line's upstream queue of a class. -/
def Line.upQueue (l : Line) (c : Cls) : List Nat := l.queue (.ofCls c)

/-- Step 1: the first entry that is to leave by the uplink, unless PRIO is paused (R71). -/
def managementPass (s : State) : Option Choice :=
  if s.sched.paused .prio then none
  else (s.mgmt.txList.find? fun e => e.port == .uplink).map .management

/-- The pointer of a credited pass. -/
def Sched.pointer (x : Sched) : Cls → LineNo
  | .prio => x.prioPtr
  | .bulk => x.bulkPtr

/-- Steps 2 and 3: the first line from the pointer with a frame of the class and credit above 0 (R72, R73). -/
def creditedPass (c : Cls) (s : State) : Option Choice :=
  if s.sched.effective = 0 ∨ s.sched.paused c = true then none
  else ((roundRobin (s.sched.pointer c)).find? fun n =>
    !((s.line n).upQueue c).isEmpty && decide (0 < (s.line n).credit)).map fun n => .credited n c

/-- Whether a line has a frame of a class that is not paused (R74). -/
def offers (s : State) (n : LineNo) (c : Cls) : Bool := !((s.line n).upQueue c).isEmpty && !s.sched.paused c

/-- Step 4: the first line from the spare pointer with a frame of a class not paused, its PRIO frame first (R74). -/
def sparePass (s : State) : Option Choice :=
  if s.sched.effective = 0 ∨ s.shares.spare = false then none
  else ((roundRobin s.sched.sparePtr).find? fun n => offers s n .prio || offers s n .bulk).map fun n =>
    .spare n (if offers s n .prio then .prio else .bulk)

/-- Whether a choice is made at all: the start-up has completed, the link is up and the transmitter is free (R70). -/
def mayChoose (s : State) : Bool := s.running && s.sched.uplinkUp && s.sched.uplinkTx.isNone

/-- The choice: the four sources in turn, the first that yields a frame (R70). -/
def choose (s : State) : Option Choice :=
  (managementPass s).orElse fun _ => (creditedPass .prio s).orElse fun _ =>
    (creditedPass .bulk s).orElse fun _ => sparePass s

/-- The charge for a record: 8 times its stored length, in bits (R69). -/
def chargeOf (s : State) (id : Nat) : Int := 8 * ((s.record id).elim 0 FrameRec.length : Nat)

/-- The head of a line's class queue becomes the uplink transmission (R75). -/
def takeHead (n : LineNo) (c : Cls) (spare : Bool) (s : State) : State :=
  match (s.line n).upQueue c with
  | [] => s
  | id :: rest =>
    refreshIdle n ((s.modLine n fun l => l.setQueue (.ofCls c) rest).modSched fun x =>
      { x with uplinkTx := some { recId := id, spare := spare } })

/-- The charge of a credited pass (R69). -/
def chargeHead (n : LineNo) (c : Cls) (s : State) : State :=
  match (s.line n).upQueue c with
  | [] => s
  | id :: _ => s.modLine n fun l => { l with credit := l.credit - chargeOf s id }

/-- A choice carried out: the frame's transmission starts at once, with its charge and its pointer (R69 to R75). -/
def startChoice (p : Choice) (s : State) : State :=
  match p with
  | .management e =>
    (s.modMgmt fun m => { m with txList := m.txList.erase e }).modSched fun x =>
      { x with uplinkTx := some { recId := e.recId, spare := false } }
  | .credited n c =>
    (takeHead n c false (chargeHead n c s)).modSched fun x =>
      match c with
      | .prio => { x with prioPtr := nextLine n }
      | .bulk => { x with bulkPtr := nextLine n }
  | .spare n c => (takeHead n c true s).modSched fun x => { x with sparePtr := nextLine n }

/-- One choice of the scheduler (R70). -/
def makeChoice (s : State) : State :=
  if mayChoose s then (choose s).elim s fun p => startChoice p s else s

/-! ## Completion -/

/-- The counts of a completed transmission, for a subscriber frame, in the set its origin line names (R76). -/
def countTransmission (r : FrameRec) (spare : Bool) (s : State) : State :=
  match r.origin with
  | .line n => countSent n (r.length - 4) spare s
  | .uplink | .part => s

/-- Whether a record is the reply whose completion starts the pending device reset (R193). -/
def startsReset (s : State) (id : Nat) : Bool := s.mgmt.devReset.any fun d => d.reply == some id

/-- The completion of a transmission of record `id`: the reference is let go and the counts are made, and a reply that
a device reset waits for starts it (R76, R193). -/
def completeTransmission (id : Nat) (spare : Bool) (s : State) : State :=
  if startsReset s id then warmReset .device s
  else
    match s.record id with
    | none => s
    | some r => countTransmission r spare (dropRef id s)

/-- The refill of one line (R67). -/
def Line.refilled (l : Line) : Line := { l with credit := min (depthOf l.share) (l.credit + l.share) }

/-! ## The craft transmitter -/

/-- The first craft-bound entry of the transmit list (R81). -/
def craftHead (s : State) : Option TxEntry := s.mgmt.txList.find? fun e => e.port == .craft

/-- Whether the craft transmitter takes an entry (R81). -/
def mayCraft (s : State) : Bool := s.sched.craftUp && s.sched.craftTx.isNone && (craftHead s).isSome

/-- Every craft-bound entry removed and its reference dropped without a count (R81). -/
def dropCraftEntries (s : State) : State :=
  let ids := (s.mgmt.txList.filter fun e => e.port == .craft).map TxEntry.recId
  ids.foldl (fun s id => dropRef id s)
    (s.modMgmt fun m => { m with txList := m.txList.filter fun e => e.port != .craft })

/-! ## The steps -/

/-- REFILL (R67): each 1 ms once the start-up has completed; the timer is started again. -/
def execRefill (s : State) : Host.Outcome State Fault Refusal :=
  .next (match s.sched.refill with
    | none => s
    | some _ => { s with
        lines := s.lines.map Line.refilled
        sched := { s.sched with refill := some Config.refillMs } })

/-- UPSTREAM_CHOICE (R70 to R75). DEDUCED: the choice is a step of its own, log entry 7. -/
def execUpstreamChoice (s : State) : Host.Outcome State Fault Refusal := .next (makeChoice s)

/-- TRANSMISSION_COMPLETE (R76). -/
def execTransmissionComplete (s : State) : Host.Outcome State Fault Refusal :=
  .next (match s.sched.uplinkTx with
    | none => s
    | some t => completeTransmission t.recId t.spare (s.modSched fun x => { x with uplinkTx := none }))

/-- UPLINK_LINK_DOWN (R79). -/
def execUplinkLinkDown (s : State) : Host.Outcome State Fault Refusal :=
  .next (
    let tx := s.sched.uplinkTx
    let s := s.modSched fun x => { x with uplinkUp := false, uplinkTx := none, prioPause := none, bulkPause := none }
    match tx with
    | none => s
    | some t => countDev .transmitAborted (dropRef t.recId s))

/-- UPLINK_LINK_UP (R80): the link is up and a choice is made at once. -/
def execUplinkLinkUp (s : State) : Host.Outcome State Fault Refusal :=
  .next (makeChoice (s.modSched fun x => { x with uplinkUp := true }))

/-- CRAFT_TRANSMISSION_START (R81). -/
def execCraftTransmissionStart (s : State) : Host.Outcome State Fault Refusal :=
  .next (if mayCraft s then
      match craftHead s with
      | none => s
      | some e =>
        (s.modMgmt fun m => { m with txList := m.txList.erase e }).modSched fun x =>
          { x with craftTx := some e.recId }
    else s)

/-- CRAFT_TRANSMISSION_COMPLETE (R81, R193). -/
def execCraftTransmissionComplete (s : State) : Host.Outcome State Fault Refusal :=
  .next (match s.sched.craftTx with
    | none => s
    | some id => completeTransmission id false (s.modSched fun x => { x with craftTx := none }))

/-- CRAFT_LINK_DOWN (R81). -/
def execCraftLinkDown (s : State) : Host.Outcome State Fault Refusal :=
  .next (
    let tx := s.sched.craftTx
    let s := s.modSched fun x => { x with craftUp := false, craftTx := none }
    let s := match tx with
      | none => s
      | some id => countDev .transmitAborted (dropRef id s)
    dropCraftEntries s)

/-- CRAFT_LINK_UP (R81). -/
def execCraftLinkUp (s : State) : Host.Outcome State Fault Refusal :=
  .next (s.modSched fun x => { x with craftUp := true })

end Sys2Proof.Machine
end

