-- ==== Sys2Proof/Machine/LineEvents.lean ====
section
/-! DEFINITION. The steps of the Line Ports (05): status reports, sense edges, the line timers and the grant of a wake;
and the aging sweep of the Station Table (R8). -/

namespace Sys2Proof.Machine

/-! ## Status reports -/

/-- Status reports and sense edges act only once the start-up has completed (R84, R87). -/
def whenRunning (f : State → State) (s : State) : State := if s.running then f s else s

/-- A training ended without LINK_UP: the line enters DOWN and its training failure count is raised (R92). -/
def failTraining (n : LineNo) (reason : Reason) (s : State) : State :=
  enter n .down reason (s.modLine n fun l => { l with trainFails := bump l.trainFails })

/-- READY sets the ready indication in TRAINING, UP and DRAINING (R42, R84). -/
def takeReady (n : LineNo) (s : State) : State :=
  if awakeState (s.line n).st then s.modLine n fun l => { l with ready := true } else s

/-- ACTIVITY: a wake request of cause START from DOWN, and of cause SENSE from QUIET if the policy permits it
(R84, R91). -/
def takeActivity (n : LineNo) (s : State) : State :=
  match (s.line n).st with
  | .down => wakeRequest n .start s
  | .quiet => if (currentPolicy s).wakeSense then wakeRequest n .sense s else s
  | _ => s

/-- LINK_UP: in TRAINING the rates are stored and the line enters UP; in UP, DRAINING and QUIET it is taken as RATES
(R84, R92). The entry's single recompute serves for the rate too (R88). -/
def takeLinkUp (n : LineNo) (down up : Nat) (s : State) : State :=
  match (s.line n).st with
  | .training => enter n .up .linkUp (s.modLine n (storeRates down up))
  | .up | .draining | .quiet => takeRates n down up s
  | _ => s

/-- RATES in UP, DRAINING and QUIET (R93, R94). -/
def takeRatesReport (n : LineNo) (down up : Nat) (s : State) : State :=
  match (s.line n).st with
  | .up | .draining | .quiet => takeRates n down up s
  | _ => s

/-- LINK_DOWN by the line's state (R92, R93, R94, R99). DESIGN CHOICE: at a DRAINING line the grants that the entry to HELD
makes room for come before the held report, log entry 37. -/
def takeLinkDown (n : LineNo) (s : State) : State :=
  match (s.line n).st with
  | .training => failTraining n .linkFail s
  | .up | .quiet => enter n .down .linkDown s
  | .draining => heldReport (enter n .held .linkDown s)
  | _ => s

/-- AWAKE while a wake is pending in UP (R95). -/
def takeAwake (n : LineNo) (s : State) : State :=
  if (s.line n).st = .up ∧ (s.line n).wakePending = true then
    s.modLine n fun l => { l with wakeTimer := none, wakePending := false }
  else s

/-- Whether an edge matches a line's sense edge field (R103). -/
def edgeMatches (f : SenseEdge) (rising : Bool) : Bool :=
  match f with
  | .rising => rising
  | .falling => !rising
  | .both => true

/-- A matching sense edge: the flag, the event, and the wake request of the line's state (R103). -/
def takeSense (n : LineNo) (rising : Bool) (s : State) : State :=
  if edgeMatches (s.line n).cfg.senseEdge rising then
    let s := raise (some n) (.sense rising) (s.modLine n fun l => { l with sense := true })
    match (s.line n).st with
    | .down => wakeRequest n .start s
    | .quiet | .dormant => if (currentPolicy s).wakeSense then wakeRequest n .sense s else s
    | _ => s
  else s

/-! ## The steps -/

/-- READY (R42, R84). -/
def execReady (n : LineNo) (s : State) : Host.Outcome State Fault Refusal := .next (whenRunning (takeReady n) s)

/-- ACTIVITY (R90, R91). -/
def execActivity (n : LineNo) (s : State) : Host.Outcome State Fault Refusal := .next (whenRunning (takeActivity n) s)

/-- LINK_UP (R92). -/
def execLinkUp (n : LineNo) (down up : Nat) (s : State) : Host.Outcome State Fault Refusal :=
  .next (whenRunning (takeLinkUp n down up) s)

/-- RATES (R93). -/
def execRates (n : LineNo) (down up : Nat) (s : State) : Host.Outcome State Fault Refusal :=
  .next (whenRunning (takeRatesReport n down up) s)

/-- LINK_FAIL in TRAINING (R92). -/
def execLinkFail (n : LineNo) (s : State) : Host.Outcome State Fault Refusal :=
  .next (whenRunning (fun s => if (s.line n).st = .training then failTraining n .linkFail s else s) s)

/-- LINK_DOWN (R92, R93, R94, R99). -/
def execLinkDown (n : LineNo) (s : State) : Host.Outcome State Fault Refusal := .next (whenRunning (takeLinkDown n) s)

/-- AWAKE (R95). -/
def execAwake (n : LineNo) (s : State) : Host.Outcome State Fault Refusal := .next (whenRunning (takeAwake n) s)

/-- SENSE_EDGE (R103). -/
def execSenseEdge (n : LineNo) (rising : Bool) (s : State) : Host.Outcome State Fault Refusal :=
  .next (whenRunning (takeSense n rising) s)

/-- WAKE_GRANT: the oldest entry granted while the awake count is below the budget (R170). -/
def execWakeGrant (s : State) : Host.Outcome State Fault Refusal := .next (grants 1 s)

/-- TRAINING_TIMER_EXPIRY (R92). -/
def execTrainingTimerExpiry (n : LineNo) (s : State) : Host.Outcome State Fault Refusal :=
  .next (if (s.line n).st = .training then failTraining n .trainingTimeout s else s)

/-- WAKE_TIMER_EXPIRY (R95). -/
def execWakeTimerExpiry (n : LineNo) (s : State) : Host.Outcome State Fault Refusal :=
  .next (if (s.line n).st = .up ∧ (s.line n).wakeTimer.isSome then enter n .down .wakeTimeout s else s)

/-- IDLE_TIMER_EXPIRY: the idle timer runs and the effective quiet delay is not never (R93). -/
def execIdleTimerExpiry (n : LineNo) (s : State) : Host.Outcome State Fault Refusal :=
  .next (if (s.line n).st = .up ∧ (s.line n).idle.isSome ∧ (effectiveQuiet (currentPolicy s) (s.line n)).isSome then
      enter n .quiet .idle s
    else s)

/-- DORMANT_TIMER_EXPIRY: in QUIET with a dormant delay (R94). -/
def execDormantTimerExpiry (n : LineNo) (s : State) : Host.Outcome State Fault Refusal :=
  .next (if (s.line n).st = .quiet ∧ (s.line n).cfg.dormantDelay ≠ 0 then enter n .dormant .dormantDelay s else s)

/-- DRAIN_TIMER_EXPIRY: the line is HELD and reported held (R99). DESIGN CHOICE: the grants that the entry makes room for
come before the held report, log entry 37. -/
def execDrainTimerExpiry (n : LineNo) (s : State) : Host.Outcome State Fault Refusal :=
  .next (if (s.line n).st = .draining then heldReport (enter n .held .drainLimit s) else s)

/-! ## The aging sweep -/

/-- An entry's age raised by one, holding at 255 (R8). -/
def Entry.aged (e : Entry) : Entry :=
  match e.origin with
  | .static => e
  | .learned a => { e with origin := .learned (bumpTo 255 a 1) }

/-- Whether a LEARNED entry's age is at or above the aging time (R8). -/
def Entry.old (aging : Nat) (e : Entry) : Bool :=
  match e.origin with
  | .static => false
  | .learned a => decide (aging ≤ a)

/-- The entries after a sweep (R8). -/
def sweepEntries (aging : Nat) (t : Tab 96 (Option Entry)) : Tab 96 (Option Entry) :=
  t.map fun e => (e.map Entry.aged).filter fun x => !x.old aging

/-- AGING_SWEEP (R8): the timer restarts at every expiry. -/
def execAgingSweep (s : State) : Host.Outcome State Fault Refusal :=
  .next (match s.stations.sweep with
    | none => s
    | some _ => s.modStations fun t =>
      { t with
        entries := if t.agingTime = 0 then t.entries else sweepEntries t.agingTime t.entries
        sweep := some Config.sweepMs })

end Sys2Proof.Machine
end

