-- ==== Sys2Proof/Machine/TestEvents.lean ====
section
/-! DEFINITION. The steps of the Test Access Matrix, the Measurement Unit and the Test Sequencer (06, 07): settles,
completions of measurements, the discharge wait, the guard, EXTREQ, the suspend timer and the routine ticks. -/

namespace Sys2Proof.Machine

/-! ## Reports to the sequencer -/

/-- The settled report: an external connection enters EXTERNAL, and a test reaches a step boundary and its next spec
(R139, R151, R152). DEDUCED: log entry 20. -/
def settledReport (s : State) : State :=
  match s.seq.act with
  | none => s
  | some a =>
    if s.seq.st = .settling then
      if a.origin = .external then s.modSeq fun q => { q with st := .external } else boundary nextStep s
    else s

/-- The end of a settle: settled after a CONNECT or RESETTLE, released after a RELEASE (R109). -/
def settleEnds (s : State) : State :=
  match s.access.matrix with
  | .settlingIn n => settledReport (s.modAccess fun a => { a with matrix := .connected n, settleTimer := none })
  | .settlingOut =>
    let s := s.modAccess fun a => { a with matrix := .idle, settleTimer := none }
    if s.seq.st = .releasing then releasedReport s else s
  | .idle | .connected _ => s

/-- A measurement completed with its result: the drive goes off, and the result is reported (R116, R139). -/
def completeMeasurement (r : Result) (s : State) : State :=
  resultStep r (s.modAccess (endMeasurement r.kind.driving))

/-- The spec of the measurement in hand while the unit is MEASURING (R113). -/
def measuringSpec (a : Access) : Option Spec := if a.unit = .measuring then a.spec else none

/-- The last sample of a FOREIGN or RESISTANCE window of W samples (R115, R122, R123).
DESIGN CHOICE: fewer samples than the window has end nothing, log entry 9. -/
def windowEnds (samples : List Sample) (s : State) : State :=
  match measuringSpec s.access with
  | none => s
  | some x =>
    match Spec.window x with
    | none => s
    | some w =>
      if w ≤ samples.length then
        completeMeasurement (windowResult x (samples.take w) s.access.indication) s
      else s

/-- The stop of the capture timer at `t` us (R124, R125). -/
def captureEnds (t : Nat) (timedOut : Bool) (s : State) : State :=
  match measuringSpec s.access with
  | some (.capacitance leg i target m f) =>
    completeMeasurement (captureResult s.access leg i target m f t timedOut) s
  | _ => s

/-- The end of the tone duration (R127, R128). -/
def toneEnds (s : State) : State :=
  match measuringSpec s.access with
  | some (.tone leg ..) =>
    completeMeasurement
      { kind := .tone, leg := leg, verdict := .pass, value := none, length := none
        guardSeen := s.access.indication } s
  | _ => s

/-- The end of the discharge wait: the drive allowance ends with it, and the unit reports stopped or discharged
(R116, R117, R119, R139). -/
def dischargeEnds (s : State) : State :=
  if s.access.unit = .discharging then
    let stopped := s.access.stopping
    let s := guardCheck (s.modAccess fun a =>
      { a with unit := .idle, spec := none, dischargeTimer := none, stopping := false })
    if stopped then releaseStep s
    else if s.seq.st = .discharging then boundary nextStep s else s
  else s

/-! ## The external head -/

/-- A suspended test resumed, or released when nothing is left to run (R155). -/
def resumeTest (a : Activity) (s : State) : State :=
  let s := s.modSeq fun q => { q with suspended := false, suspendTimer := none }
  if a.goesOn then
    match s.access.matrix.pair with
    | some _ => (s.modAccess resettlePair).modSeq fun q => { q with st := .settling }
    | none => connectStep a.line s
  else releaseStep s

/-- What the sequencer does at the release of EXTREQ while the bus is yielded (R155). -/
def reclaimBus (s : State) : State :=
  let s := raise s.lineUnderTest (.external false) s
  match s.seq.act with
  | some a =>
    if a.origin = .external then endExternal s
    else resumeTest a (s.modSeq fun q => { q with extack := false })
  | none =>
    let s := s.modSeq fun q => { q with extack := false }
    match s.access.matrix with
    | .settlingIn _ | .connected _ => releaseStep s
    | .idle => enterIdle s
    | .settlingOut => s

/-! ## Routine ticks -/

/-- Whether a group's count runs: enabled, in MAINS or BATTERY, after the start-up (R148, R191). -/
def groupCounts (s : State) (g : Fin 4) : Bool :=
  s.running && (s.seq.groups.get g).enabled
    && (s.power.state == some .mains || s.power.state == some .battery)

/-- A queued request with its deferred-until-tick flag cleared if the group issued it (R149). -/
def TestRequest.undefer (g : Fin 4) : TestRequest → TestRequest
  | .demand n p o => .demand n p o
  | .routine n p h c d => .routine n p h c (if h = g then false else d)

/-- Whether a tick requests a line: a member, not DISABLED, and at a half tick MARGINAL or FAULTY without a bar (R149). -/
def ticked (s : State) (g : Fin 4) (half : Bool) (n : LineNo) : Bool :=
  let l := s.line n
  l.cfg.routineGroup == some g && l.st != .disabled
    && (!half || l.grade == .marginal || (l.grade == .faulty && l.st != .barred))

/-- Whether a queued request waits for a tick of a group (R137). -/
def TestRequest.awaits (g : Fin 4) (r : TestRequest) : Bool := r.deferred && r.group == some g

/-- A tick's flags cleared, with a selection if any was set, and then its requests offered in ascending line order, each
with the selection of its joining (R149, R136). DEDUCED: one selection for all the flags, log entry 16. -/
def tickRequests (g : Fin 4) (half : Bool) (s : State) : State :=
  let cleared := s.seq.queue.any (TestRequest.awaits g)
  let s := s.modSeq fun q => { q with queue := q.queue.map (TestRequest.undefer g) }
  let s := if cleared then idleStep s else s
  ((indexes 24).filter (ticked s g half)).foldl (fun s n => joining (offerRoutine g n) s) s

/-- A routine group's interval in seconds (R148). -/
def Group.interval (x : Group) : Nat := Machine.interval x.base x.factor

/-- The count at which the half tick falls (R149). -/
def Group.halfPoint (x : Group) : Nat := x.interval - x.interval / 2

/-! ## The steps -/

/-- SETTLE_TIMER_EXPIRY (R109). -/
def execSettleTimerExpiry (s : State) : Host.Outcome State Fault Refusal := .next (settleEnds s)

/-- WINDOW_END (R122, R123). -/
def execWindowEnd (samples : List Sample) (s : State) : Host.Outcome State Fault Refusal := .next (windowEnds samples s)

/-- CAPTURE_TARGET_REACHED (R124): a capture time beyond the timeout cannot be. -/
def execCaptureTargetReached (t : Nat) (s : State) : Host.Outcome State Fault Refusal :=
  .next (if t ≤ Config.captureTimeoutUs then captureEnds t false s else s)

/-- CAPTURE_TIMEOUT (R124). -/
def execCaptureTimeout (s : State) : Host.Outcome State Fault Refusal :=
  .next (captureEnds Config.captureTimeoutUs true s)

/-- TONE_DURATION_ELAPSED (R127). -/
def execToneDurationElapsed (s : State) : Host.Outcome State Fault Refusal := .next (toneEnds s)

/-- DISCHARGE_WAIT_EXPIRY (R116). -/
def execDischargeWaitExpiry (s : State) : Host.Outcome State Fault Refusal := .next (dischargeEnds s)

/-- GUARD_TRIP: the greatest leg voltage magnitude of the connected pair becomes `mv`, and the guard trips if it exceeds
the trip level (R119, R120). -/
def execGuardTrip (mv : Nat) (s : State) : Host.Outcome State Fault Refusal :=
  .next (match s.access.matrix.pair with
    | none => s
    | some _ => guardCheck (s.modAccess fun a => { a with legMv := mv }))

/-- EXTREQ_ASSERTED (R151). -/
def execExtreqAsserted (s : State) : Host.Outcome State Fault Refusal :=
  .next (idleStep (s.modSeq fun q => { q with extreq := true }))

/-- EXTREQ_RELEASED (R155). -/
def execExtreqReleased (s : State) : Host.Outcome State Fault Refusal :=
  .next (
    let s := s.modSeq fun q => { q with extreq := false }
    if s.seq.extack then reclaimBus s else s)

/-- SUSPEND_TIMER_EXPIRY (R154). -/
def execSuspendTimerExpiry (s : State) : Host.Outcome State Fault Refusal :=
  .next (if s.seq.st = .suspended ∧ s.seq.suspended = true then abortTestNow .abortedExternal s else s)

/-- HALF_TICK (R149): the count stands at the half point. -/
def execHalfTick (g : Fin 4) (s : State) : Host.Outcome State Fault Refusal :=
  .next (if groupCounts s g then
      tickRequests g true (s.modSeq fun q => { q with groups := q.groups.modify g fun x =>
        { x with remaining := x.halfPoint, halfDue := false } })
    else s)

/-- FULL_TICK (R149): the count is loaded with the full interval again. DESIGN CHOICE: log entry 9. -/
def execFullTick (g : Fin 4) (s : State) : Host.Outcome State Fault Refusal :=
  .next (if groupCounts s g then
      tickRequests g false (s.modSeq fun q => { q with groups := q.groups.modify g fun x =>
        { x with remaining := x.interval, halfDue := false } })
    else s)

end Sys2Proof.Machine
end

