-- ==== Sys2Proof/Machine/PowerEvents.lean ====
section
/-! DEFINITION. The steps of the Power Manager (08) and the resets and the start-up as steps (R190, R191, R193, R204). -/

namespace Sys2Proof.Machine

/-- A sample of BATSENSE taken: stored with its time, and in a battery state compared with the thresholds (R159, R162). -/
def takeSample (mv : Nat) (s : State) : State :=
  let s := s.modPower fun p => { p with sample := some (mv, s.mgmt.time) }
  match s.power.state with
  | none => s
  | some st =>
    match sampleMove s.power st mv with
    | none => s
    | some p => changePower st p .sample s

/-- The loss of mains by the state at that moment (R160). Before a state is chosen only the level is noted. -/
def loseMains (s : State) : State :=
  let s := s.modPower fun p => { p with mainsOk := false }
  match s.power.state with
  | none => s
  | some .mains => changePower .mains (batteryChoice s.power ((s.power.sample.map (·.1)).getD 0)) .mainsLost s
  | some _ => s.modPower fun p => { p with stableTimer := none }

/-- The return of mains: in a battery state the stable timer is started (R161). -/
def gainMains (s : State) : State :=
  let s := s.modPower fun p => { p with mainsOk := true }
  match s.power.state with
  | none | some .mains => s
  | some _ => s.modPower fun p => { p with stableTimer := some (p.stableDelay * 1000) }

/-- The expiry of the mains stable timer (R161). -/
def mainsStable (s : State) : State :=
  match s.power.stableTimer, s.power.state with
  | some _, some st =>
    changePower st .mains .mainsStable (s.modPower fun p => { p with stableTimer := none })
  | _, _ => s

/-! ## The steps -/

/-- BATTERY_SAMPLE (R159, R162): none is taken before the start-up completes. -/
def execBatterySample (mv : Nat) (s : State) : Host.Outcome State Fault Refusal :=
  .next (whenRunning (takeSample mv) s)

/-- MAINS_OK_DEASSERTED (R160). -/
def execMainsOkDeasserted (s : State) : Host.Outcome State Fault Refusal := .next (loseMains s)

/-- MAINS_OK_ASSERTED (R161). -/
def execMainsOkAsserted (s : State) : Host.Outcome State Fault Refusal := .next (gainMains s)

/-- MAINS_STABLE_TIMER_EXPIRY (R161). -/
def execMainsStableTimerExpiry (s : State) : Host.Outcome State Fault Refusal := .next (mainsStable s)

/-- COLD_RESET (R204). -/
def execColdReset (s : State) : Host.Outcome State Fault Refusal := .next (coldState s)

/-- PIN_RESET (R204). -/
def execPinReset (s : State) : Host.Outcome State Fault Refusal := .next (warmReset .pin s)

/-- SUPPLY_RESET (R204). -/
def execSupplyReset (s : State) : Host.Outcome State Fault Refusal := .next (warmReset .supply s)

/-- START_UP (R190): only a part held in reset starts up. -/
def execStartUp (s : State) : Host.Outcome State Fault Refusal :=
  .next (match s.mgmt.phase with
    | .held cold => runStartUp cold s
    | .started | .running => s)

/-- START_UP_COMPLETE (R191): only a start-up that has run completes. -/
def execStartUpComplete (sample : Nat) (s : State) : Host.Outcome State Fault Refusal :=
  .next (match s.mgmt.phase with
    | .started => completeStartUp sample s
    | .held _ | .running => s)

/-- DEVICE_RESET_TIMER_EXPIRY (R193): a pending device reset begins. -/
def execDeviceResetTimerExpiry (s : State) : Host.Outcome State Fault Refusal :=
  .next (if s.mgmt.devReset.isSome then warmReset .device s else s)

end Sys2Proof.Machine
end

