-- ==== Sys2Proof/Machine/StationCommands.lean ====
section
/-! DEFINITION. The commands of the Station Table and of the line records (01): WRITE STATION, REMOVE STATION, READ
STATION, FLUSH LEARNED, WRITE LINE and READ LINE. Every command of the part is a function from the state to the state
it leaves and the way it ends; `carryOut` makes a step of it. Result items are numbered in the order of the owning
rule (11.2, log entry 8). -/

namespace Sys2Proof.Machine

/-! ## Carrying out a command -/

/-- A command that ends with a status, stores nothing and answers no result item.
DESIGN CHOICE: where R104 and R106 give the reply items without naming the status, log entry 34. -/
def refuse (st : Status) (s : State) : State × CmdResult := (s, { status := st, items := [] })

/-- A command that ends with a status and result items. -/
def answer (st : Status) (items : List Item) (s : State) : State × CmdResult := (s, { status := st, items := items })

/-- How the last command ended, kept where a reply's element shows it. -/
def setResult (r : State × CmdResult) : State := r.1.modMgmt fun m => { m with lastResult := some r.2 }

/-- One command as a step: while a device reset is pending no command is run and each ends BUSY (R193). -/
def runCommand (cmd : State → State × CmdResult) (s : State) : State × CmdResult :=
  if s.mgmt.devReset.isSome then refuse .busy s else cmd s

/-- The step of one command. DESIGN CHOICE: a command outside a frame, log entry 10. -/
def carryOut (cmd : State → State × CmdResult) (s : State) : Host.Outcome State Fault Refusal :=
  .next (setResult (runCommand cmd s))

/-! ## Station entries as items -/

/-- An entry's fields in the order of the table of section 1.1; a STATIC entry has no age.
DESIGN CHOICE: numbered from the address, the row 'valid' without an identifier, log entry 17. -/
def Entry.items (e : Entry) : List Item :=
  [.addr 1 e.addr, .line 2 e.line, .code 3 e.cls.code, .code 4 (boolCode e.isLearned)]
    ++ match e.origin with
      | .static => []
      | .learned a => [.count 5 a]

/-- An entry with its index as one item of a list (R12).
DESIGN CHOICE: the index is item 6 inside the entry's string, log entry 17. -/
def entryItem (i : Fin 96) (e : Entry) : Item := .nest 1 (e.items ++ [.count 6 i.val])

/-- The valid entries a predicate picks, with their indexes, in index order. -/
def validEntries (s : State) (p : Fin 96 → Entry → Bool) : List (Fin 96 × Entry) :=
  (indexes 96).filterMap fun i => ((s.stations.entries.get i).filter fun e => p i e).map fun e => (i, e)

/-! ## WRITE STATION -/

/-- Whether WRITE STATION would add an entry or change an existing one (R9, step 2). -/
def stationChanges (s : State) (a : Addr) (n : LineNo) (c : Cls) : Bool :=
  (entryFor s a).all fun e => e.line != n || e.cls != c || e.isLearned

/-- Whether a line has reached its station limit, an entry at `but` not counted (R2). -/
def atLimit (s : State) (n : LineNo) (but : Option (Fin 96)) : Bool :=
  decide ((s.line n).cfg.stationLimit ≤ stationCount s n but)

/-- The reply of a successful WRITE STATION: the index, the entry, and whether it was rewritten (R9). -/
def stationReply (i : Fin 96) (e : Entry) (rewritten : Bool) : List Item :=
  [.count 1 i.val, .nest 2 e.items, .yes 3 rewritten]

/-- Steps 3 and 4 of R9 and the write. -/
def placeStation (a : Addr) (n : LineNo) (c : Cls) (s : State) : State × CmdResult :=
  let e : Entry := { addr := a, line := n, cls := c, origin := .static }
  match lookupStation s a with
  | some i =>
    if ((s.stations.entries.get i).all fun old => old.line != n) && atLimit s n (some i) then refuse .limit s
    else answer .ok (stationReply i e true) (setStation i (some e) s)
  | none =>
    if atLimit s n none then refuse .limit s
    else
      match lowestInvalid s with
      | none => refuse .tableFull s
      | some i => answer .ok (stationReply i e false) (setStation i (some e) s)

/-- WRITE STATION, entry form (R9). -/
def cmdWriteStation (o : Origin) (a : Addr) (line cls : Nat) (s : State) : State × CmdResult :=
  match lineOf line, Cls.ofCode cls with
  | some n, some c =>
    if a.isGroup then refuse .badParam s
    else if lockForbids s o && stationChanges s a n c then refuse .locked s
    else placeStation a n c s
  | _, _ => refuse .badParam s

/-- WRITE STATION, table form (R10). -/
def cmdWriteStationTableForm (aging : Nat) (s : State) : State × CmdResult :=
  let v := clamp 0 255 aging
  answer (clampStatus (outside 0 255 (some aging))) [.count 1 v]
    (s.modStations fun t => { t with agingTime := v })

/-! ## REMOVE STATION, READ STATION, FLUSH LEARNED -/

/-- REMOVE STATION (R11). -/
def cmdRemoveStation (o : Origin) (a : Addr) (s : State) : State × CmdResult :=
  if a.isGroup then refuse .badParam s
  else
    match lookupStation s a with
    | none => refuse .notFound s
    | some i =>
      match s.stations.entries.get i with
      | none => refuse .notFound s
      | some e =>
        if lockForbids s o && !e.isLearned then refuse .locked s
        else answer .ok [.nest 1 e.items] (setStation i none s)

/-- The counts and the aging time that every form of READ STATION returns (R12).
DESIGN CHOICE: numbers of items, log entry 17. -/
def tableItems (s : State) : List Item :=
  [.count 4 (validEntries s fun _ _ => true).length, .count 5 (validEntries s fun _ e => e.isLearned).length,
   .count 6 s.stations.agingTime]

/-- Up to eight entries as items. -/
def listEntries (es : List (Fin 96 × Entry)) : List Item := (es.take 8).map fun x => entryItem x.1 x.2

/-- The index following the last entry of a walk that reports up to eight: 96 when it reached the end (R12).
DESIGN CHOICE: a walk that reports its eighth entry answers the index after it, though no valid entry may be left above,
log entry 12. -/
def walkNext (es : List (Fin 96 × Entry)) : Nat :=
  match es[7]? with
  | some x => x.1.val + 1
  | none => 96

/-- READ STATION (R12). -/
def cmdReadStation (q : StationQuery) (s : State) : State × CmdResult :=
  match q with
  | .byAddress a =>
    match validEntries s fun _ e => e.addr == a with
    | [] => answer .notFound (tableItems s) s
    | es => answer .ok (listEntries es ++ tableItems s) s
  | .byLine line =>
    match lineOf line with
    | none => refuse .badParam s
    | some n =>
      let es := validEntries s fun _ e => e.line == n
      answer .ok (listEntries es ++ [.yes 3 (decide (8 < es.length))] ++ tableItems s) s
  | .fromIndex index =>
    if 96 ≤ index then refuse .badParam s
    else
      let es := validEntries s fun i _ => decide (index ≤ i.val)
      answer .ok (listEntries es ++ [.count 2 (walkNext es)] ++ tableItems s) s

/-- FLUSH LEARNED (R13). -/
def cmdFlushLearned (scope : FlushScope) (s : State) : State × CmdResult :=
  let go := fun p : Entry → Bool =>
    answer .ok [.count 1 (validEntries s fun _ e => p e).length] (dropStations p s)
  match scope with
  | .all => go Entry.isLearned
  | .line line =>
    match lineOf line with
    | none => refuse .badParam s
    | some n => go fun e => e.isLearned && e.line == n

/-! ## WRITE LINE -/

/-- An optional index carried as a value, as none, or not carried. -/
def indexOk {k : Nat} (f : Nat → Option (Fin k)) : Option (Option Nat) → Bool
  | none | some none => true
  | some (some v) => (f v).isSome

/-- The index to be stored. -/
def indexOr {k : Nat} (f : Nat → Option (Fin k)) (old : Option (Fin k)) : Option (Option Nat) → Option (Fin k)
  | none => old
  | some none => none
  | some (some v) => f v

/-- Whether every enumeration value and index carried exists (R17, step 1). -/
def LineFields.exist (f : LineFields) : Bool :=
  fieldOk boolOf f.learning && fieldOk boolOf f.broadcast && fieldOk Cls.ofCode f.defaultClass
    && indexOk setOf f.counterSet && indexOk groupOf f.routineGroup && fieldOk boolOf f.wakeOnDown
    && fieldOk SenseEdge.ofCode f.senseEdge && fieldOk boolOf f.keepOnFault

/-- Whether a carried number lies outside its range (R17, step 2). -/
def LineFields.clamps (f : LineFields) : Bool :=
  outside 1 4094 f.vlan || outside 0 100000 f.committed || outside 1 64 f.weight || outside 0 100000 f.cap
    || outside 1 8 f.stationLimit || outside 16 1024 f.downLimit || outside 8 512 f.prioLimit
    || outside 16 1024 f.bulkLimit || outside 0 7 f.powerPriority || outside 0 3600 f.quietDelay
    || outside 0 86400 f.dormantDelay || outside 0 20000 f.recordedLength

/-- The configuration with every carried field stored, numbers clamped (R14, R17). -/
def LineFields.store (f : LineFields) (c : LineConfig) : LineConfig :=
  { enabled := c.enabled
    vlan := clampOr 1 4094 c.vlan f.vlan
    committed := clampOr 0 100000 c.committed f.committed
    weight := clampOr 1 64 c.weight f.weight
    cap := clampOr 0 100000 c.cap f.cap
    stationLimit := clampOr 1 8 c.stationLimit f.stationLimit
    learning := keepOr boolOf c.learning f.learning
    broadcast := keepOr boolOf c.broadcast f.broadcast
    defaultClass := keepOr Cls.ofCode c.defaultClass f.defaultClass
    downLimit := clampOr 16 1024 c.downLimit f.downLimit
    prioLimit := clampOr 8 512 c.prioLimit f.prioLimit
    bulkLimit := clampOr 16 1024 c.bulkLimit f.bulkLimit
    counterSet := indexOr setOf c.counterSet f.counterSet
    routineGroup := indexOr groupOf c.routineGroup f.routineGroup
    powerPriority := clampOr 0 7 c.powerPriority f.powerPriority
    quietDelay := clampOr 0 3600 c.quietDelay f.quietDelay
    dormantDelay := clampOr 0 86400 c.dormantDelay f.dormantDelay
    wakeOnDown := keepOr boolOf c.wakeOnDown f.wakeOnDown
    senseEdge := keepOr SenseEdge.ofCode c.senseEdge f.senseEdge
    keepOnFault := keepOr boolOf c.keepOnFault f.keepOnFault
    recordedLength := clampOr 0 20000 c.recordedLength f.recordedLength }

/-- A configuration with every field that is not protected taken from another: two are equal when no protected field
differs (R14, column P; R16). -/
def LineConfig.unprotect (base c : LineConfig) : LineConfig :=
  { c with
    enabled := base.enabled, broadcast := base.broadcast, defaultClass := base.defaultClass
    counterSet := base.counterSet, routineGroup := base.routineGroup, quietDelay := base.quietDelay
    dormantDelay := base.dormantDelay, wakeOnDown := base.wakeOnDown, senseEdge := base.senseEdge }

/-- Whether a protected field differs (R16). -/
def protectedChange (old new : LineConfig) : Bool := LineConfig.unprotect old new != old

/-- Whether the committed rate, the weight or the cap differs (R18). -/
def shareChange (old new : LineConfig) : Bool :=
  old.committed != new.committed || old.weight != new.weight || old.cap != new.cap

/-- The immediate consequences of a write (R18, R93, R94): one recompute, the effective quiet delay worked out anew and
the dormant timer compared with a written dormant delay. DEDUCED: in that order, log entry 16. -/
def afterLineWrite (n : LineNo) (f : LineFields) (old : LineConfig) (s : State) : State :=
  let s := if shareChange old (s.line n).cfg then recompute s else s
  let s := if f.quietDelay.isSome then rederiveQuiet n s else s
  if f.dormantDelay.isSome then rederiveDormant n s else s

/-- The configuration half in the order of R14; an index that is none is left out. ENABLED is 0 and DISABLED 1 (11.2). -/
def LineConfig.items (c : LineConfig) : List Item :=
  [.code 1 (boolCode (!c.enabled)), .short 2 c.vlan, .count 3 c.committed, .count 4 c.weight, .count 5 c.cap,
   .count 6 c.stationLimit, .yes 7 c.learning, .yes 8 c.broadcast, .code 9 c.defaultClass.code,
   .count 10 c.downLimit, .count 11 c.prioLimit, .count 12 c.bulkLimit]
    ++ Item.opt (fun x : Fin 16 => .count 13 x.val) c.counterSet
    ++ Item.opt (fun x : Fin 4 => .count 14 x.val) c.routineGroup
    ++ [.count 15 c.powerPriority, .count 16 c.quietDelay, .count 17 c.dormantDelay, .yes 18 c.wakeOnDown,
        .code 19 c.senseEdge.code, .yes 20 c.keepOnFault, .count 21 c.recordedLength]

/-- WRITE LINE (R17, R18). -/
def cmdWriteLine (o : Origin) (line : Nat) (f : LineFields) (s : State) : State × CmdResult :=
  match lineOf line with
  | none => refuse .badParam s
  | some n =>
    let old := (s.line n).cfg
    let new := LineFields.store f old
    if LineFields.exist f = false then refuse .badParam s
    else if lockForbids s o && protectedChange old new then refuse .locked s
    else answer (clampStatus (LineFields.clamps f)) new.items
      (afterLineWrite n f old (s.modLine n fun l => { l with cfg := new }))

/-! ## READ LINE -/

/-- The status half in the order of R15 (R19): the wake store is reported as held or not, with the stored length. -/
def statusItems (s : State) (l : Line) : List Item :=
  [.code 22 l.st.code, .count 23 l.downRate, .count 24 l.upRate, .code 25 l.grade.code]
    ++ Item.opt (.count 26) l.lastTest
    ++ [.yes 27 l.sense, .count 28 l.share, .signed 29 l.credit, .count 30 l.idleSeconds, .yes 31 l.wakeStore.isSome]
    ++ Item.opt (fun r : FrameRec => .count 32 r.length) (l.wakeStore.bind s.record)
    ++ [.count 33 (occupancy s l.downQ), .count 34 (occupancy s l.prioQ), .count 35 (occupancy s l.bulkQ)]

/-- READ LINE (R19). -/
def cmdReadLine (line : Nat) (s : State) : State × CmdResult :=
  match lineOf line with
  | none => refuse .badParam s
  | some n => answer .ok ((s.line n).cfg.items ++ statusItems s (s.line n)) s

/-! ## The steps -/

/-- WRITE_STATION (R9). -/
def execWriteStation (o : Origin) (a : Addr) (line cls : Nat) (s : State) : Host.Outcome State Fault Refusal :=
  carryOut (cmdWriteStation o a line cls) s

/-- WRITE_STATION_TABLE_FORM (R10): not protected, so the origin plays no part. -/
def execWriteStationTableForm (_o : Origin) (aging : Nat) (s : State) : Host.Outcome State Fault Refusal :=
  carryOut (cmdWriteStationTableForm aging) s

/-- REMOVE_STATION (R11). -/
def execRemoveStation (o : Origin) (a : Addr) (s : State) : Host.Outcome State Fault Refusal :=
  carryOut (cmdRemoveStation o a) s

/-- READ_STATION (R12). -/
def execReadStation (_o : Origin) (q : StationQuery) (s : State) : Host.Outcome State Fault Refusal :=
  carryOut (cmdReadStation q) s

/-- FLUSH_LEARNED (R13). -/
def execFlushLearned (_o : Origin) (scope : FlushScope) (s : State) : Host.Outcome State Fault Refusal :=
  carryOut (cmdFlushLearned scope) s

/-- WRITE_LINE (R17). -/
def execWriteLine (o : Origin) (line : Nat) (f : LineFields) (s : State) : Host.Outcome State Fault Refusal :=
  carryOut (cmdWriteLine o line f) s

/-- READ_LINE (R19). -/
def execReadLine (_o : Origin) (line : Nat) (s : State) : Host.Outcome State Fault Refusal :=
  carryOut (cmdReadLine line) s

end Sys2Proof.Machine
end

