-- ==== Sys2Proof/Machine/LineCommands.lean ====
section
/-! DEFINITION. The commands of the Line Ports (05, section 5.8) and of the Share Computer (03, section 3.6): ENABLE
LINE, DISABLE LINE, CLEAR BAR, CLEAR SENSE, SET UPLINK and READ UPLINK. -/

namespace Sys2Proof.Machine

/-! ## Line commands -/

/-- Whether a line is under test or externally connected (R104 to R106, R132). -/
def State.underTest (s : State) (n : LineNo) : Bool := s.lineUnderTest == some n

/-- ENABLE LINE, line form (R104). DESIGN CHOICE: a BUSY refusal answers no items, log entry 34. -/
def cmdEnableLine (line : Nat) (s : State) : State × CmdResult :=
  match lineOf line with
  | none => refuse .badParam s
  | some n =>
    if s.underTest n then refuse .busy s
    else if (s.line n).st = .disabled then
      let s := enter n .down .enabled (s.modLine n fun l => { l with cfg := { l.cfg with enabled := true } })
      answer .ok [.code 1 (s.line n).st.code, .code 2 (boolCode (!(s.line n).cfg.enabled))] s
    else refuse .busy s

/-- ENABLE LINE, settings form (R104): it carries the training limit, the wake limit, or both.
DESIGN CHOICE: with neither BAD_PARAM, log entry 21. -/
def cmdEnableLineSettings (train wake : Option Nat) (s : State) : State × CmdResult :=
  if train.isNone && wake.isNone then refuse .badParam s
  else
    let t := clampOr 10 600 s.trainLimit train
    let w := clampOr 100 10000 s.wakeLimit wake
    answer (clampStatus (outside 10 600 train || outside 100 10000 wake)) [.count 3 t, .count 4 w]
      { s with trainLimit := t, wakeLimit := w }

/-- DISABLE LINE (R105). -/
def cmdDisableLine (line : Nat) (s : State) : State × CmdResult :=
  match lineOf line with
  | none => refuse .badParam s
  | some n =>
    if (s.line n).st = .draining ∨ (s.line n).st = .held ∨ s.underTest n = true then refuse .busy s
    else if (s.line n).st = .disabled then refuse .ok s
    else answer .ok []
      (enter n .disabled .disabled (s.modLine n fun l => { l with cfg := { l.cfg with enabled := false } }))

/-- CLEAR BAR (R106). DESIGN CHOICE: a BUSY refusal answers no items, log entry 34. -/
def cmdClearBar (line : Nat) (s : State) : State × CmdResult :=
  match lineOf line with
  | none => refuse .badParam s
  | some n =>
    if s.underTest n then refuse .busy s
    else if (s.line n).st = .barred then
      let s := enter n .down .barCleared s
      answer .ok [.code 1 (s.line n).st.code] s
    else refuse .busy s

/-- Whether a 32-bit line set or mask names something at or beyond place `k` (R206). -/
def namesBeyond (k : Nat) (m : BitVec 32) : Bool := decide (2 ^ k ≤ m.toNat)

/-- CLEAR SENSE (R107). DESIGN CHOICE: the 24 sense flags are answered as one line set, log entry 17. -/
def cmdClearSense (lines : BitVec 32) (s : State) : State × CmdResult :=
  if namesBeyond 24 lines then refuse .badParam s
  else
    let s := { s with lines := .ofFn fun n =>
      { s.line n with sense := (s.line n).sense && !lines.getLsbD n.val } }
    answer .ok [.count 1 (lineSet fun n => (s.line n).sense)] s

/-! ## Uplink settings -/

/-- Whether every carried setting exists (R63, step 1). -/
def UplinkFields.exist (f : UplinkFields) : Bool :=
  (f.backhaul.all fun b => b.all fun a => !a.isGroup) && f.ethertype.all ethertypeOk && fieldOk boolOf f.spare

/-- Whether a carried number lies outside its range (R63, step 2; R46). -/
def UplinkFields.clamps (f : UplinkFields) : Bool :=
  outside 1000 1000000 f.ceiling || outside 0 2048 f.allowance || outside 0 1000000 f.fallback || outside 1 60 f.hold

/-- The Share Computer with every carried setting stored, numbers clamped (R46, R63). -/
def UplinkFields.store (f : UplinkFields) (x : Shares) : Shares :=
  { x with
    ceiling := clampOr 1000 1000000 x.ceiling f.ceiling
    allowance := clampOr 0 2048 x.allowance f.allowance
    fallback := clampOr 0 1000000 x.fallback f.fallback
    hold := clampOr 1 60 x.hold f.hold
    spare := keepOr boolOf x.spare f.spare
    backhaul := f.backhaul.getD x.backhaul
    ethertype := f.ethertype.getD x.ethertype }

/-- The seven settings in the order of R46. -/
def Shares.items (x : Shares) : List Item :=
  [.count 1 x.ceiling, .count 2 x.allowance, .count 3 x.fallback, .count 4 x.hold, .yes 5 x.spare]
    ++ Item.opt (.addr 6) x.backhaul ++ [.short 7 x.ethertype]

/-- SET UPLINK (R63, R64): one recompute, whichever settings it carries. -/
def cmdSetUplink (o : Origin) (f : UplinkFields) (s : State) : State × CmdResult :=
  let new := UplinkFields.store f s.shares
  if UplinkFields.exist f = false then refuse .badParam s
  else if lockForbids s o && new != s.shares then refuse .locked s
  else answer (clampStatus (UplinkFields.clamps f)) new.items (recompute (s.modShares fun _ => new))

/-- The items of READ UPLINK (R65); the hold remaining is reported while the source is ADVISED.
DESIGN CHOICE: the 24 shares repeat one identifier in line order, log entry 17. -/
def uplinkItems (s : State) : List Item :=
  let x := s.shares
  x.items ++ [.code 8 x.source.code] ++ Item.opt (.count 9) x.advised ++ Item.opt (.time 10) x.lastAdvisory
    ++ [.yes 11 s.mgmt.timeUnset] ++ Item.opt (.count 12) x.holdTimer ++ [.count 13 x.clampedAdvisories]
    ++ Item.opt (fun p : PowerState => .code 14 p.code) x.last.power
    ++ [.count 15 x.last.scale, .count 16 x.last.capacity, .count 17 x.last.uEff, .count 18 x.last.effective,
        .count 19 x.last.committedSum, .count 20 x.last.rounds, .count 21 x.last.residue,
        .count 22 x.last.eligibleLines]
    ++ s.lines.items.map fun l => .count 23 l.share

/-- READ UPLINK (R65). -/
def cmdReadUplink (s : State) : State × CmdResult := answer .ok (uplinkItems s) s

/-! ## The steps -/

/-- ENABLE_LINE (R104): not protected, so the origin plays no part. -/
def execEnableLine (_o : Origin) (line : Nat) (s : State) : Host.Outcome State Fault Refusal :=
  carryOut (cmdEnableLine line) s

/-- ENABLE_LINE_SETTINGS_FORM (R104). -/
def execEnableLineSettingsForm (_o : Origin) (train wake : Option Nat) (s : State) :
    Host.Outcome State Fault Refusal := carryOut (cmdEnableLineSettings train wake) s

/-- DISABLE_LINE (R105). -/
def execDisableLine (_o : Origin) (line : Nat) (s : State) : Host.Outcome State Fault Refusal :=
  carryOut (cmdDisableLine line) s

/-- CLEAR_BAR (R106). -/
def execClearBar (_o : Origin) (line : Nat) (s : State) : Host.Outcome State Fault Refusal :=
  carryOut (cmdClearBar line) s

/-- CLEAR_SENSE (R107). -/
def execClearSense (_o : Origin) (lines : BitVec 32) (s : State) : Host.Outcome State Fault Refusal :=
  carryOut (cmdClearSense lines) s

/-- SET_UPLINK (R63). -/
def execSetUplink (o : Origin) (f : UplinkFields) (s : State) : Host.Outcome State Fault Refusal :=
  carryOut (cmdSetUplink o f) s

/-- READ_UPLINK (R65). -/
def execReadUplink (_o : Origin) (s : State) : Host.Outcome State Fault Refusal := carryOut cmdReadUplink s

end Sys2Proof.Machine
end

