-- ==== Sys2Proof/Machine/TestCommands.lean ====
section
/-! DEFINITION. The commands of the Test Sequencer (07): programs, requests and aborts, reports, routine groups, test
limits and the external connection. -/

namespace Sys2Proof.Machine

/-! ## Programs -/

/-- A program as it is reported: its specs in order, or the indication that it is absent (R131). -/
def programItems (p : List Spec) : List Item :=
  match p with
  | [] => [.yes 2 true]
  | ps => ps.map fun x => .nest 1 x.items

/-- Whether a program is named by a queued request, the running test or an enabled group (R131, step 4). -/
def programBusy (s : State) (p : Fin 8) : Bool :=
  (s.seq.queue.any fun r => r.program == p) || (s.seq.act.any fun a => a.program == some p)
    || s.seq.groups.items.any fun g => g.enabled && g.program == p

/-- The specs as they are to be stored, with whether anything was clamped (R131, steps 1 and 2). -/
def readSpecs (specs : List RawSpec) : Option (List (Spec × Bool)) :=
  if 8 < specs.length then none else specs.mapM RawSpec.read

/-- WRITE PROGRAM (R131). -/
def cmdWriteProgram (o : Origin) (program : Nat) (specs : List RawSpec) (s : State) : State × CmdResult :=
  match programOf program, readSpecs specs with
  | some p, some rs =>
    let new := rs.map (·.1)
    if new.any Spec.inverted then refuse .badParam s
    else if new.isEmpty && programBusy s p then refuse .busy s
    else if lockForbids s o && new != s.seq.programs.get p then refuse .locked s
    else answer (clampStatus (rs.any (·.2))) (programItems new)
      (s.modSeq fun q => { q with programs := q.programs.set p new })
  | _, _ => refuse .badParam s

/-- READ PROGRAM (R131). -/
def cmdReadProgram (program : Nat) (s : State) : State × CmdResult :=
  match programOf program with
  | none => refuse .badParam s
  | some p => answer .ok (programItems (s.seq.programs.get p)) s

/-! ## Requests and aborts -/

/-- Whether a request is a DEMAND request for a line. -/
def TestRequest.demands (n : LineNo) (r : TestRequest) : Bool := r.isDemand && r.line == n

/-- A DEMAND request placed by R133: a refusing status, or the queue with the request in it. -/
def placeDemand (n : LineNo) (p : Fin 8) (override : Bool) (s : State) : Status × List TestRequest :=
  let q := s.seq.queue
  if s.underTest n then (.busy, q)
  else if q.any (TestRequest.demands n) then (.duplicate, q)
  else if q.any fun r => r.line == n then
    (.accepted, insertDemand (.demand n p override) (q.filter fun r => r.line != n))
  else if Config.testPlaces ≤ q.length then (.queueFull, q)
  else (.accepted, insertDemand (.demand n p override) q)

/-- REQUEST TEST (R134): the reply carries the position, counted from 1, and a selection may follow (R136). -/
def cmdRequestTest (line program : Nat) (override : Option Nat) (s : State) : State × CmdResult :=
  match lineOf line, programOf program, boolOf (override.getD 0) with
  | some n, some p, some v =>
    if (s.seq.programs.get p).isEmpty then refuse .notFound s
    else
      let r := placeDemand n p v s
      if r.1 = .accepted then
        answer .accepted [.count 1 (r.2.countP TestRequest.isDemand)]
          (idleStep (s.modSeq fun q => { q with queue := r.2 }))
      else refuse r.1 s
  | _, _, _ => refuse .badParam s

/-- ABORT TEST (R145): CANCELLED is 0 and ABORTING 1. -/
def cmdAbortTest (line : Nat) (s : State) : State × CmdResult :=
  match lineOf line with
  | none => refuse .badParam s
  | some n =>
    if s.seq.queue.any fun r => r.line == n then
      answer .ok [.code 1 0] (placesFreed (s.modSeq fun q =>
        { q with queue := q.queue.filter fun r => r.line != n }))
    else
      match s.seq.act with
      | none => refuse .notFound s
      | some a =>
        if a.line = n then
          if a.origin = .external ∨ s.seq.st = .releasing then refuse .busy s
          else answer .ok [.code 1 1] (abortTestNow .abortedCmd s)
        else refuse .notFound s

/-! ## Reports -/

/-- The presence byte of a result: bit 0 value, bit 1 length (11.5). -/
def Result.presence (r : Result) : Nat := boolCode r.value.isSome + 2 * boolCode r.length.isSome

/-- A result in its 12 bytes (11.5). -/
def Result.bytes (r : Result) : List Byte :=
  beBytes 1 r.kind.code ++ beBytes 1 r.leg.code ++ beBytes 1 r.verdict.code ++ beBytes 1 r.presence
    ++ beBytes 4 (r.value.getD 0) ++ beBytes 4 (r.length.getD 0)

/-- A record in the layout of 11.5; 255 stands for no program and, in the current activity, for no outcome.
DESIGN CHOICE: log entry 17. -/
def recordBytes (seq : Nat) (line : LineNo) (program : Option (Fin 8)) (origin : TestOrigin) (start : Time)
    (stop : Nat) (outcome : Option Outcome) (grade : Grade) (interrupted tripped : Bool)
    (results : List Result) : List Byte :=
  beBytes 4 seq ++ beBytes 1 line.val ++ beBytes 1 (program.elim 255 Fin.val) ++ beBytes 1 origin.code
    ++ beBytes 6 start.toNat ++ beBytes 6 stop ++ beBytes 1 (outcome.elim 255 Outcome.code) ++ beBytes 1 grade.code
    ++ beBytes 1 (boolCode interrupted + 2 * boolCode tripped) ++ beBytes 1 results.length
    ++ results.flatMap Result.bytes

/-- A record of the log as one item value (11.5). -/
def TestRecord.bytes (r : TestRecord) : List Byte :=
  recordBytes r.seq r.line r.program r.origin r.start r.stop.toNat (some r.outcome) r.grade r.interrupted
    r.guardTripped r.results

/-- The current activity as one item value, with end time 0 and outcome 255 (11.5). -/
def Activity.bytes (a : Activity) : List Byte :=
  recordBytes 0 a.line a.program a.origin a.start 0 none .none a.interrupted a.guardTripped a.results

/-- A queued request with its fields in the order of R132. -/
def TestRequest.items : TestRequest → List Item
  | .demand n p o => [.line 1 n, .count 2 p.val, .code 3 TestOrigin.demand.code, .yes 4 o]
  | .routine n p g c d =>
    [.line 1 n, .count 2 p.val, .code 3 TestOrigin.routine.code, .count 5 g.val, .count 6 c, .yes 7 d]

/-- The marker's fields in the order of R147. -/
def Marker.items (m : Marker) : List Item :=
  [.line 1 m.line] ++ Item.opt (fun p : Fin 8 => .count 2 p.val) m.program
    ++ [.code 3 m.origin.code, .time 4 m.start]

/-- Seconds of counting to the next half tick (R149, R157). -/
def Group.toHalf (g : Group) : Nat :=
  if g.halfPoint < g.remaining then g.remaining - g.halfPoint
  else if g.halfDue then 0 else g.remaining + g.interval / 2

/-- A group's fields in the order of R148; an enabled group with the seconds to its ticks; and its due lines (R157). -/
def Group.items (g : Group) : List Item :=
  [.yes 1 g.enabled, .count 2 g.base.minutes, .count 3 g.factor, .count 4 g.program.val, .count 5 g.remaining,
   .count 6 g.missed]
    ++ (if g.enabled then [.count 7 g.toHalf, .count 8 g.remaining] else [])
    ++ [.count 9 (lineSet g.due.get)]

/-- The items of READ TEST QUEUE (R157). DESIGN CHOICE: the index of the next spec counts from 0, log entry 36, and the
suspend time remaining is rounded down to whole seconds, log entry 41. -/
def queueItems (s : State) : List Item :=
  let q := s.seq
  [.code 1 q.st.code, .yes 2 q.extreq, .yes 3 q.extack, .yes 4 q.suspended]
    ++ Item.opt (fun t => .count 5 (t / 1000)) q.suspendTimer
    ++ (match q.act with
      | none => []
      | some a => [⟨6, a.bytes⟩, .yes 7 a.override, .count 8 a.next])
    ++ Item.opt (fun m : Marker => .nest 9 m.items) q.marker
    ++ q.queue.map (fun r => .nest 10 r.items)
    ++ q.groups.items.map (fun g => .nest 11 g.items)
    ++ [.count 12 q.counter, .count 13 q.log.length]

/-- READ TEST QUEUE (R157). -/
def cmdReadTestQueue (s : State) : State × CmdResult := answer .ok (queueItems s) s

/-- The counter and the number of records, which either form of READ TEST RECORD returns (R143). -/
def logItems (s : State) : List Item := [.count 2 s.seq.counter, .count 3 s.seq.log.length]

/-- READ TEST RECORD (R143): the record of a number, or the newest of a line. -/
def cmdReadTestRecord (q : RecordQuery) (s : State) : State × CmdResult :=
  let found := fun r : Option TestRecord =>
    match r with
    | none => answer .notFound (logItems s) s
    | some r => answer .ok (⟨1, r.bytes⟩ :: logItems s) s
  match q with
  | .bySequence seq => if seq = 0 then refuse .badParam s else found (s.seq.log.find? fun r => r.seq == seq)
  | .byLine line =>
    match lineOf line with
    | none => refuse .badParam s
    | some n => found (s.seq.log.reverse.find? fun r => r.line == n)

/-! ## Routine groups -/

/-- A group changed by a function. -/
def modGroup (g : Fin 4) (f : Group → Group) (s : State) : State :=
  s.modSeq fun q => { q with groups := q.groups.modify g f }

/-- SET ROUTINE GROUP (R150). -/
def cmdSetRoutineGroup (group : Nat) (base factor program : Option Nat) (s : State) : State × CmdResult :=
  match groupOf group with
  | none => refuse .badParam s
  | some g =>
    let old := s.seq.groups.get g
    let new := { old with
      base := keepOr Base.ofMinutes old.base base
      factor := clampOr 1 64 old.factor factor
      program := keepOr programOf old.program program }
    if (fieldOk Base.ofMinutes base && fieldOk programOf program) = false then refuse .badParam s
    else if old.enabled then refuse .busy s
    else answer (clampStatus (outside 1 64 factor)) (new.items.take 6) (modGroup g (fun _ => new) s)

/-- START ROUTINE GROUP (R150): the count is loaded with the full interval. -/
def cmdStartRoutineGroup (group : Nat) (s : State) : State × CmdResult :=
  match groupOf group with
  | none => refuse .badParam s
  | some g =>
    if (s.seq.programs.get (s.seq.groups.get g).program).isEmpty then refuse .notFound s
    else answer .ok [] (modGroup g (fun x =>
      { x with enabled := true, remaining := x.interval, subMs := 0, halfDue := false }) s)

/-- STOP ROUTINE GROUP (R150): the places freed are offered to due lines, and a selection may follow (R133). -/
def cmdStopRoutineGroup (group : Nat) (s : State) : State × CmdResult :=
  match groupOf group with
  | none => refuse .badParam s
  | some g =>
    let mine := fun r : TestRequest => r.group == some g
    let k := s.seq.queue.countP mine
    let s := modGroup g (fun x => { x with enabled := false, due := .fill 24 false, halfDue := false }) s
    let s := s.modSeq fun q => { q with queue := q.queue.filter fun r => !mine r }
    answer .ok [.count 1 k] (if k = 0 then s else placesFreed s)

/-! ## Test limits -/

/-- Whether a carried limit lies outside its range (R156). -/
def LimitFields.clamps (f : LimitFields) : Bool :=
  outside 1 20 f.settle || outside 5 100 f.discharge || outside 10 150 f.guardVolts || outside 20 100 f.cablePf
    || outside 1 1000 f.drain || outside 1 600 f.suspend || outside 0 15 f.deferral

/-- The four limits that the matrix and the unit hold, stored (R118, R156). -/
def LimitFields.storeAccess (f : LimitFields) (a : Access) : Access :=
  { a with
    settleTime := clampOr 1 20 a.settleTime f.settle
    dischargeTime := clampOr 5 100 a.dischargeTime f.discharge
    guardVolts := clampOr 10 150 a.guardVolts f.guardVolts
    cablePf := clampOr 20 100 a.cablePf f.cablePf }

/-- The drain, suspend and deferral limits stored (R156). -/
def LimitFields.storeSeq (f : LimitFields) (q : Seq) : Seq :=
  { q with
    drainLimit := clampOr 1 1000 q.drainLimit f.drain
    suspendLimit := clampOr 1 600 q.suspendLimit f.suspend
    deferralLimit := clampOr 0 15 q.deferralLimit f.deferral }

/-- The seven limits in the order of R156. -/
def limitItems (s : State) : List Item :=
  [.count 1 s.access.settleTime, .count 2 s.access.dischargeTime, .count 3 s.access.guardVolts,
   .count 4 s.access.cablePf, .count 5 s.seq.drainLimit, .count 6 s.seq.suspendLimit, .count 7 s.seq.deferralLimit]

/-- SET TEST LIMITS (R156): a leg already above a new trip level trips the guard at the write (R119). -/
def cmdSetTestLimits (o : Origin) (f : LimitFields) (s : State) : State × CmdResult :=
  let new := (s.modAccess (LimitFields.storeAccess f)).modSeq (LimitFields.storeSeq f)
  if lockForbids s o && limitItems new != limitItems s then refuse .locked s
  else answer (clampStatus (LimitFields.clamps f)) (limitItems new) (guardCheck new)

/-! ## The external head -/

/-- The making of an external connection: a ROUTINE request for the line leaves the queue and frees its place, and the
sequencer asks for the line (R133, R152). -/
def makeExternal (n : LineNo) (s : State) : State :=
  let freed := s.seq.queue.any fun r => r.line == n
  let s := s.modSeq fun q => { q with
    queue := q.queue.filter fun r => r.line != n
    st := .drainingWait
    act := some
      { line := n, program := none, origin := .external, override := false, start := s.mgmt.time, specs := []
        next := 0, results := [], pending := none, interrupted := false, guardTripped := false }
    marker := some { line := n, program := none, origin := .external, start := s.mgmt.time } }
  askForLine n (if freed then placeFreed s else s)

/-- Whether the bus stands yielded with no activity and no pair in TEST (R152). -/
def busFree (s : State) : Bool :=
  s.seq.extack && s.seq.st == .suspended && s.seq.act.isNone && s.access.matrix.pair.isNone

/-- CONNECT EXTERNAL (R152). -/
def cmdConnectExternal (o : Origin) (line : Nat) (s : State) : State × CmdResult :=
  if o != .craftService then refuse .access s
  else
    match lineOf line with
    | none => refuse .badParam s
    | some n =>
      if busFree s = false then refuse .busy s
      else if s.power.state = some .reserve then refuse .power s
      else if s.seq.queue.any (TestRequest.demands n) then refuse .duplicate s
      else answer .ok [] (makeExternal n s)

/-- DISCONNECT EXTERNAL (R153). -/
def cmdDisconnectExternal (o : Origin) (s : State) : State × CmdResult :=
  if o != .craftService then refuse .access s
  else if s.seq.act.any fun a => a.origin == .external then answer .ok [] (endExternal s)
  else refuse .notFound s

/-! ## The steps -/

/-- WRITE_PROGRAM (R131). -/
def execWriteProgram (o : Origin) (program : Nat) (specs : List RawSpec) (s : State) :
    Host.Outcome State Fault Refusal := carryOut (cmdWriteProgram o program specs) s

/-- READ_PROGRAM (R131). -/
def execReadProgram (_o : Origin) (program : Nat) (s : State) : Host.Outcome State Fault Refusal :=
  carryOut (cmdReadProgram program) s

/-- REQUEST_TEST (R134): not protected, so the origin plays no part. -/
def execRequestTest (_o : Origin) (line program : Nat) (override : Option Nat) (s : State) :
    Host.Outcome State Fault Refusal := carryOut (cmdRequestTest line program override) s

/-- ABORT_TEST (R145). -/
def execAbortTest (_o : Origin) (line : Nat) (s : State) : Host.Outcome State Fault Refusal :=
  carryOut (cmdAbortTest line) s

/-- READ_TEST_QUEUE (R157). -/
def execReadTestQueue (_o : Origin) (s : State) : Host.Outcome State Fault Refusal := carryOut cmdReadTestQueue s

/-- READ_TEST_RECORD (R143). -/
def execReadTestRecord (_o : Origin) (q : RecordQuery) (s : State) : Host.Outcome State Fault Refusal :=
  carryOut (cmdReadTestRecord q) s

/-- SET_ROUTINE_GROUP (R150). -/
def execSetRoutineGroup (_o : Origin) (group : Nat) (base factor program : Option Nat) (s : State) :
    Host.Outcome State Fault Refusal := carryOut (cmdSetRoutineGroup group base factor program) s

/-- START_ROUTINE_GROUP (R150). -/
def execStartRoutineGroup (_o : Origin) (group : Nat) (s : State) : Host.Outcome State Fault Refusal :=
  carryOut (cmdStartRoutineGroup group) s

/-- STOP_ROUTINE_GROUP (R150). -/
def execStopRoutineGroup (_o : Origin) (group : Nat) (s : State) : Host.Outcome State Fault Refusal :=
  carryOut (cmdStopRoutineGroup group) s

/-- SET_TEST_LIMITS (R156). -/
def execSetTestLimits (o : Origin) (f : LimitFields) (s : State) : Host.Outcome State Fault Refusal :=
  carryOut (cmdSetTestLimits o f) s

/-- CONNECT_EXTERNAL (R152). -/
def execConnectExternal (o : Origin) (line : Nat) (s : State) : Host.Outcome State Fault Refusal :=
  carryOut (cmdConnectExternal o line) s

/-- DISCONNECT_EXTERNAL (R153). -/
def execDisconnectExternal (o : Origin) (s : State) : Host.Outcome State Fault Refusal :=
  carryOut (cmdDisconnectExternal o) s

end Sys2Proof.Machine
end

