-- ==== Sys2Proof/Machine/PowerCommands.lean ====
section
/-! DEFINITION. The commands of the Power Manager (08, section 8.8) and of Counters and Notices (10). -/

namespace Sys2Proof.Machine

/-! ## Power policy and thresholds -/

/-- Whether every mode and yes/no value carried exists (R174, step 1). -/
def PolicyFields.exist (f : PolicyFields) : Bool :=
  fieldOk SleepMode.ofCode f.sleep && fieldOk boolOf f.wakeSense && fieldOk boolOf f.wakeDown

/-- Whether a carried number lies outside its range (R174, step 2; R164). -/
def PolicyFields.clamps (f : PolicyFields) : Bool :=
  outside 0 24 f.budget || outside 0 3600 f.quietCap || outside 10 100 f.scale

/-- An entry with every carried field stored, numbers clamped (R164, R174). -/
def PolicyFields.store (f : PolicyFields) (p : Policy) : Policy :=
  { budget := clampOr 0 24 p.budget f.budget
    sleep := keepOr SleepMode.ofCode p.sleep f.sleep
    quietCap := clampOr 0 3600 p.quietCap f.quietCap
    scale := clampOr 10 100 p.scale f.scale
    wakeSense := keepOr boolOf p.wakeSense f.wakeSense
    wakeDown := keepOr boolOf p.wakeDown f.wakeDown }

/-- An entry in the order of R164. -/
def Policy.items (p : Policy) : List Item :=
  [.count 1 p.budget, .code 2 p.sleep.code, .count 3 p.quietCap, .count 4 p.scale, .yes 5 p.wakeSense,
   .yes 6 p.wakeDown]

/-- What a write of the current state's entry does at once (R174): shedding, grants, and the quiet delays anew. The
sequencer makes a selection if a shed has brought it to IDLE. DEDUCED: before the quiet delays anew, log entry 16. -/
def afterPolicyWrite (capChanged : Bool) (s : State) : State :=
  let s := idleStep (grantAll (shedToBudget s))
  if capChanged then rederiveAll s else s

/-- WRITE POWER POLICY (R174): one recompute, whichever entry it writes. -/
def cmdWritePowerPolicy (o : Origin) (state : Nat) (f : PolicyFields) (s : State) : State × CmdResult :=
  match PowerState.ofCode state with
  | none => refuse .badParam s
  | some p =>
    let old := s.power.policies.get (PowerState.idx p)
    let new := PolicyFields.store f old
    if PolicyFields.exist f = false then refuse .badParam s
    else if lockForbids s o && new != old then refuse .locked s
    else
      let s := s.modPower fun x => { x with policies := x.policies.set (PowerState.idx p) new }
      let s := if s.power.state = some p then afterPolicyWrite (old.quietCap != new.quietCap) s else s
      answer (clampStatus (PolicyFields.clamps f)) new.items (recompute s)

/-- Whether a carried value lies outside its range (R175). -/
def ThresholdFields.clamps (f : ThresholdFields) : Bool :=
  outside 0 65535 f.conserve || outside 0 65535 f.reserve || outside 0 1000 f.hysteresis || outside 10 600 f.stableDelay

/-- The Power Manager with every carried value stored, clamped (R175). -/
def ThresholdFields.store (f : ThresholdFields) (p : Power) : Power :=
  { p with
    conserve := clampOr 0 65535 p.conserve f.conserve
    reserve := clampOr 0 65535 p.reserve f.reserve
    hysteresis := clampOr 0 1000 p.hysteresis f.hysteresis
    stableDelay := clampOr 10 600 p.stableDelay f.stableDelay }

/-- The four values in the order of R175, numbered from `k`. -/
def thresholdItems (k : Nat) (p : Power) : List Item :=
  [.count k p.conserve, .count (k + 1) p.reserve, .count (k + 2) p.hysteresis, .count (k + 3) p.stableDelay]

/-- SET BATTERY THRESHOLDS (R175). -/
def cmdSetBatteryThresholds (o : Origin) (f : ThresholdFields) (s : State) : State × CmdResult :=
  let new := ThresholdFields.store f s.power
  if new.conserve ≤ new.reserve then refuse .badParam s
  else if lockForbids s o && new != s.power then refuse .locked s
  else answer (clampStatus (ThresholdFields.clamps f)) (thresholdItems 1 new) (s.modPower fun _ => new)

/-- A wake list entry with its line, cause and arrival time (R169). -/
def WakeEntry.items (e : WakeEntry) : List Item := [.line 1 e.line, .code 2 e.cause.code, .time 3 e.time]

/-- The items of READ POWER (R176). -/
def powerItems (s : State) : List Item :=
  let p := s.power
  Item.opt (fun x : PowerState => .code 1 x.code) p.state ++ Item.opt (.time 2) p.lastChange ++ [.yes 3 p.mainsOk]
    ++ Item.opt (.count 4) p.stableTimer ++ Item.opt (fun x : Nat × Time => .count 5 x.1) p.sample
    ++ Item.opt (fun x : Nat × Time => .time 6 x.2) p.sample ++ thresholdItems 7 p
    ++ p.policies.items.map (fun x => .nest 11 x.items)
    ++ [.count 12 (awakeBudget s), .count 13 (awakeCount s), .count 14 (lineSet fun n => awakeState (s.line n).st)]
    ++ p.wakeList.map fun e => .nest 15 e.items

/-- READ POWER (R176). -/
def cmdReadPower (s : State) : State × CmdResult := answer .ok (powerItems s) s

/-! ## Counters -/

/-- Numbers as items counted up from an identifier. -/
def countItems (k : Nat) (xs : List Nat) : List Item := xs.zipIdx.map fun x => .count (k + x.2) x.1

/-- The counters of a set in the order of R195, numbered from `k`: traffic, then the drops. -/
def CounterSet.items (c : CounterSet) : List Item :=
  [.count 1 c.downFrames, .wide 2 c.downBytes, .count 3 c.upFrames, .wide 4 c.upBytes, .count 5 c.spareFrames]
    ++ countItems 6 c.drops.items

/-- READ COUNTERS (R198): every counter of the set and the lines that name it; with clear yes the set is zeroed. -/
def cmdReadCounters (set : Nat) (clear : Option Nat) (s : State) : State × CmdResult :=
  match setOf set, boolOf (clear.getD 0) with
  | some k, some c =>
    answer .ok ((s.counts.sets.get k).items ++ [.count 17 (lineSet fun n => (s.line n).cfg.counterSet == some k)])
      (if c then s.modCounts fun x => { x with sets := x.sets.set k .zero } else s)
  | _, _ => refuse .badParam s

/-- The global counters in the order of R196: line drop causes, the eighteen single counters, traffic, histograms. -/
def globalItems (c : Counts) : List Item :=
  countItems 1 c.total.drops.items ++ countItems 12 c.dev.items
    ++ [.count 30 c.total.downFrames, .wide 31 c.total.downBytes, .count 32 c.total.upFrames,
        .wide 33 c.total.upBytes, .count 34 c.total.spareFrames]
    ++ countItems 35 c.upHist.items ++ countItems 41 c.downHist.items

/-- Every global counter and both histograms zeroed (R198). -/
def Counts.cleared (c : Counts) : Counts :=
  { c with total := .zero, dev := .fill 18 0, upHist := .fill 6 0, downHist := .fill 6 0 }

/-- READ GLOBAL COUNTERS (R198). -/
def cmdReadGlobalCounters (clear : Option Nat) (s : State) : State × CmdResult :=
  match boolOf (clear.getD 0) with
  | none => refuse .badParam s
  | some c => answer .ok (globalItems s.counts) (if c then s.modCounts Counts.cleared else s)

/-! ## Events, notices and reset causes -/

/-- A group of flags as a mask: bit k - 1 names item k (11.1). DESIGN CHOICE: flags are reported in the form in which
CLEAR EVENTS and CLEAR RESET CAUSE name them, log entry 17. -/
def flagMask {n : Nat} (t : Tab n Bool) : Nat :=
  (indexes n).foldl (fun a i => if t.get i then a + 2 ^ i.val else a) 0

/-- Flags with those a mask names cleared. -/
def clearFlags {n : Nat} (m : BitVec 32) (t : Tab n Bool) : Tab n Bool := .ofFn fun i => t.get i && !m.getLsbD i.val

/-- CLEAR EVENTS (R200). DESIGN CHOICE: the flags left are reported as one mask, log entry 17. -/
def cmdClearEvents (mask : BitVec 32) (s : State) : State × CmdResult :=
  if namesBeyond 12 mask then refuse .badParam s
  else
    let s := s.modCounts fun k => { k with flags := clearFlags mask k.flags }
    answer .ok [.count 1 (flagMask s.counts.flags)] s

/-- A kind of event by its code (11.2). -/
def kindOf (v : Nat) : Option (Fin 12) := if h : 1 ≤ v ∧ v ≤ 12 then some ⟨v - 1, by omega⟩ else none

/-- Whether a carried kind exists with an existing enable or urgency, or both (R203). -/
def NoticeField.exist (f : NoticeField) : Bool :=
  (kindOf f.kind).isSome && fieldOk boolOf f.enable && fieldOk urgencyOf f.urgency
    && (f.enable.isSome || f.urgency.isSome)

/-- One kind's setting stored (R203). -/
def storeNotice (t : Tab 12 NoticeSetting) (f : NoticeField) : Tab 12 NoticeSetting :=
  match kindOf f.kind with
  | none => t
  | some k => t.modify k fun x =>
    { enabled := keepOr boolOf x.enabled f.enable, urgent := keepOr urgencyOf x.urgent f.urgency }

/-- A kind's setting as an item: its kind, its enable and its urgency. -/
def settingItem (t : Tab 12 NoticeSetting) (k : Fin 12) : Item :=
  .nest 1 [.code 1 (k.val + 1), .yes 2 (t.get k).enabled, .code 3 (boolCode (!(t.get k).urgent))]

/-- SET NOTICES (R203): the notices of kinds disabled leave the list without a count. DESIGN CHOICE: of a kind named more
than once each value is stored in turn and the final enable decides, log entry 38. -/
def cmdSetNotices (fs : List NoticeField) (s : State) : State × CmdResult :=
  if fs.all NoticeField.exist then
    let new := fs.foldl storeNotice s.counts.settings
    answer .ok ((indexes 12).map (settingItem new))
      (s.modCounts fun k => { k with
        settings := new, notices := k.notices.filter fun x => (new.get x.detail.kind.idx).enabled })
  else refuse .badParam s

/-- CLEAR RESET CAUSE (R204). DESIGN CHOICE: the flags left are reported as one mask, log entry 17. -/
def cmdClearResetCause (mask : BitVec 32) (s : State) : State × CmdResult :=
  if namesBeyond 5 mask then refuse .badParam s
  else
    let s := s.modCounts fun k => { k with resetCause := clearFlags mask k.resetCause }
    answer .ok [.count 1 (flagMask s.counts.resetCause)] s

/-! ## The steps -/

/-- WRITE_POWER_POLICY (R174). -/
def execWritePowerPolicy (o : Origin) (state : Nat) (f : PolicyFields) (s : State) :
    Host.Outcome State Fault Refusal := carryOut (cmdWritePowerPolicy o state f) s

/-- SET_BATTERY_THRESHOLDS (R175). -/
def execSetBatteryThresholds (o : Origin) (f : ThresholdFields) (s : State) : Host.Outcome State Fault Refusal :=
  carryOut (cmdSetBatteryThresholds o f) s

/-- READ_POWER (R176): not protected, so the origin plays no part. -/
def execReadPower (_o : Origin) (s : State) : Host.Outcome State Fault Refusal := carryOut cmdReadPower s

/-- READ_COUNTERS (R198). -/
def execReadCounters (_o : Origin) (set : Nat) (clear : Option Nat) (s : State) : Host.Outcome State Fault Refusal :=
  carryOut (cmdReadCounters set clear) s

/-- READ_GLOBAL_COUNTERS (R198). -/
def execReadGlobalCounters (_o : Origin) (clear : Option Nat) (s : State) : Host.Outcome State Fault Refusal :=
  carryOut (cmdReadGlobalCounters clear) s

/-- CLEAR_EVENTS (R200). -/
def execClearEvents (_o : Origin) (mask : BitVec 32) (s : State) : Host.Outcome State Fault Refusal :=
  carryOut (cmdClearEvents mask) s

/-- SET_NOTICES (R203). -/
def execSetNotices (_o : Origin) (fs : List NoticeField) (s : State) : Host.Outcome State Fault Refusal :=
  carryOut (cmdSetNotices fs) s

/-- CLEAR_RESET_CAUSE (R204). -/
def execClearResetCause (_o : Origin) (mask : BitVec 32) (s : State) : Host.Outcome State Fault Refusal :=
  carryOut (cmdClearResetCause mask) s

end Sys2Proof.Machine
end

