-- ==== Sys2Proof/Machine/ManagementCommands.lean ====
section
/-! DEFINITION. The commands of the Management Engine (09): READ STATUS, SET MANAGEMENT, SET TIME, LOCK, SAVE
CONFIGURATION with its end, TRAFFIC RESET and DEVICE RESET; and the element that names no command (R206). -/

namespace Sys2Proof.Machine

/-! ## SET MANAGEMENT, SET TIME, LOCK -/

/-- Whether every carried item exists (R186, step 1). -/
def ManagementFields.exist (f : ManagementFields) : Bool :=
  (f.station.all fun a => !a.isGroup) && (f.manager.all fun m => m.all fun a => !a.isGroup)
    && f.ethertype.all ethertypeOk && fieldOk boolOf f.managerOnly

/-- The engine with every carried item stored, the VLAN clamped; a station address written has the source COMMAND
(R186, R194). -/
def ManagementFields.store (f : ManagementFields) (m : Mgmt) : Mgmt :=
  { m with
    station := f.station.orElse fun _ => m.station
    stationSource := if f.station.isSome then .command else m.stationSource
    vlan := clampOr 1 4094 m.vlan f.vlan
    ethertype := f.ethertype.getD m.ethertype
    manager := f.manager.getD m.manager
    managerOnly := keepOr boolOf m.managerOnly f.managerOnly }

/-- The five items in the order of R185, numbered from `k`. -/
def settingItems (k : Nat) (m : Mgmt) : List Item :=
  [.short k m.vlan, .short (k + 1) m.ethertype] ++ Item.opt (.addr (k + 2)) m.manager ++ [.yes (k + 3) m.managerOnly]

/-- Whether a protected item would change (R183, R186): the source of the address is no item of R185. -/
def managementChange (old new : Mgmt) : Bool :=
  old.station != new.station || old.vlan != new.vlan || old.ethertype != new.ethertype
    || old.manager != new.manager || old.managerOnly != new.managerOnly

/-- SET MANAGEMENT (R186). -/
def cmdSetManagement (o : Origin) (f : ManagementFields) (s : State) : State × CmdResult :=
  let new := ManagementFields.store f s.mgmt
  if ManagementFields.exist f = false then refuse .badParam s
  else if lockForbids s o && managementChange s.mgmt new then refuse .locked s
  else answer (clampStatus (outside 1 4094 f.vlan)) (Item.opt (.addr 1) new.station ++ settingItems 2 new)
    (s.modMgmt fun _ => new)

/-- SET TIME (R187). -/
def cmdSetTime (t : Time) (s : State) : State × CmdResult :=
  answer .ok [] (s.modMgmt fun m => { m with time := t, timeUnset := false })

/-- LOCK (R184): engaged by the command when released, lock-at-start stored unless an engaged lock forbids it. -/
def cmdLock (o : Origin) (lockAtStart : Option Nat) (s : State) : State × CmdResult :=
  let new := keepOr boolOf s.mgmt.lockAtStart lockAtStart
  if fieldOk boolOf lockAtStart = false then refuse .badParam s
  else if lockForbids s o && new != s.mgmt.lockAtStart then refuse .locked s
  else answer .ok [.yes 1 true, .yes 2 new] (s.modMgmt fun m => { m with locked := true, lockAtStart := new })

/-! ## SAVE CONFIGURATION -/

/-- SAVE CONFIGURATION (R189): the snapshot is taken and the stored header made invalid. -/
def cmdSaveConfiguration (s : State) : State × CmdResult :=
  if s.mgmt.storePresent = false then refuse .noStore s
  else if s.power.state = some .conserve ∨ s.power.state = some .reserve then refuse .power s
  else if s.mgmt.save.isSome then refuse .busy s
  else answer .accepted []
    { s with
      mgmt := { s.mgmt with save := some (snapshot s) }
      memory := { s.memory with image := { s.memory.image with version := 0 } } }

/-- The image a save leaves: a good one holds the snapshot, a failed one fails its check (R189, 11.6). -/
def savedImage (good : Bool) (b : ImageBody) : StoredImage :=
  { version := if good then Config.imageVersion else 0, bodyLength := Config.imageBodyLength, crcGood := good
    codesExist := true, body := b }

/-- The end of a save: SAVE_DONE is raised and its result and time kept (R189). -/
def endSave (good : Bool) (s : State) : State :=
  match s.mgmt.save with
  | none => s
  | some b =>
    raise none (.saveDone good)
      { s with
        mgmt := { s.mgmt with save := none, lastSave := some (good, s.mgmt.time) }
        memory := { s.memory with image := savedImage good b } }

/-! ## Resets by command -/

/-- TRAFFIC RESET (R192). -/
def cmdTrafficReset (s : State) : State × CmdResult := answer .ok [] (doTrafficReset s)

/-- DEVICE RESET (R193): a device reset is pending, with its timer at 1 s. -/
def cmdDeviceReset (s : State) : State × CmdResult :=
  if s.mgmt.save.isSome then refuse .busy s
  else answer .ok [] (s.modMgmt fun m => { m with devReset := some { reply := none, timer := Config.deviceResetMs } })

/-- An element whose identifier names no command (R206). -/
def cmdUnknown (s : State) : State × CmdResult := refuse .badCommand s

/-! ## READ STATUS -/

/-- Entries of the transmit list in one part (R181). -/
def partCount (s : State) (p : TxPart) : Nat := s.mgmt.txList.countP fun e => e.part == p

/-- A yes/no item of success or failure: SUCCESS is 0 and FAILED 1 (11.2). -/
def Item.success (ident : Nat) (good : Bool) : Item := .code ident (boolCode (!good))

/-- Identity, time, lock and store (R194): the result and the time of the last save while no save is in progress. -/
def identityItems (s : State) : List Item :=
  let m := s.mgmt
  Item.opt (.addr 1) m.station ++ [.code 2 m.stationSource.code] ++ Item.opt (.addr 3) m.identity ++ settingItems 4 m
    ++ [.time 8 m.time, .yes 9 m.timeUnset, .yes 10 m.locked, .yes 11 m.lockAtStart, .yes 12 m.storePresent]
    ++ Item.opt (fun c : ImageCheck => .code 13 c.code) m.imageCheck ++ [.yes 14 m.save.isSome]
    ++ (if m.save.isSome then [] else Item.opt (fun x : Bool × Time => .success 15 x.1) m.lastSave
      ++ Item.opt (fun x : Bool × Time => .time 16 x.2) m.lastSave)

/-- Resets and events, management and frame path (R194). DESIGN CHOICE: each group of flags as one mask, log entry 17. -/
def pathItems (s : State) : List Item :=
  [.count 17 (flagMask s.counts.resetCause), .count 18 (flagMask s.counts.flags), .yes 19 s.mgmt.devReset.isSome,
   .count 20 s.mgmt.controlQ.length, .count 21 (partCount s .reply), .count 22 (partCount s .urgent),
   .count 23 (partCount s .routine), .yes 24 s.sched.uplinkUp, .yes 25 s.sched.craftUp, .yes 26 (s.sched.paused .prio)]
    ++ Item.opt (.count 27) s.sched.prioPause ++ [.yes 28 (s.sched.paused .bulk)]
    ++ Item.opt (.count 29) s.sched.bulkPause ++ [.count 30 s.pool.free, .yes 31 s.pool.armed]

/-- The measurement in hand while the unit is MEASURING: kind, leg and ms since START (R129). -/
def measuringItems (a : Access) : List Item :=
  match measuringSpec a with
  | none => []
  | some x => [.code 40 x.kind.code, .code 41 x.leg.code, .count 42 a.elapsed]

/-- Lines, power and test access (R194, R92, R129). -/
def plantItems (s : State) : List Item :=
  let a := s.access
  s.lines.items.map (fun l => .code 32 l.st.code) ++ s.lines.items.map (fun l => .count 33 l.trainFails)
    ++ Item.opt (fun p : PowerState => .code 34 p.code) s.power.state ++ [.code 35 a.matrix.code]
    ++ Item.opt (.line 36) a.matrix.pair ++ [.yes 37 a.tripped, .count 38 a.guardVolts, .code 39 a.unit.code]
    ++ measuringItems a ++ [.count 43 a.settleTime, .count 44 a.dischargeTime, .count 45 a.cablePf]

/-- READ STATUS (R194). -/
def cmdReadStatus (s : State) : State × CmdResult :=
  answer .ok (identityItems s ++ pathItems s ++ plantItems s) s

/-! ## The steps -/

/-- UNKNOWN_COMMAND (R206). -/
def execUnknownCommand (_ident : Byte) (s : State) : Host.Outcome State Fault Refusal := carryOut cmdUnknown s

/-- READ_STATUS (R194): not protected, so the origin plays no part. -/
def execReadStatus (_o : Origin) (s : State) : Host.Outcome State Fault Refusal := carryOut cmdReadStatus s

/-- SET_MANAGEMENT (R186). -/
def execSetManagement (o : Origin) (f : ManagementFields) (s : State) : Host.Outcome State Fault Refusal :=
  carryOut (cmdSetManagement o f) s

/-- SET_TIME (R187). -/
def execSetTime (_o : Origin) (t : Time) (s : State) : Host.Outcome State Fault Refusal := carryOut (cmdSetTime t) s

/-- LOCK (R184). -/
def execLock (o : Origin) (lockAtStart : Option Nat) (s : State) : Host.Outcome State Fault Refusal :=
  carryOut (cmdLock o lockAtStart) s

/-- SAVE_CONFIGURATION (R189). -/
def execSaveConfiguration (_o : Origin) (s : State) : Host.Outcome State Fault Refusal :=
  carryOut cmdSaveConfiguration s

/-- SAVE_DONE (R189). -/
def execSaveDone (good : Bool) (s : State) : Host.Outcome State Fault Refusal := .next (endSave good s)

/-- TRAFFIC_RESET (R192). -/
def execTrafficReset (_o : Origin) (s : State) : Host.Outcome State Fault Refusal := carryOut cmdTrafficReset s

/-- DEVICE_RESET (R193). -/
def execDeviceReset (_o : Origin) (s : State) : Host.Outcome State Fault Refusal := carryOut cmdDeviceReset s

end Sys2Proof.Machine
end

