-- ==== Sys2Proof/Machine/ControlFrames.lean ====
section
/-! DEFINITION. Control, reply and notice frames (09, sections 9.1 and 9.2; R202, R205, R206, R207 and section 11.2):
reading the elements and items of a control frame, running its commands, and building replies and notice frames. -/

namespace Sys2Proof.Machine

/-! ## The fields of a command -/

/-- A field a command may carry: its identifier, its width in bytes, whether it may hold none, whether it is a list,
and, where its value is a string of items, the identifiers and widths of those (11.1, 11.2). -/
structure Field where
  ident : Nat
  width : Nat
  orNone : Bool := false
  many : Bool := false
  inner : List (Nat × Nat) := []
deriving DecidableEq, Repr

/-- One form of a command: its number (0 where the command has no forms), the fields it carries and those it needs. -/
structure Form where
  number : Nat
  fields : List Field
  needs : List Nat
deriving DecidableEq, Repr

/-- A field of one byte: an enumeration or a line. -/
def byteField (i : Nat) : Field := { ident := i, width := 1 }
def shortField (i : Nat) : Field := { ident := i, width := 2 }
/-- A field of four bytes: a count, a line set or a mask. -/
def countField (i : Nat) : Field := { ident := i, width := 4 }
/-- A field of six bytes: an address or a time. -/
def wideField (i : Nat) : Field := { ident := i, width := 6 }

/-- A command with no forms. -/
def plain (fields : List Field) (needs : List Nat) : List Form := [{ number := 0, fields := fields, needs := needs }]

/-- The rows of R14 that WRITE LINE carries, item 2 (admin) not among them. -/
def lineFields : List Field :=
  [shortField 3, countField 4, countField 5, countField 6, countField 7, byteField 8, byteField 9, byteField 10,
   countField 11, countField 12, countField 13, { countField 14 with orNone := true },
   { countField 15 with orNone := true }, countField 16, countField 17, countField 18, byteField 19, byteField 20,
   byteField 21, countField 22]

/-- The items of a spec in the order of R112 with their widths. -/
def specInner : List (Nat × Nat) :=
  [(1, 1), (2, 1), (3, 4), (4, 4), (5, 4), (6, 4), (7, 4), (8, 4), (9, 4), (10, 4), (11, 4), (12, 4)]

/-- The forms of each command of section 11.2; the empty list for an identifier that names none (log entry 8). -/
def formsOf (ident : Nat) : List Form :=
  match ident with
  | 0x10 => [⟨1, [wideField 1, byteField 2, byteField 3], [1, 2, 3]⟩, ⟨2, [countField 4], [4]⟩]
  | 0x11 => plain [wideField 1] [1]
  | 0x12 => [⟨1, [wideField 1], [1]⟩, ⟨2, [byteField 2], [2]⟩, ⟨3, [countField 3], [3]⟩]
  | 0x13 => plain [byteField 1] [1]
  | 0x14 => plain (byteField 1 :: lineFields) [1]
  | 0x15 => plain [byteField 1] [1]
  | 0x20 => [⟨1, [byteField 1], [1]⟩, ⟨2, [countField 2, countField 3], []⟩]
  | 0x21 => plain [byteField 1] [1]
  | 0x22 => plain [byteField 1] [1]
  | 0x23 => plain [countField 1] [1]
  | 0x30 => plain [countField 1, countField 2, countField 3, countField 4, byteField 5,
      { wideField 6 with orNone := true }, shortField 7] []
  | 0x31 => plain [] []
  | 0x40 => plain [countField 1, { ident := 2, width := 0, many := true, inner := specInner }] [1]
  | 0x41 => plain [countField 1] [1]
  | 0x42 => plain [byteField 1, countField 2, byteField 3] [1, 2]
  | 0x43 => plain [byteField 1] [1]
  | 0x44 => plain [] []
  | 0x45 => [⟨1, [countField 1], [1]⟩, ⟨2, [byteField 2], [2]⟩]
  | 0x46 => plain [countField 1, countField 2, countField 3, countField 4] [1]
  | 0x47 => plain [countField 1] [1]
  | 0x48 => plain [countField 1] [1]
  | 0x49 => plain [countField 1, countField 2, countField 3, countField 4, countField 5, countField 6, countField 7] []
  | 0x4A => plain [byteField 1] [1]
  | 0x4B => plain [] []
  | 0x50 => plain [byteField 1, countField 2, byteField 3, countField 4, countField 5, byteField 6, byteField 7] [1]
  | 0x51 => plain [countField 1, countField 2, countField 3, countField 4] []
  | 0x52 => plain [] []
  | 0x60 => plain [countField 1, byteField 2] [1]
  | 0x61 => plain [byteField 1] []
  | 0x62 => plain [countField 1] [1]
  | 0x63 => plain [{ ident := 1, width := 0, many := true, inner := [(1, 1), (2, 1), (3, 1)] }] []
  | 0x64 => plain [countField 1] [1]
  | 0x70 => plain [] []
  | 0x71 => plain [wideField 1, shortField 2, shortField 3, { wideField 4 with orNone := true }, byteField 5] []
  | 0x72 => plain [wideField 1] [1]
  | 0x73 => plain [byteField 1] []
  | 0x74 => plain [] []
  | 0x75 => plain [] []
  | 0x76 => plain [] []
  | _ => []

/-! ## Items -/

/-- The whole items a body is filled by; `none` if an item runs past its end (R205, step 3). -/
def splitItems : Nat → List Byte → Option (List Item)
  | _, [] => some []
  | 0, _ => none
  | _ + 1, [_] => none
  | fuel + 1, i :: n :: rest =>
    if rest.length < n.toNat then none
    else (splitItems fuel (rest.drop n.toNat)).map fun xs => ⟨i.toNat, rest.take n.toNat⟩ :: xs

/-- The items of a body. -/
def itemsOf (body : List Byte) : Option (List Item) := splitItems body.length body

/-- The field of a form an item names. -/
def fieldIn (fs : List Field) (i : Nat) : Option Field := fs.find? fun f => f.ident == i

/-- Whether a string of items has whole items of the widths named (R205, step 3). -/
def innerWhole (inner : List (Nat × Nat)) (v : List Byte) : Bool :=
  match itemsOf v with
  | none => false
  | some xs => xs.all fun x => (inner.lookup x.ident).all fun w => x.value.length == w

/-- Whether an item's length matches its type (R205, step 3). DESIGN CHOICE: an item that names no field, or one that the
command does not carry, has no type, log entry 8. -/
def itemWhole (fs : List Field) (x : Item) : Bool :=
  match fieldIn fs x.ident with
  | none => true
  | some f =>
    if f.inner.isEmpty then x.value.length == f.width || (f.orNone && x.value.isEmpty)
    else innerWhole f.inner x.value

/-- How often an identifier is given. -/
def given (xs : List Item) (i : Nat) : Nat := xs.countP fun x => x.ident == i

/-- Whether a string of items names only its own fields, each once (R206). -/
def innerNamed (inner : List (Nat × Nat)) (v : List Byte) : Bool :=
  match itemsOf v with
  | none => false
  | some xs => xs.all fun x => (inner.lookup x.ident).isSome && given xs x.ident == 1

/-- Whether an item names a field of the form, and is given once unless the field is a list (R206). -/
def itemNamed (fs : List Field) (xs : List Item) (x : Item) : Bool :=
  match fieldIn fs x.ident with
  | none => false
  | some f => (f.many || given xs x.ident == 1) && (f.inner.isEmpty || innerNamed f.inner x.value)

/-- The value of an item, if it is carried. -/
def valueOf (xs : List Item) (i : Nat) : Option Nat :=
  (xs.find? fun x => x.ident == i).map fun x => beNat x.value

/-- The value of a field that may hold none: an item of length 0 carries none (11.2). -/
def valueOrNone (xs : List Item) (i : Nat) : Option (Option Nat) :=
  (xs.find? fun x => x.ident == i).map fun x => if x.value.isEmpty then none else some (beNat x.value)

/-- The values of a list, each as its own items. -/
def listOf (xs : List Item) (i : Nat) : List (List Item) :=
  (xs.filter fun x => x.ident == i).map fun x => (itemsOf x.value).getD []

/-! ## Commands from their items -/

def toAddr (v : Nat) : Addr := BitVec.ofNat 48 v

/-- A spec from its items (R112). -/
def rawSpecOf (xs : List Item) : RawSpec :=
  let v := valueOf xs
  { kind := v 1, leg := v 2, volts := v 3, current := v 4, window := v 5, target := v 6, freq := v 7
    onTime := v 8, offTime := v 9, duration := v 10, marginal := v 11, faulty := v 12 }

/-- One kind of SET NOTICES from its items; a kind left out names none. -/
def noticeFieldOf (xs : List Item) : NoticeField :=
  { kind := (valueOf xs 1).getD 0, enable := valueOf xs 2, urgency := valueOf xs 3 }

/-- WRITE LINE's fields from its items. -/
def lineFieldsOf (xs : List Item) : LineFields :=
  let v := valueOf xs
  { vlan := v 3, committed := v 4, weight := v 5, cap := v 6, stationLimit := v 7, learning := v 8
    broadcast := v 9, defaultClass := v 10, downLimit := v 11, prioLimit := v 12, bulkLimit := v 13
    counterSet := valueOrNone xs 14, routineGroup := valueOrNone xs 15, powerPriority := v 16, quietDelay := v 17
    dormantDelay := v 18, wakeOnDown := v 19, senseEdge := v 20, keepOnFault := v 21, recordedLength := v 22 }

/-- The command that an element of a known identifier and form spells; the items it needs are present. -/
def commandOf (o : Origin) (ident form : Nat) (xs : List Item) : Instr :=
  let v := valueOf xs
  let w := fun i => (valueOf xs i).getD 0
  match ident with
  | 0x10 => if form = 1 then .writeStation o (toAddr (w 1)) (w 2) (w 3) else .writeStationTableForm o (w 4)
  | 0x11 => .removeStation o (toAddr (w 1))
  | 0x12 => .readStation o
      (if form = 1 then .byAddress (toAddr (w 1)) else if form = 2 then .byLine (w 2) else .fromIndex (w 3))
  | 0x13 => .flushLearned o (if w 1 = 255 then .all else .line (w 1))
  | 0x14 => .writeLine o (w 1) (lineFieldsOf xs)
  | 0x15 => .readLine o (w 1)
  | 0x20 => if form = 1 then .enableLine o (w 1) else .enableLineSettingsForm o (v 2) (v 3)
  | 0x21 => .disableLine o (w 1)
  | 0x22 => .clearBar o (w 1)
  | 0x23 => .clearSense o (BitVec.ofNat 32 (w 1))
  | 0x30 => .setUplink o
      { ceiling := v 1, allowance := v 2, fallback := v 3, hold := v 4, spare := v 5
        backhaul := (valueOrNone xs 6).map fun a => a.map toAddr, ethertype := v 7 }
  | 0x31 => .readUplink o
  | 0x40 => .writeProgram o (w 1) ((listOf xs 2).map rawSpecOf)
  | 0x41 => .readProgram o (w 1)
  | 0x42 => .requestTest o (w 1) (w 2) (v 3)
  | 0x43 => .abortTest o (w 1)
  | 0x44 => .readTestQueue o
  | 0x45 => .readTestRecord o (if form = 1 then .bySequence (w 1) else .byLine (w 2))
  | 0x46 => .setRoutineGroup o (w 1) (v 2) (v 3) (v 4)
  | 0x47 => .startRoutineGroup o (w 1)
  | 0x48 => .stopRoutineGroup o (w 1)
  | 0x49 => .setTestLimits o
      { settle := v 1, discharge := v 2, guardVolts := v 3, cablePf := v 4, drain := v 5, suspend := v 6
        deferral := v 7 }
  | 0x4A => .connectExternal o (w 1)
  | 0x4B => .disconnectExternal o
  | 0x50 => .writePowerPolicy o (w 1)
      { budget := v 2, sleep := v 3, quietCap := v 4, scale := v 5, wakeSense := v 6, wakeDown := v 7 }
  | 0x51 => .setBatteryThresholds o { conserve := v 1, reserve := v 2, hysteresis := v 3, stableDelay := v 4 }
  | 0x52 => .readPower o
  | 0x60 => .readCounters o (w 1) (v 2)
  | 0x61 => .readGlobalCounters o (v 1)
  | 0x62 => .clearEvents o (BitVec.ofNat 32 (w 1))
  | 0x63 => .setNotices o ((listOf xs 1).map noticeFieldOf)
  | 0x64 => .clearResetCause o (BitVec.ofNat 32 (w 1))
  | 0x70 => .readStatus o
  | 0x71 => .setManagement o
      { station := (v 1).map toAddr, vlan := v 2, ethertype := v 3
        manager := (valueOrNone xs 4).map fun a => a.map toAddr, managerOnly := v 5 }
  | 0x72 => .setTime o (BitVec.ofNat 48 (w 1))
  | 0x73 => .lock o (v 1)
  | 0x74 => .saveConfiguration o
  | 0x75 => .trafficReset o
  | 0x76 => .deviceReset o
  | _ => .unknownCommand (BitVec.ofNat 8 ident)

/-- What an element says: a refusal before any command runs, or a command. -/
inductive Reading
  | refused (st : Status)
  | command (c : Instr)
deriving DecidableEq, Repr

/-- The form an element names: item 0 carried first, or form 0 where the command has no forms (11.2, R206). -/
def formNamed (forms : List Form) (xs : List Item) : Option (Form × List Item) :=
  match forms with
  | [⟨0, fs, ns⟩] => some (⟨0, fs, ns⟩, xs)
  | _ =>
    match xs with
    | x :: rest =>
      if x.ident = 0 then (forms.find? fun f => f.number == beNat x.value).map fun f => (f, rest) else none
    | [] => none

/-- The form field of a command that has forms. -/
def formField (forms : List Form) : List Field := if forms.any fun f => f.number != 0 then [byteField 0] else []

/-- An element read: BAD_COMMAND is left to the command row, then the format of the items, then their names
(R205, step 3; R206). DESIGN CHOICE: the command identifier before the format of the body, and the format before names,
log entry 8. -/
def readElement (o : Origin) (ident : Nat) (body : List Byte) : Reading :=
  let forms := formsOf ident
  if forms.isEmpty then .command (.unknownCommand (BitVec.ofNat 8 ident))
  else
    match itemsOf body with
    | none => .refused .badFormat
    | some xs =>
      if xs.all (itemWhole (formField forms ++ forms.flatMap Form.fields)) = false then .refused .badFormat
      else
        match formNamed forms xs with
        | none => .refused .badParam
        | some (f, ys) =>
          if ys.all (itemNamed f.fields ys) && f.needs.all fun i => given ys i == 1 then
            .command (commandOf o ident f.number ys)
          else .refused .badParam

/-- A command row as an element of a frame carries it out. No other row arises from an element. -/
def runRow (c : Instr) (s : State) : State × CmdResult :=
  match c with
  | .writeStation o a line cls => cmdWriteStation o a line cls s
  | .writeStationTableForm _ aging => cmdWriteStationTableForm aging s
  | .removeStation o a => cmdRemoveStation o a s
  | .readStation _ q => cmdReadStation q s
  | .flushLearned _ scope => cmdFlushLearned scope s
  | .writeLine o line f => cmdWriteLine o line f s
  | .readLine _ line => cmdReadLine line s
  | .enableLine _ line => cmdEnableLine line s
  | .enableLineSettingsForm _ t w => cmdEnableLineSettings t w s
  | .disableLine _ line => cmdDisableLine line s
  | .clearBar _ line => cmdClearBar line s
  | .clearSense _ lines => cmdClearSense lines s
  | .setUplink o f => cmdSetUplink o f s
  | .readUplink _ => cmdReadUplink s
  | .writeProgram o p specs => cmdWriteProgram o p specs s
  | .readProgram _ p => cmdReadProgram p s
  | .requestTest _ line p v => cmdRequestTest line p v s
  | .abortTest _ line => cmdAbortTest line s
  | .readTestQueue _ => cmdReadTestQueue s
  | .readTestRecord _ q => cmdReadTestRecord q s
  | .setRoutineGroup _ g b k p => cmdSetRoutineGroup g b k p s
  | .startRoutineGroup _ g => cmdStartRoutineGroup g s
  | .stopRoutineGroup _ g => cmdStopRoutineGroup g s
  | .setTestLimits o f => cmdSetTestLimits o f s
  | .connectExternal o line => cmdConnectExternal o line s
  | .disconnectExternal o => cmdDisconnectExternal o s
  | .writePowerPolicy o p f => cmdWritePowerPolicy o p f s
  | .setBatteryThresholds o f => cmdSetBatteryThresholds o f s
  | .readPower _ => cmdReadPower s
  | .readCounters _ k c => cmdReadCounters k c s
  | .readGlobalCounters _ c => cmdReadGlobalCounters c s
  | .clearEvents _ m => cmdClearEvents m s
  | .setNotices _ fs => cmdSetNotices fs s
  | .clearResetCause _ m => cmdClearResetCause m s
  | .readStatus _ => cmdReadStatus s
  | .setManagement o f => cmdSetManagement o f s
  | .setTime _ t => cmdSetTime t s
  | .lock o l => cmdLock o l s
  | .saveConfiguration _ => cmdSaveConfiguration s
  | .trafficReset _ => cmdTrafficReset s
  | .deviceReset _ => cmdDeviceReset s
  | _ => cmdUnknown s

/-- An element carried out: BUSY while a device reset is pending (R193), refused as it was read, or run. -/
def runElement (o : Origin) (ident : Nat) (body : List Byte) (s : State) : State × CmdResult :=
  runCommand (fun s =>
    match readElement o ident body with
    | .refused st => refuse st s
    | .command c => runRow c s) s

/-! ## A control frame -/

/-- An element as it stands in a frame (R205, step 2). -/
inductive Element
  | whole (ident : Nat) (body : List Byte)
  | truncated (ident : Nat)
deriving DecidableEq, Repr

/-- The elements from offset 24, up to the element count; nothing is read after a truncated one (R205, step 2). -/
def readElements : Nat → List Byte → List Element
  | 0, _ => []
  | _ + 1, [] => [.truncated 0]
  | k + 1, i :: rest =>
    let len := beNat (rest.take 2)
    if rest.length < 2 ∨ (rest.drop 2).length < len then [.truncated i.toNat]
    else .whole i.toNat ((rest.drop 2).take len) :: readElements k ((rest.drop 2).drop len)

/-- The elements carried out in turn, each one whole before the next (R179).
DESIGN CHOICE: a truncated element after DEVICE RESET, log entry 19. -/
def runElements (o : Origin) : List Element → State → State × List (Nat × CmdResult)
  | [], s => (s, [])
  | .truncated i :: _, s => (s, [(i, { status := .badFormat, items := [] })])
  | .whole i body :: rest, s =>
    let r := runElement o i body s
    let more := runElements o rest r.1
    (more.1, (i, r.2) :: more.2)

/-- Whether a control frame's header is refused whole (R205, step 1). -/
def headerRefused (b : List Byte) : Bool :=
  decide (b.length < 24) || wireField b 18 1 != 1 || wireField b 19 1 != 1 || wireField b 22 1 == 0
    || decide (Config.commandsPerFrame < wireField b 22 1)

/-- The commands of a control frame, with one result for each element listed in its reply (R205). -/
def runFrame (o : Origin) (f : List Byte) (s : State) : State × List (Nat × CmdResult) :=
  let b := frameBody f
  if headerRefused b then (s, [(0, { status := .badFormat, items := [] })])
  else runElements o (readElements (wireField b 22 1) (b.drop 24)) s

/-- The origin of a control frame by its port and the SERVICE input at its taking (R179). -/
def originOf (p : Port) (service : Bool) : Origin :=
  match p, service with
  | .uplink, _ => .uplink
  | .craft, true => .craftService
  | .craft, false => .craft

/-! ## Replies -/

/-- A reply element: identifier, status, marks and body (11.2). -/
def elementBytes (i : Nat) (st : Status) (omitted : Bool) (body : List Byte) : List Byte :=
  beBytes 1 i ++ beBytes 1 st.code ++ beBytes 1 (boolCode omitted) ++ beBytes 2 body.length ++ body

/-- The elements of a reply in the space left: the first whose results do not fit, and every later one, are reported
omitted (R180). Five bytes are kept for each later element. DESIGN CHOICE: log entry 18. -/
def packElements : Nat → List (Nat × CmdResult) → List Byte
  | _, [] => []
  | space, (i, r) :: rest =>
    let body := encodeItems r.items
    if 5 + body.length + 5 * rest.length ≤ space then
      elementBytes i r.status false body ++ packElements (space - (5 + body.length)) rest
    else ((i, r) :: rest).flatMap fun x => elementBytes x.1 x.2.status true []

/-- A frame body brought to the least length with zeros, with its check sequence (R20).
DESIGN CHOICE: log entry 18. -/
def finishFrame (b : List Byte) : List Byte := withCheck (b ++ List.replicate (60 - b.length) 0)

/-- The bytes a reply's elements may take: 1,522 less the header of 24 and the check sequence of 4 (R180). -/
def replySpace : Nat := Config.greatestFrame - 28

/-- The reply of a control frame (R180, 11.2). -/
def replyFrame (f : List Byte) (rs : List (Nat × CmdResult)) (s : State) : List Byte :=
  finishFrame ((f.drop 6).take 6 ++ beBytes 6 (s.mgmt.station.getD 0).toNat ++ (f.drop 12).take 6
    ++ beBytes 1 1 ++ beBytes 1 2 ++ (f.drop 20).take 2 ++ beBytes 1 rs.length
    ++ beBytes 1 (boolCode s.mgmt.timeUnset) ++ packElements replySpace rs)

/-- The order of the parts of the transmit list (R181). -/
def TxPart.rank : TxPart → Nat
  | .reply => 0
  | .urgent => 1
  | .routine => 2

/-- An entry at the end of its part (R181). -/
def insertTx (e : TxEntry) (l : List TxEntry) : List TxEntry :=
  (l.filter fun x => decide (x.part.rank ≤ e.part.rank)) ++ [e]
    ++ l.filter fun x => !decide (x.part.rank ≤ e.part.rank)

/-- A frame built by the part: a record with origin PART and its entry in the transmit list (R33, R180, R202). -/
def buildEntry (bytes : List Byte) (port : Port) (part : TxPart) (s : State) : State :=
  let id := s.pool.nextId
  (makeRecord { bytes := bytes, cls := none, origin := .part, refs := 1 } s).modMgmt fun m =>
    { m with txList := insertTx { recId := id, port := port, part := part } m.txList }

/-- The reply placed after the last reply; one for the craft port is removed at once while its link is down; and a
device reset that waits for a reply waits for this one (R180, R81, R193). -/
def placeReply (bytes : List Byte) (port : Port) (s : State) : State :=
  let id := s.pool.nextId
  let s := buildEntry bytes port .reply s
  let s := s.modMgmt fun m => { m with devReset := m.devReset.map fun d => { d with reply := some id } }
  if port = .craft ∧ s.sched.craftUp = false then dropCraftEntries s else s

/-- Whether the head of the control queue is taken (R178). -/
def mayTake (s : State) : Bool :=
  s.running && s.mgmt.devReset.isNone && decide (s.mgmt.txList.length < Config.transmitPlaces)
    && decide (Config.takeCells ≤ s.pool.free)

/-- A control frame taken: counted, its commands carried out, and its reply built (R178 to R180). -/
def takeFrame (service : Bool) (p : Port) (f : List Byte) (s : State) : State :=
  let s := countDev .framesTaken (s.modMgmt fun m => { m with controlQ := m.controlQ.drop 1, service := service })
  let r := runFrame (originOf p service) f s
  placeReply (replyFrame f r.2 r.1) p r.1

/-! ## Notice frames -/

/-- A notice's details as result items in the order of R199's details column. DESIGN CHOICE: the reset-cause flags as one
mask, log entry 17. -/
def Detail.items : Detail → List Item
  | .lineState l e r => [.code 1 l.code, .code 2 e.code, .code 3 r.code]
  | .testDone seq o g => [.count 1 seq, .code 2 o.code, .code 3 g.code]
  | .guardTrip ext u h =>
    [.yes 1 ext, .code 2 u.code] ++ Item.opt (fun x : Kind × Leg => .code 3 x.1.code) h
      ++ Item.opt (fun x : Kind × Leg => .code 4 x.2.code) h
  | .sense rising => [.yes 1 (!rising)]
  | .powerState l e c v a n =>
    [.code 1 l.code, .code 2 e.code, .code 3 c.code] ++ Item.opt (.count 4) v ++ [.count 5 a, .count 6 n]
  | .advisoryLost a => Item.opt (.count 1) a
  | .advisoryRestored a => [.count 1 a]
  | .poolLow free => [.count 1 free]
  | .saveDone good => [.success 1 good]
  | .configDefaulted noStore => [.yes 1 (!noStore)]
  | .resetCause flags => [.count 1 (flagMask flags)]
  | .external asserted => [.yes 1 (!asserted)]

/-- A notice as it stands in a notice frame (11.2). -/
def Notice.bytes (x : Notice) : List Byte :=
  let d := encodeItems x.detail.items
  beBytes 1 x.detail.kind.code ++ beBytes 1 (x.subject.elim 255 Fin.val) ++ beBytes 1 x.count
    ++ beBytes 6 x.time.toNat ++ beBytes 1 d.length ++ d

/-- Whether a notice is URGENT, by its kind's setting at the moment (R202). -/
def urgentNow (s : State) (x : Notice) : Bool := (s.counts.settings.get x.detail.kind.idx).urgent

/-- The urgency of the next notice frame: URGENT when any URGENT notice waits (R202). -/
def nextUrgency (s : State) : Bool := s.counts.notices.any (urgentNow s)

/-- The notices of the next frame: the oldest of its urgency, up to eight (R202). -/
def nextNotices (s : State) : List Notice :=
  (s.counts.notices.filter fun x => urgentNow s x == nextUrgency s).take Config.noticesPerFrame

/-- The notice frame that would be built now, for a manager address, with its number (R202, R207, 11.2). -/
def noticeFrame (manager : Addr) (s : State) : List Byte :=
  let xs := nextNotices s
  finishFrame (beBytes 6 manager.toNat ++ beBytes 6 (s.mgmt.station.getD 0).toNat
    ++ beBytes 2 Config.tagProtocol ++ beBytes 2 s.mgmt.vlan ++ beBytes 2 s.mgmt.ethertype
    ++ beBytes 1 1 ++ beBytes 1 3 ++ beBytes 2 (s.mgmt.noticeNumber + 1).toNat ++ beBytes 1 xs.length
    ++ beBytes 1 (boolCode s.mgmt.timeUnset + 2 * boolCode (nextUrgency s)) ++ xs.flatMap Notice.bytes)

/-- The list without the notices built. -/
def dropBuilt (built : List Notice) (l : List Notice) : List Notice :=
  l.filter fun x => !(built.any fun y => y == x)

/-- Whether a notice frame is built, and its bytes (R202). DEDUCED: during the start-up too, log entry 23. -/
def noticeReady (s : State) : Option (List Byte) :=
  match s.mgmt.manager with
  | none => none
  | some a =>
    let f := noticeFrame a s
    if s.counts.notices.isEmpty = false ∧ s.mgmt.txList.length < Config.transmitPlaces
        ∧ cellsFor f.length ≤ s.pool.free then some f
    else none

/-- A notice frame built: its notices leave the list at once (R202, R207). -/
def buildNotice (f : List Byte) (s : State) : State :=
  let xs := nextNotices s
  let part : TxPart := if nextUrgency s then .urgent else .routine
  let s := s.modCounts fun k => { k with notices := dropBuilt xs k.notices }
  let s := s.modMgmt fun m => { m with noticeNumber := m.noticeNumber + 1 }
  buildEntry f .uplink part s

/-! ## The steps -/

/-- CONTROL_FRAME_TAKEN (R178): nothing is taken while a condition fails. -/
def execControlFrameTaken (service : Bool) (s : State) : Host.Outcome State Fault Refusal :=
  .next (match s.mgmt.controlQ with
    | [] => s
    | (p, f) :: _ => if mayTake s then takeFrame service p f s else s)

/-- NOTICE_FRAME_BUILD (R202). -/
def execNoticeFrameBuild (s : State) : Host.Outcome State Fault Refusal :=
  .next ((noticeReady s).elim s fun f => buildNotice f s)

end Sys2Proof.Machine
end

