-- ==== Sys2Proof/Machine/Idle.lean ====
section
/-! DEFINITION. What the part does while no command waits (log entry 1): the first of its own steps that can be made,
then an expiry that is due, and otherwise one millisecond passes. -/

namespace Sys2Proof.Machine

/-! ## Steps the part makes of its own accord -/

/-- The first line that a predicate picks. -/
def firstLine (p : LineNo → Bool) : Option LineNo := (indexes 24).find? p

/-- A step for the first line that a predicate picks. -/
def forLine (p : LineNo → Bool) (c : LineNo → Instr) : Option Instr := (firstLine p).map c

/-- One step where a condition holds. -/
def onlyIf (b : Bool) (c : Instr) : Option Instr := if b then some c else none

/-- The steps whose conditions hold: drain complete, a hand-off, a grant, the taking of a control frame, a notice
frame, a choice of the scheduler and the craft transmitter's start (R44, R42, R170, R178, R202, R70, R81). -/
def readySteps (s : State) : List (Option Instr) :=
  [forLine (fun n => (s.line n).drained) .drainComplete,
   forLine (fun n => (s.line n).canHandOff) .handOffStart,
   onlyIf (!s.power.wakeList.isEmpty && decide (awakeCount s < awakeBudget s)) .wakeGrant,
   onlyIf (!s.mgmt.controlQ.isEmpty && mayTake s) (.controlFrameTaken s.mgmt.service),
   onlyIf (noticeReady s).isSome .noticeFrameBuild,
   onlyIf (mayChoose s && (choose s).isSome) .upstreamChoice,
   onlyIf (mayCraft s) .craftTransmissionStart]

/-! ## Expiries that are due -/

/-- Whether a timer stands at 0. -/
def expired (t : Option Nat) : Bool := t == some 0

/-- Whether the dormant timer has reached the dormant delay (R94). -/
def dormantReached (l : Line) : Bool :=
  l.st == .quiet && l.cfg.dormantDelay != 0 && l.quietFor.any fun t => decide (l.cfg.dormantDelay * 1000 ≤ t)

/-- Whether the capture timer has reached its timeout (R124). -/
def captureDue (a : Access) : Bool :=
  match measuringSpec a with
  | some (.capacitance ..) => decide (Config.captureTimeoutUs ≤ a.elapsed * 1000)
  | _ => false

/-- Whether the tone duration has elapsed (R126, R127). -/
def toneDue (a : Access) : Bool :=
  match measuringSpec a with
  | some (.tone _ _ _ _ d) => decide (d * 1000 ≤ a.elapsed)
  | _ => false

/-- A tick of a group that is due: the full tick before the half tick. -/
def tickDue (s : State) (g : Fin 4) : Option Instr :=
  let x := s.seq.groups.get g
  if groupCounts s g = false then none
  else if x.remaining = 0 then some (.fullTick g)
  else if x.halfDue then some (.halfTick g)
  else none

/-- The expiries that are due, block by block. -/
def dueExpiries (s : State) : List (Option Instr) :=
  [onlyIf (expired s.shares.holdTimer) .holdTimerExpiry,
   onlyIf (expired s.sched.prioPause) (.pauseTimerExpiry .prio),
   onlyIf (expired s.sched.bulkPause) (.pauseTimerExpiry .bulk),
   forLine (fun n => (s.line n).st == .training && expired (s.line n).trainTimer) .trainingTimerExpiry,
   forLine (fun n => (s.line n).st == .up && expired (s.line n).wakeTimer) .wakeTimerExpiry,
   forLine (fun n => idleReached (currentPolicy s) (s.line n)) .idleTimerExpiry,
   forLine (fun n => dormantReached (s.line n)) .dormantTimerExpiry,
   forLine (fun n => (s.line n).st == .draining && expired (s.line n).drainTimer) .drainTimerExpiry,
   onlyIf (expired s.access.settleTimer) .settleTimerExpiry,
   onlyIf (captureDue s.access) .captureTimeout,
   onlyIf (toneDue s.access) .toneDurationElapsed,
   onlyIf (s.access.unit == .discharging && expired s.access.dischargeTimer) .dischargeWaitExpiry,
   onlyIf (s.seq.st == .suspended && s.seq.suspended && expired s.seq.suspendTimer) .suspendTimerExpiry,
   (indexes 4).findSome? (tickDue s),
   onlyIf (expired s.power.stableTimer) .mainsStableTimerExpiry,
   onlyIf (s.mgmt.devReset.any fun d => d.timer == 0) .deviceResetTimerExpiry,
   onlyIf (expired s.sched.refill) .refill,
   onlyIf (expired s.stations.sweep) .agingSweep]

/-- The step the part makes by itself now, if there is one. -/
def dueStep (s : State) : Option Instr := (readySteps s ++ dueExpiries s).findSome? id

/-! ## One millisecond -/

/-- A running timer after `k` of its units. -/
def countDown (k : Nat) (t : Option Nat) : Option Nat := t.map fun x => x - k

/-- A running count after one millisecond. -/
def countUp (t : Option Nat) : Option Nat := t.map fun x => x + 1

/-- A line after one millisecond. -/
def Line.passMs (l : Line) : Line :=
  { l with
    idle := countUp l.idle, quietFor := countUp l.quietFor, trainTimer := countDown 1 l.trainTimer
    wakeTimer := countDown 1 l.wakeTimer, drainTimer := countDown 1 l.drainTimer }

/-- A counting group after one millisecond: the count falls each second, and the half tick is due when it reaches the
half point (R148, R149). -/
def Group.passMs (g : Group) : Group :=
  if g.subMs + 1 < 1000 then { g with subMs := g.subMs + 1 }
  else { g with
    subMs := 0, remaining := g.remaining - 1
    halfDue := g.halfDue || decide (g.remaining - 1 = g.halfPoint) }

/-- One millisecond: the timebase goes on from 2^48 - 1 to 0 (R187), timers run down and counts up.
DESIGN CHOICE: log entries 25 and 26. -/
def passTime (s : State) : State :=
  { s with
    stations := { s.stations with sweep := countDown 1 s.stations.sweep }
    lines := s.lines.map Line.passMs
    shares := { s.shares with holdTimer := countDown 1 s.shares.holdTimer }
    sched := { s.sched with
      prioPause := countDown 1000 s.sched.prioPause, bulkPause := countDown 1000 s.sched.bulkPause
      refill := countDown 1 s.sched.refill }
    access := { s.access with
      settleTimer := countDown 1 s.access.settleTimer
      dischargeTimer := countDown 1 s.access.dischargeTimer
      elapsed := if s.access.unit = .measuring then s.access.elapsed + 1 else s.access.elapsed }
    seq := { s.seq with
      suspendTimer := countDown 1 s.seq.suspendTimer
      groups := .ofFn fun g =>
        if groupCounts s g then (s.seq.groups.get g).passMs else s.seq.groups.get g }
    power := { s.power with stableTimer := countDown 1 s.power.stableTimer }
    mgmt := { s.mgmt with
      time := s.mgmt.time + 1
      devReset := s.mgmt.devReset.map fun d => { d with timer := d.timer - 1 } } }

/-- While the part is held in reset nothing counts: the timebase starts when the reset ends (R187). -/
def passMs (s : State) : State :=
  match s.mgmt.phase with
  | .held _ => s
  | .started | .running => passTime s

end Sys2Proof.Machine
end

