-- ==== Sys2Proof/Machine/Dispatch.lean ====
section
/-! DEFINITION. The meaning of every command: one arm per constructor of `Instr`, each one call of its own meaning. -/

namespace Sys2Proof.Machine

def exec (i : Instr) (s : State) : Host.Outcome State Fault Refusal :=
  match i with
  | .coldReset => Sys2Proof.Machine.execColdReset s
  | .pinReset => Sys2Proof.Machine.execPinReset s
  | .supplyReset => Sys2Proof.Machine.execSupplyReset s
  | .startUp => Sys2Proof.Machine.execStartUp s
  | .startUpComplete sample => Sys2Proof.Machine.execStartUpComplete sample s
  | .uplinkFrameReceived frame => Sys2Proof.Machine.execUplinkFrameReceived frame s
  | .capacityAdvisory figure => Sys2Proof.Machine.execCapacityAdvisory figure s
  | .classPause mask duration => Sys2Proof.Machine.execClassPause mask duration s
  | .craftFrameReceived service frame => Sys2Proof.Machine.execCraftFrameReceived service frame s
  | .lineLinkFrameReceived n frame => Sys2Proof.Machine.execLineLinkFrameReceived n frame s
  | .ready n => Sys2Proof.Machine.execReady n s
  | .activity n => Sys2Proof.Machine.execActivity n s
  | .linkUp n down up => Sys2Proof.Machine.execLinkUp n down up s
  | .rates n down up => Sys2Proof.Machine.execRates n down up s
  | .linkFail n => Sys2Proof.Machine.execLinkFail n s
  | .linkDown n => Sys2Proof.Machine.execLinkDown n s
  | .awake n => Sys2Proof.Machine.execAwake n s
  | .senseEdge n rising => Sys2Proof.Machine.execSenseEdge n rising s
  | .wakeGrant => Sys2Proof.Machine.execWakeGrant s
  | .agingSweep => Sys2Proof.Machine.execAgingSweep s
  | .holdTimerExpiry => Sys2Proof.Machine.execHoldTimerExpiry s
  | .refill => Sys2Proof.Machine.execRefill s
  | .pauseTimerExpiry c => Sys2Proof.Machine.execPauseTimerExpiry c s
  | .upstreamChoice => Sys2Proof.Machine.execUpstreamChoice s
  | .transmissionComplete => Sys2Proof.Machine.execTransmissionComplete s
  | .handOffStart n => Sys2Proof.Machine.execHandOffStart n s
  | .handOffComplete n => Sys2Proof.Machine.execHandOffComplete n s
  | .drainComplete n => Sys2Proof.Machine.execDrainComplete n s
  | .uplinkLinkDown => Sys2Proof.Machine.execUplinkLinkDown s
  | .uplinkLinkUp => Sys2Proof.Machine.execUplinkLinkUp s
  | .craftTransmissionStart => Sys2Proof.Machine.execCraftTransmissionStart s
  | .craftTransmissionComplete => Sys2Proof.Machine.execCraftTransmissionComplete s
  | .craftLinkDown => Sys2Proof.Machine.execCraftLinkDown s
  | .trainingTimerExpiry n => Sys2Proof.Machine.execTrainingTimerExpiry n s
  | .wakeTimerExpiry n => Sys2Proof.Machine.execWakeTimerExpiry n s
  | .idleTimerExpiry n => Sys2Proof.Machine.execIdleTimerExpiry n s
  | .dormantTimerExpiry n => Sys2Proof.Machine.execDormantTimerExpiry n s
  | .drainTimerExpiry n => Sys2Proof.Machine.execDrainTimerExpiry n s
  | .settleTimerExpiry => Sys2Proof.Machine.execSettleTimerExpiry s
  | .windowEnd samples => Sys2Proof.Machine.execWindowEnd samples s
  | .captureTargetReached t => Sys2Proof.Machine.execCaptureTargetReached t s
  | .captureTimeout => Sys2Proof.Machine.execCaptureTimeout s
  | .toneDurationElapsed => Sys2Proof.Machine.execToneDurationElapsed s
  | .dischargeWaitExpiry => Sys2Proof.Machine.execDischargeWaitExpiry s
  | .guardTrip mv => Sys2Proof.Machine.execGuardTrip mv s
  | .extreqAsserted => Sys2Proof.Machine.execExtreqAsserted s
  | .extreqReleased => Sys2Proof.Machine.execExtreqReleased s
  | .suspendTimerExpiry => Sys2Proof.Machine.execSuspendTimerExpiry s
  | .halfTick g => Sys2Proof.Machine.execHalfTick g s
  | .fullTick g => Sys2Proof.Machine.execFullTick g s
  | .batterySample mv => Sys2Proof.Machine.execBatterySample mv s
  | .mainsOkDeasserted => Sys2Proof.Machine.execMainsOkDeasserted s
  | .mainsOkAsserted => Sys2Proof.Machine.execMainsOkAsserted s
  | .mainsStableTimerExpiry => Sys2Proof.Machine.execMainsStableTimerExpiry s
  | .controlFrameTaken service => Sys2Proof.Machine.execControlFrameTaken service s
  | .unknownCommand ident => Sys2Proof.Machine.execUnknownCommand ident s
  | .noticeFrameBuild => Sys2Proof.Machine.execNoticeFrameBuild s
  | .writeStation o a line cls => Sys2Proof.Machine.execWriteStation o a line cls s
  | .writeStationTableForm o aging => Sys2Proof.Machine.execWriteStationTableForm o aging s
  | .removeStation o a => Sys2Proof.Machine.execRemoveStation o a s
  | .readStation o q => Sys2Proof.Machine.execReadStation o q s
  | .flushLearned o scope => Sys2Proof.Machine.execFlushLearned o scope s
  | .writeLine o line f => Sys2Proof.Machine.execWriteLine o line f s
  | .readLine o line => Sys2Proof.Machine.execReadLine o line s
  | .enableLine o line => Sys2Proof.Machine.execEnableLine o line s
  | .enableLineSettingsForm o trainLimit wakeLimit => Sys2Proof.Machine.execEnableLineSettingsForm o trainLimit wakeLimit s
  | .disableLine o line => Sys2Proof.Machine.execDisableLine o line s
  | .clearBar o line => Sys2Proof.Machine.execClearBar o line s
  | .clearSense o lines => Sys2Proof.Machine.execClearSense o lines s
  | .setUplink o f => Sys2Proof.Machine.execSetUplink o f s
  | .readUplink o => Sys2Proof.Machine.execReadUplink o s
  | .writeProgram o program specs => Sys2Proof.Machine.execWriteProgram o program specs s
  | .readProgram o program => Sys2Proof.Machine.execReadProgram o program s
  | .requestTest o line program override => Sys2Proof.Machine.execRequestTest o line program override s
  | .abortTest o line => Sys2Proof.Machine.execAbortTest o line s
  | .readTestQueue o => Sys2Proof.Machine.execReadTestQueue o s
  | .readTestRecord o q => Sys2Proof.Machine.execReadTestRecord o q s
  | .setRoutineGroup o group base factor program => Sys2Proof.Machine.execSetRoutineGroup o group base factor program s
  | .startRoutineGroup o group => Sys2Proof.Machine.execStartRoutineGroup o group s
  | .stopRoutineGroup o group => Sys2Proof.Machine.execStopRoutineGroup o group s
  | .setTestLimits o f => Sys2Proof.Machine.execSetTestLimits o f s
  | .connectExternal o line => Sys2Proof.Machine.execConnectExternal o line s
  | .disconnectExternal o => Sys2Proof.Machine.execDisconnectExternal o s
  | .writePowerPolicy o state f => Sys2Proof.Machine.execWritePowerPolicy o state f s
  | .setBatteryThresholds o f => Sys2Proof.Machine.execSetBatteryThresholds o f s
  | .readPower o => Sys2Proof.Machine.execReadPower o s
  | .readCounters o set clear => Sys2Proof.Machine.execReadCounters o set clear s
  | .readGlobalCounters o clear => Sys2Proof.Machine.execReadGlobalCounters o clear s
  | .clearEvents o mask => Sys2Proof.Machine.execClearEvents o mask s
  | .setNotices o fields => Sys2Proof.Machine.execSetNotices o fields s
  | .clearResetCause o mask => Sys2Proof.Machine.execClearResetCause o mask s
  | .readStatus o => Sys2Proof.Machine.execReadStatus o s
  | .setManagement o f => Sys2Proof.Machine.execSetManagement o f s
  | .setTime o t => Sys2Proof.Machine.execSetTime o t s
  | .lock o lockAtStart => Sys2Proof.Machine.execLock o lockAtStart s
  | .saveConfiguration o => Sys2Proof.Machine.execSaveConfiguration o s
  | .saveDone good => Sys2Proof.Machine.execSaveDone good s
  | .trafficReset o => Sys2Proof.Machine.execTrafficReset o s
  | .deviceReset o => Sys2Proof.Machine.execDeviceReset o s
  | .deviceResetTimerExpiry => Sys2Proof.Machine.execDeviceResetTimerExpiry s
  | .craftLinkUp => Sys2Proof.Machine.execCraftLinkUp s

end Sys2Proof.Machine
end

