-- ==== Sys2Proof/Machine/Step.lean ====
section
/-! DEFINITION. One step of the part: the command at the front of the queue, or what the part does while none waits. -/

namespace Sys2Proof.Machine

/-- What the part does on an empty queue: a step of its own, an expiry that is due, or one millisecond (log entry 1). -/
def idle (s : State) : Host.Outcome State Fault Refusal :=
  match dueStep s with
  | some c => exec c s
  | none => .next (passMs s)

/-- One step: the front command carried out on the state with the queue's rest. -/
def step (s : State) : Host.Outcome State Fault Refusal :=
  match s.pending with
  | c :: rest => exec c { s with pending := rest }
  | [] => idle s

/-- The state with the command that a word spells put at the front of its queue; unchanged where it spells none. -/
def State.withFetchWord (s : State) (nbits w : Nat) : State :=
  match decodeTableWord nbits w with
  | some c => { s with pending := c :: s.pending }
  | none => s

end Sys2Proof.Machine
end

