-- ==== Sys2Proof/Safety.lean ====
section
/-! DEFINITION. The terms the statements are made in: that a step completes with a next state of which something holds,
what a command's answer leaves, what is unchanged beside one line, and the invariants of the part. -/

namespace Sys2Proof.Machine

/-! ## What a step answers -/

/-- The step answers a next state, and that state has a property. -/
def Completes (c : Instr) (s : State) (q : State → Prop) : Prop := ∃ t, exec c s = .next t ∧ q t

/-- The state with the way its last command ended (R181). -/
def State.answered (s : State) (st : Status) (items : List Item) : State :=
  s.modMgmt fun m => { m with lastResult := some { status := st, items := items } }

/-- No device reset is pending, so commands are run (R193). -/
def State.takesCommands (s : State) : Prop := s.mgmt.devReset = none

/-- The rows that are commands of a control frame's element (11.2, R206). -/
def isCommand : Instr → Bool
  | .writeStation .. | .writeStationTableForm .. | .removeStation .. | .readStation .. | .flushLearned ..
  | .writeLine .. | .readLine .. | .enableLine .. | .enableLineSettingsForm .. | .disableLine .. | .clearBar ..
  | .clearSense .. | .setUplink .. | .readUplink .. | .writeProgram .. | .readProgram .. | .requestTest ..
  | .abortTest .. | .readTestQueue .. | .readTestRecord .. | .setRoutineGroup .. | .startRoutineGroup ..
  | .stopRoutineGroup .. | .setTestLimits .. | .connectExternal .. | .disconnectExternal .. | .writePowerPolicy ..
  | .setBatteryThresholds .. | .readPower .. | .readCounters .. | .readGlobalCounters .. | .clearEvents ..
  | .setNotices .. | .clearResetCause .. | .readStatus .. | .setManagement .. | .setTime .. | .lock ..
  | .saveConfiguration .. | .trafficReset .. | .deviceReset .. | .unknownCommand .. => true
  | _ => false

/-! ## Frames -/

/-- A line without what a recompute may write: its share, its credit and its eligibility (R61, R68). -/
def Line.apart (l : Line) : Line := { l with share := 0, credit := 0, eligible := false }

/-- Every line but `n` is as it was, but for what a recompute writes. -/
def othersKept (n : LineNo) (s t : State) : Prop := ∀ m, m ≠ n → (t.line m).apart = (s.line m).apart

/-- Every line is as it was, but for what a recompute writes. -/
def linesKept (s t : State) : Prop := ∀ m, (t.line m).apart = (s.line m).apart

/-- The settings of the Share Computer and the scheduler's own state are as they were: a recompute writes the results
and the effective capacity alone (R59, R61). -/
def upstreamKept (s t : State) : Prop :=
  { t.shares with last := s.shares.last } = s.shares ∧ { t.sched with effective := s.sched.effective } = s.sched

/-- What no change of one line's state touches: the limits, the upstream side, the management engine and the
configuration memory. -/
def besideKept (s t : State) : Prop :=
  upstreamKept s t ∧ t.pending = s.pending ∧ t.trainLimit = s.trainLimit ∧ t.wakeLimit = s.wakeLimit
    ∧ t.mgmt = s.mgmt ∧ t.memory = s.memory

/-- The test side is as it was. -/
def testsKept (s t : State) : Prop := t.access = s.access ∧ t.seq = s.seq

/-- The Power Manager is as it was, and so is the test side. -/
def plantKept (s t : State) : Prop := testsKept s t ∧ t.power = s.power

/-- A line holds no frame: its queues, its wake store and its hand-off are empty (R39). -/
def Line.holdsNothing (l : Line) : Prop :=
  l.downQ = [] ∧ l.prioQ = [] ∧ l.bulkQ = [] ∧ l.wakeStore = none ∧ l.handOff = none

/-- No LEARNED entry names a line (R7). -/
def noLearned (t : State) (n : LineNo) : Prop :=
  ∀ i e, t.stations.entries.get i = some e → e.isLearned = true → e.line ≠ n

/-- Every STATIC entry stands as it stood (R7). -/
def staticKept (s t : State) : Prop :=
  ∀ i e, s.stations.entries.get i = some e → e.isLearned = false → t.stations.entries.get i = some e

/-- The STATIC entries are the same, each at its index (R7, R188). -/
def staticSame (s t : State) : Prop :=
  ∀ i e, e.isLearned = false → (t.stations.entries.get i = some e ↔ s.stations.entries.get i = some e)

/-- A line as its entry to DOWN leaves it, whatever state it left (R85, R88). -/
def Line.isDown (l : Line) : Prop :=
  l.st = .down ∧ l.downRate = 0 ∧ l.upRate = 0 ∧ l.ready = false ∧ l.command = some .listen ∧ l.idle = none
    ∧ l.holdsNothing

/-- A line as its entry to HELD leaves it (R85, R88, R99). -/
def Line.isHeld (l : Line) : Prop :=
  l.st = .held ∧ l.downRate = 0 ∧ l.upRate = 0 ∧ l.ready = false ∧ l.command = some .off ∧ l.drainTimer = none

/-- A line as the grant of a wake leaves it: UP with its wake timer running from QUIET, and TRAINING from DOWN or
DORMANT (R91, R92, R95). -/
def Line.wokenFrom (s : State) (before after : Line) : Prop :=
  if before.st = .quiet then
    after.st = .up ∧ after.wakePending = true ∧ after.wakeTimer = some s.wakeLimit ∧ after.command = some .wake
      ∧ after.quietFor = none ∧ after.downQ = before.downQ
  else
    after.st = .training ∧ after.trainTimer = some (s.trainLimit * 1000) ∧ after.command = some .start
      ∧ after.wakeStore = before.wakeStore

/-- The summary flag of a kind is set (R199). -/
def flagged (t : State) (k : EventKind) : Prop := t.counts.flags.get k.idx = true

/-- What a wake request of a line leaves of the state `u` it is made in (R168): nothing for a line that is listed; the
entry listed last where the budget has no room; the line woken at once where it has room and nothing waits; and where
something waits, the oldest entry's line woken and, with room for that one alone, the new entry listed after the rest.
-/
def wakeTaken (n : LineNo) (cause : WakeCause) (u t : State) : Prop :=
  ((∃ w ∈ u.power.wakeList, w.line = n) → t = u)
    ∧ ((∀ w ∈ u.power.wakeList, w.line ≠ n) →
      (awakeBudget u ≤ awakeCount u → t = { u with power := { u.power with
          wakeList := u.power.wakeList ++ [{ line := n, cause := cause, time := u.mgmt.time }] } })
      ∧ (awakeCount u < awakeBudget u → u.power.wakeList = [] → asleepState (u.line n).st = true →
        Line.wokenFrom u (u.line n) (t.line n) ∧ othersKept n u t ∧ t.power = u.power ∧ testsKept u t ∧ besideKept u t
          ∧ t.pool = u.pool ∧ t.stations = u.stations ∧ awakeCount t = awakeCount u + 1
          ∧ (u.running = true → flagged t .lineState))
      ∧ ∀ w rest, u.power.wakeList = w :: rest → asleepState (u.line w.line).st = true →
        (awakeCount u < awakeBudget u → Line.wokenFrom u (u.line w.line) (t.line w.line))
        ∧ (awakeCount u + 1 = awakeBudget u →
          othersKept w.line u t ∧ testsKept u t ∧ besideKept u t ∧ t.pool = u.pool ∧ t.stations = u.stations
            ∧ t.power = { u.power with wakeList := (rest.filter fun x => x.line != w.line)
                ++ [{ line := n, cause := cause, time := u.mgmt.time }] }))

/-- Every listed line is asleep, and none is listed twice (R168, R169). -/
def WakesListed (s : State) : Prop :=
  (∀ w ∈ s.power.wakeList, asleepState (s.line w.line).st = true) ∧ (s.power.wakeList.map WakeEntry.line).Nodup

/-- What becomes of the wake list and of the other lines when line `n` leaves its state for one that is not awake: its
own entry leaves the list (R169); and if it was awake, the oldest entries are granted, as many as the budget then has
room for (R170). -/
def roomTaken (n : LineNo) (s t : State) : Prop :=
  let woken := s.power.wakeList.take (if awakeState (s.line n).st then awakeBudget s + 1 - awakeCount s else 0)
  (∀ w ∈ woken, Line.wokenFrom s (s.line w.line) (t.line w.line))
    ∧ (∀ m, m ≠ n → (∀ w ∈ woken, w.line ≠ m) → (t.line m).apart = (s.line m).apart)
    ∧ t.power = { s.power with
        wakeList := (s.power.wakeList.drop woken.length).filter fun w => w.line != n }

/-- A line's idle timer after a change of what it holds: running on, or started from zero, while the line is UP and
holds nothing, and stopped otherwise (R45). -/
def Line.idleAfter (before after : Line) : Prop :=
  (after.st = .up → after.holdsNothing → after.idle = some (before.idle.getD 0))
    ∧ (after.st ≠ .up ∨ ¬ after.holdsNothing → after.idle = none)

/-- The references that a line holds: in its queues, its wake store and its hand-off (R34, R39). -/
def Line.refsHeld (l : Line) : Nat :=
  l.downQ.length + l.prioQ.length + l.bulkQ.length + l.wakeStore.toList.length + l.handOff.toList.length

/-- A drop counter raised `k` times (R197). -/
def raisedBy (k v : Nat) : Nat := if k = 0 then v else min 4294967295 (v + k)

/-- The drop counts that flushes of lines make, each line with the references it lets go: each reference once
device-wide, and once in the counter set that the line's record names (R21, R39). -/
def dropsCounted (c : LineCause) (xs : List (LineNo × Nat)) (s t : State) : Prop :=
  t.counts.total = { s.counts.total with
      drops := s.counts.total.drops.modify c.idx (raisedBy (xs.map Prod.snd).sum) }
    ∧ ∀ j, t.counts.sets.get j = { s.counts.sets.get j with
        drops := (s.counts.sets.get j).drops.modify c.idx
          (raisedBy ((xs.filter fun x => (s.line x.1).cfg.counterSet == some j).map Prod.snd).sum) }

/-- A line has nothing left to drain: its queues and its hand-off are empty (R44). -/
def Line.nothingQueued (l : Line) : Prop := l.downQ = [] ∧ l.prioQ = [] ∧ l.bulkQ = [] ∧ l.handOff = none

/-- The order in which lines are shed: DRAINING lines last, then the lower power priority, the greater idle time, and
the higher line number first (R171). -/
def shedsFirst (s : State) (a b : LineNo) : Prop :=
  ((s.line a).st ≠ .draining ∧ (s.line b).st = .draining)
    ∨ (((s.line a).st = .draining ↔ (s.line b).st = .draining)
      ∧ ((s.line a).cfg.powerPriority < (s.line b).cfg.powerPriority
        ∨ (s.line a).cfg.powerPriority = (s.line b).cfg.powerPriority
          ∧ ((s.line b).idleSeconds < (s.line a).idleSeconds
            ∨ (s.line b).idleSeconds = (s.line a).idleSeconds ∧ b < a)))

/-- What a budget and a sleep mode make of the lines, with `wakes` on the wake list: the awake lines that stay awake
stand last in the order of shedding, as many as the budget allows; the others go to the state of the sleep mode (R97,
R171); and the oldest wakes are granted while the budget has room (R170). -/
def budgetTaken (b : Nat) (sleep : SleepMode) (wakes : List WakeEntry) (s t : State) : Prop :=
  let woken := wakes.take (b - awakeCount s)
  awakeCount t = min (awakeCount s + wakes.length) b ∧ t.power.wakeList = wakes.drop woken.length
    ∧ (∀ w ∈ woken, Line.wokenFrom s (s.line w.line) (t.line w.line))
    ∧ (∀ x y, awakeState (s.line x).st = true → awakeState (s.line y).st = true → shedsFirst s x y →
        awakeState (t.line x).st = true → awakeState (t.line y).st = true)
    ∧ ∀ n, (∀ w ∈ woken, w.line ≠ n) → (t.line n).st =
        if awakeState (s.line n).st = true ∧ awakeState (t.line n).st = false then
          (if sleep = .dormant then .dormant else if (s.line n).st = .training then .down else .quiet)
        else (s.line n).st

/-- The lines shed, each with the references that it held (R171, R39). -/
def shedRefs (s t : State) : List (LineNo × Nat) :=
  ((indexes 24).filter fun n => awakeState (s.line n).st && !awakeState (t.line n).st).map fun n =>
    (n, (s.line n).refsHeld)

/-- What the removal of an entry from the wake list drops: the queue that a DOWNSTREAM entry of a QUIET line was made
for, and the wake store of a DORMANT line (R172). -/
def prunedRefs (s : State) (e : WakeEntry) : LineNo × Nat :=
  (e.line, if (s.line e.line).st = .dormant then (s.line e.line).wakeStore.toList.length
    else if (s.line e.line).st = .quiet ∧ e.cause = .downstream then (s.line e.line).downQ.length else 0)

/-- The settings of the configuration image but the station address, each as it stood (R188). -/
def settingsKept (s t : State) : Prop :=
  staticSame s t ∧ t.stations.agingTime = s.stations.agingTime ∧ (∀ n, (t.line n).cfg = (s.line n).cfg)
    ∧ t.trainLimit = s.trainLimit ∧ t.wakeLimit = s.wakeLimit ∧ t.shares = s.shares ∧ t.access = s.access
    ∧ t.seq.programs = s.seq.programs ∧ t.seq.groups = s.seq.groups ∧ t.seq.drainLimit = s.seq.drainLimit
    ∧ t.seq.suspendLimit = s.seq.suspendLimit ∧ t.seq.deferralLimit = s.seq.deferralLimit
    ∧ { t.power with wakeList := s.power.wakeList } = s.power ∧ t.counts.settings = s.counts.settings
    ∧ t.mgmt.vlan = s.mgmt.vlan ∧ t.mgmt.ethertype = s.mgmt.ethertype ∧ t.mgmt.manager = s.mgmt.manager
    ∧ t.mgmt.managerOnly = s.mgmt.managerOnly ∧ t.mgmt.lockAtStart = s.mgmt.lockAtStart

/-! ## Reaching the lookups of the frame path -/

/-- A frame that passes the reception checks of a port after the start-up (R22). -/
def passesReception (greatest : Nat) (f : List Byte) (s : State) : Prop :=
  receptionDrop greatest f = none ∧ s.running = true

/-- An uplink frame that is subscriber traffic with a tag, long enough to be looked up (R23, R24, R26). -/
def isTraffic (f : List Byte) (s : State) : Prop :=
  passesReception Config.greatestFrame f s ∧ isBackhaul s f = false ∧ isControl s f = false ∧ isTagged f = true
    ∧ Config.leastTaggedFrame ≤ f.length

/-- A frame of a home that reaches the source check (R31). -/
def reachesSourceCheck (n : LineNo) (f : List Byte) (s : State) : Prop :=
  passesReception Config.greatestLineFrame f s ∧ isTagged f = false ∧ controlFromHome s f = false
    ∧ (s.line n).st = .up

/-! ## The lock -/

/-- The origin that a command row carries (R179). -/
def commandOrigin : Instr → Option Origin
  | .writeStation o .. | .writeStationTableForm o .. | .removeStation o .. | .readStation o .. | .flushLearned o ..
  | .writeLine o .. | .readLine o .. | .enableLine o .. | .enableLineSettingsForm o .. | .disableLine o ..
  | .clearBar o .. | .clearSense o .. | .setUplink o .. | .readUplink o .. | .writeProgram o .. | .readProgram o ..
  | .requestTest o .. | .abortTest o .. | .readTestQueue o .. | .readTestRecord o .. | .setRoutineGroup o ..
  | .startRoutineGroup o .. | .stopRoutineGroup o .. | .setTestLimits o .. | .connectExternal o ..
  | .disconnectExternal o .. | .writePowerPolicy o .. | .setBatteryThresholds o .. | .readPower o ..
  | .readCounters o .. | .readGlobalCounters o .. | .clearEvents o .. | .setNotices o .. | .clearResetCause o ..
  | .readStatus o .. | .setManagement o .. | .setTime o .. | .lock o .. | .saveConfiguration o .. | .trafficReset o ..
  | .deviceReset o .. => some o
  | _ => none

/-- Every protected item of R183 is as it was: the P fields of the line records, the STATIC station entries, programs,
policies and thresholds, uplink settings, station address and management settings, test limits and lock-at-start. The
source of the station address is none of them. -/
def protectedKept (s t : State) : Prop :=
  (∀ n, protectedChange (s.line n).cfg (t.line n).cfg = false)
    ∧ staticSame s t
    ∧ t.seq.programs = s.seq.programs ∧ t.power.policies = s.power.policies
    ∧ t.power.conserve = s.power.conserve ∧ t.power.reserve = s.power.reserve
    ∧ t.power.hysteresis = s.power.hysteresis ∧ t.power.stableDelay = s.power.stableDelay
    ∧ { t.shares with last := s.shares.last } = s.shares
    ∧ t.mgmt.station = s.mgmt.station ∧ t.mgmt.vlan = s.mgmt.vlan
    ∧ t.mgmt.ethertype = s.mgmt.ethertype ∧ t.mgmt.manager = s.mgmt.manager
    ∧ t.mgmt.managerOnly = s.mgmt.managerOnly ∧ limitItems t = limitItems s
    ∧ t.mgmt.lockAtStart = s.mgmt.lockAtStart

/-! ## Resets -/

/-- What every warm reset leaves: each block at its reset values, but for the result log, its counter and the marker,
the flag of the reset's own kind, and what lies outside the part (R40, R47, R82, R87, R111, R142, R147, R197, R204). -/
def warmlyReset (f : ResetFlag) (s t : State) : Prop :=
  t = { State.reset with
    pending := s.pending
    memory := s.memory
    seq := { Seq.reset with
      extreq := s.seq.extreq, log := s.seq.log, counter := s.seq.counter, marker := s.seq.marker }
    power := { Power.reset with mainsOk := s.power.mainsOk }
    counts := { Counts.reset with resetCause := s.counts.resetCause.set f.idx true }
    mgmt := { Mgmt.reset with phase := .held false, service := s.mgmt.service } }

/-- The items of an image as its load leaves them, every number brought into its present range, but for the line records
and the lock (R188): a STATIC entry is loaded at the lowest invalid index (R3), and an enabled group has its count
loaded (R148). A station address that the image lacks stays the identity block's (R185). -/
def imageLoaded (b : ImageBody) (s t : State) : Prop :=
  t.stations.agingTime = clamp 0 255 b.agingTime
    ∧ ((∀ i, s.stations.entries.get i = none) → b.stations.length ≤ 96 →
        (∀ x ∈ b.stations, x.line < 24 ∧ x.addr.isGroup = false) → (b.stations.map ImageEntry.addr).Nodup →
        ∀ i, t.stations.entries.get i = b.stations[i.val]?.bind fun x => (lineOf x.line).map fun n =>
          { addr := x.addr, line := n, cls := x.cls, origin := .static })
    ∧ ((∀ i, s.stations.entries.get i = none) → ∀ i e, t.stations.entries.get i = some e →
        e.isLearned = false ∧ e.addr.isGroup = false
          ∧ ({ addr := e.addr, line := e.line.val, cls := e.cls } : ImageEntry) ∈ b.stations)
    ∧ t.trainLimit = clamp 10 600 b.trainLimit ∧ t.wakeLimit = clamp 100 10000 b.wakeLimit
    ∧ t.shares = { s.shares with
        ceiling := clamp 1000 1000000 b.ceiling, allowance := clamp 0 2048 b.allowance
        fallback := clamp 0 1000000 b.fallback, hold := clamp 1 60 b.hold, spare := b.spare, backhaul := b.backhaul
        ethertype := clamp 0x0600 0xFFFF b.advisoryEthertype }
    ∧ t.access = { s.access with
        settleTime := clamp 1 20 b.settleTime, dischargeTime := clamp 5 100 b.dischargeTime
        guardVolts := clamp 10 150 b.guardVolts, cablePf := clamp 20 100 b.cablePf }
    ∧ t.seq.drainLimit = clamp 1 1000 b.drainLimit ∧ t.seq.suspendLimit = clamp 1 600 b.suspendLimit
    ∧ t.seq.deferralLimit = clamp 0 15 b.deferralLimit
    ∧ (∀ p, t.seq.programs.get p = (b.programs.get p).map Spec.clamped)
    ∧ (∀ g, t.seq.groups.get g = { Group.reset g with
        enabled := (b.groups.get g).enabled, base := (b.groups.get g).base
        factor := clamp 1 64 (b.groups.get g).factor, program := (b.groups.get g).program
        remaining := if (b.groups.get g).enabled then
            (b.groups.get g).base.minutes * clamp 1 64 (b.groups.get g).factor * 60 else 0 })
    ∧ { t.power with wakeList := s.power.wakeList } = { s.power with
        policies := b.policies.map Policy.clamped, conserve := clamp 0 65535 b.conserve
        reserve := clamp 0 65535 b.reserve, hysteresis := clamp 0 1000 b.hysteresis
        stableDelay := clamp 10 600 b.stableDelay }
    ∧ t.counts.settings = b.notices
    ∧ t.mgmt.station = (b.station.orElse fun _ => identityAddress s.memory.identity)
    ∧ t.mgmt.stationSource = (if b.station.isSome then .image
        else if (identityAddress s.memory.identity).isSome then .identity else .unset)
    ∧ t.mgmt.vlan = clamp 1 4094 b.vlan ∧ t.mgmt.ethertype = clamp 0x0600 0xFFFF b.ethertype
    ∧ t.mgmt.manager = b.manager ∧ t.mgmt.managerOnly = b.managerOnly ∧ t.mgmt.lockAtStart = b.lockAtStart

/-- A line that the start-up has dealt with: DOWN if its admin is ENABLED, and otherwise as it was, sent OFF (R190). -/
def startedLine (before after : Line) : Prop :=
  if before.cfg.enabled then after.st = .down ∧ (before.st = .disabled → after.isDown)
  else after = { before with command := some .off }

/-- The record that a set marker becomes in the start-up (R147). -/
def markerRecord (m : Marker) (s : State) : TestRecord :=
  { seq := nextSequence s.seq.counter, line := m.line, program := m.program, origin := m.origin, start := m.start
    stop := s.mgmt.time, outcome := .abortedReset, grade := .none, interrupted := false, guardTripped := false
    results := [] }

/-! ## Invariants -/

/-- The lists keep within their places (R132, R142, R177, R181, R201). -/
def ListsBounded (s : State) : Prop :=
  s.mgmt.controlQ.length ≤ Config.controlPlaces ∧ s.mgmt.txList.length ≤ Config.transmitPlaces
    ∧ s.counts.notices.length ≤ Config.noticePlaces ∧ s.seq.queue.length ≤ Config.testPlaces
    ∧ s.seq.log.length ≤ Config.logPlaces

/-- The test side at rest, as every cold and warm reset leaves it (R111, R118, R147). -/
def testsAtRest (s : State) : Prop :=
  s.seq.st = .idle ∧ s.seq.act = none ∧ s.seq.extack = false ∧ s.access.matrix = .idle ∧ s.access.unit = .idle

/-- The measurement source and tone are driving only while the test bus belongs to the sequencer and the guard is not
tripped (R114), and not before the start-up completes (R118). -/
def DriveSafe (s : State) : Prop :=
  ((s.access.sourceOn = true ∨ s.access.toneOn = true) →
      s.access.unit = .measuring ∧ s.seq.st = .measuring ∧ s.seq.extack = false ∧ s.access.tripped = false)
    ∧ (s.running = false → testsAtRest s)

/-- No two valid station entries share an address, and no LEARNED entry names a line that is DISABLED, DOWN or BARRED
(R1, R7). -/
def TablesSafe (s : State) : Prop :=
  (∀ i j x y, s.stations.entries.get i = some x → s.stations.entries.get j = some y → x.addr = y.addr → i = j)
    ∧ ∀ i e, s.stations.entries.get i = some e → e.isLearned = true → losesLearned (s.line e.line).st = false

/-- The number of awake lines does not exceed the awake budget (R167), and no power state is in force before the
start-up completes (R158). -/
def BudgetKept (s : State) : Prop :=
  awakeCount s ≤ awakeBudget s ∧ (s.running = false → s.power.state = none)

/-- The free cells and the cells of every live record make up the pool, each record numbered once (R33). -/
def PoolConserved (s : State) : Prop :=
  s.pool.free + (s.pool.recs.map fun x => x.2.cells).sum = Config.poolCells
    ∧ (s.pool.recs.map Prod.fst).Nodup ∧ ∀ x ∈ s.pool.recs, x.1 < s.pool.nextId

/-- The pool is not armed with fewer than 128 cells free, and armed with 256 or more (R36). -/
def PoolArmed (s : State) : Prop :=
  (s.pool.free < 128 → s.pool.armed = false) ∧ (256 ≤ s.pool.free → s.pool.armed = true)

/-- The numbers of the records that are held, once for each holder: the queues, wake stores and hand-offs of the lines,
the transmit list and the two transmissions (R34). -/
def holders (s : State) : List Nat :=
  (s.lines.items.flatMap fun l => l.downQ ++ l.prioQ ++ l.bulkQ ++ l.wakeStore.toList ++ l.handOff.toList)
    ++ s.mgmt.txList.map TxEntry.recId ++ (s.sched.uplinkTx.map UplinkTx.recId).toList ++ s.sched.craftTx.toList

/-- Every record's reference count is the number of its holders, at least one, and nothing is held that is not a live
record; each record is numbered once (R33, R34). -/
def RefsCounted (s : State) : Prop :=
  (∀ id, (holders s).count id = ((s.record id).map FrameRec.refs).getD 0)
    ∧ (∀ x ∈ s.pool.recs, 1 ≤ x.2.refs)
    ∧ (s.pool.recs.map Prod.fst).Nodup ∧ ∀ x ∈ s.pool.recs, x.1 < s.pool.nextId

/-- Every credit lies between -12,175 and its depth, a line that is not UP or DRAINING has share 0 and credit 0, and the
shares sum to at most the effective capacity (R58, R66, R68); no record is longer than the largest frame (R33), and
before the start-up completes no power state is chosen and no line is eligible (R158, R190). -/
def CreditKept (s : State) : Prop :=
  (∀ n, -12175 ≤ (s.line n).credit ∧ (s.line n).credit ≤ depthOf (s.line n).share
      ∧ (eligibleState (s.line n).st = false → (s.line n).share = 0 ∧ (s.line n).credit = 0))
    ∧ (s.lines.items.map Line.share).sum ≤ s.sched.effective
    ∧ (∀ x ∈ s.pool.recs, x.2.bytes.length ≤ Config.greatestFrame)
    ∧ (s.running = false → s.power.state = none ∧ ∀ n, eligibleState (s.line n).st = false)

end Sys2Proof.Machine
end

