-- ==== Sys2Proof/Certificates/Slice0/Obligations.lean ====
section
/-! DEFINITION. The statements about the part, in the order of OBLIGATIONS.json. Each docstring names the rules of spec/
that the statement formalises, or the log entry that a choice of the model rests on. -/

open Sys2Proof Sys2Proof.Machine

/-! ## Steps and resets -/

/-- One step carries out the front command on the state with the queue's rest. The queue is the model's (log entry 1).
-/
def Obligations.StepRunsFrontCommand : Prop :=
  ∀ (c : Instr) (rest : List Instr) (s : State),
    step { s with pending := c :: rest } = exec c { s with pending := rest }

/-- With no command waiting and nothing due, one millisecond passes and the timebase rises by one, wrapping after
2^48 - 1 (R187). What an empty queue does is the model's choice (log entry 1). -/
def Obligations.IdlePassesOneMillisecond : Prop :=
  ∀ s : State, s.pending = [] → (s.mgmt.phase = .started ∨ s.mgmt.phase = .running) → dueStep s = none →
    step s = .next (passTime s) ∧ (passTime s).mgmt.time = s.mgmt.time + 1
      ∧ ∀ n, (passTime s).line n =
        { s.line n with
          idle := (s.line n).idle.map (· + 1), quietFor := (s.line n).quietFor.map (· + 1)
          trainTimer := (s.line n).trainTimer.map (· - 1), wakeTimer := (s.line n).wakeTimer.map (· - 1)
          drainTimer := (s.line n).drainTimer.map (· - 1) }

/-- COLD_RESET gives every block its cold value and sets COLD alone. The configuration memory, the input levels and the
waiting commands are kept by log entries 14 and 1; State.reset's levels and craft link, its share results and its
transceiver commands are log entries 3, 2 and 29. -/
def Obligations.ColdReset : Prop :=
  ∀ s : State, Completes .coldReset s fun t =>
    t = { State.reset with
        pending := s.pending, memory := s.memory
        seq := { Seq.reset with extreq := s.seq.extreq }
        power := { Power.reset with mainsOk := s.power.mainsOk }
        mgmt := { Mgmt.reset with service := s.mgmt.service } }
      ∧ t.counts.resetCause.items = [true, false, false, false, false] ∧ t.pool.free = 4096
      ∧ (∀ n, (t.line n).st = .disabled ∧ (t.line n).holdsNothing) ∧ ∀ i, t.stations.entries.get i = none

/-- PIN_RESET, SUPPLY_RESET and the device reset of DEVICE_RESET_TIMER_EXPIRY are warm resets that set their own flag
and keep the others. What lies outside the part is kept, and a save in hand dropped, by log entry 14; the craft link
goes down by log entry 3, and the share results read zero by log entry 2. -/
def Obligations.WarmResets : Prop :=
  ∀ s : State, Completes .pinReset s (warmlyReset .pin s) ∧ Completes .supplyReset s (warmlyReset .supply s)
    ∧ (s.mgmt.devReset.isSome = true → Completes .deviceResetTimerExpiry s (warmlyReset .device s))

/-- START_UP: the identity block is read, a set marker becomes an ABORTED_RESET record, in the place of the oldest when
the log is full, the enabled lines enter DOWN and RESET_CAUSE is raised. After a cold reset no image is loaded and every
setting stands; after a warm one an image that passes its check is loaded whole, with its lock-at-start, and otherwise
every setting stands and CONFIG_DEFAULTED is raised. The image's body as typed items is log entry 6, and a value in it
that its rule would not allow is loaded by log entry 22. -/
def Obligations.StartUp : Prop :=
  ∀ s : State,
    (s.mgmt.phase = .held true → Completes .startUp s fun t =>
      t.mgmt.phase = .started ∧ t.mgmt.storePresent = s.memory.answers ∧ t.mgmt.imageCheck = s.mgmt.imageCheck
        ∧ t.mgmt.locked = s.mgmt.locked ∧ settingsKept s t ∧ flagged t .resetCause ∧ t.seq.marker = none
        ∧ t.mgmt.station = (if s.memory.answers then identityAddress s.memory.identity else none)
        ∧ t.memory = s.memory ∧ ∀ n, startedLine (s.line n) (t.line n))
    ∧ (s.mgmt.phase = .held false → imagePasses s.memory = true → Completes .startUp s fun t =>
      t.mgmt.phase = .started ∧ t.mgmt.imageCheck = some .passed
        ∧ t.mgmt.locked = s.memory.image.body.lockAtStart ∧ flagged t .resetCause ∧ t.seq.marker = none
        ∧ t.stations.agingTime = clamp 0 255 s.memory.image.body.agingTime
        ∧ t.shares.ceiling = clamp 1000 1000000 s.memory.image.body.ceiling
        ∧ t.mgmt.manager = s.memory.image.body.manager ∧ imageLoaded s.memory.image.body s t
        ∧ ∀ n, startedLine { s.line n with cfg := (s.memory.image.body.lines.get n).clamped } (t.line n))
    ∧ (s.mgmt.phase = .held false → imagePasses s.memory = false → Completes .startUp s fun t =>
      t.mgmt.phase = .started
        ∧ t.mgmt.imageCheck = some (if s.memory.answers then .imageFailed else .noStore)
        ∧ flagged t .configDefaulted ∧ flagged t .resetCause ∧ t.shares = s.shares
        ∧ t.mgmt.locked = s.mgmt.locked ∧ settingsKept s t
        ∧ t.mgmt.station = (if s.memory.answers then identityAddress s.memory.identity else none)
        ∧ ∀ n, startedLine (s.line n) (t.line n))
    ∧ (∀ cold m, s.mgmt.phase = .held cold → s.seq.marker = some m → Completes .startUp s fun t =>
        t.seq.log = s.seq.log.drop (if Config.logPlaces ≤ s.seq.log.length then 1 else 0) ++ [markerRecord m s]
          ∧ t.seq.counter = nextSequence s.seq.counter ∧ flagged t .testDone ∧ t.seq.marker = none
          ∧ t.counts.dev.get DevCount.logOverwrite.idx =
              (if Config.logPlaces ≤ s.seq.log.length then bump else id) (s.counts.dev.get DevCount.logOverwrite.idx))
    ∧ (∀ cold, s.mgmt.phase = .held cold → s.seq.marker = none → Completes .startUp s fun t =>
        t.seq.log = s.seq.log ∧ t.seq.counter = s.seq.counter ∧ t.seq.marker = none)

/-- START_UP_COMPLETE: the first sample is taken, the cabinet power state is chosen from MAINS_OK and that sample, the
refill and sweep timers start and the part is in service. -/
def Obligations.StartUpComplete : Prop :=
  ∀ (mv : Nat) (s : State), s.mgmt.phase = .started → Completes (.startUpComplete mv) s fun t =>
    t.mgmt = { s.mgmt with phase := .running } ∧ t.power.sample = some (mv, s.mgmt.time)
      ∧ t.power.lastChange = some s.mgmt.time ∧ t.power.stableTimer = s.power.stableTimer
      ∧ t.power.state = some (if s.power.mainsOk then .mains
          else if mv < s.power.reserve then .reserve else if mv < s.power.conserve then .conserve else .battery)
      ∧ t.sched.refill = some 1 ∧ t.stations.sweep = some 60000
      ∧ (s.seq.extreq = true → t.seq.extack = true ∧ t.seq.st = .suspended)
      ∧ t.memory = s.memory

/-- TRAFFIC_RESET: records released and what the lines held counted as flushed, LEARNED entries removed, lines in
service sent to DOWN, tests ended, the wake list and the test queue emptied, the scheduler reset, the TRAFFIC flag set;
settings, programs, grades and timebase are kept. The command as a row of its own is log entry 10. -/
def Obligations.TrafficReset : Prop :=
  ∀ (o : Origin) (s : State), s.takesCommands → Completes (.trafficReset o) s fun t =>
    t.mgmt = { s.mgmt with txList := [], lastResult := some { status := .ok, items := [] } }
      ∧ t.power = { s.power with wakeList := [] } ∧ t.memory = s.memory
      ∧ t.pool = { s.pool with recs := [], free := 4096, armed := true }
      ∧ t.stations = { s.stations with entries := s.stations.entries.map fun e => e.filter fun x => !x.isLearned }
      ∧ t.counts.resetCause = s.counts.resetCause.set ResetFlag.traffic.idx true
      ∧ t.sched = { s.sched with
          effective := t.sched.effective, prioPtr := 0, bulkPtr := 0, sparePtr := 0, prioPause := none
          bulkPause := none, uplinkTx := none, craftTx := none }
      ∧ t.seq.queue = [] ∧ t.seq.act = none ∧ t.seq.programs = s.seq.programs
      ∧ (s.seq.act.isSome = true ∨ s.seq.marker = none → t.seq.marker = none)
      ∧ (s.seq.act.isSome = true → t.seq.log.getLast?.map TestRecord.outcome = some .abortedReset)
      ∧ (s.seq.act = none → t.seq.log = s.seq.log) ∧ { t.shares with last := s.shares.last } = s.shares
      ∧ t.access.matrix = .idle ∧ t.access.unit = .idle ∧ t.access.sourceOn = false ∧ t.access.toneOn = false
      ∧ dropsCounted .flush ((indexes 24).map fun m => (m, (s.line m).refsHeld)) s t
      ∧ ∀ n, (t.line n).st = (if (s.line n).st = .disabled ∨ (s.line n).st = .barred then (s.line n).st else .down)
          ∧ (t.line n).holdsNothing ∧ (t.line n).share = 0 ∧ (t.line n).credit = 0 ∧ (t.line n).sense = false
          ∧ (t.line n).cfg = (s.line n).cfg ∧ (t.line n).grade = (s.line n).grade

/-- DEVICE_RESET makes a device reset pending with its timer at one second unless a save is in progress, and while one
is pending no command is run and each ends BUSY. R193 says so of the commands after DEVICE RESET in one frame; that a
command row of its own ends BUSY too is the model's choice (log entry 10). -/
def Obligations.DeviceResetPending : Prop :=
  ∀ (o : Origin) (c : Instr) (s : State),
    (s.takesCommands → s.mgmt.save = none → exec (.deviceReset o) s =
      .next ((s.modMgmt fun m => { m with devReset := some { reply := none, timer := 1000 } }).answered .ok []))
    ∧ (s.takesCommands → s.mgmt.save.isSome = true → exec (.deviceReset o) s = .next (s.answered .busy []))
    ∧ (s.mgmt.devReset.isSome = true → isCommand c = true → exec c s = .next (s.answered .busy []))

/-! ## Frames -/

/-- The reception checks of the three kinds of port, in their order, and the drop of every frame that passes them before
the start-up completes. The SERVICE level is kept as the frame's operand shows it (log entry 13). -/
def Obligations.ReceptionChecks : Prop :=
  ∀ (f : List Byte) (n : LineNo) (service : Bool) (c : Instr) (greatest : Nat) (s u : State),
    ((c = .uplinkFrameReceived f ∧ greatest = 1522 ∧ u = s)
      ∨ (c = .craftFrameReceived service f ∧ greatest = 1522 ∧ u = s.modMgmt fun m => { m with service := service })
      ∨ (c = .lineLinkFrameReceived n f ∧ greatest = 1518 ∧ u = s)) →
    (checkGood f = false → exec c s = .next (countDev .badCheck u))
      ∧ (checkGood f = true → f.length < 64 → exec c s = .next (countDev .undersize u))
      ∧ (checkGood f = true → greatest < f.length → exec c s = .next (countDev .oversize u))
      ∧ (checkGood f = true → 64 ≤ f.length → f.length ≤ greatest → s.running = false →
          exec c s = .next (countDeviceDrop .lineNotReady u))

/-- A unicast frame for an UP line that passes the pool and queue checks becomes a record at the tail of the line's
downstream queue and stops its idle timer. The first frame to leave fewer than 128 cells free while the pool is armed
disarms it and raises POOL_LOW; no other does, until 256 free arm it again. Refused, the frame is dropped under the
cause of the check it fails. That a hand-off it makes possible is a step of its own is log entry 7. -/
def Obligations.UnicastToUpLine : Prop :=
  ∀ (f : List Byte) (e : Entry) (s : State), isTraffic f s → (frameDst f).isGroup = false →
    entryFor s (frameDst f) = some e → (s.line e.line).cfg.vlan = frameVlan f → (s.line e.line).st = .up →
    (poolCheck s (cellsFor f.length) = true → queueRoom s e.line .down (cellsFor f.length) = true →
      Completes (.uplinkFrameReceived f) s fun t =>
        t.line e.line = { s.line e.line with downQ := (s.line e.line).downQ ++ [s.pool.nextId], idle := none }
          ∧ (∀ m, m ≠ e.line → t.line m = s.line m)
          ∧ t.pool.recs = s.pool.recs ++ [(s.pool.nextId, { bytes := f, cls := none, origin := .uplink, refs := 1 })]
          ∧ t.pool.free = s.pool.free - cellsFor f.length
          ∧ t.stations = s.stations ∧ plantKept s t ∧ besideKept s t
          ∧ (t.pool.free < 128 → s.pool.armed = true →
              t.pool.armed = false ∧ flagged t .poolLow
                ∧ ((s.counts.settings.get EventKind.poolLow.idx).enabled = true → s.mgmt.manager.isSome = true →
                    s.counts.notices.length < 32 →
                    ∃ x ∈ t.counts.notices, x.subject = none ∧ x.detail = .poolLow t.pool.free))
          ∧ (128 ≤ t.pool.free ∨ s.pool.armed = false →
              t.counts = s.counts ∧ t.pool.armed = (if 256 ≤ t.pool.free then true else s.pool.armed)))
      ∧ (poolCheck s (cellsFor f.length) = false →
          exec (.uplinkFrameReceived f) s = .next (countDrop e.line .downPoolFull s))
      ∧ (poolCheck s (cellsFor f.length) = true → queueRoom s e.line .down (cellsFor f.length) = false →
          exec (.uplinkFrameReceived f) s = .next (countDrop e.line .downQueueFull s))

/-- A unicast frame for a DORMANT line with wake on downstream allowed fills the empty wake store and makes a wake
request of cause DOWNSTREAM, listed when there is no room within the budget; a full store drops it as wake store busy, a
failed pool check as pool full, and without wake on downstream it is dropped as line not ready. For a QUIET line the
frame is queued by the checks of R35, and then the request made if wake on downstream is allowed. That a grant follows
at once, and a hand-off by a step of its own, is log entry 7. -/
def Obligations.UnicastToDormantLine : Prop :=
  ∀ (f : List Byte) (e : Entry) (u : State) (s : State), isTraffic f s → (frameDst f).isGroup = false →
    entryFor s (frameDst f) = some e → (s.line e.line).cfg.vlan = frameVlan f →
    ((s.line e.line).st = .dormant → wakeOnDownAllowed s e.line = false →
      exec (.uplinkFrameReceived f) s = .next (countDrop e.line .lineNotReady s))
    ∧ ((s.line e.line).st = .dormant → wakeOnDownAllowed s e.line = true →
      ((s.line e.line).wakeStore = none → poolCheck s (cellsFor f.length) = true → awakeBudget s ≤ awakeCount s →
      (∀ w ∈ s.power.wakeList, w.line ≠ e.line) → Completes (.uplinkFrameReceived f) s fun t =>
        t.line e.line = { s.line e.line with wakeStore := some s.pool.nextId }
          ∧ (∀ m, m ≠ e.line → t.line m = s.line m)
          ∧ t.power = { s.power with wakeList := s.power.wakeList ++
              [{ line := e.line, cause := .downstream, time := s.mgmt.time }] }
          ∧ t.pool.free = s.pool.free - cellsFor f.length
          ∧ t.pool.recs = s.pool.recs ++ [(s.pool.nextId, { bytes := f, cls := none, origin := .uplink, refs := 1 })])
      ∧ ((s.line e.line).wakeStore.isSome = true →
          exec (.uplinkFrameReceived f) s = .next (countDrop e.line .wakeStoreBusy s))
      ∧ ((s.line e.line).wakeStore = none → poolCheck s (cellsFor f.length) = false →
          exec (.uplinkFrameReceived f) s = .next (countDrop e.line .downPoolFull s))
      ∧ ((s.line e.line).wakeStore = none → poolCheck s (cellsFor f.length) = true →
        u = (makeRecord (downRecord f 1) s).modLine e.line (fun l => { l with wakeStore := some s.pool.nextId }) →
          Completes (.uplinkFrameReceived f) s (wakeTaken e.line .downstream u)
            ∧ u.line e.line = { s.line e.line with wakeStore := some s.pool.nextId }
            ∧ (∀ m, m ≠ e.line → u.line m = s.line m) ∧ plantKept s u ∧ besideKept s u ∧ u.stations = s.stations
            ∧ u.pool.recs = s.pool.recs ++
                [(s.pool.nextId, { bytes := f, cls := none, origin := .uplink, refs := 1 })]))
    ∧ ((s.line e.line).st = .quiet →
      (poolCheck s (cellsFor f.length) = false →
        exec (.uplinkFrameReceived f) s = .next (countDrop e.line .downPoolFull s))
      ∧ (poolCheck s (cellsFor f.length) = true → queueRoom s e.line .down (cellsFor f.length) = false →
        exec (.uplinkFrameReceived f) s = .next (countDrop e.line .downQueueFull s))
      ∧ (poolCheck s (cellsFor f.length) = true → queueRoom s e.line .down (cellsFor f.length) = true →
        u = pushQueue e.line .down s.pool.nextId (makeRecord (downRecord f 1) s) →
          (wakeOnDownAllowed s e.line = false → exec (.uplinkFrameReceived f) s = .next u)
            ∧ (wakeOnDownAllowed s e.line = true →
              Completes (.uplinkFrameReceived f) s (wakeTaken e.line .downstream u))
            ∧ u.line e.line = { s.line e.line with downQ := (s.line e.line).downQ ++ [s.pool.nextId], idle := none }
            ∧ (∀ m, m ≠ e.line → u.line m = s.line m) ∧ plantKept s u ∧ besideKept s u ∧ u.stations = s.stations
            ∧ u.pool.recs = s.pool.recs ++
                [(s.pool.nextId, { bytes := f, cls := none, origin := .uplink, refs := 1 })]
            ∧ u.pool.free = s.pool.free - cellsFor f.length))

/-- A unicast frame that cannot be stored is dropped: with no entry as unknown destination, with another VLAN as VLAN
mismatch, for a DRAINING or HELD line as held, and for a DOWN, TRAINING, DISABLED or BARRED line as line not ready. A
frame without a tag is dropped as untagged downstream, and a tagged one under 68 bytes as undersize. -/
def Obligations.UnicastDropped : Prop :=
  ∀ (f : List Byte) (e : Entry) (s : State),
    (passesReception 1522 f s → isBackhaul s f = false → isControl s f = false →
      (isTagged f = false → exec (.uplinkFrameReceived f) s = .next (countDev .untaggedDownstream s))
      ∧ (isTagged f = true → f.length < 68 → exec (.uplinkFrameReceived f) s = .next (countDev .undersize s)))
    ∧ (isTraffic f s → (frameDst f).isGroup = false →
    (entryFor s (frameDst f) = none → exec (.uplinkFrameReceived f) s = .next (countDev .unknownDestination s))
      ∧ (entryFor s (frameDst f) = some e →
        ((s.line e.line).cfg.vlan ≠ frameVlan f → exec (.uplinkFrameReceived f) s = .next (countDev .vlanMismatch s))
        ∧ ((s.line e.line).cfg.vlan = frameVlan f →
          ((s.line e.line).st = .draining ∨ (s.line e.line).st = .held →
            exec (.uplinkFrameReceived f) s = .next (countDrop e.line .held s))
          ∧ ((s.line e.line).st = .down ∨ (s.line e.line).st = .training ∨ (s.line e.line).st = .disabled
              ∨ (s.line e.line).st = .barred →
            exec (.uplinkFrameReceived f) s = .next (countDrop e.line .lineNotReady s)))))

/-- A tagged group frame is stored once with one reference for each accepting recipient, and makes no wake request;
each recipient whose queue has no room is counted as queue full, and with no recipient it is dropped as unknown
destination. That a hand-off it makes possible is a step of its own is log entry 7. -/
def Obligations.BroadcastReplicated : Prop :=
  ∀ (f : List Byte) (rs yes : List LineNo) (s : State), isTraffic f s → (frameDst f).isGroup = true →
    rs = ((indexes 24).filter fun n => decide ((s.line n).cfg.vlan = frameVlan f) && (s.line n).cfg.broadcast
      && decide ((s.line n).st = .up)) →
    yes = (rs.filter fun n => queueRoom s n .down (cellsFor f.length)) →
    (rs = [] → exec (.uplinkFrameReceived f) s = .next (countDev .unknownDestination s))
      ∧ (rs ≠ [] → poolCheck s (cellsFor f.length) = false →
          exec (.uplinkFrameReceived f) s = .next (countDeviceDrop .downPoolFull s))
      ∧ (rs ≠ [] → yes = [] → poolCheck s (cellsFor f.length) = true →
          exec (.uplinkFrameReceived f) s = .next (rs.foldl (fun u n => countDrop n .downQueueFull u) s))
      ∧ (yes ≠ [] → poolCheck s (cellsFor f.length) = true → Completes (.uplinkFrameReceived f) s fun t =>
          (∀ u, u = (rs.filter fun n => !yes.contains n).foldl (fun u n => countDrop n .downQueueFull u) s →
            t.counts.total = u.counts.total ∧ t.counts.sets = u.counts.sets) ∧
          t.pool.recs = s.pool.recs ++
              [(s.pool.nextId, { bytes := f, cls := none, origin := .uplink, refs := yes.length })]
            ∧ t.pool.free = s.pool.free - cellsFor f.length
            ∧ (∀ n, n ∈ yes → t.line n =
                { s.line n with downQ := (s.line n).downQ ++ [s.pool.nextId], idle := none })
            ∧ (∀ n, n ∉ yes → t.line n = s.line n) ∧ t.stations = s.stations ∧ plantKept s t ∧ besideKept s t)

/-- An uplink control frame, its source not refused by manager-only, joins the control queue while it holds fewer than
four; a craft frame is dropped without SERVICE, queued as a control frame, or dropped as bad format. The SERVICE level
kept is log entry 13, and that a taking it makes possible is a step of its own log entry 7. -/
def Obligations.ControlFramesQueued : Prop :=
  ∀ (f : List Byte) (s : State), passesReception 1522 f s →
    (isBackhaul s f = false → isControl s f = true → managerRefuses s f = true →
      exec (.uplinkFrameReceived f) s = .next (countDev .badFormat s))
    ∧ (isBackhaul s f = false → isControl s f = true → managerRefuses s f = false →
      exec (.uplinkFrameReceived f) s = .next
        (if s.mgmt.controlQ.length < 4 then s.modMgmt fun m => { m with controlQ := m.controlQ ++ [(.uplink, f)] }
         else countDev .controlOverflow s))
    ∧ exec (.craftFrameReceived false f) s =
        .next (countDev .craftWithoutService (s.modMgmt fun m => { m with service := false }))
    ∧ exec (.craftFrameReceived true f) s = .next
        (if isCraftControl s f = false then countDev .badFormat (s.modMgmt fun m => { m with service := true })
         else if s.mgmt.controlQ.length < 4 then
           s.modMgmt fun m => { m with service := true, controlQ := m.controlQ ++ [(.craft, f)] }
         else countDev .controlOverflow (s.modMgmt fun m => { m with service := true }))

/-- CAPACITY_ADVISORY: counted, clamped to 1,000,000 and stored with its time, the hold timer started, the source
ADVISED, ADVISORY_RESTORED raised if it was LOST, and a recompute made. A backhaul frame that holds an advisory does
what this row does with its figure (log entry 10). HOLD_TIMER_EXPIRY: the source LOST, the timer stopped, ADVISORY_LOST
raised, and a recompute made. -/
def Obligations.CapacitySource : Prop :=
  ∀ (figure h : Nat) (f : List Byte) (s : State),
    (passesReception 1522 f s → isBackhaul s f = true → contentAt f + 5 ≤ (frameBody f).length →
      wireField (frameBody f) (contentAt f) 1 = 1 → exec (.uplinkFrameReceived f) s =
        exec (.capacityAdvisory (wireField (frameBody f) (contentAt f + 1) 4)) s)
    ∧ (s.running = true → Completes (.capacityAdvisory figure) s fun t =>
      t.shares = { s.shares with
          advised := some (min 1000000 figure), lastAdvisory := some s.mgmt.time
          holdTimer := some (s.shares.hold * 1000), source := .advised, last := t.shares.last
          clampedAdvisories := if 1000000 < figure then min 4294967295 (s.shares.clampedAdvisories + 1)
            else s.shares.clampedAdvisories }
        ∧ t.shares.last.capacity = min 1000000 figure
        ∧ t.counts.dev.get DevCount.advisories.idx = bump (s.counts.dev.get DevCount.advisories.idx)
        ∧ (s.shares.source = .lost → flagged t .advisoryRestored)
        ∧ (s.shares.source ≠ .lost → t.counts.flags = s.counts.flags)
        ∧ linesKept s t ∧ t.sched = { s.sched with effective := t.sched.effective } ∧ plantKept s t
        ∧ t.stations = s.stations ∧ t.pool = s.pool ∧ t.mgmt = s.mgmt)
    ∧ (s.shares.holdTimer = some h → Completes .holdTimerExpiry s fun t =>
      t.shares = { s.shares with source := .lost, holdTimer := none, last := t.shares.last }
        ∧ t.shares.last.capacity = s.shares.fallback ∧ flagged t .advisoryLost ∧ linesKept s t
        ∧ t.sched = { s.sched with effective := t.sched.effective } ∧ plantKept s t
        ∧ t.stations = s.stations ∧ t.pool = s.pool ∧ t.mgmt = s.mgmt)

/-- CLASS_PAUSE: counted, and for each class the mask names a duration above 0 starts or restarts its timer and 0 stops
it; nothing else changes. Before the start-up completes it is dropped and reaches no timer. A backhaul frame that holds
a class pause does what this row does, the row standing for its message (log entry 10), and one that holds neither
message is dropped as bad format. -/
def Obligations.ClassPause : Prop :=
  ∀ (mask : Byte) (d : Nat) (f : List Byte) (s : State),
    (passesReception 1522 f s → isBackhaul s f = true →
      (contentAt f + 4 ≤ (frameBody f).length → wireField (frameBody f) (contentAt f) 1 = 2 →
        exec (.uplinkFrameReceived f) s = exec (.classPause
          (BitVec.ofNat 8 (wireField (frameBody f) (contentAt f + 1) 1))
          (wireField (frameBody f) (contentAt f + 2) 2)) s)
      ∧ ((wireField (frameBody f) (contentAt f) 1 = 1 → (frameBody f).length < contentAt f + 5) →
        (wireField (frameBody f) (contentAt f) 1 = 2 → (frameBody f).length < contentAt f + 4) →
        exec (.uplinkFrameReceived f) s = .next (countDev .badFormat s)))
    ∧ (s.running = true → exec (.classPause mask d) s =
      .next ((s.modCounts fun k => { k with dev := k.dev.modify DevCount.classPauses.idx bump }).modSched fun x =>
        { x with
          prioPause := if mask.getLsbD 0 = true then (if d = 0 then none else some d) else x.prioPause
          bulkPause := if mask.getLsbD 1 = true then (if d = 0 then none else some d) else x.bulkPause }))
    ∧ (s.running = false → exec (.classPause mask d) s = .next (countDeviceDrop .lineNotReady s))

/-- What the source check does to the Station Table: a group source and a foreign STATIC entry change nothing, an own
LEARNED entry is refreshed, a foreign LEARNED one moves when permit and limit allow, counted as a move, and an unknown
source is learned at the lowest invalid index when permit, limit and table allow. A group source and a foreign entry
that does not move are dropped as spoof, and an unknown source that is not learned as learn refused. -/
def Obligations.SourceCheckTable : Prop :=
  ∀ (n : LineNo) (f : List Byte) (s : State), reachesSourceCheck n f s →
    ((frameSrc f).isGroup = true → exec (.lineLinkFrameReceived n f) s = .next (countDrop n .spoof s))
    ∧ ((frameSrc f).isGroup = false → lookupStation s (frameSrc f) = none →
      (lowestInvalid s = none ∨ (s.line n).cfg.learning = false
        ∨ (s.line n).cfg.stationLimit ≤ stationCount s n none) →
      exec (.lineLinkFrameReceived n f) s = .next (countDrop n .learnRefused s))
    ∧ (∀ i e, (frameSrc f).isGroup = false → lookupStation s (frameSrc f) = some i →
      s.stations.entries.get i = some e → e.line ≠ n →
      (e.isLearned = false ∨ (s.line n).cfg.learning = false
        ∨ (s.line n).cfg.stationLimit ≤ stationCount s n (some i) →
        exec (.lineLinkFrameReceived n f) s = .next (countDrop n .spoof s))
      ∧ (e.isLearned = true → (s.line n).cfg.learning = true →
        stationCount s n (some i) < (s.line n).cfg.stationLimit →
        Completes (.lineLinkFrameReceived n f) s fun t =>
          t.counts.dev.get DevCount.move.idx = bump (s.counts.dev.get DevCount.move.idx)))
    ∧ Completes (.lineLinkFrameReceived n f) s fun t =>
      plantKept s t ∧ besideKept s t ∧ (∀ m, m ≠ n → t.line m = s.line m)
        ∧ t.stations = { s.stations with entries := t.stations.entries }
        ∧ ((frameSrc f).isGroup = true → t.stations = s.stations)
        ∧ ((frameSrc f).isGroup = false → lookupStation s (frameSrc f) = none →
            (lowestInvalid s = none → t.stations = s.stations)
              ∧ ∀ i, lowestInvalid s = some i →
                if (s.line n).cfg.learning = true ∧ stationCount s n none < (s.line n).cfg.stationLimit then
                  t.stations.entries = s.stations.entries.set i (some
                    { addr := frameSrc f, line := n, cls := (s.line n).cfg.defaultClass, origin := .learned 0 })
                else t.stations = s.stations)
        ∧ ∀ i e, (frameSrc f).isGroup = false → lookupStation s (frameSrc f) = some i →
            s.stations.entries.get i = some e →
            (e.line = n → e.isLearned = true →
                t.stations.entries = s.stations.entries.set i (some { e with origin := .learned 0 }))
              ∧ (e.isLearned = false → t.stations = s.stations)
              ∧ (e.line ≠ n → e.isLearned = true →
                if (s.line n).cfg.learning = true ∧ stationCount s n (some i) < (s.line n).cfg.stationLimit then
                  t.stations.entries = s.stations.entries.set i (some
                    { e with line := n, cls := (s.line n).cfg.defaultClass, origin := .learned 0 })
                else t.stations = s.stations)

/-- A frame whose source is an entry of its own line is tagged with the line's service VLAN and joins the queue of the
entry's class as a record of origin line n, four bytes longer than it arrived. So does a frame whose source was learned
or moved, in the queue of the line's default class, and each is refused by the checks of R35. A tagged frame, a control
frame, and a frame on a line that is not UP are dropped before the source check. That the choice it makes possible is a
step of its own is log entry 7. -/
def Obligations.UpstreamFrameQueued : Prop :=
  ∀ (n : LineNo) (f : List Byte) (i : Fin 96) (e : Entry) (c : Cls) (u : State) (s : State),
    (passesReception 1518 f s →
      (isTagged f = true → exec (.lineLinkFrameReceived n f) s = .next (countDev .taggedFromHome s))
      ∧ (isTagged f = false → controlFromHome s f = true →
        exec (.lineLinkFrameReceived n f) s = .next (countDev .controlFromLine s))
      ∧ (isTagged f = false → controlFromHome s f = false →
        ((s.line n).st = .draining → exec (.lineLinkFrameReceived n f) s = .next (countDrop n .held s))
        ∧ ((s.line n).st ≠ .up → (s.line n).st ≠ .draining →
          exec (.lineLinkFrameReceived n f) s = .next (countDrop n .lineNotReady s))))
    ∧ (reachesSourceCheck n f s → sourceCheck n (frameSrc f) s = (some c, u) →
      c = (if (entryFor s (frameSrc f)).any (fun x => x.line == n) then
            ((entryFor s (frameSrc f)).map Entry.cls).getD .prio else (s.line n).cfg.defaultClass)
      ∧ u.lines = s.lines ∧ u.pool = s.pool
      ∧ (poolCheck s (cellsFor (f.length + 4)) = false →
        exec (.lineLinkFrameReceived n f) s = .next (countDrop n .upPoolFull u))
      ∧ (poolCheck s (cellsFor (f.length + 4)) = true → queueRoom s n (.ofCls c) (cellsFor (f.length + 4)) = false →
        exec (.lineLinkFrameReceived n f) s = .next (countDrop n .upQueueFull u))
      ∧ (poolCheck s (cellsFor (f.length + 4)) = true → queueRoom s n (.ofCls c) (cellsFor (f.length + 4)) = true →
        Completes (.lineLinkFrameReceived n f) s fun t =>
          (t.line n).prioQ = (if c = .prio then (s.line n).prioQ ++ [s.pool.nextId] else (s.line n).prioQ)
            ∧ (t.line n).bulkQ = (if c = .bulk then (s.line n).bulkQ ++ [s.pool.nextId] else (s.line n).bulkQ)
            ∧ (t.line n).idle = none ∧ (∀ m, m ≠ n → t.line m = s.line m) ∧ t.stations = u.stations
            ∧ t.pool.recs = s.pool.recs ++ [(s.pool.nextId,
                { bytes := insertTag (s.line n).cfg.vlan f, cls := some c, origin := .line n, refs := 1 })]
            ∧ t.pool.free = s.pool.free - cellsFor (f.length + 4)))
    ∧ (reachesSourceCheck n f s → (frameSrc f).isGroup = false → lookupStation s (frameSrc f) = some i →
      s.stations.entries.get i = some e → e.line = n →
    (insertTag (s.line n).cfg.vlan f).length = f.length + 4
      ∧ (poolCheck s (cellsFor (f.length + 4)) = true → queueRoom s n (.ofCls e.cls) (cellsFor (f.length + 4)) = true →
        Completes (.lineLinkFrameReceived n f) s fun t =>
          (t.line n).prioQ = (if e.cls = .prio then (s.line n).prioQ ++ [s.pool.nextId] else (s.line n).prioQ)
            ∧ (t.line n).bulkQ = (if e.cls = .bulk then (s.line n).bulkQ ++ [s.pool.nextId] else (s.line n).bulkQ)
            ∧ (t.line n).idle = none
            ∧ t.pool.recs = s.pool.recs ++ [(s.pool.nextId,
                { bytes := insertTag (s.line n).cfg.vlan f, cls := some e.cls, origin := .line n, refs := 1 })]
            ∧ t.pool.free = s.pool.free - cellsFor (f.length + 4)))

/-! ## Lines -/

/-- READY sets the ready indication in TRAINING, UP and DRAINING alone; AWAKE stops the wake timer and clears the mark
of an UP line with a wake pending and is ignored otherwise; both are ignored before the start-up completes. That the
hand-off that READY makes possible is a step of its own is log entry 7. -/
def Obligations.ReadyAndAwake : Prop :=
  ∀ (n : LineNo) (s : State),
    exec (.ready n) s = .next
      (if s.running = true ∧ ((s.line n).st = .training ∨ (s.line n).st = .up ∨ (s.line n).st = .draining) then
        s.modLine n fun l => { l with ready := true } else s)
    ∧ exec (.awake n) s = .next
      (if s.running = true ∧ (s.line n).st = .up ∧ (s.line n).wakePending = true then
        s.modLine n fun l => { l with wakeTimer := none, wakePending := false } else s)

/-- ACTIVITY and a matching sense edge make a wake request with the cause of the line's state, SENSE only where the
policy permits it: ignored for a listed line, listed with no room within the budget, and granted at once with room and
nothing waiting. A matching edge always sets the flag and raises SENSE. -/
def Obligations.WakeRequestsListed : Prop :=
  ∀ (n : LineNo) (rising : Bool) (u : State) (s : State), s.running = true →
    ((s.line n).st = .down → Completes (.activity n) s (wakeTaken n .start s))
    ∧ ((s.line n).st = .quiet → (currentPolicy s).wakeSense = true →
      Completes (.activity n) s (wakeTaken n .sense s))
    ∧ ((s.line n).st ≠ .down → ((s.line n).st = .quiet → (currentPolicy s).wakeSense = false) →
      exec (.activity n) s = .next s)
    ∧ (edgeMatches (s.line n).cfg.senseEdge rising = true →
      u = raise (some n) (.sense rising) (s.modLine n fun l => { l with sense := true }) →
      flagged u .sense ∧ u = { s with lines := u.lines, counts := u.counts }
        ∧ u.line n = { s.line n with sense := true } ∧ (∀ m, m ≠ n → u.line m = s.line m)
        ∧ ((s.line n).st = .down → Completes (.senseEdge n rising) s (wakeTaken n .start u))
        ∧ ((s.line n).st = .quiet ∨ (s.line n).st = .dormant →
          ((currentPolicy s).wakeSense = true → Completes (.senseEdge n rising) s (wakeTaken n .sense u))
          ∧ ((currentPolicy s).wakeSense = false → exec (.senseEdge n rising) s = .next u))
        ∧ ((s.line n).st ≠ .down → (s.line n).st ≠ .quiet → (s.line n).st ≠ .dormant →
          exec (.senseEdge n rising) s = .next u))
    ∧ (awakeBudget s ≤ awakeCount s → (∀ w ∈ s.power.wakeList, w.line ≠ n) →
    exec (.activity n) s = .next
      (if (s.line n).st = .down then
        s.modPower fun p => { p with wakeList := p.wakeList ++ [{ line := n, cause := .start, time := s.mgmt.time }] }
      else if (s.line n).st = .quiet ∧ (currentPolicy s).wakeSense = true then
        s.modPower fun p => { p with wakeList := p.wakeList ++ [{ line := n, cause := .sense, time := s.mgmt.time }] }
      else s)
    ∧ (edgeMatches (s.line n).cfg.senseEdge rising = false → exec (.senseEdge n rising) s = .next s)
    ∧ (edgeMatches (s.line n).cfg.senseEdge rising = true → Completes (.senseEdge n rising) s fun t =>
        t.line n = { s.line n with sense := true } ∧ (∀ m, m ≠ n → t.line m = s.line m) ∧ flagged t .sense
          ∧ t.stations = s.stations ∧ t.pool = s.pool ∧ testsKept s t ∧ besideKept s t
          ∧ t.power = { s.power with wakeList := s.power.wakeList ++
              (if (s.line n).st = .down then [{ line := n, cause := .start, time := s.mgmt.time }]
               else if ((s.line n).st = .quiet ∨ (s.line n).st = .dormant) ∧ (currentPolicy s).wakeSense = true then
                 [{ line := n, cause := .sense, time := s.mgmt.time }]
               else []) }))

/-- LINK_UP in TRAINING stores the rates and takes the line to UP with its ready indication and its frames kept; RATES,
and LINK_UP taken as RATES, store both rates of an UP, DRAINING or QUIET line and change nothing else but what the
recompute writes that a changed upstream rate calls for. That the hand-off the entry to UP makes possible is a step of
its own is log entry 7. -/
def Obligations.LinkUpAndRates : Prop :=
  ∀ (n : LineNo) (down up : Nat) (s : State), s.running = true →
    ((s.line n).st = .training → Completes (.linkUp n down up) s fun t =>
      (t.line n).st = .up ∧ (t.line n).downRate = min 100000 down ∧ (t.line n).upRate = min 100000 up
        ∧ (t.line n).trainTimer = none ∧ (t.line n).ready = (s.line n).ready ∧ (t.line n).cfg = (s.line n).cfg
        ∧ (t.line n).wakeStore = (s.line n).wakeStore ∧ (t.line n).downQ = (s.line n).downQ
        ∧ flagged t .lineState ∧ othersKept n s t ∧ plantKept s t ∧ besideKept s t ∧ t.pool = s.pool
        ∧ t.stations = s.stations)
    ∧ ((s.line n).st = .up ∨ (s.line n).st = .draining ∨ (s.line n).st = .quiet →
      ∀ c, c = .rates n down up ∨ c = .linkUp n down up → Completes c s fun t =>
        (t.line n).apart = { (s.line n).apart with downRate := min 100000 down, upRate := min 100000 up }
          ∧ othersKept n s t ∧ plantKept s t ∧ besideKept s t ∧ t.pool = s.pool ∧ t.stations = s.stations
          ∧ t.counts = s.counts)

/-- The events that take a line to DOWN: its frames flushed and counted, its LEARNED entries removed and its STATIC ones
kept, its rates 0, LISTEN sent, the training failure count raised when it was TRAINING, and the oldest waiting wakes
granted where the line leaves the awake states. -/
def Obligations.LineGoesDown : Prop :=
  ∀ (n : LineNo) (c : Instr) (s : State), s.running = true → WakesListed s →
    ((c = .linkFail n ∨ c = .linkDown n ∨ c = .trainingTimerExpiry n) ∧ (s.line n).st = .training
      ∨ c = .linkDown n ∧ ((s.line n).st = .up ∨ (s.line n).st = .quiet)
      ∨ c = .wakeTimerExpiry n ∧ (s.line n).st = .up ∧ (s.line n).wakeTimer.isSome = true) →
    Completes c s fun t =>
      (t.line n).isDown ∧ noLearned t n ∧ staticKept s t ∧ roomTaken n s t ∧ testsKept s t ∧ besideKept s t
        ∧ dropsCounted .flush [(n, (s.line n).refsHeld)] s t ∧ flagged t .lineState
        ∧ (t.line n).cfg = (s.line n).cfg ∧ (t.line n).grade = (s.line n).grade
        ∧ (t.line n).trainFails = (if (s.line n).st = .training then min 4294967295 ((s.line n).trainFails + 1)
            else (s.line n).trainFails)

/-- The events that end a drain: the line is HELD with its queues empty, what they held counted as flushed, and its
LEARNED entries kept; the oldest waiting wakes are granted; and the held report connects the pair, or suspends the test
when EXTREQ is asserted. -/
def Obligations.DrainEnds : Prop :=
  ∀ (n : LineNo) (c : Instr) (a : Activity) (s : State), s.running = true → WakesListed s →
    (c = .drainComplete n ∧ (s.line n).drained = true
      ∨ (c = .drainTimerExpiry n ∨ c = .linkDown n) ∧ (s.line n).st = .draining) →
    s.seq.act = some a → a.line = n → a.origin ≠ .external → s.seq.st = .drainingWait → s.access.matrix = .idle →
    Completes c s fun t =>
      (t.line n).isHeld ∧ (t.line n).downQ = [] ∧ (t.line n).prioQ = [] ∧ (t.line n).bulkQ = []
        ∧ (t.line n).handOff = none ∧ (t.line n).takenFrom = (s.line n).takenFrom ∧ t.stations = s.stations
        ∧ roomTaken n s t ∧ besideKept s t ∧ flagged t .lineState
        ∧ dropsCounted .flush [(n, (s.line n).downQ.length + (s.line n).prioQ.length + (s.line n).bulkQ.length
            + (s.line n).handOff.toList.length)] s t
        ∧ (if s.seq.extreq = true then
            t.seq = { s.seq with
                st := .suspended, extack := true, suspended := true
                suspendTimer := some (s.seq.suspendLimit * 1000), act := some { a with interrupted := true } }
              ∧ t.access = s.access ∧ flagged t .external
          else
            t.seq = { s.seq with st := .settling }
              ∧ t.access = { s.access with
                  matrix := .settlingIn n, settleTimer := some s.access.settleTime, legMv := 0 })

/-- The idle timer takes an UP line to QUIET, with nothing flushed and the oldest waiting wakes granted, and the dormant
timer a QUIET line to DORMANT, with its downstream queue flushed and counted and its own wake off the list; with an
effective quiet delay of never, or a dormant delay of 0, nothing happens. -/
def Obligations.IdleAndDormantTimers : Prop :=
  ∀ (n : LineNo) (s : State), s.running = true → WakesListed s →
    ((s.line n).st = .up → (s.line n).idle.isSome = true → (s.line n).cfg.quietDelay ≠ 0 →
      Completes (.idleTimerExpiry n) s fun t =>
        (t.line n).apart = { (s.line n).apart with
            st := .quiet, ready := false, quietFor := some 0, command := some .lowPower, idle := none
            wakeTimer := none, wakePending := false, takenFrom := none }
          ∧ flagged t .lineState ∧ roomTaken n s t ∧ testsKept s t ∧ besideKept s t ∧ t.pool = s.pool
          ∧ t.stations = s.stations ∧ dropsCounted .flush [] s t)
    ∧ ((s.line n).cfg.quietDelay = 0 → exec (.idleTimerExpiry n) s = .next s)
    ∧ ((s.line n).st = .quiet → (s.line n).cfg.dormantDelay ≠ 0 → Completes (.dormantTimerExpiry n) s fun t =>
        (t.line n).apart = { (s.line n).apart with
            st := .dormant, ready := false, downRate := 0, upRate := 0, quietFor := none, command := some .off
            downQ := [], idle := none, takenFrom := none }
          ∧ flagged t .lineState ∧ roomTaken n s t ∧ testsKept s t ∧ besideKept s t ∧ t.stations = s.stations
          ∧ dropsCounted .flush [(n, (s.line n).downQ.length)] s t)
    ∧ ((s.line n).cfg.dormantDelay = 0 → exec (.dormantTimerExpiry n) s = .next s)

/-- WAKE_GRANT takes the oldest entry off the list and its line into its awake state, one line more awake, while the
awake count is below the budget; otherwise nothing is granted. -/
def Obligations.WakeGranted : Prop :=
  ∀ (e : WakeEntry) (rest : List WakeEntry) (s : State), s.power.wakeList = e :: rest →
    (awakeBudget s ≤ awakeCount s → exec .wakeGrant s = .next s)
    ∧ (awakeCount s < awakeBudget s → Completes .wakeGrant s fun t =>
      ((s.line e.line).st = .down ∨ (s.line e.line).st = .dormant →
        (t.line e.line).st = .training ∧ (t.line e.line).trainTimer = some (s.trainLimit * 1000)
          ∧ (t.line e.line).command = some .start ∧ (t.line e.line).wakeStore = (s.line e.line).wakeStore)
      ∧ ((s.line e.line).st = .quiet →
        (t.line e.line).st = .up ∧ (t.line e.line).wakePending = true
          ∧ (t.line e.line).wakeTimer = some s.wakeLimit ∧ (t.line e.line).command = some .wake
          ∧ (t.line e.line).quietFor = none ∧ (t.line e.line).downQ = (s.line e.line).downQ)
      ∧ ((s.line e.line).st = .down ∨ (s.line e.line).st = .dormant ∨ (s.line e.line).st = .quiet →
        awakeCount t = awakeCount s + 1
          ∧ t.power = { s.power with wakeList := rest.filter fun w => w.line != e.line }
          ∧ (s.running = true → flagged t .lineState))
      ∧ othersKept e.line s t ∧ testsKept s t ∧ besideKept s t ∧ t.pool = s.pool ∧ t.stations = s.stations)

/-! ## Timers and the upstream side -/

/-- AGING_SWEEP raises every LEARNED age by one, holding at 255, and removes those at or above a non-zero aging time;
REFILL raises every credit by its share up to its depth; a pause timer's expiry releases its class. That the choice
which either makes possible is a step of its own is log entry 7. -/
def Obligations.SweepRefillAndPauseEnd : Prop :=
  ∀ (k : Nat) (s : State),
    (s.stations.sweep = some k → Completes .agingSweep s fun t =>
      t = { s with stations :=
          { entries := t.stations.entries, agingTime := s.stations.agingTime, sweep := some 60000 } }
        ∧ ∀ i, t.stations.entries.get i =
          match s.stations.entries.get i with
          | none => none
          | some e =>
            match e.origin with
            | .static => some e
            | .learned a =>
              if s.stations.agingTime = 0 then some e
              else if s.stations.agingTime ≤ min 255 (a + 1) then none
              else some { e with origin := .learned (min 255 (a + 1)) })
    ∧ (s.sched.refill = some k → Completes .refill s fun t =>
      t = { s with lines := t.lines, sched := { s.sched with refill := some 1 } }
        ∧ ∀ n, t.line n = { s.line n with
            credit := min (max 12288 (8 * ((s.line n).share : Int))) ((s.line n).credit + (s.line n).share) })
    ∧ exec (.pauseTimerExpiry .prio) s = .next (s.modSched fun x => { x with prioPause := none })
    ∧ exec (.pauseTimerExpiry .bulk) s = .next (s.modSched fun x => { x with bulkPause := none })

/-- A choice takes the first uplink entry of the transmit list unless PRIO is paused; then the first line from the PRIO
pointer with a PRIO frame and credit, then the first from the BULK pointer with a BULK frame and credit, charged 8 bits
a byte; and, when no credited pass yields a frame, the first line from the spare pointer with a frame of a class not
paused, its PRIO frame first, without charge. The last frame of a line to leave starts its idle timer. With the link
down or the transmitter busy none is made. -/
def Obligations.UpstreamChoice : Prop :=
  ∀ (e : TxEntry) (n : LineNo) (id : Nat) (rest : List Nat) (r : FrameRec) (s : State),
    (s.sched.uplinkUp = false ∨ s.sched.uplinkTx.isSome = true ∨ s.running = false →
      exec .upstreamChoice s = .next s)
    ∧ (s.running = true → s.sched.uplinkUp = true → s.sched.uplinkTx = none →
      (s.sched.prioPause = none → (s.mgmt.txList.find? fun x => x.port == .uplink) = some e →
        exec .upstreamChoice s = .next ((s.modMgmt fun m => { m with txList := m.txList.erase e }).modSched fun x =>
          { x with uplinkTx := some { recId := e.recId, spare := false } }))
      ∧ (s.sched.prioPause = none → (∀ x ∈ s.mgmt.txList, x.port ≠ .uplink) → 0 < s.sched.effective →
        (s.line n).prioQ = id :: rest → 0 < (s.line n).credit → s.record id = some r →
        (∀ k : LineNo, k < n - s.sched.prioPtr →
          (s.line (s.sched.prioPtr + k)).prioQ = [] ∨ (s.line (s.sched.prioPtr + k)).credit ≤ 0) →
        Completes .upstreamChoice s fun t =>
          (t.line n).prioQ = rest ∧ (t.line n).credit = (s.line n).credit - 8 * (r.bytes.length : Int)
            ∧ (s.line n).idleAfter (t.line n)
            ∧ (∀ m, m ≠ n → t.line m = s.line m) ∧ t.pool = s.pool ∧ t.counts = s.counts ∧ t.mgmt = s.mgmt
            ∧ t.sched = { s.sched with prioPtr := n + 1, uplinkTx := some { recId := id, spare := false } })
      ∧ (managementPass s = none → creditedPass .prio s = none → s.sched.bulkPause = none → 0 < s.sched.effective →
        (s.line n).bulkQ = id :: rest → 0 < (s.line n).credit → s.record id = some r →
        (∀ k : LineNo, k < n - s.sched.bulkPtr →
          (s.line (s.sched.bulkPtr + k)).bulkQ = [] ∨ (s.line (s.sched.bulkPtr + k)).credit ≤ 0) →
        Completes .upstreamChoice s fun t =>
          (t.line n).bulkQ = rest ∧ (t.line n).credit = (s.line n).credit - 8 * (r.bytes.length : Int)
            ∧ (s.line n).idleAfter (t.line n)
            ∧ (t.line n).prioQ = (s.line n).prioQ ∧ (∀ m, m ≠ n → t.line m = s.line m) ∧ t.pool = s.pool
            ∧ t.counts = s.counts ∧ t.mgmt = s.mgmt
            ∧ t.sched = { s.sched with bulkPtr := n + 1, uplinkTx := some { recId := id, spare := false } })
      ∧ (managementPass s = none → creditedPass .prio s = none → creditedPass .bulk s = none →
        s.shares.spare = true → 0 < s.sched.effective →
        (∀ k : LineNo, k < n - s.sched.sparePtr → ∀ c, offers s (s.sched.sparePtr + k) c = false) →
        (s.sched.prioPause = none → (s.line n).prioQ = id :: rest → Completes .upstreamChoice s fun t =>
          (t.line n).prioQ = rest ∧ (t.line n).bulkQ = (s.line n).bulkQ ∧ (t.line n).credit = (s.line n).credit
            ∧ (s.line n).idleAfter (t.line n)
            ∧ (∀ m, m ≠ n → t.line m = s.line m) ∧ t.pool = s.pool ∧ t.counts = s.counts ∧ t.mgmt = s.mgmt
            ∧ t.sched = { s.sched with sparePtr := n + 1, uplinkTx := some { recId := id, spare := true } })
        ∧ (offers s n .prio = false → s.sched.bulkPause = none → (s.line n).bulkQ = id :: rest →
          Completes .upstreamChoice s fun t =>
            (t.line n).bulkQ = rest ∧ (t.line n).prioQ = (s.line n).prioQ ∧ (t.line n).credit = (s.line n).credit
              ∧ (s.line n).idleAfter (t.line n)
              ∧ (∀ m, m ≠ n → t.line m = s.line m) ∧ t.pool = s.pool ∧ t.counts = s.counts ∧ t.mgmt = s.mgmt
              ∧ t.sched = { s.sched with sparePtr := n + 1, uplinkTx := some { recId := id, spare := true } }))
      ∧ (managementPass s = none → creditedPass .prio s = none → creditedPass .bulk s = none →
        s.shares.spare = true → 0 < s.sched.effective → s.sched.bulkPause = none → s.sched.prioPause = none →
        (s.line n).prioQ = [] → (s.line n).bulkQ = id :: rest →
        (∀ k : LineNo, k < n - s.sched.sparePtr →
          (s.line (s.sched.sparePtr + k)).prioQ = [] ∧ (s.line (s.sched.sparePtr + k)).bulkQ = []) →
        Completes .upstreamChoice s fun t =>
          (t.line n).bulkQ = rest ∧ (t.line n).credit = (s.line n).credit ∧ (∀ m, m ≠ n → t.line m = s.line m)
            ∧ (s.line n).idleAfter (t.line n)
            ∧ t.pool = s.pool ∧ t.counts = s.counts ∧ t.mgmt = s.mgmt
            ∧ t.sched = { s.sched with sparePtr := n + 1, uplinkTx := some { recId := id, spare := true } }))

/-- The uplink link: its return makes a choice at once and otherwise raises the link alone; its loss abandons the
transmission in progress as transmit aborted and stops both pause timers. A transmission whose number names no live
record is log entry 31. -/
def Obligations.UplinkLink : Prop :=
  ∀ (x : UplinkTx) (e : TxEntry) (s : State),
    exec .uplinkLinkUp s = exec .upstreamChoice (s.modSched fun c => { c with uplinkUp := true })
    ∧ (Completes .uplinkLinkUp s fun t =>
        t.sched.uplinkUp = true ∧ (s.sched.uplinkTx.isSome = true → t.sched.uplinkTx = s.sched.uplinkTx)
          ∧ (s.sched.uplinkTx = none → s.running = true →
              (t.sched.uplinkTx = none ↔ choose s = none)) ∧ t.pool = s.pool ∧ t.counts = s.counts ∧ plantKept s t
          ∧ t.stations = s.stations ∧ t.shares = s.shares)
    ∧ (s.running = false ∨ s.sched.uplinkTx.isSome = true ∨ choose s = none →
      exec .uplinkLinkUp s = .next (s.modSched fun c => { c with uplinkUp := true }))
    ∧ (s.running = true → s.sched.uplinkTx = none → s.sched.prioPause = none →
      (s.mgmt.txList.find? fun y => y.port == .uplink) = some e →
      exec .uplinkLinkUp s = .next ((s.modMgmt fun m => { m with txList := m.txList.erase e }).modSched fun c =>
        { c with uplinkUp := true, uplinkTx := some { recId := e.recId, spare := false } }))
    ∧ (s.sched.uplinkTx = none → exec .uplinkLinkDown s = .next (s.modSched fun c =>
        { c with uplinkUp := false, prioPause := none, bulkPause := none }))
    ∧ (s.sched.uplinkTx = some x → Completes .uplinkLinkDown s fun t =>
        t.sched = { s.sched with uplinkUp := false, uplinkTx := none, prioPause := none, bulkPause := none }
          ∧ t.counts.dev.get DevCount.transmitAborted.idx = bump (s.counts.dev.get DevCount.transmitAborted.idx)
          ∧ t.counts.total = s.counts.total ∧ t.lines = s.lines ∧ plantKept s t ∧ t.mgmt = s.mgmt
          ∧ (s.record x.recId = none → t.pool = s.pool)
          ∧ ∀ r, s.record x.recId = some r →
              t.pool.free = (if r.refs ≤ 1 then s.pool.free + r.cells else s.pool.free))

/-- TRANSMISSION_COMPLETE frees the transmitter, lets the reference go and makes the counts of a subscriber frame with
the length its home sent, in the set that its line names too; the completion of the reply that a device reset waits for
starts that reset. What lies outside the part through the reset is log entry 14, and that the choice which the free
transmitter calls for is a step of its own is log entry 7. -/
def Obligations.TransmissionComplete : Prop :=
  ∀ (x : UplinkTx) (r : FrameRec) (s : State), s.sched.uplinkTx = some x →
    (startsReset s x.recId = true → Completes .transmissionComplete s (warmlyReset .device s))
    ∧ (startsReset s x.recId = false → s.record x.recId = some r → Completes .transmissionComplete s fun t =>
      t.sched = { s.sched with uplinkTx := none } ∧ t.lines = s.lines ∧ plantKept s t ∧ t.mgmt = s.mgmt
        ∧ t.pool.free = (if r.refs ≤ 1 then s.pool.free + r.cells else s.pool.free)
        ∧ (r.origin = .part → t.counts.total = s.counts.total ∧ t.counts.upHist = s.counts.upHist)
        ∧ ∀ n, r.origin = .line n →
            t.counts.total = { s.counts.total with
                upFrames := bump s.counts.total.upFrames
                upBytes := bumpBytes s.counts.total.upBytes (r.bytes.length - 4)
                spareFrames := if x.spare = true then bump s.counts.total.spareFrames else s.counts.total.spareFrames }
              ∧ t.counts.upHist = s.counts.upHist.modify (bin (r.bytes.length - 4)) bump
              ∧ ∀ k, t.counts.sets.get k =
                if (s.line n).cfg.counterSet = some k then
                  { s.counts.sets.get k with
                    upFrames := bump (s.counts.sets.get k).upFrames
                    upBytes := bumpBytes (s.counts.sets.get k).upBytes (r.bytes.length - 4)
                    spareFrames := if x.spare = true then bump (s.counts.sets.get k).spareFrames
                      else (s.counts.sets.get k).spareFrames }
                else s.counts.sets.get k)

/-- A hand-off takes the wake store's frame, or else the head of the downstream queue, and clears the ready indication;
its completion lets the reference go, counts the delivery with the length handed, device-wide and in the counter set the
line's record names, and starts the idle timer when nothing else waits for an UP line. Cells that return arm the pool at
256 free, and raise no POOL_LOW. That the next hand-off, of a line
that is ready with a frame waiting, is a step of its own is log entry 7. -/
def Obligations.HandOffs : Prop :=
  ∀ (n : LineNo) (id : Nat) (rest : List Nat) (r : FrameRec) (s : State),
    ((s.line n).st = .up ∨ (s.line n).st = .draining → (s.line n).ready = true → (s.line n).handOff = none →
      ((s.line n).wakeStore = some id → Completes (.handOffStart n) s fun t =>
        t.line n = { s.line n with handOff := some id, wakeStore := none, ready := false, idle := none }
          ∧ t = { s with lines := t.lines } ∧ ∀ m, m ≠ n → t.line m = s.line m)
      ∧ ((s.line n).wakeStore = none → (s.line n).downQ = id :: rest → Completes (.handOffStart n) s fun t =>
        t.line n = { s.line n with handOff := some id, downQ := rest, ready := false, idle := none }
          ∧ t = { s with lines := t.lines } ∧ ∀ m, m ≠ n → t.line m = s.line m))
    ∧ ((s.line n).handOff = some id → s.record id = some r → Completes (.handOffComplete n) s fun t =>
        t.line n = { s.line n with handOff := none, idle := (t.line n).idle } ∧ (s.line n).idleAfter (t.line n)
          ∧ (∀ m, m ≠ n → t.line m = s.line m) ∧ plantKept s t ∧ besideKept s t ∧ t.stations = s.stations
          ∧ t.pool.free = (if r.refs ≤ 1 then s.pool.free + r.cells else s.pool.free)
          ∧ (128 ≤ s.pool.free + r.cells →
              t.pool.armed = (if r.refs ≤ 1 ∧ 256 ≤ s.pool.free + r.cells then true else s.pool.armed)
                ∧ t.counts.flags = s.counts.flags ∧ t.counts.notices = s.counts.notices)
          ∧ (∀ j, t.counts.sets.get j =
              if (s.line n).cfg.counterSet = some j then
                { s.counts.sets.get j with
                  downFrames := bump (s.counts.sets.get j).downFrames
                  downBytes := bumpBytes (s.counts.sets.get j).downBytes (removeTag r.bytes).length }
              else s.counts.sets.get j)
          ∧ t.counts.total = { s.counts.total with
              downFrames := bump s.counts.total.downFrames
              downBytes := bumpBytes s.counts.total.downBytes (removeTag r.bytes).length }
          ∧ t.counts.downHist = s.counts.downHist.modify (bin (removeTag r.bytes).length) bump)

/-- The craft transmitter takes the first craft entry while its link is up and it is free, lets the reference go at
completion, and loses its frame and every craft entry at a loss of the link. That the start is a step of its own is log
entry 7, and what the device reset keeps log entry 14. -/
def Obligations.CraftTransmitter : Prop :=
  ∀ (e : TxEntry) (id : Nat) (r : FrameRec) (s : State),
    exec .craftLinkUp s = .next (s.modSched fun x => { x with craftUp := true })
    ∧ (s.sched.craftUp = true → s.sched.craftTx = none → (s.mgmt.txList.find? fun x => x.port == .craft) = some e →
      exec .craftTransmissionStart s = .next ((s.modMgmt fun m => { m with txList := m.txList.erase e }).modSched
        fun x => { x with craftTx := some e.recId }))
    ∧ (s.sched.craftTx = some id → s.record id = some r → r.origin = .part → startsReset s id = false →
      Completes .craftTransmissionComplete s fun t =>
        t.sched = { s.sched with craftTx := none } ∧ t.lines = s.lines ∧ plantKept s t ∧ t.mgmt = s.mgmt
          ∧ t.counts.total = s.counts.total
          ∧ t.pool.free = (if r.refs ≤ 1 then s.pool.free + r.cells else s.pool.free))
    ∧ (s.sched.craftTx = some id → startsReset s id = true →
      Completes .craftTransmissionComplete s (warmlyReset .device s))
    ∧ Completes .craftLinkDown s fun t =>
        t.sched = { s.sched with craftUp := false, craftTx := none }
          ∧ t.mgmt = { s.mgmt with txList := s.mgmt.txList.filter fun x => x.port != .craft } ∧ t.lines = s.lines
          ∧ plantKept s t
          ∧ t.counts.dev.get DevCount.transmitAborted.idx =
              (if s.sched.craftTx.isSome = true then bump (s.counts.dev.get DevCount.transmitAborted.idx)
               else s.counts.dev.get DevCount.transmitAborted.idx)


/-! ## Test access and the sequencer -/

/-- SETTLE_TIMER_EXPIRY of a connected pair: an external connection enters EXTERNAL; a test yields the bus to an
asserted EXTREQ, starts its next spec with the drive its kind has, or with no spec left releases the pair. -/
def Obligations.SettleTimer : Prop :=
  ∀ (n : LineNo) (a : Activity) (x : Spec) (s : State), s.seq.act = some a → s.access.matrix = .settlingIn n →
    s.seq.st = .settling →
    (a.origin = .external → exec .settleTimerExpiry s = .next
      ((s.modAccess fun c => { c with matrix := .connected n, settleTimer := none }).modSeq fun q =>
        { q with st := .external }))
    ∧ (a.origin ≠ .external → s.seq.extreq = true → Completes .settleTimerExpiry s fun t =>
      t.access = { s.access with matrix := .connected n, settleTimer := none }
        ∧ t.seq = { s.seq with
            st := .suspended, extack := true, suspended := true
            suspendTimer := some (s.seq.suspendLimit * 1000), act := some { a with interrupted := true } }
        ∧ flagged t .external ∧ t.lines = s.lines ∧ t.power = s.power ∧ t.pool = s.pool)
    ∧ (a.origin ≠ .external → s.seq.extreq = false → s.seq.extack = false → s.access.unit = .idle →
      s.access.tripped = false → a.specs[a.next]? = some x → (∀ r ∈ a.results, r.verdict ≠ .guarded) →
      exec .settleTimerExpiry s = .next
        ((s.modSeq fun q => { q with st := .measuring, act := some { a with next := a.next + 1 } }).modAccess fun c =>
          { c with
            matrix := .connected n, settleTimer := none, unit := .measuring, spec := some x, kTaken := c.cablePf
            lengthTaken := (s.line n).cfg.recordedLength, elapsed := 0, indication := false, stopping := false
            sourceOn := decide (x.kind = .resistance ∨ x.kind = .capacitance)
            toneOn := decide (x.kind = .tone) }))
    ∧ (a.origin ≠ .external → s.seq.extreq = false → a.specs.length ≤ a.next →
      exec .settleTimerExpiry s = .next
        ((s.modSeq fun q => { q with st := .releasing }).modAccess fun c =>
          { c with matrix := .settlingOut, settleTimer := some c.settleTime, tripped := false, legMv := 0 }))

/-- SETTLE_TIMER_EXPIRY after a release finishes the test: its record is written with its outcome and grade, a completed
test's grade and number go to the line record, the HELD line returns, TEST_DONE is raised, and the sequencer is IDLE. -/
def Obligations.TestFinished : Prop :=
  ∀ (a : Activity) (s : State), s.seq.act = some a → s.access.matrix = .settlingOut → s.seq.st = .releasing →
    a.origin ≠ .external → s.seq.extreq = false → s.seq.queue = [] → s.seq.log.length < Config.logPlaces →
    (s.line a.line).st = .held →
    Completes .settleTimerExpiry s fun t =>
      t.seq = { s.seq with
          st := .idle, extack := false, act := none, marker := none, suspended := false, suspendTimer := none
          counter := nextSequence s.seq.counter
          log := s.seq.log ++
            [{ seq := nextSequence s.seq.counter, line := a.line, program := a.program, origin := a.origin
               start := a.start, stop := s.mgmt.time, outcome := a.pending.getD .completed
               grade := if a.pending.getD .completed = .completed then gradeOf a.results else .none
               interrupted := a.interrupted, guardTripped := a.guardTripped, results := a.results }] }
        ∧ t.access = { s.access with matrix := .idle, settleTimer := none } ∧ flagged t .testDone
        ∧ t.power = s.power ∧ othersKept a.line s t ∧ besideKept s t
        ∧ (a.pending.getD .completed = .completed →
            (t.line a.line).grade = gradeOf a.results
              ∧ (t.line a.line).lastTest = some (nextSequence s.seq.counter))
        ∧ (a.pending.getD .completed ≠ .completed →
            (t.line a.line).grade = (s.line a.line).grade ∧ (t.line a.line).lastTest = (s.line a.line).lastTest)
        ∧ (t.line a.line).st =
            (if (s.line a.line).takenFrom = some .dormant then .dormant
             else if a.pending.getD .completed = .completed ∧ gradeOf a.results = .faulty
                 ∧ (s.line a.line).cfg.keepOnFault = false then .barred
             else .down)
        ∧ (t.line a.line).takenFrom = none

/-- The completion of a measurement of each kind: the value and the verdict by their formulas, the drive off, and the
discharge begun after a driving kind; after a FOREIGN measurement the bus is yielded when EXTREQ is asserted, and
otherwise the next spec is started, or the pair released when it was the last. While a tone is on, its
output is the square wave of its frequency in the on-bursts of its cadence, each from its own start, until the duration
has elapsed; and it is low once the tone has been cut. -/
def Obligations.MeasurementCompletes : Prop :=
  ∀ (leg : Leg) (p w m f t us : Nat) (q : Nat) (xs : List Sample) (x : Spec) (c : Instr) (r : Result) (a : Activity)
    (s : State),
    (s.access.spec = some (.tone leg p w m f) → (Access.toneOutput us s.access = true ↔
      s.access.toneOn = true ∧ s.access.elapsed * 1000 + us < f * 1000000
        ∧ (s.access.elapsed * 1000 + us) % ((w + m) * 1000) < w * 1000
        ∧ (s.access.elapsed * 1000 + us) % ((w + m) * 1000) % (1000000 / p) < 1000000 / p / 2))
    ∧ (s.seq.act = some a → s.access.unit = .measuring → s.access.spec = some x →
    ((x = .resistance leg p w m f ∧ c = .windowEnd xs ∧ xs.length = w ∧
        q = (if (xs.map fun y => min 60000000 y.na).sum / w = 0 then 999999999
          else min 999999999 ((xs.map fun y => min 150000 y.mv.natAbs).sum / w * 1000000
            / ((xs.map fun y => min 60000000 y.na).sum / w)))
        ∧ r = { kind := .resistance, leg := leg, value := some q, length := none, guardSeen := s.access.indication
                verdict := if q < f then .faulty else if q < m then .marginal else .pass }
      ∨ x = .capacitance leg p w m f ∧ (c = .captureTargetReached t ∧ t ≤ 2000000 ∨ c = .captureTimeout ∧ t = 2000000)
        ∧ q = min 9999999 (p * t * 1000 / w)
        ∧ r = { kind := .capacitance, leg := leg, value := some q, length := some (q / s.access.kTaken)
                guardSeen := s.access.indication
                verdict :=
                  if c = .captureTimeout then .overRange
                  else if s.access.lengthTaken = 0 then .pass
                  else verdictAbove ((max (q / s.access.kTaken) s.access.lengthTaken
                    - min (q / s.access.kTaken) s.access.lengthTaken) * 100 / s.access.lengthTaken) m f }
      ∨ x = .tone leg p w m f ∧ c = .toneDurationElapsed
        ∧ r = { kind := .tone, leg := leg, value := none, length := none, guardSeen := s.access.indication
                verdict := .pass }) →
      exec c s = .next
        ((s.modAccess fun k => { k with
            unit := .discharging, sourceOn := false, toneOn := false, dischargeTimer := some k.dischargeTime }).modSeq
          fun k => { k with
            st := .discharging
            act := some { a with
              results := a.results ++ [r], guardTripped := a.guardTripped || s.access.indication } }))
    ∧ (∀ n y, x = .foreign leg w m f → xs.length = w → s.access.matrix = .connected n →
        q = (xs.map fun y => min 150000 y.mv.natAbs).foldl max 0 →
        r = { kind := .foreign, leg := leg, value := some q, length := none, guardSeen := s.access.indication
              verdict := if f < q then .faulty else if m < q then .marginal else .pass } →
      (s.seq.extreq = false → a.specs.length ≤ a.next → exec (.windowEnd xs) s = .next
        ((s.modAccess fun k => { k with
            unit := .idle, spec := none, sourceOn := false, toneOn := false, matrix := .settlingOut
            settleTimer := some k.settleTime, tripped := false, legMv := 0 }).modSeq fun k => { k with
          st := .releasing
          act := some { a with
            guardTripped := a.guardTripped || s.access.indication, results := a.results ++ [r] } }))
      ∧ (s.seq.extreq = false → s.seq.extack = false → s.access.tripped = false → a.specs[a.next]? = some y →
          (∀ z ∈ a.results, z.verdict ≠ .guarded) → exec (.windowEnd xs) s = .next
        ((s.modAccess fun k => { k with
            unit := .measuring, spec := some y, kTaken := k.cablePf, lengthTaken := (s.line n).cfg.recordedLength
            elapsed := 0, indication := false, stopping := false
            sourceOn := y.kind == .resistance || y.kind == .capacitance, toneOn := y.kind == .tone }).modSeq
          fun k => { k with
            st := .measuring
            act := some { a with
              guardTripped := a.guardTripped || s.access.indication, results := a.results ++ [r], next := a.next + 1 } }))
      ∧ (s.seq.extreq = true → Completes (.windowEnd xs) s fun t =>
          t.access = { s.access with unit := .idle, spec := none, sourceOn := false, toneOn := false }
            ∧ t.seq = { s.seq with
                st := .suspended, extack := true, suspended := true
                suspendTimer := some (s.seq.suspendLimit * 1000)
                act := some { a with
                  guardTripped := a.guardTripped || s.access.indication, results := a.results ++ [r]
                  interrupted := true } }
            ∧ flagged t .external ∧ t.lines = s.lines ∧ t.power = s.power ∧ t.pool = s.pool ∧ t.mgmt = s.mgmt)))


/-- DISCHARGE_WAIT_EXPIRY with no leg above the lowered trip level: after a STOP, or with nothing left to run, the pair
is released; an asserted EXTREQ is yielded to; and otherwise the next spec starts. -/
def Obligations.DischargeWait : Prop :=
  ∀ (n : LineNo) (a : Activity) (x : Spec) (s : State), s.access.unit = .discharging →
    s.access.matrix = .connected n → s.access.legMv ≤ s.access.guardVolts * 1000 → s.seq.act = some a →
    (s.access.stopping = true ∨ s.seq.st = .discharging ∧ s.seq.extreq = false ∧ a.specs.length ≤ a.next →
      exec .dischargeWaitExpiry s = .next
        ((s.modAccess fun k => { k with
            unit := .idle, spec := none, dischargeTimer := none, stopping := false, matrix := .settlingOut
            settleTimer := some k.settleTime, tripped := false, legMv := 0 }).modSeq fun q =>
          { q with st := .releasing }))
    ∧ (s.access.stopping = false → s.seq.st = .discharging → s.seq.extreq = true →
      Completes .dischargeWaitExpiry s fun t =>
        t.access = { s.access with unit := .idle, spec := none, dischargeTimer := none }
          ∧ t.seq = { s.seq with
              st := .suspended, extack := true, suspended := true
              suspendTimer := some (s.seq.suspendLimit * 1000), act := some { a with interrupted := true } }
          ∧ flagged t .external ∧ t.lines = s.lines ∧ t.power = s.power)
    ∧ (s.access.stopping = false → s.seq.st = .discharging → s.seq.extreq = false → s.seq.extack = false →
      s.access.tripped = false → a.specs[a.next]? = some x → (∀ r ∈ a.results, r.verdict ≠ .guarded) →
      exec .dischargeWaitExpiry s = .next
        ((s.modSeq fun q => { q with st := .measuring, act := some { a with next := a.next + 1 } }).modAccess fun c =>
          { c with
            unit := .measuring, spec := some x, dischargeTimer := none, kTaken := c.cablePf
            lengthTaken := (s.line n).cfg.recordedLength, elapsed := 0, indication := false, stopping := false
            sourceOn := decide (x.kind = .resistance ∨ x.kind = .capacitance)
            toneOn := decide (x.kind = .tone) }))

/-- GUARD_TRIP: above the threshold plus the drive allowance the drive goes off, the guard is latched, GUARD_TRIP is
raised and a driving measurement in hand ends GUARDED with the specs not started NOT_RUN; a FOREIGN measurement, a
discharge or a unit in IDLE goes on as it is. At or below it only the leg voltage is kept, as it is with the guard
tripped already, and with no connected pair nothing happens. That the row carries the greatest of the leg voltages, and
that it is kept, is the model's choice (log entry 11), and so is the index of the next spec after the trip (log entry
36). -/
def Obligations.GuardTrips : Prop :=
  ∀ (n : LineNo) (a : Activity) (x : Spec) (mv level : Nat) (s : State),
    (s.access.matrix = .idle ∨ s.access.matrix = .settlingOut → exec (.guardTrip mv) s = .next s)
    ∧ (s.access.matrix = .connected n → s.access.unit = .measuring → s.access.spec = some x →
      x.kind.driving = true →
      (mv ≤ s.access.guardVolts * 1000 + (match x with
          | .resistance _ v _ _ _ => v * 1000
          | .capacitance _ _ target _ _ => target
          | _ => 0) →
        exec (.guardTrip mv) s = .next (s.modAccess fun k => { k with legMv := mv }))
      ∧ (s.access.guardVolts * 1000 + (match x with
          | .resistance _ v _ _ _ => v * 1000
          | .capacitance _ _ target _ _ => target
          | _ => 0) < mv → s.access.tripped = false → s.seq.act = some a → a.line = n →
        Completes (.guardTrip mv) s fun t =>
          t.access = { s.access with
              legMv := mv, tripped := true, sourceOn := false, toneOn := false, indication := true
              unit := .discharging, dischargeTimer := some s.access.dischargeTime }
            ∧ t.seq = { s.seq with
                st := .discharging
                act := some { a with
                  guardTripped := true, next := a.specs.length
                  results := a.results
                    ++ [{ kind := x.kind, leg := x.leg, verdict := .guarded, value := none, length := none
                          guardSeen := true }]
                    ++ (a.specs.drop a.next).map fun y =>
                        { kind := y.kind, leg := y.leg, verdict := .notRun, value := none, length := none
                          guardSeen := false } } }
            ∧ flagged t .guardTrip ∧ t.lines = s.lines ∧ t.power = s.power ∧ t.pool = s.pool))
    ∧ (s.access.matrix = .connected n ∨ s.access.matrix = .settlingIn n →
      s.access.unit = .idle ∨ s.access.unit = .discharging
        ∨ s.access.unit = .measuring ∧ s.access.spec = some x ∧ x.kind = .foreign →
      level = s.access.guardVolts * 1000 + (match s.access.unit, s.access.spec with
          | .discharging, some (.resistance _ v _ _ _) => v * 1000
          | .discharging, some (.capacitance _ _ target _ _) => target
          | _, _ => 0) →
      (mv ≤ level ∨ s.access.tripped = true →
        exec (.guardTrip mv) s = .next (s.modAccess fun k => { k with legMv := mv }))
      ∧ (level < mv → s.access.tripped = false → Completes (.guardTrip mv) s fun t =>
          t.access = { s.access with
              legMv := mv, tripped := true, sourceOn := false, toneOn := false
              indication := s.access.indication || decide (s.access.unit = .measuring) }
            ∧ t.seq = { s.seq with
                act := s.seq.act.map fun b => if b.line = n then { b with guardTripped := true } else b }
            ∧ flagged t .guardTrip ∧ t.lines = s.lines ∧ t.power = s.power ∧ t.pool = s.pool ∧ t.mgmt = s.mgmt))


/-- EXTREQ and the suspend timer: an IDLE sequencer yields the bus at the assertion and takes it back at the release; a
suspended test resumes with a settle of its pair; its suspend timer's expiry ends it ABORTED_EXTERNAL, and the sequencer
stays SUSPENDED. The expiry with no test suspended is log entry 9. -/
def Obligations.ExternalHead : Prop :=
  ∀ (n : LineNo) (a : Activity) (s : State),
    (s.seq.st ≠ .idle ∨ s.running = false →
      exec .extreqAsserted s = .next (s.modSeq fun q => { q with extreq := true }))
    ∧ (s.seq.st = .idle → s.running = true → s.seq.act = none → Completes .extreqAsserted s fun t =>
        t.seq = { s.seq with extreq := true, st := .suspended, extack := true } ∧ flagged t .external
          ∧ t.access = s.access ∧ t.lines = s.lines ∧ t.power = s.power)
    ∧ (s.seq.extack = false → exec .extreqReleased s = .next (s.modSeq fun q => { q with extreq := false }))
    ∧ (s.seq.extack = true → s.seq.act = none → s.access.matrix = .idle → s.seq.queue = [] →
      Completes .extreqReleased s fun t =>
        t.seq = { s.seq with extreq := false, extack := false, st := .idle } ∧ flagged t .external
          ∧ t.access = s.access ∧ t.lines = s.lines ∧ t.power = s.power)
    ∧ (s.seq.extack = true → s.seq.act = some a → a.origin ≠ .external → s.access.matrix = .connected n →
      a.next < a.specs.length → (∀ r ∈ a.results, r.verdict ≠ .guarded) → Completes .extreqReleased s fun t =>
        t.seq = { s.seq with
            extreq := false, extack := false, suspended := false, suspendTimer := none, st := .settling }
          ∧ t.access = { s.access with matrix := .settlingIn n, settleTimer := some s.access.settleTime }
          ∧ flagged t .external ∧ t.lines = s.lines ∧ t.power = s.power)
    ∧ (s.seq.st = .suspended → s.seq.suspended = true → s.seq.act = some a →
      s.seq.log.length < Config.logPlaces → Completes .suspendTimerExpiry s fun t =>
        t.seq = { s.seq with
            act := none, marker := none, suspended := false, suspendTimer := none
            counter := nextSequence s.seq.counter
            log := s.seq.log ++
              [{ seq := nextSequence s.seq.counter, line := a.line, program := a.program, origin := a.origin
                 start := a.start, stop := s.mgmt.time, outcome := .abortedExternal, grade := .none
                 interrupted := a.interrupted, guardTripped := a.guardTripped, results := a.results }] }
          ∧ t.access = s.access ∧ flagged t .testDone ∧ (t.line a.line).grade = (s.line a.line).grade)
    ∧ (s.seq.suspended = false → exec .suspendTimerExpiry s = .next s)

/-- A tick of a counting group, while the sequencer is not IDLE, reloads or halves its count, clears the deferred flags
of its requests, and requests each line it picks: the line ends up under test, queued or due. A group that does not
count ticks to no effect, and a tick sets the count whatever it stood at, by log entry 9. In IDLE with nothing queued
the first line it picks, if its home does not use it, is taken under test as its request joins, and the others follow.
-/
def Obligations.RoutineTicks : Prop :=
  ∀ (g : Fin 4) (half : Bool) (c : Instr) (s : State), (c = if half = true then .halfTick g else .fullTick g) →
    (groupCounts s g = false → exec c s = .next s)
    ∧ (groupCounts s g = true → s.seq.st ≠ .idle → Completes c s fun t =>
        (t.seq.groups.get g).remaining =
            ((s.seq.groups.get g).base.minutes * (s.seq.groups.get g).factor * 60
              - if half = true then (s.seq.groups.get g).base.minutes * (s.seq.groups.get g).factor * 60 / 2 else 0)
          ∧ (∀ r ∈ t.seq.queue, r.group = some g → r.deferred = false)
          ∧ (∀ n, (s.line n).cfg.routineGroup = some g → (s.line n).st ≠ .disabled →
              (half = true → (s.line n).grade = .marginal ∨ (s.line n).grade = .faulty ∧ (s.line n).st ≠ .barred) →
              t.lineUnderTest = some n ∨ (∃ r ∈ t.seq.queue, r.line = n)
                ∨ (t.seq.groups.get g).due.get n = true)
          ∧ (∀ n h, h ≠ g → (t.seq.groups.get h).due.get n = (s.seq.groups.get h).due.get n)
          ∧ t.seq.act = s.seq.act ∧ t.seq.st = s.seq.st ∧ t.seq.log = s.seq.log ∧ t.lines = s.lines
          ∧ t.access = s.access ∧ t.power = s.power ∧ t.pool = s.pool ∧ t.mgmt = s.mgmt)
    ∧ (∀ n, groupCounts s g = true → s.seq.st = .idle → s.seq.act = none → s.seq.queue = [] → s.seq.extreq = false →
      ticked s g half n = true → (∀ m, m < n → ticked s g half m = false) →
      ((s.line n).st = .down ∨ (s.line n).st = .quiet ∨ (s.line n).st = .dormant ∨ (s.line n).st = .barred) →
      Completes c s fun t =>
        t.lineUnderTest = some n ∧ t.seq.st = .settling ∧ t.seq.log = s.seq.log
          ∧ ∀ m, ticked s g half m = true →
              t.lineUnderTest = some m ∨ (∃ r ∈ t.seq.queue, r.line = m) ∨ (t.seq.groups.get g).due.get m = true)

/-! ## Cabinet power -/

/-- The inputs of the Power Manager that move no state: the return of mains starts the stable timer in a battery state,
a loss of mains there stops it, a sample in MAINS is stored with its time, and a stopped stable timer cannot expire (log
entry 9). A level that changes before a state is chosen is noted alone (log entry 5). -/
def Obligations.PowerInputs : Prop :=
  ∀ (mv : Nat) (p : PowerState) (s : State),
    (s.power.state = some .mains ∨ s.power.state = none →
      exec .mainsOkAsserted s = .next (s.modPower fun x => { x with mainsOk := true }))
    ∧ (s.power.state = none → exec .mainsOkDeasserted s = .next (s.modPower fun x => { x with mainsOk := false }))
    ∧ (s.power.state = some p → p ≠ .mains →
      exec .mainsOkAsserted s = .next (s.modPower fun x =>
          { x with mainsOk := true, stableTimer := some (x.stableDelay * 1000) })
        ∧ exec .mainsOkDeasserted s = .next (s.modPower fun x => { x with mainsOk := false, stableTimer := none }))
    ∧ (s.power.state = some .mains → s.running = true →
      exec (.batterySample mv) s = .next (s.modPower fun x => { x with sample := some (mv, s.mgmt.time) }))
    ∧ (s.running = false → exec (.batterySample mv) s = .next s)
    ∧ (s.power.stableTimer = none → exec .mainsStableTimerExpiry s = .next s)

/-- A change of cabinet power state, by a loss of mains, the stable timer or a sample past a threshold: the new state is
in force, the awake lines are within its budget, the wake list holds only what it permits, the shares are computed with
its scale, and POWER_STATE is raised. With no quiet delay and no test, the lines that stay awake stand last in the order
of shedding, as many as the budget allows, the others go to the state of the sleep mode, the oldest wakes still
permitted are granted, and what the shed lines held and the removed wakes were made for is counted as shed. A test in
SETTLING is ended ABORTED_POWER in RESERVE, and in CONSERVE unless it is a DEMAND test with the power override;
otherwise it goes on. -/
def Obligations.PowerStateChanges : Prop :=
  ∀ (c : Instr) (st p : PowerState) (mv k : Nat) (test : Activity) (pair : LineNo) (wakes pruned : List WakeEntry)
    (s : State), s.power.state = some st → s.running = true →
    (c = .batterySample mv ∧
        (mv < s.power.reserve ∧ (st = .battery ∨ st = .conserve) ∧ p = .reserve
          ∨ s.power.reserve ≤ mv ∧ mv < s.power.conserve ∧ st = .battery ∧ p = .conserve
          ∨ s.power.reserve ≤ mv ∧ s.power.conserve + s.power.hysteresis ≤ mv ∧ (st = .conserve ∨ st = .reserve)
            ∧ p = .battery
          ∨ s.power.reserve + s.power.hysteresis ≤ mv ∧ mv < s.power.conserve + s.power.hysteresis ∧ st = .reserve
            ∧ p = .conserve)
      ∨ c = .mainsOkDeasserted ∧ st = .mains ∧ s.power.sample.map Prod.fst = some mv ∧
        (mv < s.power.reserve ∧ p = .reserve
          ∨ s.power.reserve ≤ mv ∧ mv < s.power.conserve ∧ p = .conserve
          ∨ s.power.reserve ≤ mv ∧ s.power.conserve ≤ mv ∧ p = .battery)
      ∨ c = .mainsStableTimerExpiry ∧ s.power.stableTimer = some k ∧ p = .mains) →
    Completes c s fun t =>
      t.power.state = some p ∧ t.power.lastChange = some s.mgmt.time ∧ flagged t .powerState
        ∧ awakeCount t ≤ (s.power.policies.get (PowerState.idx p)).budget
        ∧ (∀ e ∈ t.power.wakeList, e.cause = .sense → (s.power.policies.get (PowerState.idx p)).wakeSense = true)
        ∧ (∀ e ∈ t.power.wakeList, e.cause = .downstream → (s.power.policies.get (PowerState.idx p)).wakeDown = true)
        ∧ t.shares.last.power = some p
        ∧ t.shares.last.scale = (s.power.policies.get (PowerState.idx p)).scale
        ∧ t.power.policies = s.power.policies ∧ (c = .mainsStableTimerExpiry → t.power.stableTimer = none)
        ∧ (c = .mainsOkDeasserted → t.power.mainsOk = false)
        ∧ (c = .batterySample mv → t.power.sample = some (mv, s.mgmt.time))
        ∧ t.mgmt = s.mgmt ∧ t.memory = s.memory
        ∧ (WakesListed s → s.seq.act = none → s.seq.queue = [] → (∀ n, (s.line n).cfg.quietDelay = 0) →
          wakes = s.power.wakeList.filterMap (prunedEntry (setPowerState p s)) →
          pruned = (s.power.wakeList.filter fun e => (prunedEntry (setPowerState p s) e).isNone) →
          budgetTaken (s.power.policies.get (PowerState.idx p)).budget
              (s.power.policies.get (PowerState.idx p)).sleep wakes s t
            ∧ (∀ e ∈ pruned, e.cause ≠ .start
                ∧ ((s.line e.line).st = .dormant → (t.line e.line).wakeStore = none)
                ∧ ((s.line e.line).st = .quiet → e.cause = .downstream → (t.line e.line).downQ = []))
            ∧ dropsCounted .shed (shedRefs s t ++ pruned.map (prunedRefs s)) s t)
        ∧ (s.seq.act = some test → test.origin ≠ .external → s.seq.st = .settling →
            s.access.matrix = .settlingIn pair →
          if p = .reserve ∨ p = .conserve ∧ ¬(test.origin = .demand ∧ test.override = true) then
            t.seq = { s.seq with st := .releasing, act := some { test with pending := some .abortedPower } }
              ∧ t.access = { s.access with
                  matrix := .settlingOut, settleTimer := some s.access.settleTime, tripped := false, legMv := 0 }
          else t.seq = s.seq ∧ t.access = s.access)

/-! ## Shares -/

/-- What every recompute stores and hands over: an eligible line's share is the computed one and at most its ceiling,
every other line has share 0 and credit 0, and the shares and the residue make up the effective capacity. With the sum
of the committed figures within it each line has its committed figure at least, and a first round that no line's ceiling
cuts short adds to it by the adjusted weights; beyond it each has its proportion and no round is begun. Every step keeps
the credits between -12,175 and their depth, share and credit 0 outside UP and DRAINING, and the shares within the
capacity. -/
def Obligations.SharesFit : Prop :=
  (∀ s t : State, CreditKept s → step s = .next t → CreditKept t)
  ∧ ∀ (n : LineNo) (total weight : Nat) (s : State),
    (total = (s.lines.items.map fun l =>
        if l.st = .up ∨ l.st = .draining then min l.cfg.committed (ceilingOf l) else 0).sum →
      (recompute s).shares.last.committedSum = total
      ∧ ((s.line n).st = .up ∨ (s.line n).st = .draining →
        ((recompute s).shares.last.effective < total →
          ((recompute s).line n).share = min (s.line n).cfg.committed (ceilingOf (s.line n))
              * (recompute s).shares.last.effective / total ∧ (recompute s).shares.last.rounds = 0)
        ∧ (total ≤ (recompute s).shares.last.effective →
          min (s.line n).cfg.committed (ceilingOf (s.line n)) ≤ ((recompute s).line n).share)
        ∧ (total < (recompute s).shares.last.effective →
          weight = (s.lines.items.map fun l => if (l.st = .up ∨ l.st = .draining) ∧ l.cfg.committed < ceilingOf l then
              adjustedWeight l else 0).sum → (s.line n).cfg.committed < ceilingOf (s.line n) →
          (∀ m, (s.line m).st = .up ∨ (s.line m).st = .draining → (s.line m).cfg.committed < ceilingOf (s.line m) →
            (s.line m).cfg.committed
              + ((recompute s).shares.last.effective - total) * adjustedWeight (s.line m) / weight
              < ceilingOf (s.line m)) →
          ((recompute s).line n).share = (s.line n).cfg.committed
              + ((recompute s).shares.last.effective - total) * adjustedWeight (s.line n) / weight
            ∧ (recompute s).shares.last.rounds = 1)))
    ∧ (recompute s).shares.last.effective =
        min (capacityInUse s.shares) (s.shares.ceiling * (currentPolicy s).scale / 100) - s.shares.allowance
      ∧ (recompute s).sched = { s.sched with effective := (recompute s).shares.last.effective }
      ∧ ((recompute s).lines.items.map Line.share).sum + (recompute s).shares.last.residue
          = (recompute s).shares.last.effective
      ∧ (((s.line n).st = .up ∨ (s.line n).st = .draining) →
          ((recompute s).line n).share
              = ((computeShares s.lines (recompute s).shares.last.effective).1.get n).g
            ∧ ((recompute s).line n).share ≤ (s.line n).upRate
            ∧ ((s.line n).cfg.cap ≠ 0 → ((recompute s).line n).share ≤ (s.line n).cfg.cap))
      ∧ ((s.line n).st ≠ .up → (s.line n).st ≠ .draining →
          ((recompute s).line n).share = 0 ∧ ((recompute s).line n).credit = 0)
      ∧ linesKept s (recompute s)
      ∧ recompute s = { s with
          lines := (recompute s).lines, sched := (recompute s).sched, shares := (recompute s).shares }

/-! ## Control frames and notices -/

/-- CONTROL_FRAME_TAKEN takes nothing from an empty queue or while a condition of the taking fails; a frame taken has
its elements carried out in turn by runElements, under the origin of its port and the SERVICE level, and gets a reply of
one element for each, a record of origin PART; one whose header is refused whole gets one BAD_FORMAT element; and no
reply stays in the transmit list for the craft port while its link is down. NOTICE_FRAME_BUILD takes the oldest notices
of one urgency, URGENT where any waits and at most eight, off the list into a frame with the next notice number. The
SERVICE operand, the packing of the reply, and notice frames before the start-up completes are log entries 13, 18 and
23. -/
def Obligations.ControlAndNoticeFrames : Prop :=
  ∀ (service : Bool) (p : Port) (f : List Byte) (rest : List (Port × List Byte)) (manager : Addr) (s : State),
    (s.mgmt.controlQ = [] → exec (.controlFrameTaken service) s = .next s)
    ∧ (s.running = false ∨ s.mgmt.devReset.isSome = true ∨ 16 ≤ s.mgmt.txList.length ∨ s.pool.free < 12 →
      exec (.controlFrameTaken service) s = .next s)
    ∧ (s.mgmt.controlQ = (p, f) :: rest → mayTake s = true → headerRefused (frameBody f) = true →
      (p = .craft → s.sched.craftUp = true) → Completes (.controlFrameTaken service) s fun t =>
        t.mgmt = { s.mgmt with
            controlQ := rest, service := service
            txList := insertTx { recId := s.pool.nextId, port := p, part := .reply } s.mgmt.txList }
          ∧ t.pool.recs = s.pool.recs ++ [(s.pool.nextId,
              { bytes := replyFrame f [(0, { status := .badFormat, items := [] })] s, cls := none, origin := .part
                refs := 1 })]
          ∧ t.counts.dev.get DevCount.framesTaken.idx = bump (s.counts.dev.get DevCount.framesTaken.idx)
          ∧ t.lines = s.lines ∧ t.stations = s.stations ∧ t.shares = s.shares ∧ t.sched = s.sched ∧ plantKept s t
          ∧ t.memory = s.memory)
    ∧ (s.mgmt.controlQ = (.craft, f) :: rest → mayTake s = true → headerRefused (frameBody f) = true →
      s.sched.craftUp = false → Completes (.controlFrameTaken service) s fun t =>
        t.mgmt = { s.mgmt with
            controlQ := rest, service := service, txList := s.mgmt.txList.filter fun e => e.port != .craft }
          ∧ t.counts.dev.get DevCount.framesTaken.idx = bump (s.counts.dev.get DevCount.framesTaken.idx)
          ∧ t.lines = s.lines ∧ t.stations = s.stations ∧ t.shares = s.shares ∧ t.sched = s.sched ∧ plantKept s t
          ∧ t.memory = s.memory)
    ∧ (∀ o u r, s.mgmt.controlQ = (p, f) :: rest → mayTake s = true → headerRefused (frameBody f) = false →
      o = (match p, service with | .uplink, _ => .uplink | .craft, true => .craftService | .craft, false => .craft) →
      u = countDev .framesTaken (s.modMgmt fun m => { m with controlQ := rest, service := service }) →
      r = runElements o (readElements (wireField (frameBody f) 22 1) ((frameBody f).drop 24)) u →
      1 ≤ r.2.length ∧ r.2.length ≤ 16
        ∧ ((p = .craft → r.1.sched.craftUp = true) → Completes (.controlFrameTaken service) s fun t =>
          t.mgmt = { r.1.mgmt with
              txList := insertTx { recId := r.1.pool.nextId, port := p, part := .reply } r.1.mgmt.txList
              devReset := r.1.mgmt.devReset.map fun d => { d with reply := some r.1.pool.nextId } }
            ∧ t.pool.recs = r.1.pool.recs ++ [(r.1.pool.nextId,
                { bytes := replyFrame f r.2 r.1, cls := none, origin := .part, refs := 1 })]
            ∧ t.counts.dev.get DevCount.framesTaken.idx = r.1.counts.dev.get DevCount.framesTaken.idx
            ∧ t.lines = r.1.lines ∧ t.stations = r.1.stations ∧ t.shares = r.1.shares ∧ t.sched = r.1.sched
            ∧ plantKept r.1 t ∧ t.memory = r.1.memory)
        ∧ (p = .craft → r.1.sched.craftUp = false → Completes (.controlFrameTaken service) s fun t =>
          t.lines = r.1.lines ∧ t.stations = r.1.stations ∧ t.shares = r.1.shares ∧ t.sched = r.1.sched
            ∧ plantKept r.1 t ∧ t.memory = r.1.memory ∧ ∀ x ∈ t.mgmt.txList, x.port ≠ .craft))
    ∧ (s.mgmt.manager = none ∨ s.counts.notices = [] ∨ 16 ≤ s.mgmt.txList.length →
      exec .noticeFrameBuild s = .next s)
    ∧ (s.mgmt.manager = some manager → s.counts.notices ≠ [] → s.mgmt.txList.length < 16 →
      cellsFor (noticeFrame manager s).length ≤ s.pool.free → Completes .noticeFrameBuild s fun t =>
        (nextNotices s).length ≤ 8 ∧ nextNotices s ≠ []
          ∧ (nextUrgency s = true ↔
              ∃ x ∈ s.counts.notices, (s.counts.settings.get x.detail.kind.idx).urgent = true)
          ∧ nextNotices s <+: (s.counts.notices.filter fun x =>
              (s.counts.settings.get x.detail.kind.idx).urgent == nextUrgency s)
          ∧ (nextNotices s).length = min 8 (s.counts.notices.countP fun x =>
              (s.counts.settings.get x.detail.kind.idx).urgent == nextUrgency s)
          ∧ t.mgmt = { s.mgmt with
              noticeNumber := s.mgmt.noticeNumber + 1
              txList := insertTx { recId := s.pool.nextId, port := .uplink
                                   part := if nextUrgency s = true then .urgent else .routine } s.mgmt.txList }
          ∧ t.pool.recs = s.pool.recs ++ [(s.pool.nextId,
              { bytes := noticeFrame manager s, cls := none, origin := .part, refs := 1 })]
          ∧ (s.pool.armed = false ∨ 128 ≤ s.pool.free - cellsFor (noticeFrame manager s).length →
              t.counts.notices = s.counts.notices.filter fun x => !(nextNotices s).contains x)
          ∧ t.lines = s.lines ∧ t.stations = s.stations ∧ t.shares = s.shares ∧ t.sched = s.sched ∧ plantKept s t
          ∧ t.memory = s.memory)

/-- An element of a control frame that is read as a command does what that command's row does, and its reply element
holds the way the command ended; the row carries the frame's origin. While the lock is engaged no command of an origin
other than CRAFT-SERVICE changes a protected item, and no step but a cold or warm reset releases the lock. How a command
comes as a row of its own is the model's choice (log entries 8 and 10). -/
def Obligations.ElementRunsItsRow : Prop :=
  ∀ (o : Origin) (ident : Nat) (body : List Byte) (c : Instr) (t : State) (s : State),
    (readElement o ident body = .command c →
      isCommand c = true ∧ exec c s = .next (setResult (runElement o ident body s))
        ∧ ∀ k, commandOrigin c = some k → k = o)
    ∧ (isCommand c = true → commandOrigin c ≠ some .craftService → s.mgmt.locked = true → exec c s = .next t →
      protectedKept s t ∧ t.mgmt.locked = true)
    ∧ (s.mgmt.locked = true → (∀ b, s.mgmt.phase ≠ .held b) → step s = .next t →
      t.mgmt.locked = true ∨ ∃ b, t.mgmt.phase = .held b)

/-! ## Commands -/

/-- The read commands change nothing and end OK with the items of their rules: READ STATION with up to eight entries,
the next index or the mark of more, and the table's figures; or NOT_FOUND where nothing matches, and BAD_PARAM for what
does not exist. An element that names no command ends BAD_COMMAND. The rows stand outside a frame by log entry 10, the
items' numbers and types are log entry 17, and the next index after an eighth entry is log entry 12. -/
def Obligations.ReadsChangeNothing : Prop :=
  ∀ (o : Origin) (n : LineNo) (a : Addr) (i : Fin 96) (e : Entry) (es : List (Fin 96 × Entry)) (p : Fin 8)
    (r : TestRecord) (k : Nat) (ident : Byte) (s : State), s.takesCommands →
    (TablesSafe s → s.stations.entries.get i = some e → exec (.readStation o (.byAddress e.addr)) s =
        .next (s.answered .ok (entryItem i e :: tableItems s)))
      ∧ ((∀ j x, s.stations.entries.get j = some x → x.addr ≠ a) →
        exec (.readStation o (.byAddress a)) s = .next (s.answered .notFound (tableItems s)))
      ∧ (es = validEntries s (fun _ x => x.line == n) → exec (.readStation o (.byLine n.val)) s =
          .next (s.answered .ok (listEntries es ++ [.yes 3 (decide (8 < es.length))] ++ tableItems s)))
      ∧ (24 ≤ k → exec (.readStation o (.byLine k)) s = .next (s.answered .badParam []))
      ∧ (k < 96 → es = validEntries s (fun j _ => decide (k ≤ j.val)) → exec (.readStation o (.fromIndex k)) s =
          .next (s.answered .ok (listEntries es ++ [.count 2 (walkNext es)] ++ tableItems s)))
      ∧ (96 ≤ k → exec (.readStation o (.fromIndex k)) s = .next (s.answered .badParam []))
      ∧ exec (.readLine o n.val) s = .next (s.answered .ok ((s.line n).cfg.items ++ statusItems s (s.line n)))
      ∧ (24 ≤ k → exec (.readLine o k) s = .next (s.answered .badParam []))
      ∧ exec (.readUplink o) s = .next (s.answered .ok (uplinkItems s))
      ∧ exec (.readProgram o p.val) s = .next (s.answered .ok (programItems (s.seq.programs.get p)))
      ∧ (8 ≤ k → exec (.readProgram o k) s = .next (s.answered .badParam []))
      ∧ exec (.readTestQueue o) s = .next (s.answered .ok (queueItems s))
      ∧ (k ≠ 0 → s.seq.log.find? (fun x => x.seq == k) = some r →
        exec (.readTestRecord o (.bySequence k)) s = .next (s.answered .ok (⟨1, r.bytes⟩ :: logItems s)))
      ∧ (k ≠ 0 → (∀ x ∈ s.seq.log, x.seq ≠ k) →
        exec (.readTestRecord o (.bySequence k)) s = .next (s.answered .notFound (logItems s)))
      ∧ exec (.readTestRecord o (.bySequence 0)) s = .next (s.answered .badParam [])
      ∧ (s.seq.log.reverse.find? (fun x => x.line == n) = some r →
        exec (.readTestRecord o (.byLine n.val)) s = .next (s.answered .ok (⟨1, r.bytes⟩ :: logItems s)))
      ∧ ((∀ x ∈ s.seq.log, x.line ≠ n) →
        exec (.readTestRecord o (.byLine n.val)) s = .next (s.answered .notFound (logItems s)))
      ∧ (24 ≤ k → exec (.readTestRecord o (.byLine k)) s = .next (s.answered .badParam []))
      ∧ exec (.readPower o) s = .next (s.answered .ok (powerItems s))
      ∧ exec (.readStatus o) s = .next (s.answered .ok (identityItems s ++ pathItems s ++ plantItems s))
      ∧ exec (.unknownCommand ident) s = .next (s.answered .badCommand [])

/-- WRITE STATION writes a STATIC entry at the address's index or at the lowest invalid one, within the station limit,
the table and the lock, under which a rewrite that changes nothing still ends OK; its table form stores the aging time
clamped; REMOVE STATION makes the entry invalid. A group address, a line outside 0 to 23 and a class that does not exist
are BAD_PARAM. The rows stand outside a frame by log entry 10, and the items' numbers and types are log entry 17. -/
def Obligations.StationCommands : Prop :=
  ∀ (o : Origin) (a b : Addr) (n : LineNo) (c : Cls) (i : Fin 96) (e : Entry) (v : Nat) (s : State),
    s.takesCommands → a.isGroup = false →
    (b.isGroup = true → exec (.writeStation o b n.val c.code) s = .next (s.answered .badParam [])
      ∧ exec (.removeStation o b) s = .next (s.answered .badParam []))
    ∧ (24 ≤ v → exec (.writeStation o a v c.code) s = .next (s.answered .badParam []))
    ∧ (2 ≤ v → exec (.writeStation o a n.val v) s = .next (s.answered .badParam []))
    ∧ (lockForbids s o = true → lookupStation s a = none →
      exec (.writeStation o a n.val c.code) s = .next (s.answered .locked []))
    ∧ (lockForbids s o = false → lookupStation s a = none → stationCount s n none < (s.line n).cfg.stationLimit →
      (lowestInvalid s = some i → exec (.writeStation o a n.val c.code) s =
        .next ((s.modStations fun x => { x with entries := x.entries.set i (some
            { addr := a, line := n, cls := c, origin := .static }) }).answered .ok
          (stationReply i { addr := a, line := n, cls := c, origin := .static } false)))
      ∧ (lowestInvalid s = none → exec (.writeStation o a n.val c.code) s = .next (s.answered .tableFull [])))
    ∧ (lockForbids s o = false → lookupStation s a = none → (s.line n).cfg.stationLimit ≤ stationCount s n none →
      exec (.writeStation o a n.val c.code) s = .next (s.answered .limit []))
    ∧ (lookupStation s a = some i → s.stations.entries.get i = some e →
      (lockForbids s o = false → e.line = n ∨ stationCount s n (some i) < (s.line n).cfg.stationLimit →
        exec (.writeStation o a n.val c.code) s =
          .next ((s.modStations fun x => { x with entries := x.entries.set i (some
              { addr := a, line := n, cls := c, origin := .static }) }).answered .ok
            (stationReply i { addr := a, line := n, cls := c, origin := .static } true)))
      ∧ (lockForbids s o = false → e.line ≠ n → (s.line n).cfg.stationLimit ≤ stationCount s n (some i) →
        exec (.writeStation o a n.val c.code) s = .next (s.answered .limit []))
      ∧ (e.line = n → e.cls = c → e.isLearned = false →
        exec (.writeStation o a n.val c.code) s = .next (s.answered .ok (stationReply i e true)))
      ∧ (lockForbids s o = true → e.line ≠ n ∨ e.cls ≠ c ∨ e.isLearned = true →
        exec (.writeStation o a n.val c.code) s = .next (s.answered .locked []))
      ∧ (lockForbids s o = false ∨ e.isLearned = true → exec (.removeStation o a) s =
        .next ((s.modStations fun x => { x with entries := x.entries.set i none }).answered .ok [.nest 1 e.items]))
      ∧ (lockForbids s o = true → e.isLearned = false →
        exec (.removeStation o a) s = .next (s.answered .locked [])))
    ∧ (lookupStation s a = none → exec (.removeStation o a) s = .next (s.answered .notFound []))
    ∧ exec (.writeStationTableForm o v) s =
        .next ((s.modStations fun x => { x with agingTime := min 255 v }).answered
          (if 255 < v then .clamped else .ok) [.count 1 (min 255 v)])

/-- FLUSH LEARNED, CLEAR SENSE and CLEAR EVENTS: each clears what its scope, set or mask names and nothing else, in any
lock state, answers with what it removed or with what stands, and is refused BAD_PARAM whole for what does not exist.
The line value 255 is ALL (log entry 8), the rows stand outside a frame by log entry 10, and the items' numbers and
types are log entry 17. -/
def Obligations.ClearingCommands : Prop :=
  ∀ (o : Origin) (n : LineNo) (v : Nat) (m : BitVec 32) (s : State), s.takesCommands →
    exec (.flushLearned o .all) s =
        .next ((s.modStations fun t => { t with entries := t.entries.map fun e => e.filter fun x => !x.isLearned }).answered
          .ok [.count 1 (s.stations.entries.items.countP fun e => e.any Entry.isLearned)])
      ∧ exec (.flushLearned o (.line n.val)) s =
        .next ((s.modStations fun t => { t with
            entries := t.entries.map fun e => e.filter fun x => !(x.isLearned && x.line == n) }).answered
          .ok [.count 1 (s.stations.entries.items.countP fun e => e.any fun x => x.isLearned && x.line == n)])
      ∧ (24 ≤ v → v < 255 → exec (.flushLearned o (.line v)) s = .next (s.answered .badParam []))
      ∧ (m.toNat < 2 ^ 24 → Completes (.clearSense o m) s fun t =>
          (∀ k, t.line k = { s.line k with sense := (s.line k).sense && !m.getLsbD k.val })
            ∧ t = ({ s with lines := t.lines }).answered .ok [.count 1 (lineSet fun k => (t.line k).sense)])
      ∧ (2 ^ 24 ≤ m.toNat → exec (.clearSense o m) s = .next (s.answered .badParam []))
      ∧ (m.toNat < 2 ^ 12 → Completes (.clearEvents o m) s fun t =>
          (∀ k, t.counts.flags.get k = (s.counts.flags.get k && !m.getLsbD k.val))
            ∧ t = (s.modCounts fun k => { k with flags := t.counts.flags }).answered .ok
                [.count 1 (flagMask t.counts.flags)])
      ∧ (2 ^ 12 ≤ m.toNat → exec (.clearEvents o m) s = .next (s.answered .badParam []))

/-- WRITE LINE stores every carried field, its numbers clamped, leaves the admin and every other line's record, makes
one recompute when the committed rate, the weight or the cap differs and none otherwise, and is refused whole for a
value that does not exist or a locked change. A quiet delay that the idle timer has reached takes an UP line to QUIET,
with the oldest waiting wakes granted, and a dormant delay that the time in QUIET has reached takes it to DORMANT, with
its downstream queue flushed and counted. The row stands outside a frame by log entry 10, its order of consequences is
log entry 16, and the items' numbers and types are log entry 17. -/
def Obligations.WriteLine : Prop :=
  ∀ (o : Origin) (n : LineNo) (f : LineFields) (v k : Nat) (u : State) (s : State), s.takesCommands →
    (LineFields.exist f = false → exec (.writeLine o n.val f) s = .next (s.answered .badParam []))
    ∧ (24 ≤ v → exec (.writeLine o v f) s = .next (s.answered .badParam []))
    ∧ (LineFields.exist f = true → lockForbids s o = true →
        protectedChange (s.line n).cfg (LineFields.store f (s.line n).cfg) = true →
        exec (.writeLine o n.val f) s = .next (s.answered .locked []))
    ∧ (LineFields.exist f = true → lockForbids s o = false → f.quietDelay = none → f.dormantDelay = none →
      Completes (.writeLine o n.val f) s fun t =>
        (t.line n).apart = { (s.line n).apart with cfg := LineFields.store f (s.line n).cfg } ∧ othersKept n s t
          ∧ (t.line n).cfg.enabled = (s.line n).cfg.enabled
          ∧ (∀ w, f.vlan = some w → (t.line n).cfg.vlan = max 1 (min 4094 w))
          ∧ (∀ w, f.weight = some w → (t.line n).cfg.weight = max 1 (min 64 w))
          ∧ (∀ w, f.committed = some w → (t.line n).cfg.committed = min 100000 w)
          ∧ (∀ w, f.downLimit = some w → (t.line n).cfg.downLimit = max 16 (min 1024 w))
          ∧ (∀ w, f.counterSet = some w → (t.line n).cfg.counterSet.map Fin.val = w)
          ∧ (f.committed = none → f.weight = none → f.cap = none → t.shares = s.shares ∧ t.sched = s.sched)
          ∧ upstreamKept s t ∧ plantKept s t ∧ t.stations = s.stations ∧ t.pool = s.pool ∧ t.counts = s.counts
          ∧ t.mgmt = { s.mgmt with
              lastResult := some
                { status := if LineFields.clamps f = true then .clamped else .ok, items := (t.line n).cfg.items } }
          ∧ t.memory = s.memory)
    ∧ (LineFields.exist f = true → lockForbids s o = false → Completes (.writeLine o n.val f) s fun t =>
        (t.line n).cfg = LineFields.store f (s.line n).cfg)
    ∧ (LineFields.exist f = true → lockForbids s o = false →
      u = s.modLine n (fun l => { l with cfg := LineFields.store f l.cfg }) →
      (f.quietDelay = none → f.dormantDelay = none → exec (.writeLine o n.val f) s = .next
        ((if (u.line n).cfg.committed ≠ (s.line n).cfg.committed ∨ (u.line n).cfg.weight ≠ (s.line n).cfg.weight
              ∨ (u.line n).cfg.cap ≠ (s.line n).cfg.cap then recompute u else u).answered
          (if LineFields.clamps f = true then .clamped else .ok) (LineFields.store f (s.line n).cfg).items))
      ∧ (f.dormantDelay = none → f.committed = none → f.weight = none → f.cap = none →
        (s.line n).st ≠ .up ∨ (s.line n).idle = none ∨ f.quietDelay = some 0 →
        exec (.writeLine o n.val f) s = .next (u.answered
          (if LineFields.clamps f = true then .clamped else .ok) (LineFields.store f (s.line n).cfg).items))
      ∧ (WakesListed s → f.dormantDelay = none → (s.line n).st = .up → (s.line n).idle = some k →
        f.quietDelay = some v → 0 < v →
        (if (currentPolicy s).quietCap = 0 then min 3600 v else min (min 3600 v) (currentPolicy s).quietCap) ≤ k / 1000 →
        Completes (.writeLine o n.val f) s fun t =>
          (t.line n).st = .quiet ∧ (t.line n).quietFor = some 0 ∧ (t.line n).command = some .lowPower
            ∧ (t.line n).share = 0 ∧ (t.line n).credit = 0 ∧ (s.running = true → flagged t .lineState)
            ∧ roomTaken n s t ∧ testsKept s t ∧ t.stations = s.stations ∧ dropsCounted .flush [] u t)
      ∧ (WakesListed s → (s.line n).st = .quiet → (s.line n).quietFor = some k →
        f.dormantDelay = some v → 0 < v → min 86400 v * 1000 ≤ k →
        Completes (.writeLine o n.val f) s fun t =>
          (t.line n).st = .dormant ∧ (t.line n).command = some .off ∧ (t.line n).downQ = []
            ∧ (t.line n).upRate = 0 ∧ (s.running = true → flagged t .lineState)
            ∧ roomTaken n s t ∧ testsKept s t ∧ t.stations = s.stations
            ∧ dropsCounted .flush [(n, (s.line n).downQ.length)] u t)
      ∧ (f.committed = none → f.weight = none → f.cap = none → (s.line n).st = .quiet → (s.line n).quietFor = some k →
        f.dormantDelay = some v → v = 0 ∨ k < min 86400 v * 1000 →
        exec (.writeLine o n.val f) s = .next (u.answered
          (if LineFields.clamps f = true then .clamped else .ok) (LineFields.store f (s.line n).cfg).items)))

/-- ENABLE LINE takes a DISABLED line to DOWN, DISABLE LINE any line not DRAINING, HELD or under test to DISABLED, its
frames flushed and counted and the oldest waiting wakes granted where it was awake, and CLEAR BAR a BARRED line to DOWN;
each is refused BUSY elsewhere. The rows stand outside a frame by log entry 10, the items' numbers and types are log
entry 17, and that a refusal carries none is log entry 34. -/
def Obligations.LineCommands : Prop :=
  ∀ (o : Origin) (n : LineNo) (s : State), s.takesCommands →
    (s.underTest n = false → (s.line n).st = .disabled → Completes (.enableLine o n.val) s fun t =>
      (t.line n).isDown ∧ (t.line n).cfg = { (s.line n).cfg with enabled := true } ∧ othersKept n s t
        ∧ upstreamKept s t ∧ plantKept s t
        ∧ t.mgmt = { s.mgmt with lastResult := some { status := .ok, items := [.code 1 1, .code 2 0] } })
    ∧ (s.underTest n = true ∨ (s.line n).st ≠ .disabled →
      exec (.enableLine o n.val) s = .next (s.answered .busy []))
    ∧ (s.underTest n = false → (s.line n).st ≠ .disabled → (s.line n).st ≠ .draining → (s.line n).st ≠ .held →
      WakesListed s → Completes (.disableLine o n.val) s fun t =>
      (t.line n).st = .disabled ∧ (t.line n).cfg = { (s.line n).cfg with enabled := false }
        ∧ (t.line n).holdsNothing ∧ (t.line n).downRate = 0 ∧ (t.line n).upRate = 0
        ∧ (t.line n).command = some .off ∧ noLearned t n ∧ staticKept s t ∧ roomTaken n s t ∧ upstreamKept s t
        ∧ testsKept s t ∧ dropsCounted .flush [(n, (s.line n).refsHeld)] s t
        ∧ t.mgmt = { s.mgmt with lastResult := some { status := .ok, items := [] } })
    ∧ (s.underTest n = false → (s.line n).st = .disabled →
      exec (.disableLine o n.val) s = .next (s.answered .ok []))
    ∧ (s.underTest n = true ∨ (s.line n).st = .draining ∨ (s.line n).st = .held →
      exec (.disableLine o n.val) s = .next (s.answered .busy []))
    ∧ (s.underTest n = false → (s.line n).st = .barred → Completes (.clearBar o n.val) s fun t =>
      (t.line n).isDown ∧ (t.line n).cfg = (s.line n).cfg ∧ (t.line n).grade = (s.line n).grade ∧ othersKept n s t
        ∧ upstreamKept s t ∧ plantKept s t
        ∧ t.mgmt = { s.mgmt with lastResult := some { status := .ok, items := [.code 1 1] } })
    ∧ (s.underTest n = true ∨ (s.line n).st ≠ .barred →
      exec (.clearBar o n.val) s = .next (s.answered .busy []))

/-- The commands that store settings: what each stores, clamped, what it answers, and the status that refuses it:
BAD_PARAM for a value that does not exist, inverted limits, or thresholds in the wrong order; BUSY for a setting of a
started group or an absent program in use; NOT_FOUND for a start of an absent program; LOCKED for a protected change
while the lock forbids it. SET TEST LIMITS trips the guard of a leg already above the new level. The rows stand outside
a frame by log entry 10, the items' numbers and types are log entry 17, the leg voltage kept is log entry 11, a group's
fraction of a second and half mark log entry 25, and an ENABLE LINE with neither limit log entry 21. -/
def Obligations.SettingsStored : Prop :=
  ∀ (o : Origin) (g : Fin 4) (p : Fin 8) (specs : List RawSpec) (read : List (Spec × Bool)) (x y z : Option Nat)
    (v : Nat) (group : Group) (lim : LimitFields) (th : ThresholdFields) (mg : ManagementFields) (time : Time)
    (mgmt : Mgmt) (u : State) (s : State), s.takesCommands →
    (x.isSome = true ∨ y.isSome = true → exec (.enableLineSettingsForm o x y) s =
      .next (({ s with trainLimit := clampOr 10 600 s.trainLimit x, wakeLimit := clampOr 100 10000 s.wakeLimit y }).answered
        (if (outside 10 600 x || outside 100 10000 y) = true then .clamped else .ok)
        [.count 3 (clampOr 10 600 s.trainLimit x), .count 4 (clampOr 100 10000 s.wakeLimit y)]))
    ∧ (x = none → y = none → exec (.enableLineSettingsForm o x y) s = .next (s.answered .badParam []))
    ∧ (fieldOk Base.ofMinutes x = false ∨ fieldOk programOf z = false ∨ 4 ≤ v →
      exec (.setRoutineGroup o (if fieldOk Base.ofMinutes x && fieldOk programOf z then v else g.val) x y z) s =
        .next (s.answered .badParam []))
    ∧ ((s.seq.groups.get g).enabled = true → fieldOk Base.ofMinutes x = true → fieldOk programOf z = true →
      exec (.setRoutineGroup o g.val x y z) s = .next (s.answered .busy []))
    ∧ ((s.seq.groups.get g).enabled = false → fieldOk Base.ofMinutes x = true → fieldOk programOf z = true →
      group = { s.seq.groups.get g with
        base := keepOr Base.ofMinutes (s.seq.groups.get g).base x, factor := clampOr 1 64 (s.seq.groups.get g).factor y
        program := keepOr programOf (s.seq.groups.get g).program z } →
      exec (.setRoutineGroup o g.val x y z) s =
        .next ((s.modSeq fun q => { q with groups := q.groups.set g group }).answered
          (if outside 1 64 y = true then .clamped else .ok)
          [.yes 1 false, .count 2 group.base.minutes, .count 3 group.factor, .count 4 group.program.val
          , .count 5 group.remaining, .count 6 group.missed]))
    ∧ ((s.seq.groups.get g).enabled = false → Completes (.setRoutineGroup o g.val (some 15) y (some p.val)) s fun t =>
      t.seq = { s.seq with
          groups := s.seq.groups.set g
            { s.seq.groups.get g with
              base := .m15, factor := clampOr 1 64 (s.seq.groups.get g).factor y, program := p } }
        ∧ t.access = s.access ∧ t.lines = s.lines ∧ t.power = s.power)
    ∧ (4 ≤ v → exec (.startRoutineGroup o v) s = .next (s.answered .badParam []))
    ∧ (s.seq.programs.get (s.seq.groups.get g).program = [] →
      exec (.startRoutineGroup o g.val) s = .next (s.answered .notFound []))
    ∧ (s.seq.programs.get (s.seq.groups.get g).program ≠ [] → exec (.startRoutineGroup o g.val) s =
      .next ((s.modSeq fun q => { q with
          groups := q.groups.set g
            { q.groups.get g with
              enabled := true, subMs := 0, halfDue := false
              remaining := (q.groups.get g).base.minutes * (q.groups.get g).factor * 60 } }).answered .ok []))
    ∧ (readSpecs specs = none ∨ 8 ≤ v →
      exec (.writeProgram o (if (readSpecs specs).isNone then p.val else v) specs) s = .next (s.answered .badParam []))
    ∧ (readSpecs specs = some read → (∃ r ∈ read, Spec.inverted r.1 = true) →
      exec (.writeProgram o p.val specs) s = .next (s.answered .badParam []))
    ∧ (readSpecs specs = some read → (∀ r ∈ read, Spec.inverted r.1 = false) →
      (read = [] → (∃ r ∈ s.seq.queue, r.program = p) ∨ (∃ r ∈ s.seq.act.toList, r.program = some p)
          ∨ (∃ h : Fin 4, (s.seq.groups.get h).enabled = true ∧ (s.seq.groups.get h).program = p) →
        exec (.writeProgram o p.val specs) s = .next (s.answered .busy []))
      ∧ (read ≠ [] ∨ programBusy s p = false →
        (lockForbids s o = true → read.map Prod.fst ≠ s.seq.programs.get p →
          exec (.writeProgram o p.val specs) s = .next (s.answered .locked []))
        ∧ (lockForbids s o = false ∨ read.map Prod.fst = s.seq.programs.get p →
          exec (.writeProgram o p.val specs) s =
            .next ((s.modSeq fun q => { q with programs := q.programs.set p (read.map Prod.fst) }).answered
              (if read.any Prod.snd = true then .clamped else .ok) (programItems (read.map Prod.fst))))))
    ∧ (u = (s.modAccess (LimitFields.storeAccess lim)).modSeq (LimitFields.storeSeq lim) →
      (lockForbids s o = true → limitItems u ≠ limitItems s →
        exec (.setTestLimits o lim) s = .next (s.answered .locked []))
      ∧ (lockForbids s o = false ∨ limitItems u = limitItems s →
        (u.access.matrix.pair = none ∨ u.access.tripped = true ∨ u.access.legMv ≤ tripLevel u.access →
          exec (.setTestLimits o lim) s =
            .next (u.answered (if LimitFields.clamps lim = true then .clamped else .ok) (limitItems u)))
        ∧ (∀ n, u.access.matrix.pair = some n → u.access.tripped = false → tripLevel u.access < u.access.legMv →
          exec (.setTestLimits o lim) s = .next ((tripGuard n u).answered
            (if LimitFields.clamps lim = true then .clamped else .ok) (limitItems u)))))
    ∧ ((ThresholdFields.store th s.power).conserve ≤ (ThresholdFields.store th s.power).reserve →
      exec (.setBatteryThresholds o th) s = .next (s.answered .badParam []))
    ∧ ((ThresholdFields.store th s.power).reserve < (ThresholdFields.store th s.power).conserve →
      (lockForbids s o = true → ThresholdFields.store th s.power ≠ s.power →
        exec (.setBatteryThresholds o th) s = .next (s.answered .locked []))
      ∧ (lockForbids s o = false ∨ ThresholdFields.store th s.power = s.power →
        exec (.setBatteryThresholds o th) s = .next ((s.modPower (ThresholdFields.store th)).answered
          (if ThresholdFields.clamps th = true then .clamped else .ok)
          (thresholdItems 1 (ThresholdFields.store th s.power)))))
    ∧ (ManagementFields.exist mg = false → exec (.setManagement o mg) s = .next (s.answered .badParam []))
    ∧ (ManagementFields.exist mg = true →
      mgmt = { s.mgmt with
        station := mg.station.orElse fun _ => s.mgmt.station
        stationSource := if mg.station.isSome then .command else s.mgmt.stationSource
        vlan := clampOr 1 4094 s.mgmt.vlan mg.vlan, ethertype := mg.ethertype.getD s.mgmt.ethertype
        manager := mg.manager.getD s.mgmt.manager, managerOnly := keepOr boolOf s.mgmt.managerOnly mg.managerOnly } →
      (lockForbids s o = true → managementChange s.mgmt mgmt = true →
        exec (.setManagement o mg) s = .next (s.answered .locked []))
      ∧ (lockForbids s o = false ∨ managementChange s.mgmt mgmt = false →
        exec (.setManagement o mg) s = .next ((s.modMgmt fun _ => mgmt).answered
          (if outside 1 4094 mg.vlan = true then .clamped else .ok)
          (Item.opt (.addr 1) mgmt.station ++ settingItems 2 mgmt))))
    ∧ exec (.setTime o time) s =
        .next ((s.modMgmt fun m => { m with time := time, timeUnset := false }).answered .ok [])
    ∧ exec (.lock o none) s = .next ((s.modMgmt fun m => { m with locked := true }).answered .ok
        [.yes 1 true, .yes 2 s.mgmt.lockAtStart])
    ∧ (∀ b : Bool, lockForbids s o = false ∨ s.mgmt.lockAtStart = b → exec (.lock o (some b.toNat)) s =
      .next ((s.modMgmt fun m => { m with locked := true, lockAtStart := b }).answered .ok [.yes 1 true, .yes 2 b]))
    ∧ (∀ b : Bool, lockForbids s o = true → s.mgmt.lockAtStart ≠ b →
      exec (.lock o (some b.toNat)) s = .next (s.answered .locked []))
    ∧ (2 ≤ v → exec (.lock o (some v)) s = .next (s.answered .badParam []))

/-- READ COUNTERS and READ GLOBAL COUNTERS answer with the counters as they stood, and zero them only when asked; SET
NOTICES stores settings and removes the notices of disabled kinds; CLEAR RESET CAUSE clears the flags its mask names.
The rows stand outside a frame by log entry 10, the items' numbers and types are log entry 17, and a kind that carries
neither an enable nor an urgency is BAD_PARAM by log entry 21. Of a kind named more than once the later values stand by
log entry 38. -/
def Obligations.CountersAndNoticeSettings : Prop :=
  ∀ (o : Origin) (k : Fin 16) (clear : Option Nat) (fs : List NoticeField) (m : BitVec 32) (s : State),
    s.takesCommands →
    (clear = none ∨ clear = some 0 →
      exec (.readCounters o k.val clear) s = .next (s.answered .ok
          ((s.counts.sets.get k).items ++ [.count 17 (lineSet fun n => (s.line n).cfg.counterSet == some k)]))
        ∧ exec (.readGlobalCounters o clear) s = .next (s.answered .ok (globalItems s.counts)))
    ∧ exec (.readCounters o k.val (some 1)) s =
        .next ((s.modCounts fun x => { x with sets := x.sets.set k .zero }).answered .ok
          ((s.counts.sets.get k).items ++ [.count 17 (lineSet fun n => (s.line n).cfg.counterSet == some k)]))
    ∧ exec (.readGlobalCounters o (some 1)) s =
        .next ((s.modCounts fun x => { x with
            total := .zero, dev := .fill 18 0, upHist := .fill 6 0, downHist := .fill 6 0 }).answered .ok
          (globalItems s.counts))
    ∧ (fs.all NoticeField.exist = true → Completes (.setNotices o fs) s fun t =>
        t.counts.settings = fs.foldl storeNotice s.counts.settings
          ∧ (∀ x, x ∈ t.counts.notices ↔
              x ∈ s.counts.notices ∧ (t.counts.settings.get x.detail.kind.idx).enabled = true)
          ∧ t.counts.dev = s.counts.dev ∧ t.counts.flags = s.counts.flags ∧ t.lines = s.lines ∧ plantKept s t)
    ∧ (fs.all NoticeField.exist = false → exec (.setNotices o fs) s = .next (s.answered .badParam []))
    ∧ (m.toNat < 2 ^ 5 → Completes (.clearResetCause o m) s fun t =>
        (∀ j, t.counts.resetCause.get j = (s.counts.resetCause.get j && !m.getLsbD j.val))
          ∧ t.counts.flags = s.counts.flags ∧ t.lines = s.lines ∧ plantKept s t)
    ∧ (2 ^ 5 ≤ m.toNat → exec (.clearResetCause o m) s = .next (s.answered .badParam []))

/-- SET UPLINK and WRITE POWER POLICY store their settings, clamped, and make one recompute, whichever entry is written;
a write of an entry that is not in force does nothing else, and one of the entry in force leaves no more lines awake
than its budget, shed in their order and counted as shed, or grants the oldest wakes. Each is answered CLAMPED or OK
with what it stored, and refused whole for a value that does not exist or a locked change. The rows stand outside a
frame by log entry 10, and the items' numbers and types are log entry 17. -/
def Obligations.UplinkAndPolicySettings : Prop :=
  ∀ (o : Origin) (f : UplinkFields) (st : PowerState) (pf : PolicyFields) (s : State), s.takesCommands →
    (UplinkFields.exist f = false → exec (.setUplink o f) s = .next (s.answered .badParam []))
    ∧ (UplinkFields.exist f = true → lockForbids s o = true → UplinkFields.store f s.shares ≠ s.shares →
      exec (.setUplink o f) s = .next (s.answered .locked []))
    ∧ (UplinkFields.exist f = true → lockForbids s o = false → Completes (.setUplink o f) s fun t =>
      { t.shares with last := s.shares.last } = UplinkFields.store f s.shares
        ∧ t.shares.last.effective =
            min (capacityInUse t.shares) (t.shares.ceiling * (currentPolicy s).scale / 100) - t.shares.allowance
        ∧ (∀ v, f.ceiling = some v → t.shares.ceiling = max 1000 (min 1000000 v))
        ∧ (∀ v, f.hold = some v → t.shares.hold = max 1 (min 60 v)) ∧ t.shares.holdTimer = s.shares.holdTimer
        ∧ (∀ v, f.backhaul = some v → t.shares.backhaul = v) ∧ t.shares.source = s.shares.source
        ∧ linesKept s t ∧ plantKept s t ∧ t.counts = s.counts ∧ t.stations = s.stations ∧ t.pool = s.pool
        ∧ t.mgmt = { s.mgmt with
            lastResult := some
              { status := if UplinkFields.clamps f = true then .clamped else .ok
                items := (UplinkFields.store f s.shares).items } })
    ∧ (PolicyFields.exist pf = false → exec (.writePowerPolicy o st.code pf) s = .next (s.answered .badParam []))
    ∧ (PolicyFields.exist pf = true → lockForbids s o = false → s.power.state ≠ some st →
      Completes (.writePowerPolicy o st.code pf) s fun t =>
        t = (recompute (s.modPower fun x => { x with
              policies := x.policies.set (PowerState.idx st)
                (PolicyFields.store pf (x.policies.get (PowerState.idx st))) })).answered
            (if PolicyFields.clamps pf = true then .clamped else .ok)
            (PolicyFields.store pf (s.power.policies.get (PowerState.idx st))).items
          ∧ t.power = { s.power with
              policies := s.power.policies.set (PowerState.idx st)
                (PolicyFields.store pf (s.power.policies.get (PowerState.idx st))) }
          ∧ t.shares.last.effective =
              min (capacityInUse s.shares) (s.shares.ceiling * (currentPolicy t).scale / 100) - s.shares.allowance
          ∧ linesKept s t ∧ testsKept s t ∧ t.counts = s.counts ∧ t.pool = s.pool)
    ∧ (PolicyFields.exist pf = true → lockForbids s o = false → s.power.state = some st →
      Completes (.writePowerPolicy o st.code pf) s fun t =>
        t.power.policies = s.power.policies.set (PowerState.idx st)
            (PolicyFields.store pf (s.power.policies.get (PowerState.idx st)))
          ∧ t.power.state = some st
          ∧ awakeCount t ≤ (PolicyFields.store pf (s.power.policies.get (PowerState.idx st))).budget
          ∧ t.shares.last.scale = (PolicyFields.store pf (s.power.policies.get (PowerState.idx st))).scale
          ∧ t.shares.last.effective =
              min (capacityInUse s.shares) (s.shares.ceiling
                * (PolicyFields.store pf (s.power.policies.get (PowerState.idx st))).scale / 100) - s.shares.allowance
          ∧ t.mgmt = { s.mgmt with
              lastResult := some
                { status := if PolicyFields.clamps pf = true then .clamped else .ok
                  items := (PolicyFields.store pf (s.power.policies.get (PowerState.idx st))).items } }
          ∧ (WakesListed s → s.seq.act = none → s.seq.queue = [] → (∀ n, (s.line n).cfg.quietDelay = 0) →
            budgetTaken (PolicyFields.store pf (s.power.policies.get (PowerState.idx st))).budget
                (PolicyFields.store pf (s.power.policies.get (PowerState.idx st))).sleep s.power.wakeList s t
              ∧ dropsCounted .shed (shedRefs s t) s t))
    ∧ (PolicyFields.exist pf = true → lockForbids s o = true →
      PolicyFields.store pf (s.power.policies.get (PowerState.idx st)) ≠ s.power.policies.get (PowerState.idx st) →
      exec (.writePowerPolicy o st.code pf) s = .next (s.answered .locked []))

/-- REQUEST TEST queues a DEMAND request, replaces a ROUTINE one or is refused by the first situation that fits, and an
IDLE sequencer starts it at once: an UP line drains, and one with nothing left to drain is HELD at once, the oldest
waiting wake is granted and its pair connected; ABORT TEST cancels a queued request or aborts the running test; STOP
ROUTINE GROUP disables the group and removes its requests. The rows stand outside a frame by log entry 10, CANCELLED 0,
ABORTING 1 and the items' numbers are log entry 17, and that the drain's later end is a step of its own is log entry 7.
-/
def Obligations.TestRequests : Prop :=
  ∀ (o : Origin) (n : LineNo) (p : Fin 8) (g : Fin 4) (a : Activity) (s : State), s.takesCommands →
    (s.seq.programs.get p = [] → exec (.requestTest o n.val p.val none) s = .next (s.answered .notFound []))
    ∧ (s.seq.programs.get p ≠ [] →
      (s.lineUnderTest = some n → exec (.requestTest o n.val p.val none) s = .next (s.answered .busy []))
      ∧ (s.lineUnderTest ≠ some n →
        ((∃ r ∈ s.seq.queue, r.isDemand = true ∧ r.line = n) →
          exec (.requestTest o n.val p.val none) s = .next (s.answered .duplicate []))
        ∧ ((∀ r ∈ s.seq.queue, r.line ≠ n) → 8 ≤ s.seq.queue.length →
          exec (.requestTest o n.val p.val none) s = .next (s.answered .queueFull []))
        ∧ ((∀ r ∈ s.seq.queue, r.isDemand = true → r.line ≠ n) →
          (s.seq.queue.length < 8 ∨ ∃ r ∈ s.seq.queue, r.line = n) → s.seq.st ≠ .idle →
          exec (.requestTest o n.val p.val none) s = .next
            ((s.modSeq fun q => { q with
                queue := q.queue.filter TestRequest.isDemand ++ [.demand n p false]
                  ++ q.queue.filter fun r => !r.isDemand && r.line != n }).answered .accepted
              [.count 1 (s.seq.queue.countP TestRequest.isDemand + 1)]))
        ∧ (s.seq.queue = [] → s.seq.st = .idle → s.running = true → s.seq.extreq = false →
          (s.power.state = some .mains ∨ s.power.state = some .battery) → (s.line n).st = .up →
          (Line.nothingQueued (s.line n) → WakesListed s → s.access.matrix = .idle →
            Completes (.requestTest o n.val p.val none) s fun t =>
              t.seq.st = .settling ∧ (t.line n).isHeld ∧ (t.line n).takenFrom = some .up ∧ roomTaken n s t
                ∧ t.access.matrix = .settlingIn n ∧ t.access.settleTimer = some s.access.settleTime
                ∧ t.seq.act = some
                    { line := n, program := some p, origin := .demand, override := false, start := s.mgmt.time
                      specs := s.seq.programs.get p, next := 0, results := [], pending := none, interrupted := false
                      guardTripped := false }
                ∧ t.seq.marker = some { line := n, program := some p, origin := .demand, start := s.mgmt.time })
          ∧ (¬ Line.nothingQueued (s.line n) →
          Completes (.requestTest o n.val p.val none) s fun t =>
            t.seq.st = .drainingWait ∧ (t.line n).st = .draining ∧ (t.line n).takenFrom = some .up
              ∧ (t.line n).drainTimer = some s.seq.drainLimit ∧ (t.line n).command = some .holdUpstream
              ∧ (t.line n).downQ = (s.line n).downQ ∧ othersKept n s t
              ∧ t.seq.act = some
                  { line := n, program := some p, origin := .demand, override := false, start := s.mgmt.time
                    specs := s.seq.programs.get p, next := 0, results := [], pending := none, interrupted := false
                    guardTripped := false }
              ∧ t.seq.marker = some { line := n, program := some p, origin := .demand, start := s.mgmt.time }))))
    ∧ ((∃ r ∈ s.seq.queue, r.line = n) → s.seq.st ≠ .idle → (∀ h m, (s.seq.groups.get h).due.get m = false) →
      exec (.abortTest o n.val) s = .next
        ((s.modSeq fun q => { q with queue := q.queue.filter fun r => r.line != n }).answered .ok [.code 1 0]))
    ∧ ((∀ r ∈ s.seq.queue, r.line ≠ n) → s.seq.act = some a → a.line = n → a.origin ≠ .external →
      s.seq.st = .settling → s.access.matrix = .settlingIn n → exec (.abortTest o n.val) s = .next
        (((s.modAccess fun k => { k with
            matrix := .settlingOut, settleTimer := some k.settleTime, tripped := false, legMv := 0 }).modSeq fun q =>
          { q with st := .releasing, act := some { a with pending := some .abortedCmd } }).answered
          .ok [.code 1 1]))
    ∧ ((∀ r ∈ s.seq.queue, r.line ≠ n) → s.lineUnderTest ≠ some n →
      exec (.abortTest o n.val) s = .next (s.answered .notFound []))
    ∧ (s.seq.st ≠ .idle → (∀ h m, h ≠ g → (s.seq.groups.get h).due.get m = false) →
      exec (.stopRoutineGroup o g.val) s = .next
        ((s.modSeq fun q => { q with
            groups := q.groups.modify g fun x => { x with enabled := false, due := .fill 24 false, halfDue := false }
            queue := q.queue.filter fun r => r.group != some g }).answered .ok
          [.count 1 (s.seq.queue.countP fun r => r.group == some g)]))

/-- CONNECT EXTERNAL is granted to CRAFT-SERVICE alone, while the bus stands yielded and free and the power state is not
RESERVE: a DOWN line, or an UP line with nothing left to drain, is HELD and its pair connected at once, its own wake off
the list and the oldest waiting one granted where it was awake, and an UP line with frames waiting drains first.
DISCONNECT EXTERNAL releases the pair. The rows stand outside a frame by log entry 10, and that the drain's later end is
a step of its own is log entry 7. -/
def Obligations.ExternalConnections : Prop :=
  ∀ (o : Origin) (n : LineNo) (a : Activity) (s : State), s.takesCommands →
    (o ≠ .craftService → exec (.connectExternal o n.val) s = .next (s.answered .access [])
      ∧ exec (.disconnectExternal o) s = .next (s.answered .access []))
    ∧ (busFree s = false → exec (.connectExternal .craftService n.val) s = .next (s.answered .busy []))
    ∧ (busFree s = true →
      (s.power.state = some .reserve → exec (.connectExternal .craftService n.val) s = .next (s.answered .power []))
      ∧ (s.power.state ≠ some .reserve →
        ((∃ r ∈ s.seq.queue, r.isDemand = true ∧ r.line = n) →
          exec (.connectExternal .craftService n.val) s = .next (s.answered .duplicate []))
        ∧ ((∀ r ∈ s.seq.queue, r.isDemand = true → r.line ≠ n) → s.access.matrix = .idle →
          (s.line n).st = .down ∨ (s.line n).st = .up →
          WakesListed s →
          Completes (.connectExternal .craftService n.val) s fun t =>
            t.seq.act = some
                { line := n, program := none, origin := .external, override := false, start := s.mgmt.time
                  specs := [], next := 0, results := [], pending := none, interrupted := false
                  guardTripped := false }
              ∧ t.seq.marker = some { line := n, program := none, origin := .external, start := s.mgmt.time }
              ∧ t.seq.extack = true ∧ (∀ r ∈ t.seq.queue, r.line ≠ n)
              ∧ ((s.line n).st = .down ∨ Line.nothingQueued (s.line n) → roomTaken n s t)
              ∧ ((s.line n).st = .down → (t.line n).st = .held ∧ (t.line n).takenFrom = some .down
                  ∧ (t.line n).command = some .off ∧ t.seq.st = .settling
                  ∧ t.access.matrix = .settlingIn n ∧ t.access.settleTimer = some s.access.settleTime)
              ∧ ((s.line n).st = .up → ¬ Line.nothingQueued (s.line n) → (t.line n).st = .draining
                  ∧ t.seq.st = .drainingWait ∧ t.access = s.access ∧ othersKept n s t ∧ t.power = s.power)
              ∧ ((s.line n).st = .up → Line.nothingQueued (s.line n) → (t.line n).isHeld
                  ∧ (t.line n).takenFrom = some .up ∧ t.seq.st = .settling
                  ∧ t.access.matrix = .settlingIn n ∧ t.access.settleTimer = some s.access.settleTime))))
    ∧ (s.seq.act = none → exec (.disconnectExternal .craftService) s = .next (s.answered .notFound []))
    ∧ (s.seq.act = some a → a.origin = .external → s.seq.st = .external → s.access.matrix = .connected n →
      exec (.disconnectExternal .craftService) s = .next
        (((s.modAccess fun k => { k with
            matrix := .settlingOut, settleTimer := some k.settleTime, tripped := false, legMv := 0 }).modSeq fun q =>
          { q with st := .releasing }).answered .ok []))

/-- SAVE CONFIGURATION takes a snapshot and makes the stored header invalid, or is refused NO_STORE, POWER or BUSY;
SAVE_DONE leaves a good image that holds the snapshot, or a failed one that fails its check, and raises SAVE_DONE. The
body that stands after a failed save and the header as flags are log entry 6, SAVE_DONE with no save in hand is log
entry 9, and the command row stands outside a frame by log entry 10. -/
def Obligations.SavedConfiguration : Prop :=
  ∀ (o : Origin) (b : ImageBody) (good : Bool) (s : State),
    (s.takesCommands →
      (s.mgmt.storePresent = false → exec (.saveConfiguration o) s = .next (s.answered .noStore []))
      ∧ (s.mgmt.storePresent = true →
        (s.power.state = some .conserve ∨ s.power.state = some .reserve →
          exec (.saveConfiguration o) s = .next (s.answered .power []))
        ∧ (s.power.state ≠ some .conserve → s.power.state ≠ some .reserve →
          (s.mgmt.save.isSome = true → exec (.saveConfiguration o) s = .next (s.answered .busy []))
          ∧ (s.mgmt.save = none → Completes (.saveConfiguration o) s fun t =>
            t.mgmt = { s.mgmt with
                save := some (snapshot s), lastResult := some { status := .accepted, items := [] } }
              ∧ imagePasses t.memory = false ∧ t = { s with mgmt := t.mgmt, memory := t.memory }))))
    ∧ (s.mgmt.save = none → exec (.saveDone good) s = .next s)
    ∧ (s.mgmt.save = some b → Completes (.saveDone good) s fun t =>
      t.mgmt = { s.mgmt with save := none, lastSave := some (good, s.mgmt.time) } ∧ t.memory.image.body = b
        ∧ imagePasses t.memory = (s.memory.answers && good) ∧ flagged t .saveDone
        ∧ t = { s with mgmt := t.mgmt, memory := t.memory, counts := t.counts })

/-! ## Invariants -/

/-- Every step keeps the drive rule: source and tone drive only in a measurement of the sequencer's own, with the guard
not tripped and the bus not yielded, and the test side is at rest until the start-up has completed. -/
def Obligations.DriveSafeKept : Prop := ∀ s t : State, DriveSafe s → step s = .next t → DriveSafe t

/-- Every step keeps the Station Table's rules: one valid entry for an address, and no LEARNED entry for a line that is
DISABLED, DOWN or BARRED; and a line's entry to one of these states removes its LEARNED entries and no other. -/
def Obligations.TablesSafeKept : Prop :=
  (∀ s t : State, TablesSafe s → step s = .next t → TablesSafe t)
    ∧ ∀ (n : LineNo) (st : LineState) (r : Reason) (s : State), (s.line n).st ≠ st →
      st = .down ∨ st = .disabled ∨ st = .barred →
      ∀ i, (enter n st r s).stations.entries.get i =
        (s.stations.entries.get i).filter fun e => !(e.isLearned && e.line == n)

/-- Every step keeps the awake lines within the awake budget in force. -/
def Obligations.BudgetIsKept : Prop := ∀ s t : State, BudgetKept s → step s = .next t → BudgetKept t

/-- Every step keeps the pool: the free cells and the cells of the live records make up 4,096; and every record's
reference count is the number of its holders. The pool stays armed or not by its two levels, and a step that disarms it
raises POOL_LOW. The numbers of the records are the model's own (log entry 1). -/
def Obligations.PoolIsConserved : Prop :=
  (∀ s t : State, PoolConserved s → step s = .next t → PoolConserved t)
    ∧ (∀ s t : State, RefsCounted s → step s = .next t → RefsCounted t)
    ∧ ∀ s t : State, PoolArmed s → step s = .next t →
      PoolArmed t ∧ (s.pool.armed = true → t.pool.armed = false → flagged t .poolLow)

/-- Every step keeps the lists within their places, and the wake list to lines that are asleep, each listed once. -/
def Obligations.ListsStayBounded : Prop :=
  (∀ s t : State, ListsBounded s → step s = .next t → ListsBounded t)
    ∧ ∀ s t : State, WakesListed s → step s = .next t → WakesListed t

/-- The part right after reset meets all the invariants. -/
def Obligations.InvariantsAtReset : Prop :=
  DriveSafe State.reset ∧ TablesSafe State.reset ∧ BudgetKept State.reset ∧ PoolConserved State.reset
    ∧ ListsBounded State.reset ∧ RefsCounted State.reset ∧ CreditKept State.reset ∧ PoolArmed State.reset
    ∧ WakesListed State.reset
end

