-- ==== Sys2Proof/Laws/State.lean ====
section
/-! SUPPORT. What each named update of the state changes and leaves, field by field, and the laws of the fixed-size
table. -/

namespace Sys2Proof

/-! ## Tables -/

section
variable {n : Nat} {α β : Type}

theorem Tab.ext_items {t u : Tab n α} (h : t.items = u.items) : t = u := by
  cases t
  cases u
  cases h
  rfl

theorem Tab.ext_get {t u : Tab n α} (h : ∀ i, t.get i = u.get i) : t = u := by
  apply Tab.ext_items
  apply List.ext_getElem
  · rw [t.size, u.size]
  · intro i hi _
    exact h ⟨i, t.size ▸ hi⟩

@[simp] theorem Tab.get_ofFn (f : Fin n → α) (i : Fin n) : (Tab.ofFn f).get i = f i := by
  simp [Tab.get, Tab.ofFn, indexes]

@[simp] theorem Tab.get_map (t : Tab n α) (f : α → β) (i : Fin n) : (t.map f).get i = f (t.get i) := by
  simp [Tab.get, Tab.map]

@[simp] theorem Tab.get_fill (a : α) (i : Fin n) : (Tab.fill n a).get i = a := by
  simp [Tab.get, Tab.fill]

@[simp] theorem Tab.get_set_self (t : Tab n α) (i : Fin n) (a : α) : (t.set i a).get i = a := by
  simp [Tab.get, Tab.set]

theorem Tab.get_set_other (t : Tab n α) {i j : Fin n} (a : α) (h : j ≠ i) : (t.set i a).get j = t.get j := by
  simp only [Tab.get, Tab.set]
  exact List.getElem_set_ne (fun e => h (Fin.ext e.symm)) _

@[simp] theorem Tab.get_modify_self (t : Tab n α) (i : Fin n) (f : α → α) : (t.modify i f).get i = f (t.get i) := by
  simp [Tab.modify]

theorem Tab.get_modify_other (t : Tab n α) {i j : Fin n} (f : α → α) (h : j ≠ i) :
    (t.modify i f).get j = t.get j := Tab.get_set_other t _ h

@[simp] theorem Tab.set_get (t : Tab n α) (i : Fin n) : t.set i (t.get i) = t := by
  apply Tab.ext_get
  intro j
  by_cases h : j = i
  · subst h
    simp
  · exact Tab.get_set_other t _ h

theorem mem_indexes (i : Fin n) : i ∈ indexes n := List.mem_finRange i

end

end Sys2Proof

namespace Sys2Proof.Machine

/-! ## Folds -/

/-- What every step of a fold keeps, the fold keeps. -/
theorem foldl_keeps {σ α β : Type} (g : σ → β) (f : σ → α → σ) (h : ∀ s a, g (f s a) = g s) (l : List α) (s : σ) :
    g (l.foldl f s) = g s := by
  induction l generalizing s with
  | nil => rfl
  | cons a l ih => exact (ih (f s a)).trans (h s a)

/-- What holds at first and is kept by every step of a fold holds at its end. -/
theorem foldl_holds {σ α : Type} (p : σ → Prop) (f : σ → α → σ) (h : ∀ s a, p s → p (f s a)) (l : List α) (s : σ)
    (hs : p s) : p (l.foldl f s) := by
  induction l generalizing s with
  | nil => exact hs
  | cons a l ih => exact ih (f s a) (h s a hs)

/-! ## Named updates -/

section
variable (s : State)

@[simp] theorem State.modCounts_pending (f : Counts → Counts) : (s.modCounts f).pending = s.pending := rfl
@[simp] theorem State.modCounts_stations (f : Counts → Counts) : (s.modCounts f).stations = s.stations := rfl
@[simp] theorem State.modCounts_lines (f : Counts → Counts) : (s.modCounts f).lines = s.lines := rfl
@[simp] theorem State.modCounts_trainLimit (f : Counts → Counts) : (s.modCounts f).trainLimit = s.trainLimit := rfl
@[simp] theorem State.modCounts_wakeLimit (f : Counts → Counts) : (s.modCounts f).wakeLimit = s.wakeLimit := rfl
@[simp] theorem State.modCounts_pool (f : Counts → Counts) : (s.modCounts f).pool = s.pool := rfl
@[simp] theorem State.modCounts_shares (f : Counts → Counts) : (s.modCounts f).shares = s.shares := rfl
@[simp] theorem State.modCounts_sched (f : Counts → Counts) : (s.modCounts f).sched = s.sched := rfl
@[simp] theorem State.modCounts_access (f : Counts → Counts) : (s.modCounts f).access = s.access := rfl
@[simp] theorem State.modCounts_seq (f : Counts → Counts) : (s.modCounts f).seq = s.seq := rfl
@[simp] theorem State.modCounts_power (f : Counts → Counts) : (s.modCounts f).power = s.power := rfl
@[simp] theorem State.modCounts_counts (f : Counts → Counts) : (s.modCounts f).counts = f s.counts := rfl
@[simp] theorem State.modCounts_mgmt (f : Counts → Counts) : (s.modCounts f).mgmt = s.mgmt := rfl
@[simp] theorem State.modCounts_memory (f : Counts → Counts) : (s.modCounts f).memory = s.memory := rfl
@[simp] theorem State.modCounts_line (f : Counts → Counts) (m : LineNo) : (s.modCounts f).line m = s.line m := rfl

@[simp] theorem State.modPool_pending (f : Pool → Pool) : (s.modPool f).pending = s.pending := rfl
@[simp] theorem State.modPool_stations (f : Pool → Pool) : (s.modPool f).stations = s.stations := rfl
@[simp] theorem State.modPool_lines (f : Pool → Pool) : (s.modPool f).lines = s.lines := rfl
@[simp] theorem State.modPool_trainLimit (f : Pool → Pool) : (s.modPool f).trainLimit = s.trainLimit := rfl
@[simp] theorem State.modPool_wakeLimit (f : Pool → Pool) : (s.modPool f).wakeLimit = s.wakeLimit := rfl
@[simp] theorem State.modPool_pool (f : Pool → Pool) : (s.modPool f).pool = f s.pool := rfl
@[simp] theorem State.modPool_shares (f : Pool → Pool) : (s.modPool f).shares = s.shares := rfl
@[simp] theorem State.modPool_sched (f : Pool → Pool) : (s.modPool f).sched = s.sched := rfl
@[simp] theorem State.modPool_access (f : Pool → Pool) : (s.modPool f).access = s.access := rfl
@[simp] theorem State.modPool_seq (f : Pool → Pool) : (s.modPool f).seq = s.seq := rfl
@[simp] theorem State.modPool_power (f : Pool → Pool) : (s.modPool f).power = s.power := rfl
@[simp] theorem State.modPool_counts (f : Pool → Pool) : (s.modPool f).counts = s.counts := rfl
@[simp] theorem State.modPool_mgmt (f : Pool → Pool) : (s.modPool f).mgmt = s.mgmt := rfl
@[simp] theorem State.modPool_memory (f : Pool → Pool) : (s.modPool f).memory = s.memory := rfl
@[simp] theorem State.modPool_line (f : Pool → Pool) (m : LineNo) : (s.modPool f).line m = s.line m := rfl

@[simp] theorem State.modStations_pending (f : Stations → Stations) : (s.modStations f).pending = s.pending := rfl
@[simp] theorem State.modStations_stations (f : Stations → Stations) : (s.modStations f).stations = f s.stations := rfl
@[simp] theorem State.modStations_lines (f : Stations → Stations) : (s.modStations f).lines = s.lines := rfl
@[simp] theorem State.modStations_trainLimit (f : Stations → Stations) : (s.modStations f).trainLimit = s.trainLimit := rfl
@[simp] theorem State.modStations_wakeLimit (f : Stations → Stations) : (s.modStations f).wakeLimit = s.wakeLimit := rfl
@[simp] theorem State.modStations_pool (f : Stations → Stations) : (s.modStations f).pool = s.pool := rfl
@[simp] theorem State.modStations_shares (f : Stations → Stations) : (s.modStations f).shares = s.shares := rfl
@[simp] theorem State.modStations_sched (f : Stations → Stations) : (s.modStations f).sched = s.sched := rfl
@[simp] theorem State.modStations_access (f : Stations → Stations) : (s.modStations f).access = s.access := rfl
@[simp] theorem State.modStations_seq (f : Stations → Stations) : (s.modStations f).seq = s.seq := rfl
@[simp] theorem State.modStations_power (f : Stations → Stations) : (s.modStations f).power = s.power := rfl
@[simp] theorem State.modStations_counts (f : Stations → Stations) : (s.modStations f).counts = s.counts := rfl
@[simp] theorem State.modStations_mgmt (f : Stations → Stations) : (s.modStations f).mgmt = s.mgmt := rfl
@[simp] theorem State.modStations_memory (f : Stations → Stations) : (s.modStations f).memory = s.memory := rfl
@[simp] theorem State.modStations_line (f : Stations → Stations) (m : LineNo) : (s.modStations f).line m = s.line m := rfl

@[simp] theorem State.modShares_pending (f : Shares → Shares) : (s.modShares f).pending = s.pending := rfl
@[simp] theorem State.modShares_stations (f : Shares → Shares) : (s.modShares f).stations = s.stations := rfl
@[simp] theorem State.modShares_lines (f : Shares → Shares) : (s.modShares f).lines = s.lines := rfl
@[simp] theorem State.modShares_trainLimit (f : Shares → Shares) : (s.modShares f).trainLimit = s.trainLimit := rfl
@[simp] theorem State.modShares_wakeLimit (f : Shares → Shares) : (s.modShares f).wakeLimit = s.wakeLimit := rfl
@[simp] theorem State.modShares_pool (f : Shares → Shares) : (s.modShares f).pool = s.pool := rfl
@[simp] theorem State.modShares_shares (f : Shares → Shares) : (s.modShares f).shares = f s.shares := rfl
@[simp] theorem State.modShares_sched (f : Shares → Shares) : (s.modShares f).sched = s.sched := rfl
@[simp] theorem State.modShares_access (f : Shares → Shares) : (s.modShares f).access = s.access := rfl
@[simp] theorem State.modShares_seq (f : Shares → Shares) : (s.modShares f).seq = s.seq := rfl
@[simp] theorem State.modShares_power (f : Shares → Shares) : (s.modShares f).power = s.power := rfl
@[simp] theorem State.modShares_counts (f : Shares → Shares) : (s.modShares f).counts = s.counts := rfl
@[simp] theorem State.modShares_mgmt (f : Shares → Shares) : (s.modShares f).mgmt = s.mgmt := rfl
@[simp] theorem State.modShares_memory (f : Shares → Shares) : (s.modShares f).memory = s.memory := rfl
@[simp] theorem State.modShares_line (f : Shares → Shares) (m : LineNo) : (s.modShares f).line m = s.line m := rfl

@[simp] theorem State.modSched_pending (f : Sched → Sched) : (s.modSched f).pending = s.pending := rfl
@[simp] theorem State.modSched_stations (f : Sched → Sched) : (s.modSched f).stations = s.stations := rfl
@[simp] theorem State.modSched_lines (f : Sched → Sched) : (s.modSched f).lines = s.lines := rfl
@[simp] theorem State.modSched_trainLimit (f : Sched → Sched) : (s.modSched f).trainLimit = s.trainLimit := rfl
@[simp] theorem State.modSched_wakeLimit (f : Sched → Sched) : (s.modSched f).wakeLimit = s.wakeLimit := rfl
@[simp] theorem State.modSched_pool (f : Sched → Sched) : (s.modSched f).pool = s.pool := rfl
@[simp] theorem State.modSched_shares (f : Sched → Sched) : (s.modSched f).shares = s.shares := rfl
@[simp] theorem State.modSched_sched (f : Sched → Sched) : (s.modSched f).sched = f s.sched := rfl
@[simp] theorem State.modSched_access (f : Sched → Sched) : (s.modSched f).access = s.access := rfl
@[simp] theorem State.modSched_seq (f : Sched → Sched) : (s.modSched f).seq = s.seq := rfl
@[simp] theorem State.modSched_power (f : Sched → Sched) : (s.modSched f).power = s.power := rfl
@[simp] theorem State.modSched_counts (f : Sched → Sched) : (s.modSched f).counts = s.counts := rfl
@[simp] theorem State.modSched_mgmt (f : Sched → Sched) : (s.modSched f).mgmt = s.mgmt := rfl
@[simp] theorem State.modSched_memory (f : Sched → Sched) : (s.modSched f).memory = s.memory := rfl
@[simp] theorem State.modSched_line (f : Sched → Sched) (m : LineNo) : (s.modSched f).line m = s.line m := rfl

@[simp] theorem State.modAccess_pending (f : Access → Access) : (s.modAccess f).pending = s.pending := rfl
@[simp] theorem State.modAccess_stations (f : Access → Access) : (s.modAccess f).stations = s.stations := rfl
@[simp] theorem State.modAccess_lines (f : Access → Access) : (s.modAccess f).lines = s.lines := rfl
@[simp] theorem State.modAccess_trainLimit (f : Access → Access) : (s.modAccess f).trainLimit = s.trainLimit := rfl
@[simp] theorem State.modAccess_wakeLimit (f : Access → Access) : (s.modAccess f).wakeLimit = s.wakeLimit := rfl
@[simp] theorem State.modAccess_pool (f : Access → Access) : (s.modAccess f).pool = s.pool := rfl
@[simp] theorem State.modAccess_shares (f : Access → Access) : (s.modAccess f).shares = s.shares := rfl
@[simp] theorem State.modAccess_sched (f : Access → Access) : (s.modAccess f).sched = s.sched := rfl
@[simp] theorem State.modAccess_access (f : Access → Access) : (s.modAccess f).access = f s.access := rfl
@[simp] theorem State.modAccess_seq (f : Access → Access) : (s.modAccess f).seq = s.seq := rfl
@[simp] theorem State.modAccess_power (f : Access → Access) : (s.modAccess f).power = s.power := rfl
@[simp] theorem State.modAccess_counts (f : Access → Access) : (s.modAccess f).counts = s.counts := rfl
@[simp] theorem State.modAccess_mgmt (f : Access → Access) : (s.modAccess f).mgmt = s.mgmt := rfl
@[simp] theorem State.modAccess_memory (f : Access → Access) : (s.modAccess f).memory = s.memory := rfl
@[simp] theorem State.modAccess_line (f : Access → Access) (m : LineNo) : (s.modAccess f).line m = s.line m := rfl

@[simp] theorem State.modSeq_pending (f : Seq → Seq) : (s.modSeq f).pending = s.pending := rfl
@[simp] theorem State.modSeq_stations (f : Seq → Seq) : (s.modSeq f).stations = s.stations := rfl
@[simp] theorem State.modSeq_lines (f : Seq → Seq) : (s.modSeq f).lines = s.lines := rfl
@[simp] theorem State.modSeq_trainLimit (f : Seq → Seq) : (s.modSeq f).trainLimit = s.trainLimit := rfl
@[simp] theorem State.modSeq_wakeLimit (f : Seq → Seq) : (s.modSeq f).wakeLimit = s.wakeLimit := rfl
@[simp] theorem State.modSeq_pool (f : Seq → Seq) : (s.modSeq f).pool = s.pool := rfl
@[simp] theorem State.modSeq_shares (f : Seq → Seq) : (s.modSeq f).shares = s.shares := rfl
@[simp] theorem State.modSeq_sched (f : Seq → Seq) : (s.modSeq f).sched = s.sched := rfl
@[simp] theorem State.modSeq_access (f : Seq → Seq) : (s.modSeq f).access = s.access := rfl
@[simp] theorem State.modSeq_seq (f : Seq → Seq) : (s.modSeq f).seq = f s.seq := rfl
@[simp] theorem State.modSeq_power (f : Seq → Seq) : (s.modSeq f).power = s.power := rfl
@[simp] theorem State.modSeq_counts (f : Seq → Seq) : (s.modSeq f).counts = s.counts := rfl
@[simp] theorem State.modSeq_mgmt (f : Seq → Seq) : (s.modSeq f).mgmt = s.mgmt := rfl
@[simp] theorem State.modSeq_memory (f : Seq → Seq) : (s.modSeq f).memory = s.memory := rfl
@[simp] theorem State.modSeq_line (f : Seq → Seq) (m : LineNo) : (s.modSeq f).line m = s.line m := rfl

@[simp] theorem State.modPower_pending (f : Power → Power) : (s.modPower f).pending = s.pending := rfl
@[simp] theorem State.modPower_stations (f : Power → Power) : (s.modPower f).stations = s.stations := rfl
@[simp] theorem State.modPower_lines (f : Power → Power) : (s.modPower f).lines = s.lines := rfl
@[simp] theorem State.modPower_trainLimit (f : Power → Power) : (s.modPower f).trainLimit = s.trainLimit := rfl
@[simp] theorem State.modPower_wakeLimit (f : Power → Power) : (s.modPower f).wakeLimit = s.wakeLimit := rfl
@[simp] theorem State.modPower_pool (f : Power → Power) : (s.modPower f).pool = s.pool := rfl
@[simp] theorem State.modPower_shares (f : Power → Power) : (s.modPower f).shares = s.shares := rfl
@[simp] theorem State.modPower_sched (f : Power → Power) : (s.modPower f).sched = s.sched := rfl
@[simp] theorem State.modPower_access (f : Power → Power) : (s.modPower f).access = s.access := rfl
@[simp] theorem State.modPower_seq (f : Power → Power) : (s.modPower f).seq = s.seq := rfl
@[simp] theorem State.modPower_power (f : Power → Power) : (s.modPower f).power = f s.power := rfl
@[simp] theorem State.modPower_counts (f : Power → Power) : (s.modPower f).counts = s.counts := rfl
@[simp] theorem State.modPower_mgmt (f : Power → Power) : (s.modPower f).mgmt = s.mgmt := rfl
@[simp] theorem State.modPower_memory (f : Power → Power) : (s.modPower f).memory = s.memory := rfl
@[simp] theorem State.modPower_line (f : Power → Power) (m : LineNo) : (s.modPower f).line m = s.line m := rfl

@[simp] theorem State.modMgmt_pending (f : Mgmt → Mgmt) : (s.modMgmt f).pending = s.pending := rfl
@[simp] theorem State.modMgmt_stations (f : Mgmt → Mgmt) : (s.modMgmt f).stations = s.stations := rfl
@[simp] theorem State.modMgmt_lines (f : Mgmt → Mgmt) : (s.modMgmt f).lines = s.lines := rfl
@[simp] theorem State.modMgmt_trainLimit (f : Mgmt → Mgmt) : (s.modMgmt f).trainLimit = s.trainLimit := rfl
@[simp] theorem State.modMgmt_wakeLimit (f : Mgmt → Mgmt) : (s.modMgmt f).wakeLimit = s.wakeLimit := rfl
@[simp] theorem State.modMgmt_pool (f : Mgmt → Mgmt) : (s.modMgmt f).pool = s.pool := rfl
@[simp] theorem State.modMgmt_shares (f : Mgmt → Mgmt) : (s.modMgmt f).shares = s.shares := rfl
@[simp] theorem State.modMgmt_sched (f : Mgmt → Mgmt) : (s.modMgmt f).sched = s.sched := rfl
@[simp] theorem State.modMgmt_access (f : Mgmt → Mgmt) : (s.modMgmt f).access = s.access := rfl
@[simp] theorem State.modMgmt_seq (f : Mgmt → Mgmt) : (s.modMgmt f).seq = s.seq := rfl
@[simp] theorem State.modMgmt_power (f : Mgmt → Mgmt) : (s.modMgmt f).power = s.power := rfl
@[simp] theorem State.modMgmt_counts (f : Mgmt → Mgmt) : (s.modMgmt f).counts = s.counts := rfl
@[simp] theorem State.modMgmt_mgmt (f : Mgmt → Mgmt) : (s.modMgmt f).mgmt = f s.mgmt := rfl
@[simp] theorem State.modMgmt_memory (f : Mgmt → Mgmt) : (s.modMgmt f).memory = s.memory := rfl
@[simp] theorem State.modMgmt_line (f : Mgmt → Mgmt) (m : LineNo) : (s.modMgmt f).line m = s.line m := rfl

@[simp] theorem State.modLine_pending (n : LineNo) (f : Line → Line) : (s.modLine n f).pending = s.pending := rfl
@[simp] theorem State.modLine_stations (n : LineNo) (f : Line → Line) : (s.modLine n f).stations = s.stations := rfl
@[simp] theorem State.modLine_lines (n : LineNo) (f : Line → Line) : (s.modLine n f).lines = s.lines.modify n f := rfl
@[simp] theorem State.modLine_trainLimit (n : LineNo) (f : Line → Line) : (s.modLine n f).trainLimit = s.trainLimit := rfl
@[simp] theorem State.modLine_wakeLimit (n : LineNo) (f : Line → Line) : (s.modLine n f).wakeLimit = s.wakeLimit := rfl
@[simp] theorem State.modLine_pool (n : LineNo) (f : Line → Line) : (s.modLine n f).pool = s.pool := rfl
@[simp] theorem State.modLine_shares (n : LineNo) (f : Line → Line) : (s.modLine n f).shares = s.shares := rfl
@[simp] theorem State.modLine_sched (n : LineNo) (f : Line → Line) : (s.modLine n f).sched = s.sched := rfl
@[simp] theorem State.modLine_access (n : LineNo) (f : Line → Line) : (s.modLine n f).access = s.access := rfl
@[simp] theorem State.modLine_seq (n : LineNo) (f : Line → Line) : (s.modLine n f).seq = s.seq := rfl
@[simp] theorem State.modLine_power (n : LineNo) (f : Line → Line) : (s.modLine n f).power = s.power := rfl
@[simp] theorem State.modLine_counts (n : LineNo) (f : Line → Line) : (s.modLine n f).counts = s.counts := rfl
@[simp] theorem State.modLine_mgmt (n : LineNo) (f : Line → Line) : (s.modLine n f).mgmt = s.mgmt := rfl
@[simp] theorem State.modLine_memory (n : LineNo) (f : Line → Line) : (s.modLine n f).memory = s.memory := rfl
@[simp] theorem State.modLine_line_self (n : LineNo) (f : Line → Line) : (s.modLine n f).line n = f (s.line n) :=
  Tab.get_modify_self _ _ _

theorem State.modLine_line_other {n m : LineNo} (f : Line → Line) (h : m ≠ n) : (s.modLine n f).line m = s.line m :=
  Tab.get_modify_other _ _ h

theorem State.line_of_lines {s t : State} (h : t.lines = s.lines) (m : LineNo) : t.line m = s.line m := by
  unfold State.line
  rw [h]

end

end Sys2Proof.Machine
end

