-- ==== Sys2Proof/Laws/Frames.lean ====
section
/-! SUPPORT. What each shared operation leaves as it is: for every operation and every block of the state that it does
not touch, one lemma that the block is unchanged. -/

namespace Sys2Proof.Machine

section
variable (s : State)

@[simp] theorem countDev_pending (c : DevCount) : (countDev c s).pending = s.pending := by simp [countDev]
@[simp] theorem countDev_stations (c : DevCount) : (countDev c s).stations = s.stations := by simp [countDev]
@[simp] theorem countDev_lines (c : DevCount) : (countDev c s).lines = s.lines := by simp [countDev]
@[simp] theorem countDev_trainLimit (c : DevCount) : (countDev c s).trainLimit = s.trainLimit := by simp [countDev]
@[simp] theorem countDev_wakeLimit (c : DevCount) : (countDev c s).wakeLimit = s.wakeLimit := by simp [countDev]
@[simp] theorem countDev_pool (c : DevCount) : (countDev c s).pool = s.pool := by simp [countDev]
@[simp] theorem countDev_shares (c : DevCount) : (countDev c s).shares = s.shares := by simp [countDev]
@[simp] theorem countDev_sched (c : DevCount) : (countDev c s).sched = s.sched := by simp [countDev]
@[simp] theorem countDev_access (c : DevCount) : (countDev c s).access = s.access := by simp [countDev]
@[simp] theorem countDev_seq (c : DevCount) : (countDev c s).seq = s.seq := by simp [countDev]
@[simp] theorem countDev_power (c : DevCount) : (countDev c s).power = s.power := by simp [countDev]
@[simp] theorem countDev_mgmt (c : DevCount) : (countDev c s).mgmt = s.mgmt := by simp [countDev]
@[simp] theorem countDev_memory (c : DevCount) : (countDev c s).memory = s.memory := by simp [countDev]

@[simp] theorem countDeviceDrop_pending (c : LineCause) : (countDeviceDrop c s).pending = s.pending := by simp [countDeviceDrop]
@[simp] theorem countDeviceDrop_stations (c : LineCause) : (countDeviceDrop c s).stations = s.stations := by simp [countDeviceDrop]
@[simp] theorem countDeviceDrop_lines (c : LineCause) : (countDeviceDrop c s).lines = s.lines := by simp [countDeviceDrop]
@[simp] theorem countDeviceDrop_trainLimit (c : LineCause) : (countDeviceDrop c s).trainLimit = s.trainLimit := by simp [countDeviceDrop]
@[simp] theorem countDeviceDrop_wakeLimit (c : LineCause) : (countDeviceDrop c s).wakeLimit = s.wakeLimit := by simp [countDeviceDrop]
@[simp] theorem countDeviceDrop_pool (c : LineCause) : (countDeviceDrop c s).pool = s.pool := by simp [countDeviceDrop]
@[simp] theorem countDeviceDrop_shares (c : LineCause) : (countDeviceDrop c s).shares = s.shares := by simp [countDeviceDrop]
@[simp] theorem countDeviceDrop_sched (c : LineCause) : (countDeviceDrop c s).sched = s.sched := by simp [countDeviceDrop]
@[simp] theorem countDeviceDrop_access (c : LineCause) : (countDeviceDrop c s).access = s.access := by simp [countDeviceDrop]
@[simp] theorem countDeviceDrop_seq (c : LineCause) : (countDeviceDrop c s).seq = s.seq := by simp [countDeviceDrop]
@[simp] theorem countDeviceDrop_power (c : LineCause) : (countDeviceDrop c s).power = s.power := by simp [countDeviceDrop]
@[simp] theorem countDeviceDrop_mgmt (c : LineCause) : (countDeviceDrop c s).mgmt = s.mgmt := by simp [countDeviceDrop]
@[simp] theorem countDeviceDrop_memory (c : LineCause) : (countDeviceDrop c s).memory = s.memory := by simp [countDeviceDrop]

@[simp] theorem countFor_pending (n : LineNo) (f : CounterSet → CounterSet) : (countFor n f s).pending = s.pending := by
  simp only [countFor]
  split <;> simp
@[simp] theorem countFor_stations (n : LineNo) (f : CounterSet → CounterSet) : (countFor n f s).stations = s.stations := by
  simp only [countFor]
  split <;> simp
@[simp] theorem countFor_lines (n : LineNo) (f : CounterSet → CounterSet) : (countFor n f s).lines = s.lines := by
  simp only [countFor]
  split <;> simp
@[simp] theorem countFor_trainLimit (n : LineNo) (f : CounterSet → CounterSet) : (countFor n f s).trainLimit = s.trainLimit := by
  simp only [countFor]
  split <;> simp
@[simp] theorem countFor_wakeLimit (n : LineNo) (f : CounterSet → CounterSet) : (countFor n f s).wakeLimit = s.wakeLimit := by
  simp only [countFor]
  split <;> simp
@[simp] theorem countFor_pool (n : LineNo) (f : CounterSet → CounterSet) : (countFor n f s).pool = s.pool := by
  simp only [countFor]
  split <;> simp
@[simp] theorem countFor_shares (n : LineNo) (f : CounterSet → CounterSet) : (countFor n f s).shares = s.shares := by
  simp only [countFor]
  split <;> simp
@[simp] theorem countFor_sched (n : LineNo) (f : CounterSet → CounterSet) : (countFor n f s).sched = s.sched := by
  simp only [countFor]
  split <;> simp
@[simp] theorem countFor_access (n : LineNo) (f : CounterSet → CounterSet) : (countFor n f s).access = s.access := by
  simp only [countFor]
  split <;> simp
@[simp] theorem countFor_seq (n : LineNo) (f : CounterSet → CounterSet) : (countFor n f s).seq = s.seq := by
  simp only [countFor]
  split <;> simp
@[simp] theorem countFor_power (n : LineNo) (f : CounterSet → CounterSet) : (countFor n f s).power = s.power := by
  simp only [countFor]
  split <;> simp
@[simp] theorem countFor_mgmt (n : LineNo) (f : CounterSet → CounterSet) : (countFor n f s).mgmt = s.mgmt := by
  simp only [countFor]
  split <;> simp
@[simp] theorem countFor_memory (n : LineNo) (f : CounterSet → CounterSet) : (countFor n f s).memory = s.memory := by
  simp only [countFor]
  split <;> simp

@[simp] theorem countDrop_pending (n : LineNo) (c : LineCause) : (countDrop n c s).pending = s.pending := by simp [countDrop]
@[simp] theorem countDrop_stations (n : LineNo) (c : LineCause) : (countDrop n c s).stations = s.stations := by simp [countDrop]
@[simp] theorem countDrop_lines (n : LineNo) (c : LineCause) : (countDrop n c s).lines = s.lines := by simp [countDrop]
@[simp] theorem countDrop_trainLimit (n : LineNo) (c : LineCause) : (countDrop n c s).trainLimit = s.trainLimit := by simp [countDrop]
@[simp] theorem countDrop_wakeLimit (n : LineNo) (c : LineCause) : (countDrop n c s).wakeLimit = s.wakeLimit := by simp [countDrop]
@[simp] theorem countDrop_pool (n : LineNo) (c : LineCause) : (countDrop n c s).pool = s.pool := by simp [countDrop]
@[simp] theorem countDrop_shares (n : LineNo) (c : LineCause) : (countDrop n c s).shares = s.shares := by simp [countDrop]
@[simp] theorem countDrop_sched (n : LineNo) (c : LineCause) : (countDrop n c s).sched = s.sched := by simp [countDrop]
@[simp] theorem countDrop_access (n : LineNo) (c : LineCause) : (countDrop n c s).access = s.access := by simp [countDrop]
@[simp] theorem countDrop_seq (n : LineNo) (c : LineCause) : (countDrop n c s).seq = s.seq := by simp [countDrop]
@[simp] theorem countDrop_power (n : LineNo) (c : LineCause) : (countDrop n c s).power = s.power := by simp [countDrop]
@[simp] theorem countDrop_mgmt (n : LineNo) (c : LineCause) : (countDrop n c s).mgmt = s.mgmt := by simp [countDrop]
@[simp] theorem countDrop_memory (n : LineNo) (c : LineCause) : (countDrop n c s).memory = s.memory := by simp [countDrop]

@[simp] theorem countDelivered_pending (n : LineNo) (len : Nat) : (countDelivered n len s).pending = s.pending := by simp [countDelivered]
@[simp] theorem countDelivered_stations (n : LineNo) (len : Nat) : (countDelivered n len s).stations = s.stations := by simp [countDelivered]
@[simp] theorem countDelivered_lines (n : LineNo) (len : Nat) : (countDelivered n len s).lines = s.lines := by simp [countDelivered]
@[simp] theorem countDelivered_trainLimit (n : LineNo) (len : Nat) : (countDelivered n len s).trainLimit = s.trainLimit := by simp [countDelivered]
@[simp] theorem countDelivered_wakeLimit (n : LineNo) (len : Nat) : (countDelivered n len s).wakeLimit = s.wakeLimit := by simp [countDelivered]
@[simp] theorem countDelivered_pool (n : LineNo) (len : Nat) : (countDelivered n len s).pool = s.pool := by simp [countDelivered]
@[simp] theorem countDelivered_shares (n : LineNo) (len : Nat) : (countDelivered n len s).shares = s.shares := by simp [countDelivered]
@[simp] theorem countDelivered_sched (n : LineNo) (len : Nat) : (countDelivered n len s).sched = s.sched := by simp [countDelivered]
@[simp] theorem countDelivered_access (n : LineNo) (len : Nat) : (countDelivered n len s).access = s.access := by simp [countDelivered]
@[simp] theorem countDelivered_seq (n : LineNo) (len : Nat) : (countDelivered n len s).seq = s.seq := by simp [countDelivered]
@[simp] theorem countDelivered_power (n : LineNo) (len : Nat) : (countDelivered n len s).power = s.power := by simp [countDelivered]
@[simp] theorem countDelivered_mgmt (n : LineNo) (len : Nat) : (countDelivered n len s).mgmt = s.mgmt := by simp [countDelivered]
@[simp] theorem countDelivered_memory (n : LineNo) (len : Nat) : (countDelivered n len s).memory = s.memory := by simp [countDelivered]

@[simp] theorem countSent_pending (n : LineNo) (len : Nat) (b : Bool) : (countSent n len b s).pending = s.pending := by simp [countSent]
@[simp] theorem countSent_stations (n : LineNo) (len : Nat) (b : Bool) : (countSent n len b s).stations = s.stations := by simp [countSent]
@[simp] theorem countSent_lines (n : LineNo) (len : Nat) (b : Bool) : (countSent n len b s).lines = s.lines := by simp [countSent]
@[simp] theorem countSent_trainLimit (n : LineNo) (len : Nat) (b : Bool) : (countSent n len b s).trainLimit = s.trainLimit := by simp [countSent]
@[simp] theorem countSent_wakeLimit (n : LineNo) (len : Nat) (b : Bool) : (countSent n len b s).wakeLimit = s.wakeLimit := by simp [countSent]
@[simp] theorem countSent_pool (n : LineNo) (len : Nat) (b : Bool) : (countSent n len b s).pool = s.pool := by simp [countSent]
@[simp] theorem countSent_shares (n : LineNo) (len : Nat) (b : Bool) : (countSent n len b s).shares = s.shares := by simp [countSent]
@[simp] theorem countSent_sched (n : LineNo) (len : Nat) (b : Bool) : (countSent n len b s).sched = s.sched := by simp [countSent]
@[simp] theorem countSent_access (n : LineNo) (len : Nat) (b : Bool) : (countSent n len b s).access = s.access := by simp [countSent]
@[simp] theorem countSent_seq (n : LineNo) (len : Nat) (b : Bool) : (countSent n len b s).seq = s.seq := by simp [countSent]
@[simp] theorem countSent_power (n : LineNo) (len : Nat) (b : Bool) : (countSent n len b s).power = s.power := by simp [countSent]
@[simp] theorem countSent_mgmt (n : LineNo) (len : Nat) (b : Bool) : (countSent n len b s).mgmt = s.mgmt := by simp [countSent]
@[simp] theorem countSent_memory (n : LineNo) (len : Nat) (b : Bool) : (countSent n len b s).memory = s.memory := by simp [countSent]

@[simp] theorem offerNotice_pending (u : Option LineNo) (d : Detail) : (offerNotice u d s).pending = s.pending := by
  simp only [offerNotice]
  (repeat' split) <;> simp
@[simp] theorem offerNotice_stations (u : Option LineNo) (d : Detail) : (offerNotice u d s).stations = s.stations := by
  simp only [offerNotice]
  (repeat' split) <;> simp
@[simp] theorem offerNotice_lines (u : Option LineNo) (d : Detail) : (offerNotice u d s).lines = s.lines := by
  simp only [offerNotice]
  (repeat' split) <;> simp
@[simp] theorem offerNotice_trainLimit (u : Option LineNo) (d : Detail) : (offerNotice u d s).trainLimit = s.trainLimit := by
  simp only [offerNotice]
  (repeat' split) <;> simp
@[simp] theorem offerNotice_wakeLimit (u : Option LineNo) (d : Detail) : (offerNotice u d s).wakeLimit = s.wakeLimit := by
  simp only [offerNotice]
  (repeat' split) <;> simp
@[simp] theorem offerNotice_pool (u : Option LineNo) (d : Detail) : (offerNotice u d s).pool = s.pool := by
  simp only [offerNotice]
  (repeat' split) <;> simp
@[simp] theorem offerNotice_shares (u : Option LineNo) (d : Detail) : (offerNotice u d s).shares = s.shares := by
  simp only [offerNotice]
  (repeat' split) <;> simp
@[simp] theorem offerNotice_sched (u : Option LineNo) (d : Detail) : (offerNotice u d s).sched = s.sched := by
  simp only [offerNotice]
  (repeat' split) <;> simp
@[simp] theorem offerNotice_access (u : Option LineNo) (d : Detail) : (offerNotice u d s).access = s.access := by
  simp only [offerNotice]
  (repeat' split) <;> simp
@[simp] theorem offerNotice_seq (u : Option LineNo) (d : Detail) : (offerNotice u d s).seq = s.seq := by
  simp only [offerNotice]
  (repeat' split) <;> simp
@[simp] theorem offerNotice_power (u : Option LineNo) (d : Detail) : (offerNotice u d s).power = s.power := by
  simp only [offerNotice]
  (repeat' split) <;> simp
@[simp] theorem offerNotice_mgmt (u : Option LineNo) (d : Detail) : (offerNotice u d s).mgmt = s.mgmt := by
  simp only [offerNotice]
  (repeat' split) <;> simp
@[simp] theorem offerNotice_memory (u : Option LineNo) (d : Detail) : (offerNotice u d s).memory = s.memory := by
  simp only [offerNotice]
  (repeat' split) <;> simp

@[simp] theorem raise_pending (u : Option LineNo) (d : Detail) : (raise u d s).pending = s.pending := by
  simp only [raise]
  split <;> simp
@[simp] theorem raise_stations (u : Option LineNo) (d : Detail) : (raise u d s).stations = s.stations := by
  simp only [raise]
  split <;> simp
@[simp] theorem raise_lines (u : Option LineNo) (d : Detail) : (raise u d s).lines = s.lines := by
  simp only [raise]
  split <;> simp
@[simp] theorem raise_trainLimit (u : Option LineNo) (d : Detail) : (raise u d s).trainLimit = s.trainLimit := by
  simp only [raise]
  split <;> simp
@[simp] theorem raise_wakeLimit (u : Option LineNo) (d : Detail) : (raise u d s).wakeLimit = s.wakeLimit := by
  simp only [raise]
  split <;> simp
@[simp] theorem raise_pool (u : Option LineNo) (d : Detail) : (raise u d s).pool = s.pool := by
  simp only [raise]
  split <;> simp
@[simp] theorem raise_shares (u : Option LineNo) (d : Detail) : (raise u d s).shares = s.shares := by
  simp only [raise]
  split <;> simp
@[simp] theorem raise_sched (u : Option LineNo) (d : Detail) : (raise u d s).sched = s.sched := by
  simp only [raise]
  split <;> simp
@[simp] theorem raise_access (u : Option LineNo) (d : Detail) : (raise u d s).access = s.access := by
  simp only [raise]
  split <;> simp
@[simp] theorem raise_seq (u : Option LineNo) (d : Detail) : (raise u d s).seq = s.seq := by
  simp only [raise]
  split <;> simp
@[simp] theorem raise_power (u : Option LineNo) (d : Detail) : (raise u d s).power = s.power := by
  simp only [raise]
  split <;> simp
@[simp] theorem raise_mgmt (u : Option LineNo) (d : Detail) : (raise u d s).mgmt = s.mgmt := by
  simp only [raise]
  split <;> simp
@[simp] theorem raise_memory (u : Option LineNo) (d : Detail) : (raise u d s).memory = s.memory := by
  simp only [raise]
  split <;> simp

@[simp] theorem setFree_pending (k : Nat) : (setFree k s).pending = s.pending := by
  simp only [setFree]
  (repeat' split) <;> simp
@[simp] theorem setFree_stations (k : Nat) : (setFree k s).stations = s.stations := by
  simp only [setFree]
  (repeat' split) <;> simp
@[simp] theorem setFree_lines (k : Nat) : (setFree k s).lines = s.lines := by
  simp only [setFree]
  (repeat' split) <;> simp
@[simp] theorem setFree_trainLimit (k : Nat) : (setFree k s).trainLimit = s.trainLimit := by
  simp only [setFree]
  (repeat' split) <;> simp
@[simp] theorem setFree_wakeLimit (k : Nat) : (setFree k s).wakeLimit = s.wakeLimit := by
  simp only [setFree]
  (repeat' split) <;> simp
@[simp] theorem setFree_shares (k : Nat) : (setFree k s).shares = s.shares := by
  simp only [setFree]
  (repeat' split) <;> simp
@[simp] theorem setFree_sched (k : Nat) : (setFree k s).sched = s.sched := by
  simp only [setFree]
  (repeat' split) <;> simp
@[simp] theorem setFree_access (k : Nat) : (setFree k s).access = s.access := by
  simp only [setFree]
  (repeat' split) <;> simp
@[simp] theorem setFree_seq (k : Nat) : (setFree k s).seq = s.seq := by
  simp only [setFree]
  (repeat' split) <;> simp
@[simp] theorem setFree_power (k : Nat) : (setFree k s).power = s.power := by
  simp only [setFree]
  (repeat' split) <;> simp
@[simp] theorem setFree_mgmt (k : Nat) : (setFree k s).mgmt = s.mgmt := by
  simp only [setFree]
  (repeat' split) <;> simp
@[simp] theorem setFree_memory (k : Nat) : (setFree k s).memory = s.memory := by
  simp only [setFree]
  (repeat' split) <;> simp

@[simp] theorem makeRecord_pending (r : FrameRec) : (makeRecord r s).pending = s.pending := by simp [makeRecord]
@[simp] theorem makeRecord_stations (r : FrameRec) : (makeRecord r s).stations = s.stations := by simp [makeRecord]
@[simp] theorem makeRecord_lines (r : FrameRec) : (makeRecord r s).lines = s.lines := by simp [makeRecord]
@[simp] theorem makeRecord_trainLimit (r : FrameRec) : (makeRecord r s).trainLimit = s.trainLimit := by simp [makeRecord]
@[simp] theorem makeRecord_wakeLimit (r : FrameRec) : (makeRecord r s).wakeLimit = s.wakeLimit := by simp [makeRecord]
@[simp] theorem makeRecord_shares (r : FrameRec) : (makeRecord r s).shares = s.shares := by simp [makeRecord]
@[simp] theorem makeRecord_sched (r : FrameRec) : (makeRecord r s).sched = s.sched := by simp [makeRecord]
@[simp] theorem makeRecord_access (r : FrameRec) : (makeRecord r s).access = s.access := by simp [makeRecord]
@[simp] theorem makeRecord_seq (r : FrameRec) : (makeRecord r s).seq = s.seq := by simp [makeRecord]
@[simp] theorem makeRecord_power (r : FrameRec) : (makeRecord r s).power = s.power := by simp [makeRecord]
@[simp] theorem makeRecord_mgmt (r : FrameRec) : (makeRecord r s).mgmt = s.mgmt := by simp [makeRecord]
@[simp] theorem makeRecord_memory (r : FrameRec) : (makeRecord r s).memory = s.memory := by simp [makeRecord]

@[simp] theorem dropRef_pending (id : Nat) : (dropRef id s).pending = s.pending := by
  simp only [dropRef]
  (repeat' split) <;> simp
@[simp] theorem dropRef_stations (id : Nat) : (dropRef id s).stations = s.stations := by
  simp only [dropRef]
  (repeat' split) <;> simp
@[simp] theorem dropRef_lines (id : Nat) : (dropRef id s).lines = s.lines := by
  simp only [dropRef]
  (repeat' split) <;> simp
@[simp] theorem dropRef_trainLimit (id : Nat) : (dropRef id s).trainLimit = s.trainLimit := by
  simp only [dropRef]
  (repeat' split) <;> simp
@[simp] theorem dropRef_wakeLimit (id : Nat) : (dropRef id s).wakeLimit = s.wakeLimit := by
  simp only [dropRef]
  (repeat' split) <;> simp
@[simp] theorem dropRef_shares (id : Nat) : (dropRef id s).shares = s.shares := by
  simp only [dropRef]
  (repeat' split) <;> simp
@[simp] theorem dropRef_sched (id : Nat) : (dropRef id s).sched = s.sched := by
  simp only [dropRef]
  (repeat' split) <;> simp
@[simp] theorem dropRef_access (id : Nat) : (dropRef id s).access = s.access := by
  simp only [dropRef]
  (repeat' split) <;> simp
@[simp] theorem dropRef_seq (id : Nat) : (dropRef id s).seq = s.seq := by
  simp only [dropRef]
  (repeat' split) <;> simp
@[simp] theorem dropRef_power (id : Nat) : (dropRef id s).power = s.power := by
  simp only [dropRef]
  (repeat' split) <;> simp
@[simp] theorem dropRef_mgmt (id : Nat) : (dropRef id s).mgmt = s.mgmt := by
  simp only [dropRef]
  (repeat' split) <;> simp
@[simp] theorem dropRef_memory (id : Nat) : (dropRef id s).memory = s.memory := by
  simp only [dropRef]
  (repeat' split) <;> simp

@[simp] theorem dropAll_pending (n : LineNo) (c : LineCause) (ids : List Nat) : (dropAll n c ids s).pending = s.pending := by simp [dropAll, foldl_keeps (fun t : State => t.pending)]
@[simp] theorem dropAll_stations (n : LineNo) (c : LineCause) (ids : List Nat) : (dropAll n c ids s).stations = s.stations := by simp [dropAll, foldl_keeps (fun t : State => t.stations)]
@[simp] theorem dropAll_lines (n : LineNo) (c : LineCause) (ids : List Nat) : (dropAll n c ids s).lines = s.lines := by simp [dropAll, foldl_keeps (fun t : State => t.lines)]
@[simp] theorem dropAll_trainLimit (n : LineNo) (c : LineCause) (ids : List Nat) : (dropAll n c ids s).trainLimit = s.trainLimit := by simp [dropAll, foldl_keeps (fun t : State => t.trainLimit)]
@[simp] theorem dropAll_wakeLimit (n : LineNo) (c : LineCause) (ids : List Nat) : (dropAll n c ids s).wakeLimit = s.wakeLimit := by simp [dropAll, foldl_keeps (fun t : State => t.wakeLimit)]
@[simp] theorem dropAll_shares (n : LineNo) (c : LineCause) (ids : List Nat) : (dropAll n c ids s).shares = s.shares := by simp [dropAll, foldl_keeps (fun t : State => t.shares)]
@[simp] theorem dropAll_sched (n : LineNo) (c : LineCause) (ids : List Nat) : (dropAll n c ids s).sched = s.sched := by simp [dropAll, foldl_keeps (fun t : State => t.sched)]
@[simp] theorem dropAll_access (n : LineNo) (c : LineCause) (ids : List Nat) : (dropAll n c ids s).access = s.access := by simp [dropAll, foldl_keeps (fun t : State => t.access)]
@[simp] theorem dropAll_seq (n : LineNo) (c : LineCause) (ids : List Nat) : (dropAll n c ids s).seq = s.seq := by simp [dropAll, foldl_keeps (fun t : State => t.seq)]
@[simp] theorem dropAll_power (n : LineNo) (c : LineCause) (ids : List Nat) : (dropAll n c ids s).power = s.power := by simp [dropAll, foldl_keeps (fun t : State => t.power)]
@[simp] theorem dropAll_mgmt (n : LineNo) (c : LineCause) (ids : List Nat) : (dropAll n c ids s).mgmt = s.mgmt := by simp [dropAll, foldl_keeps (fun t : State => t.mgmt)]
@[simp] theorem dropAll_memory (n : LineNo) (c : LineCause) (ids : List Nat) : (dropAll n c ids s).memory = s.memory := by simp [dropAll, foldl_keeps (fun t : State => t.memory)]

@[simp] theorem refreshIdle_pending (n : LineNo) : (refreshIdle n s).pending = s.pending := by simp [refreshIdle]
@[simp] theorem refreshIdle_stations (n : LineNo) : (refreshIdle n s).stations = s.stations := by simp [refreshIdle]
@[simp] theorem refreshIdle_trainLimit (n : LineNo) : (refreshIdle n s).trainLimit = s.trainLimit := by simp [refreshIdle]
@[simp] theorem refreshIdle_wakeLimit (n : LineNo) : (refreshIdle n s).wakeLimit = s.wakeLimit := by simp [refreshIdle]
@[simp] theorem refreshIdle_pool (n : LineNo) : (refreshIdle n s).pool = s.pool := by simp [refreshIdle]
@[simp] theorem refreshIdle_shares (n : LineNo) : (refreshIdle n s).shares = s.shares := by simp [refreshIdle]
@[simp] theorem refreshIdle_sched (n : LineNo) : (refreshIdle n s).sched = s.sched := by simp [refreshIdle]
@[simp] theorem refreshIdle_access (n : LineNo) : (refreshIdle n s).access = s.access := by simp [refreshIdle]
@[simp] theorem refreshIdle_seq (n : LineNo) : (refreshIdle n s).seq = s.seq := by simp [refreshIdle]
@[simp] theorem refreshIdle_power (n : LineNo) : (refreshIdle n s).power = s.power := by simp [refreshIdle]
@[simp] theorem refreshIdle_counts (n : LineNo) : (refreshIdle n s).counts = s.counts := by simp [refreshIdle]
@[simp] theorem refreshIdle_mgmt (n : LineNo) : (refreshIdle n s).mgmt = s.mgmt := by simp [refreshIdle]
@[simp] theorem refreshIdle_memory (n : LineNo) : (refreshIdle n s).memory = s.memory := by simp [refreshIdle]

@[simp] theorem flush_pending (n : LineNo) (x : Flush) : (flush n x s).pending = s.pending := by simp [flush]
@[simp] theorem flush_stations (n : LineNo) (x : Flush) : (flush n x s).stations = s.stations := by simp [flush]
@[simp] theorem flush_trainLimit (n : LineNo) (x : Flush) : (flush n x s).trainLimit = s.trainLimit := by simp [flush]
@[simp] theorem flush_wakeLimit (n : LineNo) (x : Flush) : (flush n x s).wakeLimit = s.wakeLimit := by simp [flush]
@[simp] theorem flush_shares (n : LineNo) (x : Flush) : (flush n x s).shares = s.shares := by simp [flush]
@[simp] theorem flush_sched (n : LineNo) (x : Flush) : (flush n x s).sched = s.sched := by simp [flush]
@[simp] theorem flush_access (n : LineNo) (x : Flush) : (flush n x s).access = s.access := by simp [flush]
@[simp] theorem flush_seq (n : LineNo) (x : Flush) : (flush n x s).seq = s.seq := by simp [flush]
@[simp] theorem flush_power (n : LineNo) (x : Flush) : (flush n x s).power = s.power := by simp [flush]
@[simp] theorem flush_mgmt (n : LineNo) (x : Flush) : (flush n x s).mgmt = s.mgmt := by simp [flush]
@[simp] theorem flush_memory (n : LineNo) (x : Flush) : (flush n x s).memory = s.memory := by simp [flush]

@[simp] theorem setStation_pending (i : Fin 96) (e : Option Entry) : (setStation i e s).pending = s.pending := by simp [setStation]
@[simp] theorem setStation_lines (i : Fin 96) (e : Option Entry) : (setStation i e s).lines = s.lines := by simp [setStation]
@[simp] theorem setStation_trainLimit (i : Fin 96) (e : Option Entry) : (setStation i e s).trainLimit = s.trainLimit := by simp [setStation]
@[simp] theorem setStation_wakeLimit (i : Fin 96) (e : Option Entry) : (setStation i e s).wakeLimit = s.wakeLimit := by simp [setStation]
@[simp] theorem setStation_pool (i : Fin 96) (e : Option Entry) : (setStation i e s).pool = s.pool := by simp [setStation]
@[simp] theorem setStation_shares (i : Fin 96) (e : Option Entry) : (setStation i e s).shares = s.shares := by simp [setStation]
@[simp] theorem setStation_sched (i : Fin 96) (e : Option Entry) : (setStation i e s).sched = s.sched := by simp [setStation]
@[simp] theorem setStation_access (i : Fin 96) (e : Option Entry) : (setStation i e s).access = s.access := by simp [setStation]
@[simp] theorem setStation_seq (i : Fin 96) (e : Option Entry) : (setStation i e s).seq = s.seq := by simp [setStation]
@[simp] theorem setStation_power (i : Fin 96) (e : Option Entry) : (setStation i e s).power = s.power := by simp [setStation]
@[simp] theorem setStation_counts (i : Fin 96) (e : Option Entry) : (setStation i e s).counts = s.counts := by simp [setStation]
@[simp] theorem setStation_mgmt (i : Fin 96) (e : Option Entry) : (setStation i e s).mgmt = s.mgmt := by simp [setStation]
@[simp] theorem setStation_memory (i : Fin 96) (e : Option Entry) : (setStation i e s).memory = s.memory := by simp [setStation]

@[simp] theorem dropStations_pending (p : Entry → Bool) : (dropStations p s).pending = s.pending := by simp [dropStations]
@[simp] theorem dropStations_lines (p : Entry → Bool) : (dropStations p s).lines = s.lines := by simp [dropStations]
@[simp] theorem dropStations_trainLimit (p : Entry → Bool) : (dropStations p s).trainLimit = s.trainLimit := by simp [dropStations]
@[simp] theorem dropStations_wakeLimit (p : Entry → Bool) : (dropStations p s).wakeLimit = s.wakeLimit := by simp [dropStations]
@[simp] theorem dropStations_pool (p : Entry → Bool) : (dropStations p s).pool = s.pool := by simp [dropStations]
@[simp] theorem dropStations_shares (p : Entry → Bool) : (dropStations p s).shares = s.shares := by simp [dropStations]
@[simp] theorem dropStations_sched (p : Entry → Bool) : (dropStations p s).sched = s.sched := by simp [dropStations]
@[simp] theorem dropStations_access (p : Entry → Bool) : (dropStations p s).access = s.access := by simp [dropStations]
@[simp] theorem dropStations_seq (p : Entry → Bool) : (dropStations p s).seq = s.seq := by simp [dropStations]
@[simp] theorem dropStations_power (p : Entry → Bool) : (dropStations p s).power = s.power := by simp [dropStations]
@[simp] theorem dropStations_counts (p : Entry → Bool) : (dropStations p s).counts = s.counts := by simp [dropStations]
@[simp] theorem dropStations_mgmt (p : Entry → Bool) : (dropStations p s).mgmt = s.mgmt := by simp [dropStations]
@[simp] theorem dropStations_memory (p : Entry → Bool) : (dropStations p s).memory = s.memory := by simp [dropStations]

@[simp] theorem removeLearned_pending (n : LineNo) : (removeLearned n s).pending = s.pending := by simp [removeLearned]
@[simp] theorem removeLearned_lines (n : LineNo) : (removeLearned n s).lines = s.lines := by simp [removeLearned]
@[simp] theorem removeLearned_trainLimit (n : LineNo) : (removeLearned n s).trainLimit = s.trainLimit := by simp [removeLearned]
@[simp] theorem removeLearned_wakeLimit (n : LineNo) : (removeLearned n s).wakeLimit = s.wakeLimit := by simp [removeLearned]
@[simp] theorem removeLearned_pool (n : LineNo) : (removeLearned n s).pool = s.pool := by simp [removeLearned]
@[simp] theorem removeLearned_shares (n : LineNo) : (removeLearned n s).shares = s.shares := by simp [removeLearned]
@[simp] theorem removeLearned_sched (n : LineNo) : (removeLearned n s).sched = s.sched := by simp [removeLearned]
@[simp] theorem removeLearned_access (n : LineNo) : (removeLearned n s).access = s.access := by simp [removeLearned]
@[simp] theorem removeLearned_seq (n : LineNo) : (removeLearned n s).seq = s.seq := by simp [removeLearned]
@[simp] theorem removeLearned_power (n : LineNo) : (removeLearned n s).power = s.power := by simp [removeLearned]
@[simp] theorem removeLearned_counts (n : LineNo) : (removeLearned n s).counts = s.counts := by simp [removeLearned]
@[simp] theorem removeLearned_mgmt (n : LineNo) : (removeLearned n s).mgmt = s.mgmt := by simp [removeLearned]
@[simp] theorem removeLearned_memory (n : LineNo) : (removeLearned n s).memory = s.memory := by simp [removeLearned]

@[simp] theorem recompute_pending : (recompute s).pending = s.pending := by simp [recompute]
@[simp] theorem recompute_stations : (recompute s).stations = s.stations := by simp [recompute]
@[simp] theorem recompute_trainLimit : (recompute s).trainLimit = s.trainLimit := by simp [recompute]
@[simp] theorem recompute_wakeLimit : (recompute s).wakeLimit = s.wakeLimit := by simp [recompute]
@[simp] theorem recompute_pool : (recompute s).pool = s.pool := by simp [recompute]
@[simp] theorem recompute_access : (recompute s).access = s.access := by simp [recompute]
@[simp] theorem recompute_seq : (recompute s).seq = s.seq := by simp [recompute]
@[simp] theorem recompute_power : (recompute s).power = s.power := by simp [recompute]
@[simp] theorem recompute_counts : (recompute s).counts = s.counts := by simp [recompute]
@[simp] theorem recompute_mgmt : (recompute s).mgmt = s.mgmt := by simp [recompute]
@[simp] theorem recompute_memory : (recompute s).memory = s.memory := by simp [recompute]

@[simp] theorem removeWake_pending (n : LineNo) : (removeWake n s).pending = s.pending := by simp [removeWake]
@[simp] theorem removeWake_stations (n : LineNo) : (removeWake n s).stations = s.stations := by simp [removeWake]
@[simp] theorem removeWake_lines (n : LineNo) : (removeWake n s).lines = s.lines := by simp [removeWake]
@[simp] theorem removeWake_trainLimit (n : LineNo) : (removeWake n s).trainLimit = s.trainLimit := by simp [removeWake]
@[simp] theorem removeWake_wakeLimit (n : LineNo) : (removeWake n s).wakeLimit = s.wakeLimit := by simp [removeWake]
@[simp] theorem removeWake_pool (n : LineNo) : (removeWake n s).pool = s.pool := by simp [removeWake]
@[simp] theorem removeWake_shares (n : LineNo) : (removeWake n s).shares = s.shares := by simp [removeWake]
@[simp] theorem removeWake_sched (n : LineNo) : (removeWake n s).sched = s.sched := by simp [removeWake]
@[simp] theorem removeWake_access (n : LineNo) : (removeWake n s).access = s.access := by simp [removeWake]
@[simp] theorem removeWake_seq (n : LineNo) : (removeWake n s).seq = s.seq := by simp [removeWake]
@[simp] theorem removeWake_counts (n : LineNo) : (removeWake n s).counts = s.counts := by simp [removeWake]
@[simp] theorem removeWake_mgmt (n : LineNo) : (removeWake n s).mgmt = s.mgmt := by simp [removeWake]
@[simp] theorem removeWake_memory (n : LineNo) : (removeWake n s).memory = s.memory := by simp [removeWake]

@[simp] theorem lineStateEvent_pending (n : LineNo) (a b : LineState) (r : Reason) : (lineStateEvent n a b r s).pending = s.pending := by
  simp only [lineStateEvent]
  split <;> simp
@[simp] theorem lineStateEvent_stations (n : LineNo) (a b : LineState) (r : Reason) : (lineStateEvent n a b r s).stations = s.stations := by
  simp only [lineStateEvent]
  split <;> simp
@[simp] theorem lineStateEvent_lines (n : LineNo) (a b : LineState) (r : Reason) : (lineStateEvent n a b r s).lines = s.lines := by
  simp only [lineStateEvent]
  split <;> simp
@[simp] theorem lineStateEvent_trainLimit (n : LineNo) (a b : LineState) (r : Reason) : (lineStateEvent n a b r s).trainLimit = s.trainLimit := by
  simp only [lineStateEvent]
  split <;> simp
@[simp] theorem lineStateEvent_wakeLimit (n : LineNo) (a b : LineState) (r : Reason) : (lineStateEvent n a b r s).wakeLimit = s.wakeLimit := by
  simp only [lineStateEvent]
  split <;> simp
@[simp] theorem lineStateEvent_pool (n : LineNo) (a b : LineState) (r : Reason) : (lineStateEvent n a b r s).pool = s.pool := by
  simp only [lineStateEvent]
  split <;> simp
@[simp] theorem lineStateEvent_shares (n : LineNo) (a b : LineState) (r : Reason) : (lineStateEvent n a b r s).shares = s.shares := by
  simp only [lineStateEvent]
  split <;> simp
@[simp] theorem lineStateEvent_sched (n : LineNo) (a b : LineState) (r : Reason) : (lineStateEvent n a b r s).sched = s.sched := by
  simp only [lineStateEvent]
  split <;> simp
@[simp] theorem lineStateEvent_access (n : LineNo) (a b : LineState) (r : Reason) : (lineStateEvent n a b r s).access = s.access := by
  simp only [lineStateEvent]
  split <;> simp
@[simp] theorem lineStateEvent_seq (n : LineNo) (a b : LineState) (r : Reason) : (lineStateEvent n a b r s).seq = s.seq := by
  simp only [lineStateEvent]
  split <;> simp
@[simp] theorem lineStateEvent_power (n : LineNo) (a b : LineState) (r : Reason) : (lineStateEvent n a b r s).power = s.power := by
  simp only [lineStateEvent]
  split <;> simp
@[simp] theorem lineStateEvent_mgmt (n : LineNo) (a b : LineState) (r : Reason) : (lineStateEvent n a b r s).mgmt = s.mgmt := by
  simp only [lineStateEvent]
  split <;> simp
@[simp] theorem lineStateEvent_memory (n : LineNo) (a b : LineState) (r : Reason) : (lineStateEvent n a b r s).memory = s.memory := by
  simp only [lineStateEvent]
  split <;> simp

@[simp] theorem enterCore_pending (n : LineNo) (a : LineState) (r : Reason) : (enterCore n a r s).pending = s.pending := by
  simp only [enterCore]
  (repeat' split) <;> simp
@[simp] theorem enterCore_trainLimit (n : LineNo) (a : LineState) (r : Reason) : (enterCore n a r s).trainLimit = s.trainLimit := by
  simp only [enterCore]
  (repeat' split) <;> simp
@[simp] theorem enterCore_wakeLimit (n : LineNo) (a : LineState) (r : Reason) : (enterCore n a r s).wakeLimit = s.wakeLimit := by
  simp only [enterCore]
  (repeat' split) <;> simp
@[simp] theorem enterCore_shares (n : LineNo) (a : LineState) (r : Reason) : (enterCore n a r s).shares = s.shares := by
  simp only [enterCore]
  (repeat' split) <;> simp
@[simp] theorem enterCore_sched (n : LineNo) (a : LineState) (r : Reason) : (enterCore n a r s).sched = s.sched := by
  simp only [enterCore]
  (repeat' split) <;> simp
@[simp] theorem enterCore_access (n : LineNo) (a : LineState) (r : Reason) : (enterCore n a r s).access = s.access := by
  simp only [enterCore]
  (repeat' split) <;> simp
@[simp] theorem enterCore_seq (n : LineNo) (a : LineState) (r : Reason) : (enterCore n a r s).seq = s.seq := by
  simp only [enterCore]
  (repeat' split) <;> simp
@[simp] theorem enterCore_mgmt (n : LineNo) (a : LineState) (r : Reason) : (enterCore n a r s).mgmt = s.mgmt := by
  simp only [enterCore]
  (repeat' split) <;> simp
@[simp] theorem enterCore_memory (n : LineNo) (a : LineState) (r : Reason) : (enterCore n a r s).memory = s.memory := by
  simp only [enterCore]
  (repeat' split) <;> simp

@[simp] theorem recomputeIf_pending (n : LineNo) (l : Line) : (recomputeIf n l s).pending = s.pending := by
  simp only [recomputeIf]
  split <;> simp
@[simp] theorem recomputeIf_stations (n : LineNo) (l : Line) : (recomputeIf n l s).stations = s.stations := by
  simp only [recomputeIf]
  split <;> simp
@[simp] theorem recomputeIf_trainLimit (n : LineNo) (l : Line) : (recomputeIf n l s).trainLimit = s.trainLimit := by
  simp only [recomputeIf]
  split <;> simp
@[simp] theorem recomputeIf_wakeLimit (n : LineNo) (l : Line) : (recomputeIf n l s).wakeLimit = s.wakeLimit := by
  simp only [recomputeIf]
  split <;> simp
@[simp] theorem recomputeIf_pool (n : LineNo) (l : Line) : (recomputeIf n l s).pool = s.pool := by
  simp only [recomputeIf]
  split <;> simp
@[simp] theorem recomputeIf_access (n : LineNo) (l : Line) : (recomputeIf n l s).access = s.access := by
  simp only [recomputeIf]
  split <;> simp
@[simp] theorem recomputeIf_seq (n : LineNo) (l : Line) : (recomputeIf n l s).seq = s.seq := by
  simp only [recomputeIf]
  split <;> simp
@[simp] theorem recomputeIf_power (n : LineNo) (l : Line) : (recomputeIf n l s).power = s.power := by
  simp only [recomputeIf]
  split <;> simp
@[simp] theorem recomputeIf_counts (n : LineNo) (l : Line) : (recomputeIf n l s).counts = s.counts := by
  simp only [recomputeIf]
  split <;> simp
@[simp] theorem recomputeIf_mgmt (n : LineNo) (l : Line) : (recomputeIf n l s).mgmt = s.mgmt := by
  simp only [recomputeIf]
  split <;> simp
@[simp] theorem recomputeIf_memory (n : LineNo) (l : Line) : (recomputeIf n l s).memory = s.memory := by
  simp only [recomputeIf]
  split <;> simp

@[simp] theorem grantOne_pending (e : WakeEntry) : (grantOne e s).pending = s.pending := by
  simp only [grantOne]
  split <;> simp
@[simp] theorem grantOne_trainLimit (e : WakeEntry) : (grantOne e s).trainLimit = s.trainLimit := by
  simp only [grantOne]
  split <;> simp
@[simp] theorem grantOne_wakeLimit (e : WakeEntry) : (grantOne e s).wakeLimit = s.wakeLimit := by
  simp only [grantOne]
  split <;> simp
@[simp] theorem grantOne_access (e : WakeEntry) : (grantOne e s).access = s.access := by
  simp only [grantOne]
  split <;> simp
@[simp] theorem grantOne_seq (e : WakeEntry) : (grantOne e s).seq = s.seq := by
  simp only [grantOne]
  split <;> simp
@[simp] theorem grantOne_mgmt (e : WakeEntry) : (grantOne e s).mgmt = s.mgmt := by
  simp only [grantOne]
  split <;> simp
@[simp] theorem grantOne_memory (e : WakeEntry) : (grantOne e s).memory = s.memory := by
  simp only [grantOne]
  split <;> simp

@[simp] theorem grants_pending : ∀ (k : Nat) (s : State), (grants k s).pending = s.pending
  | 0, _ => rfl
  | k + 1, s => by
    simp only [grants]
    (repeat' split) <;> simp [grants_pending k]
@[simp] theorem grants_trainLimit : ∀ (k : Nat) (s : State), (grants k s).trainLimit = s.trainLimit
  | 0, _ => rfl
  | k + 1, s => by
    simp only [grants]
    (repeat' split) <;> simp [grants_trainLimit k]
@[simp] theorem grants_wakeLimit : ∀ (k : Nat) (s : State), (grants k s).wakeLimit = s.wakeLimit
  | 0, _ => rfl
  | k + 1, s => by
    simp only [grants]
    (repeat' split) <;> simp [grants_wakeLimit k]
@[simp] theorem grants_access : ∀ (k : Nat) (s : State), (grants k s).access = s.access
  | 0, _ => rfl
  | k + 1, s => by
    simp only [grants]
    (repeat' split) <;> simp [grants_access k]
@[simp] theorem grants_seq : ∀ (k : Nat) (s : State), (grants k s).seq = s.seq
  | 0, _ => rfl
  | k + 1, s => by
    simp only [grants]
    (repeat' split) <;> simp [grants_seq k]
@[simp] theorem grants_mgmt : ∀ (k : Nat) (s : State), (grants k s).mgmt = s.mgmt
  | 0, _ => rfl
  | k + 1, s => by
    simp only [grants]
    (repeat' split) <;> simp [grants_mgmt k]
@[simp] theorem grants_memory : ∀ (k : Nat) (s : State), (grants k s).memory = s.memory
  | 0, _ => rfl
  | k + 1, s => by
    simp only [grants]
    (repeat' split) <;> simp [grants_memory k]

@[simp] theorem grantAll_pending : (grantAll s).pending = s.pending := by simp [grantAll]
@[simp] theorem grantAll_trainLimit : (grantAll s).trainLimit = s.trainLimit := by simp [grantAll]
@[simp] theorem grantAll_wakeLimit : (grantAll s).wakeLimit = s.wakeLimit := by simp [grantAll]
@[simp] theorem grantAll_access : (grantAll s).access = s.access := by simp [grantAll]
@[simp] theorem grantAll_seq : (grantAll s).seq = s.seq := by simp [grantAll]
@[simp] theorem grantAll_mgmt : (grantAll s).mgmt = s.mgmt := by simp [grantAll]
@[simp] theorem grantAll_memory : (grantAll s).memory = s.memory := by simp [grantAll]

@[simp] theorem wakeRequest_pending (n : LineNo) (c : WakeCause) : (wakeRequest n c s).pending = s.pending := by
  simp only [wakeRequest]
  split <;> simp
@[simp] theorem wakeRequest_trainLimit (n : LineNo) (c : WakeCause) : (wakeRequest n c s).trainLimit = s.trainLimit := by
  simp only [wakeRequest]
  split <;> simp
@[simp] theorem wakeRequest_wakeLimit (n : LineNo) (c : WakeCause) : (wakeRequest n c s).wakeLimit = s.wakeLimit := by
  simp only [wakeRequest]
  split <;> simp
@[simp] theorem wakeRequest_access (n : LineNo) (c : WakeCause) : (wakeRequest n c s).access = s.access := by
  simp only [wakeRequest]
  split <;> simp
@[simp] theorem wakeRequest_seq (n : LineNo) (c : WakeCause) : (wakeRequest n c s).seq = s.seq := by
  simp only [wakeRequest]
  split <;> simp
@[simp] theorem wakeRequest_mgmt (n : LineNo) (c : WakeCause) : (wakeRequest n c s).mgmt = s.mgmt := by
  simp only [wakeRequest]
  split <;> simp
@[simp] theorem wakeRequest_memory (n : LineNo) (c : WakeCause) : (wakeRequest n c s).memory = s.memory := by
  simp only [wakeRequest]
  split <;> simp

@[simp] theorem enter_pending (n : LineNo) (a : LineState) (r : Reason) : (enter n a r s).pending = s.pending := by
  simp only [enter]
  split <;> simp
@[simp] theorem enter_trainLimit (n : LineNo) (a : LineState) (r : Reason) : (enter n a r s).trainLimit = s.trainLimit := by
  simp only [enter]
  split <;> simp
@[simp] theorem enter_wakeLimit (n : LineNo) (a : LineState) (r : Reason) : (enter n a r s).wakeLimit = s.wakeLimit := by
  simp only [enter]
  split <;> simp
@[simp] theorem enter_access (n : LineNo) (a : LineState) (r : Reason) : (enter n a r s).access = s.access := by
  simp only [enter]
  split <;> simp
@[simp] theorem enter_seq (n : LineNo) (a : LineState) (r : Reason) : (enter n a r s).seq = s.seq := by
  simp only [enter]
  split <;> simp
@[simp] theorem enter_mgmt (n : LineNo) (a : LineState) (r : Reason) : (enter n a r s).mgmt = s.mgmt := by
  simp only [enter]
  split <;> simp
@[simp] theorem enter_memory (n : LineNo) (a : LineState) (r : Reason) : (enter n a r s).memory = s.memory := by
  simp only [enter]
  split <;> simp

@[simp] theorem rederiveQuiet_pending (n : LineNo) : (rederiveQuiet n s).pending = s.pending := by
  simp only [rederiveQuiet]
  split <;> simp
@[simp] theorem rederiveQuiet_trainLimit (n : LineNo) : (rederiveQuiet n s).trainLimit = s.trainLimit := by
  simp only [rederiveQuiet]
  split <;> simp
@[simp] theorem rederiveQuiet_wakeLimit (n : LineNo) : (rederiveQuiet n s).wakeLimit = s.wakeLimit := by
  simp only [rederiveQuiet]
  split <;> simp
@[simp] theorem rederiveQuiet_access (n : LineNo) : (rederiveQuiet n s).access = s.access := by
  simp only [rederiveQuiet]
  split <;> simp
@[simp] theorem rederiveQuiet_seq (n : LineNo) : (rederiveQuiet n s).seq = s.seq := by
  simp only [rederiveQuiet]
  split <;> simp
@[simp] theorem rederiveQuiet_mgmt (n : LineNo) : (rederiveQuiet n s).mgmt = s.mgmt := by
  simp only [rederiveQuiet]
  split <;> simp
@[simp] theorem rederiveQuiet_memory (n : LineNo) : (rederiveQuiet n s).memory = s.memory := by
  simp only [rederiveQuiet]
  split <;> simp

@[simp] theorem rederiveAll_pending : (rederiveAll s).pending = s.pending := by simp [rederiveAll, foldl_keeps (fun t : State => t.pending)]
@[simp] theorem rederiveAll_trainLimit : (rederiveAll s).trainLimit = s.trainLimit := by simp [rederiveAll, foldl_keeps (fun t : State => t.trainLimit)]
@[simp] theorem rederiveAll_wakeLimit : (rederiveAll s).wakeLimit = s.wakeLimit := by simp [rederiveAll, foldl_keeps (fun t : State => t.wakeLimit)]
@[simp] theorem rederiveAll_access : (rederiveAll s).access = s.access := by simp [rederiveAll, foldl_keeps (fun t : State => t.access)]
@[simp] theorem rederiveAll_seq : (rederiveAll s).seq = s.seq := by simp [rederiveAll, foldl_keeps (fun t : State => t.seq)]
@[simp] theorem rederiveAll_mgmt : (rederiveAll s).mgmt = s.mgmt := by simp [rederiveAll, foldl_keeps (fun t : State => t.mgmt)]
@[simp] theorem rederiveAll_memory : (rederiveAll s).memory = s.memory := by simp [rederiveAll, foldl_keeps (fun t : State => t.memory)]

@[simp] theorem rederiveDormant_pending (n : LineNo) : (rederiveDormant n s).pending = s.pending := by
  simp only [rederiveDormant]
  (repeat' split) <;> simp
@[simp] theorem rederiveDormant_trainLimit (n : LineNo) : (rederiveDormant n s).trainLimit = s.trainLimit := by
  simp only [rederiveDormant]
  (repeat' split) <;> simp
@[simp] theorem rederiveDormant_wakeLimit (n : LineNo) : (rederiveDormant n s).wakeLimit = s.wakeLimit := by
  simp only [rederiveDormant]
  (repeat' split) <;> simp
@[simp] theorem rederiveDormant_access (n : LineNo) : (rederiveDormant n s).access = s.access := by
  simp only [rederiveDormant]
  (repeat' split) <;> simp
@[simp] theorem rederiveDormant_seq (n : LineNo) : (rederiveDormant n s).seq = s.seq := by
  simp only [rederiveDormant]
  (repeat' split) <;> simp
@[simp] theorem rederiveDormant_mgmt (n : LineNo) : (rederiveDormant n s).mgmt = s.mgmt := by
  simp only [rederiveDormant]
  (repeat' split) <;> simp
@[simp] theorem rederiveDormant_memory (n : LineNo) : (rederiveDormant n s).memory = s.memory := by
  simp only [rederiveDormant]
  (repeat' split) <;> simp

@[simp] theorem takeLine_pending (n : LineNo) : (takeLine n s).pending = s.pending := by
  simp only [takeLine]
  split <;> simp
@[simp] theorem takeLine_trainLimit (n : LineNo) : (takeLine n s).trainLimit = s.trainLimit := by
  simp only [takeLine]
  split <;> simp
@[simp] theorem takeLine_wakeLimit (n : LineNo) : (takeLine n s).wakeLimit = s.wakeLimit := by
  simp only [takeLine]
  split <;> simp
@[simp] theorem takeLine_access (n : LineNo) : (takeLine n s).access = s.access := by
  simp only [takeLine]
  split <;> simp
@[simp] theorem takeLine_seq (n : LineNo) : (takeLine n s).seq = s.seq := by
  simp only [takeLine]
  split <;> simp
@[simp] theorem takeLine_mgmt (n : LineNo) : (takeLine n s).mgmt = s.mgmt := by
  simp only [takeLine]
  split <;> simp
@[simp] theorem takeLine_memory (n : LineNo) : (takeLine n s).memory = s.memory := by
  simp only [takeLine]
  split <;> simp

@[simp] theorem returnLine_pending (n : LineNo) (g : Option Grade) : (returnLine n g s).pending = s.pending := by
  simp only [returnLine]
  (repeat' split) <;> simp
@[simp] theorem returnLine_trainLimit (n : LineNo) (g : Option Grade) : (returnLine n g s).trainLimit = s.trainLimit := by
  simp only [returnLine]
  (repeat' split) <;> simp
@[simp] theorem returnLine_wakeLimit (n : LineNo) (g : Option Grade) : (returnLine n g s).wakeLimit = s.wakeLimit := by
  simp only [returnLine]
  (repeat' split) <;> simp
@[simp] theorem returnLine_access (n : LineNo) (g : Option Grade) : (returnLine n g s).access = s.access := by
  simp only [returnLine]
  (repeat' split) <;> simp
@[simp] theorem returnLine_seq (n : LineNo) (g : Option Grade) : (returnLine n g s).seq = s.seq := by
  simp only [returnLine]
  (repeat' split) <;> simp
@[simp] theorem returnLine_mgmt (n : LineNo) (g : Option Grade) : (returnLine n g s).mgmt = s.mgmt := by
  simp only [returnLine]
  (repeat' split) <;> simp
@[simp] theorem returnLine_memory (n : LineNo) (g : Option Grade) : (returnLine n g s).memory = s.memory := by
  simp only [returnLine]
  (repeat' split) <;> simp

@[simp] theorem takeRates_pending (n : LineNo) (a b : Nat) : (takeRates n a b s).pending = s.pending := by simp [takeRates]
@[simp] theorem takeRates_stations (n : LineNo) (a b : Nat) : (takeRates n a b s).stations = s.stations := by simp [takeRates]
@[simp] theorem takeRates_trainLimit (n : LineNo) (a b : Nat) : (takeRates n a b s).trainLimit = s.trainLimit := by simp [takeRates]
@[simp] theorem takeRates_wakeLimit (n : LineNo) (a b : Nat) : (takeRates n a b s).wakeLimit = s.wakeLimit := by simp [takeRates]
@[simp] theorem takeRates_pool (n : LineNo) (a b : Nat) : (takeRates n a b s).pool = s.pool := by simp [takeRates]
@[simp] theorem takeRates_access (n : LineNo) (a b : Nat) : (takeRates n a b s).access = s.access := by simp [takeRates]
@[simp] theorem takeRates_seq (n : LineNo) (a b : Nat) : (takeRates n a b s).seq = s.seq := by simp [takeRates]
@[simp] theorem takeRates_power (n : LineNo) (a b : Nat) : (takeRates n a b s).power = s.power := by simp [takeRates]
@[simp] theorem takeRates_counts (n : LineNo) (a b : Nat) : (takeRates n a b s).counts = s.counts := by simp [takeRates]
@[simp] theorem takeRates_mgmt (n : LineNo) (a b : Nat) : (takeRates n a b s).mgmt = s.mgmt := by simp [takeRates]
@[simp] theorem takeRates_memory (n : LineNo) (a b : Nat) : (takeRates n a b s).memory = s.memory := by simp [takeRates]

@[simp] theorem writeRecord_pending (r : TestRecord) : (writeRecord r s).pending = s.pending := by
  simp only [writeRecord]
  split <;> simp
@[simp] theorem writeRecord_stations (r : TestRecord) : (writeRecord r s).stations = s.stations := by
  simp only [writeRecord]
  split <;> simp
@[simp] theorem writeRecord_lines (r : TestRecord) : (writeRecord r s).lines = s.lines := by
  simp only [writeRecord]
  split <;> simp
@[simp] theorem writeRecord_trainLimit (r : TestRecord) : (writeRecord r s).trainLimit = s.trainLimit := by
  simp only [writeRecord]
  split <;> simp
@[simp] theorem writeRecord_wakeLimit (r : TestRecord) : (writeRecord r s).wakeLimit = s.wakeLimit := by
  simp only [writeRecord]
  split <;> simp
@[simp] theorem writeRecord_pool (r : TestRecord) : (writeRecord r s).pool = s.pool := by
  simp only [writeRecord]
  split <;> simp
@[simp] theorem writeRecord_shares (r : TestRecord) : (writeRecord r s).shares = s.shares := by
  simp only [writeRecord]
  split <;> simp
@[simp] theorem writeRecord_sched (r : TestRecord) : (writeRecord r s).sched = s.sched := by
  simp only [writeRecord]
  split <;> simp
@[simp] theorem writeRecord_access (r : TestRecord) : (writeRecord r s).access = s.access := by
  simp only [writeRecord]
  split <;> simp
@[simp] theorem writeRecord_power (r : TestRecord) : (writeRecord r s).power = s.power := by
  simp only [writeRecord]
  split <;> simp
@[simp] theorem writeRecord_mgmt (r : TestRecord) : (writeRecord r s).mgmt = s.mgmt := by
  simp only [writeRecord]
  split <;> simp
@[simp] theorem writeRecord_memory (r : TestRecord) : (writeRecord r s).memory = s.memory := by
  simp only [writeRecord]
  split <;> simp

@[simp] theorem writeGrade_pending (n : LineNo) (g : Grade) : (writeGrade n g s).pending = s.pending := by
  simp only [writeGrade]
  split <;> simp
@[simp] theorem writeGrade_stations (n : LineNo) (g : Grade) : (writeGrade n g s).stations = s.stations := by
  simp only [writeGrade]
  split <;> simp
@[simp] theorem writeGrade_trainLimit (n : LineNo) (g : Grade) : (writeGrade n g s).trainLimit = s.trainLimit := by
  simp only [writeGrade]
  split <;> simp
@[simp] theorem writeGrade_wakeLimit (n : LineNo) (g : Grade) : (writeGrade n g s).wakeLimit = s.wakeLimit := by
  simp only [writeGrade]
  split <;> simp
@[simp] theorem writeGrade_pool (n : LineNo) (g : Grade) : (writeGrade n g s).pool = s.pool := by
  simp only [writeGrade]
  split <;> simp
@[simp] theorem writeGrade_access (n : LineNo) (g : Grade) : (writeGrade n g s).access = s.access := by
  simp only [writeGrade]
  split <;> simp
@[simp] theorem writeGrade_seq (n : LineNo) (g : Grade) : (writeGrade n g s).seq = s.seq := by
  simp only [writeGrade]
  split <;> simp
@[simp] theorem writeGrade_power (n : LineNo) (g : Grade) : (writeGrade n g s).power = s.power := by
  simp only [writeGrade]
  split <;> simp
@[simp] theorem writeGrade_counts (n : LineNo) (g : Grade) : (writeGrade n g s).counts = s.counts := by
  simp only [writeGrade]
  split <;> simp
@[simp] theorem writeGrade_mgmt (n : LineNo) (g : Grade) : (writeGrade n g s).mgmt = s.mgmt := by
  simp only [writeGrade]
  split <;> simp
@[simp] theorem writeGrade_memory (n : LineNo) (g : Grade) : (writeGrade n g s).memory = s.memory := by
  simp only [writeGrade]
  split <;> simp

@[simp] theorem closeActivity_pending (o : Outcome) (b : Bool) : (closeActivity o b s).pending = s.pending := by
  simp only [closeActivity]
  (repeat' split) <;> simp
@[simp] theorem closeActivity_trainLimit (o : Outcome) (b : Bool) : (closeActivity o b s).trainLimit = s.trainLimit := by
  simp only [closeActivity]
  (repeat' split) <;> simp
@[simp] theorem closeActivity_wakeLimit (o : Outcome) (b : Bool) : (closeActivity o b s).wakeLimit = s.wakeLimit := by
  simp only [closeActivity]
  (repeat' split) <;> simp
@[simp] theorem closeActivity_access (o : Outcome) (b : Bool) : (closeActivity o b s).access = s.access := by
  simp only [closeActivity]
  (repeat' split) <;> simp
@[simp] theorem closeActivity_mgmt (o : Outcome) (b : Bool) : (closeActivity o b s).mgmt = s.mgmt := by
  simp only [closeActivity]
  (repeat' split) <;> simp
@[simp] theorem closeActivity_memory (o : Outcome) (b : Bool) : (closeActivity o b s).memory = s.memory := by
  simp only [closeActivity]
  (repeat' split) <;> simp

@[simp] theorem modAct_pending (f : Activity → Activity) : (modAct f s).pending = s.pending := by simp [modAct]
@[simp] theorem modAct_stations (f : Activity → Activity) : (modAct f s).stations = s.stations := by simp [modAct]
@[simp] theorem modAct_lines (f : Activity → Activity) : (modAct f s).lines = s.lines := by simp [modAct]
@[simp] theorem modAct_trainLimit (f : Activity → Activity) : (modAct f s).trainLimit = s.trainLimit := by simp [modAct]
@[simp] theorem modAct_wakeLimit (f : Activity → Activity) : (modAct f s).wakeLimit = s.wakeLimit := by simp [modAct]
@[simp] theorem modAct_pool (f : Activity → Activity) : (modAct f s).pool = s.pool := by simp [modAct]
@[simp] theorem modAct_shares (f : Activity → Activity) : (modAct f s).shares = s.shares := by simp [modAct]
@[simp] theorem modAct_sched (f : Activity → Activity) : (modAct f s).sched = s.sched := by simp [modAct]
@[simp] theorem modAct_access (f : Activity → Activity) : (modAct f s).access = s.access := by simp [modAct]
@[simp] theorem modAct_power (f : Activity → Activity) : (modAct f s).power = s.power := by simp [modAct]
@[simp] theorem modAct_counts (f : Activity → Activity) : (modAct f s).counts = s.counts := by simp [modAct]
@[simp] theorem modAct_mgmt (f : Activity → Activity) : (modAct f s).mgmt = s.mgmt := by simp [modAct]
@[simp] theorem modAct_memory (f : Activity → Activity) : (modAct f s).memory = s.memory := by simp [modAct]

@[simp] theorem releaseStep_pending : (releaseStep s).pending = s.pending := by simp [releaseStep]
@[simp] theorem releaseStep_stations : (releaseStep s).stations = s.stations := by simp [releaseStep]
@[simp] theorem releaseStep_lines : (releaseStep s).lines = s.lines := by simp [releaseStep]
@[simp] theorem releaseStep_trainLimit : (releaseStep s).trainLimit = s.trainLimit := by simp [releaseStep]
@[simp] theorem releaseStep_wakeLimit : (releaseStep s).wakeLimit = s.wakeLimit := by simp [releaseStep]
@[simp] theorem releaseStep_pool : (releaseStep s).pool = s.pool := by simp [releaseStep]
@[simp] theorem releaseStep_shares : (releaseStep s).shares = s.shares := by simp [releaseStep]
@[simp] theorem releaseStep_sched : (releaseStep s).sched = s.sched := by simp [releaseStep]
@[simp] theorem releaseStep_power : (releaseStep s).power = s.power := by simp [releaseStep]
@[simp] theorem releaseStep_counts : (releaseStep s).counts = s.counts := by simp [releaseStep]
@[simp] theorem releaseStep_mgmt : (releaseStep s).mgmt = s.mgmt := by simp [releaseStep]
@[simp] theorem releaseStep_memory : (releaseStep s).memory = s.memory := by simp [releaseStep]

@[simp] theorem connectStep_pending (n : LineNo) : (connectStep n s).pending = s.pending := by simp [connectStep]
@[simp] theorem connectStep_stations (n : LineNo) : (connectStep n s).stations = s.stations := by simp [connectStep]
@[simp] theorem connectStep_lines (n : LineNo) : (connectStep n s).lines = s.lines := by simp [connectStep]
@[simp] theorem connectStep_trainLimit (n : LineNo) : (connectStep n s).trainLimit = s.trainLimit := by simp [connectStep]
@[simp] theorem connectStep_wakeLimit (n : LineNo) : (connectStep n s).wakeLimit = s.wakeLimit := by simp [connectStep]
@[simp] theorem connectStep_pool (n : LineNo) : (connectStep n s).pool = s.pool := by simp [connectStep]
@[simp] theorem connectStep_shares (n : LineNo) : (connectStep n s).shares = s.shares := by simp [connectStep]
@[simp] theorem connectStep_sched (n : LineNo) : (connectStep n s).sched = s.sched := by simp [connectStep]
@[simp] theorem connectStep_power (n : LineNo) : (connectStep n s).power = s.power := by simp [connectStep]
@[simp] theorem connectStep_counts (n : LineNo) : (connectStep n s).counts = s.counts := by simp [connectStep]
@[simp] theorem connectStep_mgmt (n : LineNo) : (connectStep n s).mgmt = s.mgmt := by simp [connectStep]
@[simp] theorem connectStep_memory (n : LineNo) : (connectStep n s).memory = s.memory := by simp [connectStep]

@[simp] theorem startStep_pending : (startStep s).pending = s.pending := by
  simp only [startStep]
  (repeat' split) <;> simp
@[simp] theorem startStep_stations : (startStep s).stations = s.stations := by
  simp only [startStep]
  (repeat' split) <;> simp
@[simp] theorem startStep_lines : (startStep s).lines = s.lines := by
  simp only [startStep]
  (repeat' split) <;> simp
@[simp] theorem startStep_trainLimit : (startStep s).trainLimit = s.trainLimit := by
  simp only [startStep]
  (repeat' split) <;> simp
@[simp] theorem startStep_wakeLimit : (startStep s).wakeLimit = s.wakeLimit := by
  simp only [startStep]
  (repeat' split) <;> simp
@[simp] theorem startStep_pool : (startStep s).pool = s.pool := by
  simp only [startStep]
  (repeat' split) <;> simp
@[simp] theorem startStep_shares : (startStep s).shares = s.shares := by
  simp only [startStep]
  (repeat' split) <;> simp
@[simp] theorem startStep_sched : (startStep s).sched = s.sched := by
  simp only [startStep]
  (repeat' split) <;> simp
@[simp] theorem startStep_power : (startStep s).power = s.power := by
  simp only [startStep]
  (repeat' split) <;> simp
@[simp] theorem startStep_counts : (startStep s).counts = s.counts := by
  simp only [startStep]
  (repeat' split) <;> simp
@[simp] theorem startStep_mgmt : (startStep s).mgmt = s.mgmt := by
  simp only [startStep]
  (repeat' split) <;> simp
@[simp] theorem startStep_memory : (startStep s).memory = s.memory := by
  simp only [startStep]
  (repeat' split) <;> simp

@[simp] theorem nextStep_pending : (nextStep s).pending = s.pending := by
  simp only [nextStep]
  split <;> simp
@[simp] theorem nextStep_stations : (nextStep s).stations = s.stations := by
  simp only [nextStep]
  split <;> simp
@[simp] theorem nextStep_lines : (nextStep s).lines = s.lines := by
  simp only [nextStep]
  split <;> simp
@[simp] theorem nextStep_trainLimit : (nextStep s).trainLimit = s.trainLimit := by
  simp only [nextStep]
  split <;> simp
@[simp] theorem nextStep_wakeLimit : (nextStep s).wakeLimit = s.wakeLimit := by
  simp only [nextStep]
  split <;> simp
@[simp] theorem nextStep_pool : (nextStep s).pool = s.pool := by
  simp only [nextStep]
  split <;> simp
@[simp] theorem nextStep_shares : (nextStep s).shares = s.shares := by
  simp only [nextStep]
  split <;> simp
@[simp] theorem nextStep_sched : (nextStep s).sched = s.sched := by
  simp only [nextStep]
  split <;> simp
@[simp] theorem nextStep_power : (nextStep s).power = s.power := by
  simp only [nextStep]
  split <;> simp
@[simp] theorem nextStep_counts : (nextStep s).counts = s.counts := by
  simp only [nextStep]
  split <;> simp
@[simp] theorem nextStep_mgmt : (nextStep s).mgmt = s.mgmt := by
  simp only [nextStep]
  split <;> simp
@[simp] theorem nextStep_memory : (nextStep s).memory = s.memory := by
  simp only [nextStep]
  split <;> simp

@[simp] theorem suspendSeq_pending : (suspendSeq s).pending = s.pending := by
  simp only [suspendSeq]
  split <;> simp
@[simp] theorem suspendSeq_stations : (suspendSeq s).stations = s.stations := by
  simp only [suspendSeq]
  split <;> simp
@[simp] theorem suspendSeq_lines : (suspendSeq s).lines = s.lines := by
  simp only [suspendSeq]
  split <;> simp
@[simp] theorem suspendSeq_trainLimit : (suspendSeq s).trainLimit = s.trainLimit := by
  simp only [suspendSeq]
  split <;> simp
@[simp] theorem suspendSeq_wakeLimit : (suspendSeq s).wakeLimit = s.wakeLimit := by
  simp only [suspendSeq]
  split <;> simp
@[simp] theorem suspendSeq_pool : (suspendSeq s).pool = s.pool := by
  simp only [suspendSeq]
  split <;> simp
@[simp] theorem suspendSeq_shares : (suspendSeq s).shares = s.shares := by
  simp only [suspendSeq]
  split <;> simp
@[simp] theorem suspendSeq_sched : (suspendSeq s).sched = s.sched := by
  simp only [suspendSeq]
  split <;> simp
@[simp] theorem suspendSeq_access : (suspendSeq s).access = s.access := by
  simp only [suspendSeq]
  split <;> simp
@[simp] theorem suspendSeq_power : (suspendSeq s).power = s.power := by
  simp only [suspendSeq]
  split <;> simp
@[simp] theorem suspendSeq_mgmt : (suspendSeq s).mgmt = s.mgmt := by
  simp only [suspendSeq]
  split <;> simp
@[simp] theorem suspendSeq_memory : (suspendSeq s).memory = s.memory := by
  simp only [suspendSeq]
  split <;> simp

@[simp] theorem heldReport_pending : (heldReport s).pending = s.pending := by
  simp only [heldReport, boundary]
  (repeat' split) <;> simp
@[simp] theorem heldReport_stations : (heldReport s).stations = s.stations := by
  simp only [heldReport, boundary]
  (repeat' split) <;> simp
@[simp] theorem heldReport_lines : (heldReport s).lines = s.lines := by
  simp only [heldReport, boundary]
  (repeat' split) <;> simp
@[simp] theorem heldReport_trainLimit : (heldReport s).trainLimit = s.trainLimit := by
  simp only [heldReport, boundary]
  (repeat' split) <;> simp
@[simp] theorem heldReport_wakeLimit : (heldReport s).wakeLimit = s.wakeLimit := by
  simp only [heldReport, boundary]
  (repeat' split) <;> simp
@[simp] theorem heldReport_pool : (heldReport s).pool = s.pool := by
  simp only [heldReport, boundary]
  (repeat' split) <;> simp
@[simp] theorem heldReport_shares : (heldReport s).shares = s.shares := by
  simp only [heldReport, boundary]
  (repeat' split) <;> simp
@[simp] theorem heldReport_sched : (heldReport s).sched = s.sched := by
  simp only [heldReport, boundary]
  (repeat' split) <;> simp
@[simp] theorem heldReport_power : (heldReport s).power = s.power := by
  simp only [heldReport, boundary]
  (repeat' split) <;> simp
@[simp] theorem heldReport_mgmt : (heldReport s).mgmt = s.mgmt := by
  simp only [heldReport, boundary]
  (repeat' split) <;> simp
@[simp] theorem heldReport_memory : (heldReport s).memory = s.memory := by
  simp only [heldReport, boundary]
  (repeat' split) <;> simp

@[simp] theorem resultStep_pending (r : Result) : (resultStep r s).pending = s.pending := by
  simp only [resultStep, boundary]
  (repeat' split) <;> simp
@[simp] theorem resultStep_stations (r : Result) : (resultStep r s).stations = s.stations := by
  simp only [resultStep, boundary]
  (repeat' split) <;> simp
@[simp] theorem resultStep_lines (r : Result) : (resultStep r s).lines = s.lines := by
  simp only [resultStep, boundary]
  (repeat' split) <;> simp
@[simp] theorem resultStep_trainLimit (r : Result) : (resultStep r s).trainLimit = s.trainLimit := by
  simp only [resultStep, boundary]
  (repeat' split) <;> simp
@[simp] theorem resultStep_wakeLimit (r : Result) : (resultStep r s).wakeLimit = s.wakeLimit := by
  simp only [resultStep, boundary]
  (repeat' split) <;> simp
@[simp] theorem resultStep_pool (r : Result) : (resultStep r s).pool = s.pool := by
  simp only [resultStep, boundary]
  (repeat' split) <;> simp
@[simp] theorem resultStep_shares (r : Result) : (resultStep r s).shares = s.shares := by
  simp only [resultStep, boundary]
  (repeat' split) <;> simp
@[simp] theorem resultStep_sched (r : Result) : (resultStep r s).sched = s.sched := by
  simp only [resultStep, boundary]
  (repeat' split) <;> simp
@[simp] theorem resultStep_power (r : Result) : (resultStep r s).power = s.power := by
  simp only [resultStep, boundary]
  (repeat' split) <;> simp
@[simp] theorem resultStep_mgmt (r : Result) : (resultStep r s).mgmt = s.mgmt := by
  simp only [resultStep, boundary]
  (repeat' split) <;> simp
@[simp] theorem resultStep_memory (r : Result) : (resultStep r s).memory = s.memory := by
  simp only [resultStep, boundary]
  (repeat' split) <;> simp

@[simp] theorem stopStep_pending : (stopStep s).pending = s.pending := by
  simp only [stopStep]
  (repeat' split) <;> simp
@[simp] theorem stopStep_stations : (stopStep s).stations = s.stations := by
  simp only [stopStep]
  (repeat' split) <;> simp
@[simp] theorem stopStep_lines : (stopStep s).lines = s.lines := by
  simp only [stopStep]
  (repeat' split) <;> simp
@[simp] theorem stopStep_trainLimit : (stopStep s).trainLimit = s.trainLimit := by
  simp only [stopStep]
  (repeat' split) <;> simp
@[simp] theorem stopStep_wakeLimit : (stopStep s).wakeLimit = s.wakeLimit := by
  simp only [stopStep]
  (repeat' split) <;> simp
@[simp] theorem stopStep_pool : (stopStep s).pool = s.pool := by
  simp only [stopStep]
  (repeat' split) <;> simp
@[simp] theorem stopStep_shares : (stopStep s).shares = s.shares := by
  simp only [stopStep]
  (repeat' split) <;> simp
@[simp] theorem stopStep_sched : (stopStep s).sched = s.sched := by
  simp only [stopStep]
  (repeat' split) <;> simp
@[simp] theorem stopStep_power : (stopStep s).power = s.power := by
  simp only [stopStep]
  (repeat' split) <;> simp
@[simp] theorem stopStep_counts : (stopStep s).counts = s.counts := by
  simp only [stopStep]
  (repeat' split) <;> simp
@[simp] theorem stopStep_mgmt : (stopStep s).mgmt = s.mgmt := by
  simp only [stopStep]
  (repeat' split) <;> simp
@[simp] theorem stopStep_memory : (stopStep s).memory = s.memory := by
  simp only [stopStep]
  (repeat' split) <;> simp

@[simp] theorem setDue_pending (g : Fin 4) (n : LineNo) (b : Bool) : (setDue g n b s).pending = s.pending := by simp [setDue]
@[simp] theorem setDue_stations (g : Fin 4) (n : LineNo) (b : Bool) : (setDue g n b s).stations = s.stations := by simp [setDue]
@[simp] theorem setDue_lines (g : Fin 4) (n : LineNo) (b : Bool) : (setDue g n b s).lines = s.lines := by simp [setDue]
@[simp] theorem setDue_trainLimit (g : Fin 4) (n : LineNo) (b : Bool) : (setDue g n b s).trainLimit = s.trainLimit := by simp [setDue]
@[simp] theorem setDue_wakeLimit (g : Fin 4) (n : LineNo) (b : Bool) : (setDue g n b s).wakeLimit = s.wakeLimit := by simp [setDue]
@[simp] theorem setDue_pool (g : Fin 4) (n : LineNo) (b : Bool) : (setDue g n b s).pool = s.pool := by simp [setDue]
@[simp] theorem setDue_shares (g : Fin 4) (n : LineNo) (b : Bool) : (setDue g n b s).shares = s.shares := by simp [setDue]
@[simp] theorem setDue_sched (g : Fin 4) (n : LineNo) (b : Bool) : (setDue g n b s).sched = s.sched := by simp [setDue]
@[simp] theorem setDue_access (g : Fin 4) (n : LineNo) (b : Bool) : (setDue g n b s).access = s.access := by simp [setDue]
@[simp] theorem setDue_power (g : Fin 4) (n : LineNo) (b : Bool) : (setDue g n b s).power = s.power := by simp [setDue]
@[simp] theorem setDue_counts (g : Fin 4) (n : LineNo) (b : Bool) : (setDue g n b s).counts = s.counts := by simp [setDue]
@[simp] theorem setDue_mgmt (g : Fin 4) (n : LineNo) (b : Bool) : (setDue g n b s).mgmt = s.mgmt := by simp [setDue]
@[simp] theorem setDue_memory (g : Fin 4) (n : LineNo) (b : Bool) : (setDue g n b s).memory = s.memory := by simp [setDue]

@[simp] theorem offerRoutine_pending (g : Fin 4) (n : LineNo) : (offerRoutine g n s).pending = s.pending := by
  simp only [offerRoutine]
  (repeat' split) <;> simp
@[simp] theorem offerRoutine_stations (g : Fin 4) (n : LineNo) : (offerRoutine g n s).stations = s.stations := by
  simp only [offerRoutine]
  (repeat' split) <;> simp
@[simp] theorem offerRoutine_lines (g : Fin 4) (n : LineNo) : (offerRoutine g n s).lines = s.lines := by
  simp only [offerRoutine]
  (repeat' split) <;> simp
@[simp] theorem offerRoutine_trainLimit (g : Fin 4) (n : LineNo) : (offerRoutine g n s).trainLimit = s.trainLimit := by
  simp only [offerRoutine]
  (repeat' split) <;> simp
@[simp] theorem offerRoutine_wakeLimit (g : Fin 4) (n : LineNo) : (offerRoutine g n s).wakeLimit = s.wakeLimit := by
  simp only [offerRoutine]
  (repeat' split) <;> simp
@[simp] theorem offerRoutine_pool (g : Fin 4) (n : LineNo) : (offerRoutine g n s).pool = s.pool := by
  simp only [offerRoutine]
  (repeat' split) <;> simp
@[simp] theorem offerRoutine_shares (g : Fin 4) (n : LineNo) : (offerRoutine g n s).shares = s.shares := by
  simp only [offerRoutine]
  (repeat' split) <;> simp
@[simp] theorem offerRoutine_sched (g : Fin 4) (n : LineNo) : (offerRoutine g n s).sched = s.sched := by
  simp only [offerRoutine]
  (repeat' split) <;> simp
@[simp] theorem offerRoutine_access (g : Fin 4) (n : LineNo) : (offerRoutine g n s).access = s.access := by
  simp only [offerRoutine]
  (repeat' split) <;> simp
@[simp] theorem offerRoutine_power (g : Fin 4) (n : LineNo) : (offerRoutine g n s).power = s.power := by
  simp only [offerRoutine]
  (repeat' split) <;> simp
@[simp] theorem offerRoutine_counts (g : Fin 4) (n : LineNo) : (offerRoutine g n s).counts = s.counts := by
  simp only [offerRoutine]
  (repeat' split) <;> simp
@[simp] theorem offerRoutine_mgmt (g : Fin 4) (n : LineNo) : (offerRoutine g n s).mgmt = s.mgmt := by
  simp only [offerRoutine]
  (repeat' split) <;> simp
@[simp] theorem offerRoutine_memory (g : Fin 4) (n : LineNo) : (offerRoutine g n s).memory = s.memory := by
  simp only [offerRoutine]
  (repeat' split) <;> simp

@[simp] theorem offerDue_pending (g : Fin 4) (n : LineNo) : (offerDue g n s).pending = s.pending := by
  simp only [offerDue]
  (repeat' split) <;> simp
@[simp] theorem offerDue_stations (g : Fin 4) (n : LineNo) : (offerDue g n s).stations = s.stations := by
  simp only [offerDue]
  (repeat' split) <;> simp
@[simp] theorem offerDue_lines (g : Fin 4) (n : LineNo) : (offerDue g n s).lines = s.lines := by
  simp only [offerDue]
  (repeat' split) <;> simp
@[simp] theorem offerDue_trainLimit (g : Fin 4) (n : LineNo) : (offerDue g n s).trainLimit = s.trainLimit := by
  simp only [offerDue]
  (repeat' split) <;> simp
@[simp] theorem offerDue_wakeLimit (g : Fin 4) (n : LineNo) : (offerDue g n s).wakeLimit = s.wakeLimit := by
  simp only [offerDue]
  (repeat' split) <;> simp
@[simp] theorem offerDue_pool (g : Fin 4) (n : LineNo) : (offerDue g n s).pool = s.pool := by
  simp only [offerDue]
  (repeat' split) <;> simp
@[simp] theorem offerDue_shares (g : Fin 4) (n : LineNo) : (offerDue g n s).shares = s.shares := by
  simp only [offerDue]
  (repeat' split) <;> simp
@[simp] theorem offerDue_sched (g : Fin 4) (n : LineNo) : (offerDue g n s).sched = s.sched := by
  simp only [offerDue]
  (repeat' split) <;> simp
@[simp] theorem offerDue_access (g : Fin 4) (n : LineNo) : (offerDue g n s).access = s.access := by
  simp only [offerDue]
  (repeat' split) <;> simp
@[simp] theorem offerDue_power (g : Fin 4) (n : LineNo) : (offerDue g n s).power = s.power := by
  simp only [offerDue]
  (repeat' split) <;> simp
@[simp] theorem offerDue_counts (g : Fin 4) (n : LineNo) : (offerDue g n s).counts = s.counts := by
  simp only [offerDue]
  (repeat' split) <;> simp
@[simp] theorem offerDue_mgmt (g : Fin 4) (n : LineNo) : (offerDue g n s).mgmt = s.mgmt := by
  simp only [offerDue]
  (repeat' split) <;> simp
@[simp] theorem offerDue_memory (g : Fin 4) (n : LineNo) : (offerDue g n s).memory = s.memory := by
  simp only [offerDue]
  (repeat' split) <;> simp

@[simp] theorem placeFreed_pending : (placeFreed s).pending = s.pending := by
  simp only [placeFreed]
  exact foldl_keeps (fun t : State => t.pending) _ (fun t g => foldl_keeps (fun t : State => t.pending) _ (fun u n => by simp) _ t) _ s
@[simp] theorem placeFreed_stations : (placeFreed s).stations = s.stations := by
  simp only [placeFreed]
  exact foldl_keeps (fun t : State => t.stations) _ (fun t g => foldl_keeps (fun t : State => t.stations) _ (fun u n => by simp) _ t) _ s
@[simp] theorem placeFreed_lines : (placeFreed s).lines = s.lines := by
  simp only [placeFreed]
  exact foldl_keeps (fun t : State => t.lines) _ (fun t g => foldl_keeps (fun t : State => t.lines) _ (fun u n => by simp) _ t) _ s
@[simp] theorem placeFreed_trainLimit : (placeFreed s).trainLimit = s.trainLimit := by
  simp only [placeFreed]
  exact foldl_keeps (fun t : State => t.trainLimit) _ (fun t g => foldl_keeps (fun t : State => t.trainLimit) _ (fun u n => by simp) _ t) _ s
@[simp] theorem placeFreed_wakeLimit : (placeFreed s).wakeLimit = s.wakeLimit := by
  simp only [placeFreed]
  exact foldl_keeps (fun t : State => t.wakeLimit) _ (fun t g => foldl_keeps (fun t : State => t.wakeLimit) _ (fun u n => by simp) _ t) _ s
@[simp] theorem placeFreed_pool : (placeFreed s).pool = s.pool := by
  simp only [placeFreed]
  exact foldl_keeps (fun t : State => t.pool) _ (fun t g => foldl_keeps (fun t : State => t.pool) _ (fun u n => by simp) _ t) _ s
@[simp] theorem placeFreed_shares : (placeFreed s).shares = s.shares := by
  simp only [placeFreed]
  exact foldl_keeps (fun t : State => t.shares) _ (fun t g => foldl_keeps (fun t : State => t.shares) _ (fun u n => by simp) _ t) _ s
@[simp] theorem placeFreed_sched : (placeFreed s).sched = s.sched := by
  simp only [placeFreed]
  exact foldl_keeps (fun t : State => t.sched) _ (fun t g => foldl_keeps (fun t : State => t.sched) _ (fun u n => by simp) _ t) _ s
@[simp] theorem placeFreed_access : (placeFreed s).access = s.access := by
  simp only [placeFreed]
  exact foldl_keeps (fun t : State => t.access) _ (fun t g => foldl_keeps (fun t : State => t.access) _ (fun u n => by simp) _ t) _ s
@[simp] theorem placeFreed_power : (placeFreed s).power = s.power := by
  simp only [placeFreed]
  exact foldl_keeps (fun t : State => t.power) _ (fun t g => foldl_keeps (fun t : State => t.power) _ (fun u n => by simp) _ t) _ s
@[simp] theorem placeFreed_counts : (placeFreed s).counts = s.counts := by
  simp only [placeFreed]
  exact foldl_keeps (fun t : State => t.counts) _ (fun t g => foldl_keeps (fun t : State => t.counts) _ (fun u n => by simp) _ t) _ s
@[simp] theorem placeFreed_mgmt : (placeFreed s).mgmt = s.mgmt := by
  simp only [placeFreed]
  exact foldl_keeps (fun t : State => t.mgmt) _ (fun t g => foldl_keeps (fun t : State => t.mgmt) _ (fun u n => by simp) _ t) _ s
@[simp] theorem placeFreed_memory : (placeFreed s).memory = s.memory := by
  simp only [placeFreed]
  exact foldl_keeps (fun t : State => t.memory) _ (fun t g => foldl_keeps (fun t : State => t.memory) _ (fun u n => by simp) _ t) _ s

@[simp] theorem skipRecord_pending (n : LineNo) (p : Fin 8) : (skipRecord n p s).pending = s.pending := by simp [skipRecord]
@[simp] theorem skipRecord_stations (n : LineNo) (p : Fin 8) : (skipRecord n p s).stations = s.stations := by simp [skipRecord]
@[simp] theorem skipRecord_lines (n : LineNo) (p : Fin 8) : (skipRecord n p s).lines = s.lines := by simp [skipRecord]
@[simp] theorem skipRecord_trainLimit (n : LineNo) (p : Fin 8) : (skipRecord n p s).trainLimit = s.trainLimit := by simp [skipRecord]
@[simp] theorem skipRecord_wakeLimit (n : LineNo) (p : Fin 8) : (skipRecord n p s).wakeLimit = s.wakeLimit := by simp [skipRecord]
@[simp] theorem skipRecord_pool (n : LineNo) (p : Fin 8) : (skipRecord n p s).pool = s.pool := by simp [skipRecord]
@[simp] theorem skipRecord_shares (n : LineNo) (p : Fin 8) : (skipRecord n p s).shares = s.shares := by simp [skipRecord]
@[simp] theorem skipRecord_sched (n : LineNo) (p : Fin 8) : (skipRecord n p s).sched = s.sched := by simp [skipRecord]
@[simp] theorem skipRecord_access (n : LineNo) (p : Fin 8) : (skipRecord n p s).access = s.access := by simp [skipRecord]
@[simp] theorem skipRecord_power (n : LineNo) (p : Fin 8) : (skipRecord n p s).power = s.power := by simp [skipRecord]
@[simp] theorem skipRecord_mgmt (n : LineNo) (p : Fin 8) : (skipRecord n p s).mgmt = s.mgmt := by simp [skipRecord]
@[simp] theorem skipRecord_memory (n : LineNo) (p : Fin 8) : (skipRecord n p s).memory = s.memory := by simp [skipRecord]

@[simp] theorem deferRequest_pending (r : TestRequest) : (deferRequest r s).pending = s.pending := by
  simp only [deferRequest]
  (repeat' split) <;> simp
@[simp] theorem deferRequest_stations (r : TestRequest) : (deferRequest r s).stations = s.stations := by
  simp only [deferRequest]
  (repeat' split) <;> simp
@[simp] theorem deferRequest_lines (r : TestRequest) : (deferRequest r s).lines = s.lines := by
  simp only [deferRequest]
  (repeat' split) <;> simp
@[simp] theorem deferRequest_trainLimit (r : TestRequest) : (deferRequest r s).trainLimit = s.trainLimit := by
  simp only [deferRequest]
  (repeat' split) <;> simp
@[simp] theorem deferRequest_wakeLimit (r : TestRequest) : (deferRequest r s).wakeLimit = s.wakeLimit := by
  simp only [deferRequest]
  (repeat' split) <;> simp
@[simp] theorem deferRequest_pool (r : TestRequest) : (deferRequest r s).pool = s.pool := by
  simp only [deferRequest]
  (repeat' split) <;> simp
@[simp] theorem deferRequest_shares (r : TestRequest) : (deferRequest r s).shares = s.shares := by
  simp only [deferRequest]
  (repeat' split) <;> simp
@[simp] theorem deferRequest_sched (r : TestRequest) : (deferRequest r s).sched = s.sched := by
  simp only [deferRequest]
  (repeat' split) <;> simp
@[simp] theorem deferRequest_access (r : TestRequest) : (deferRequest r s).access = s.access := by
  simp only [deferRequest]
  (repeat' split) <;> simp
@[simp] theorem deferRequest_power (r : TestRequest) : (deferRequest r s).power = s.power := by
  simp only [deferRequest]
  (repeat' split) <;> simp
@[simp] theorem deferRequest_mgmt (r : TestRequest) : (deferRequest r s).mgmt = s.mgmt := by
  simp only [deferRequest]
  (repeat' split) <;> simp
@[simp] theorem deferRequest_memory (r : TestRequest) : (deferRequest r s).memory = s.memory := by
  simp only [deferRequest]
  (repeat' split) <;> simp

@[simp] theorem drainReport_pending (n : LineNo) : (drainReport n s).pending = s.pending := by
  simp only [drainReport]
  split <;> simp
@[simp] theorem drainReport_trainLimit (n : LineNo) : (drainReport n s).trainLimit = s.trainLimit := by
  simp only [drainReport]
  split <;> simp
@[simp] theorem drainReport_wakeLimit (n : LineNo) : (drainReport n s).wakeLimit = s.wakeLimit := by
  simp only [drainReport]
  split <;> simp
@[simp] theorem drainReport_mgmt (n : LineNo) : (drainReport n s).mgmt = s.mgmt := by
  simp only [drainReport]
  split <;> simp
@[simp] theorem drainReport_memory (n : LineNo) : (drainReport n s).memory = s.memory := by
  simp only [drainReport]
  split <;> simp

@[simp] theorem askForLine_pending (n : LineNo) : (askForLine n s).pending = s.pending := by
  simp only [askForLine]
  split <;> simp
@[simp] theorem askForLine_trainLimit (n : LineNo) : (askForLine n s).trainLimit = s.trainLimit := by
  simp only [askForLine]
  split <;> simp
@[simp] theorem askForLine_wakeLimit (n : LineNo) : (askForLine n s).wakeLimit = s.wakeLimit := by
  simp only [askForLine]
  split <;> simp
@[simp] theorem askForLine_mgmt (n : LineNo) : (askForLine n s).mgmt = s.mgmt := by
  simp only [askForLine]
  split <;> simp
@[simp] theorem askForLine_memory (n : LineNo) : (askForLine n s).memory = s.memory := by
  simp only [askForLine]
  split <;> simp

@[simp] theorem startRequest_pending (r : TestRequest) : (startRequest r s).pending = s.pending := by
  simp [startRequest]
@[simp] theorem startRequest_trainLimit (r : TestRequest) : (startRequest r s).trainLimit = s.trainLimit := by
  simp [startRequest]
@[simp] theorem startRequest_wakeLimit (r : TestRequest) : (startRequest r s).wakeLimit = s.wakeLimit := by
  simp [startRequest]
@[simp] theorem startRequest_mgmt (r : TestRequest) : (startRequest r s).mgmt = s.mgmt := by
  simp [startRequest]
@[simp] theorem startRequest_memory (r : TestRequest) : (startRequest r s).memory = s.memory := by
  simp [startRequest]

@[simp] theorem selectWalk_pending : ∀ (k : Nat) (s : State), (selectWalk k s).pending = s.pending
  | 0, _ => rfl
  | k + 1, s => by
    simp only [selectWalk]
    (repeat' split) <;> simp [selectWalk_pending k]
@[simp] theorem selectWalk_trainLimit : ∀ (k : Nat) (s : State), (selectWalk k s).trainLimit = s.trainLimit
  | 0, _ => rfl
  | k + 1, s => by
    simp only [selectWalk]
    (repeat' split) <;> simp [selectWalk_trainLimit k]
@[simp] theorem selectWalk_wakeLimit : ∀ (k : Nat) (s : State), (selectWalk k s).wakeLimit = s.wakeLimit
  | 0, _ => rfl
  | k + 1, s => by
    simp only [selectWalk]
    (repeat' split) <;> simp [selectWalk_wakeLimit k]
@[simp] theorem selectWalk_mgmt : ∀ (k : Nat) (s : State), (selectWalk k s).mgmt = s.mgmt
  | 0, _ => rfl
  | k + 1, s => by
    simp only [selectWalk]
    (repeat' split) <;> simp [selectWalk_mgmt k]
@[simp] theorem selectWalk_memory : ∀ (k : Nat) (s : State), (selectWalk k s).memory = s.memory
  | 0, _ => rfl
  | k + 1, s => by
    simp only [selectWalk]
    (repeat' split) <;> simp [selectWalk_memory k]

@[simp] theorem idleStep_pending : (idleStep s).pending = s.pending := by
  simp only [idleStep, boundary]
  (repeat' split) <;> simp
@[simp] theorem idleStep_trainLimit : (idleStep s).trainLimit = s.trainLimit := by
  simp only [idleStep, boundary]
  (repeat' split) <;> simp
@[simp] theorem idleStep_wakeLimit : (idleStep s).wakeLimit = s.wakeLimit := by
  simp only [idleStep, boundary]
  (repeat' split) <;> simp
@[simp] theorem idleStep_mgmt : (idleStep s).mgmt = s.mgmt := by
  simp only [idleStep, boundary]
  (repeat' split) <;> simp
@[simp] theorem idleStep_memory : (idleStep s).memory = s.memory := by
  simp only [idleStep, boundary]
  (repeat' split) <;> simp

@[simp] theorem joining_pending (offer : State → State) (h : ∀ u : State, (offer u).pending = u.pending) :
    (joining offer s).pending = s.pending := by
  simp only [joining]
  split <;> simp [h]
@[simp] theorem joining_trainLimit (offer : State → State) (h : ∀ u : State, (offer u).trainLimit = u.trainLimit) :
    (joining offer s).trainLimit = s.trainLimit := by
  simp only [joining]
  split <;> simp [h]
@[simp] theorem joining_wakeLimit (offer : State → State) (h : ∀ u : State, (offer u).wakeLimit = u.wakeLimit) :
    (joining offer s).wakeLimit = s.wakeLimit := by
  simp only [joining]
  split <;> simp [h]
@[simp] theorem joining_mgmt (offer : State → State) (h : ∀ u : State, (offer u).mgmt = u.mgmt) :
    (joining offer s).mgmt = s.mgmt := by
  simp only [joining]
  split <;> simp [h]
@[simp] theorem joining_memory (offer : State → State) (h : ∀ u : State, (offer u).memory = u.memory) :
    (joining offer s).memory = s.memory := by
  simp only [joining]
  split <;> simp [h]

@[simp] theorem placesFreed_pending : (placesFreed s).pending = s.pending := by
  simp only [placesFreed, idleStep_pending]
  exact foldl_keeps (fun t : State => t.pending) _ (fun t g => foldl_keeps (fun t : State => t.pending) _
    (fun u n => joining_pending u _ fun v => by simp) _ t) _ s
@[simp] theorem placesFreed_trainLimit : (placesFreed s).trainLimit = s.trainLimit := by
  simp only [placesFreed, idleStep_trainLimit]
  exact foldl_keeps (fun t : State => t.trainLimit) _ (fun t g => foldl_keeps (fun t : State => t.trainLimit) _
    (fun u n => joining_trainLimit u _ fun v => by simp) _ t) _ s
@[simp] theorem placesFreed_wakeLimit : (placesFreed s).wakeLimit = s.wakeLimit := by
  simp only [placesFreed, idleStep_wakeLimit]
  exact foldl_keeps (fun t : State => t.wakeLimit) _ (fun t g => foldl_keeps (fun t : State => t.wakeLimit) _
    (fun u n => joining_wakeLimit u _ fun v => by simp) _ t) _ s
@[simp] theorem placesFreed_mgmt : (placesFreed s).mgmt = s.mgmt := by
  simp only [placesFreed, idleStep_mgmt]
  exact foldl_keeps (fun t : State => t.mgmt) _ (fun t g => foldl_keeps (fun t : State => t.mgmt) _
    (fun u n => joining_mgmt u _ fun v => by simp) _ t) _ s
@[simp] theorem placesFreed_memory : (placesFreed s).memory = s.memory := by
  simp only [placesFreed, idleStep_memory]
  exact foldl_keeps (fun t : State => t.memory) _ (fun t g => foldl_keeps (fun t : State => t.memory) _
    (fun u n => joining_memory u _ fun v => by simp) _ t) _ s

@[simp] theorem enterIdle_pending : (enterIdle s).pending = s.pending := by simp [enterIdle]
@[simp] theorem enterIdle_trainLimit : (enterIdle s).trainLimit = s.trainLimit := by simp [enterIdle]
@[simp] theorem enterIdle_wakeLimit : (enterIdle s).wakeLimit = s.wakeLimit := by simp [enterIdle]
@[simp] theorem enterIdle_mgmt : (enterIdle s).mgmt = s.mgmt := by simp [enterIdle]
@[simp] theorem enterIdle_memory : (enterIdle s).memory = s.memory := by simp [enterIdle]

@[simp] theorem afterExternal_pending : (afterExternal s).pending = s.pending := by
  simp only [afterExternal]
  split <;> simp
@[simp] theorem afterExternal_trainLimit : (afterExternal s).trainLimit = s.trainLimit := by
  simp only [afterExternal]
  split <;> simp
@[simp] theorem afterExternal_wakeLimit : (afterExternal s).wakeLimit = s.wakeLimit := by
  simp only [afterExternal]
  split <;> simp
@[simp] theorem afterExternal_mgmt : (afterExternal s).mgmt = s.mgmt := by
  simp only [afterExternal]
  split <;> simp
@[simp] theorem afterExternal_memory : (afterExternal s).memory = s.memory := by
  simp only [afterExternal]
  split <;> simp

@[simp] theorem releasedReport_pending : (releasedReport s).pending = s.pending := by
  simp only [releasedReport]
  (repeat' split) <;> simp
@[simp] theorem releasedReport_trainLimit : (releasedReport s).trainLimit = s.trainLimit := by
  simp only [releasedReport]
  (repeat' split) <;> simp
@[simp] theorem releasedReport_wakeLimit : (releasedReport s).wakeLimit = s.wakeLimit := by
  simp only [releasedReport]
  (repeat' split) <;> simp
@[simp] theorem releasedReport_mgmt : (releasedReport s).mgmt = s.mgmt := by
  simp only [releasedReport]
  (repeat' split) <;> simp
@[simp] theorem releasedReport_memory : (releasedReport s).memory = s.memory := by
  simp only [releasedReport]
  (repeat' split) <;> simp

@[simp] theorem setPending_pending (o : Outcome) : (setPending o s).pending = s.pending := by simp [setPending]
@[simp] theorem setPending_stations (o : Outcome) : (setPending o s).stations = s.stations := by simp [setPending]
@[simp] theorem setPending_lines (o : Outcome) : (setPending o s).lines = s.lines := by simp [setPending]
@[simp] theorem setPending_trainLimit (o : Outcome) : (setPending o s).trainLimit = s.trainLimit := by simp [setPending]
@[simp] theorem setPending_wakeLimit (o : Outcome) : (setPending o s).wakeLimit = s.wakeLimit := by simp [setPending]
@[simp] theorem setPending_pool (o : Outcome) : (setPending o s).pool = s.pool := by simp [setPending]
@[simp] theorem setPending_shares (o : Outcome) : (setPending o s).shares = s.shares := by simp [setPending]
@[simp] theorem setPending_sched (o : Outcome) : (setPending o s).sched = s.sched := by simp [setPending]
@[simp] theorem setPending_access (o : Outcome) : (setPending o s).access = s.access := by simp [setPending]
@[simp] theorem setPending_power (o : Outcome) : (setPending o s).power = s.power := by simp [setPending]
@[simp] theorem setPending_counts (o : Outcome) : (setPending o s).counts = s.counts := by simp [setPending]
@[simp] theorem setPending_mgmt (o : Outcome) : (setPending o s).mgmt = s.mgmt := by simp [setPending]
@[simp] theorem setPending_memory (o : Outcome) : (setPending o s).memory = s.memory := by simp [setPending]

@[simp] theorem abortTestNow_pending (o : Outcome) : (abortTestNow o s).pending = s.pending := by
  simp only [abortTestNow]
  split <;> simp
@[simp] theorem abortTestNow_trainLimit (o : Outcome) : (abortTestNow o s).trainLimit = s.trainLimit := by
  simp only [abortTestNow]
  split <;> simp
@[simp] theorem abortTestNow_wakeLimit (o : Outcome) : (abortTestNow o s).wakeLimit = s.wakeLimit := by
  simp only [abortTestNow]
  split <;> simp
@[simp] theorem abortTestNow_mgmt (o : Outcome) : (abortTestNow o s).mgmt = s.mgmt := by
  simp only [abortTestNow]
  split <;> simp
@[simp] theorem abortTestNow_memory (o : Outcome) : (abortTestNow o s).memory = s.memory := by
  simp only [abortTestNow]
  split <;> simp

@[simp] theorem shedReport_pending (n : LineNo) : (shedReport n s).pending = s.pending := by
  simp only [shedReport]
  (repeat' split) <;> simp
@[simp] theorem shedReport_trainLimit (n : LineNo) : (shedReport n s).trainLimit = s.trainLimit := by
  simp only [shedReport]
  (repeat' split) <;> simp
@[simp] theorem shedReport_wakeLimit (n : LineNo) : (shedReport n s).wakeLimit = s.wakeLimit := by
  simp only [shedReport]
  (repeat' split) <;> simp
@[simp] theorem shedReport_access (n : LineNo) : (shedReport n s).access = s.access := by
  simp only [shedReport]
  (repeat' split) <;> simp
@[simp] theorem shedReport_mgmt (n : LineNo) : (shedReport n s).mgmt = s.mgmt := by
  simp only [shedReport]
  (repeat' split) <;> simp
@[simp] theorem shedReport_memory (n : LineNo) : (shedReport n s).memory = s.memory := by
  simp only [shedReport]
  (repeat' split) <;> simp

@[simp] theorem endExternal_pending : (endExternal s).pending = s.pending := by
  simp only [endExternal]
  split <;> simp
@[simp] theorem endExternal_trainLimit : (endExternal s).trainLimit = s.trainLimit := by
  simp only [endExternal]
  split <;> simp
@[simp] theorem endExternal_wakeLimit : (endExternal s).wakeLimit = s.wakeLimit := by
  simp only [endExternal]
  split <;> simp
@[simp] theorem endExternal_mgmt : (endExternal s).mgmt = s.mgmt := by
  simp only [endExternal]
  split <;> simp
@[simp] theorem endExternal_memory : (endExternal s).memory = s.memory := by
  simp only [endExternal]
  split <;> simp

@[simp] theorem restrainTest_pending (p : PowerState) : (restrainTest p s).pending = s.pending := by
  simp only [restrainTest]
  (repeat' split) <;> simp
@[simp] theorem restrainTest_trainLimit (p : PowerState) : (restrainTest p s).trainLimit = s.trainLimit := by
  simp only [restrainTest]
  (repeat' split) <;> simp
@[simp] theorem restrainTest_wakeLimit (p : PowerState) : (restrainTest p s).wakeLimit = s.wakeLimit := by
  simp only [restrainTest]
  (repeat' split) <;> simp
@[simp] theorem restrainTest_mgmt (p : PowerState) : (restrainTest p s).mgmt = s.mgmt := by
  simp only [restrainTest]
  (repeat' split) <;> simp
@[simp] theorem restrainTest_memory (p : PowerState) : (restrainTest p s).memory = s.memory := by
  simp only [restrainTest]
  (repeat' split) <;> simp

@[simp] theorem tripGuard_pending (n : LineNo) : (tripGuard n s).pending = s.pending := by
  simp only [tripGuard]
  (repeat' split) <;> simp
@[simp] theorem tripGuard_stations (n : LineNo) : (tripGuard n s).stations = s.stations := by
  simp only [tripGuard]
  (repeat' split) <;> simp
@[simp] theorem tripGuard_lines (n : LineNo) : (tripGuard n s).lines = s.lines := by
  simp only [tripGuard]
  (repeat' split) <;> simp
@[simp] theorem tripGuard_trainLimit (n : LineNo) : (tripGuard n s).trainLimit = s.trainLimit := by
  simp only [tripGuard]
  (repeat' split) <;> simp
@[simp] theorem tripGuard_wakeLimit (n : LineNo) : (tripGuard n s).wakeLimit = s.wakeLimit := by
  simp only [tripGuard]
  (repeat' split) <;> simp
@[simp] theorem tripGuard_pool (n : LineNo) : (tripGuard n s).pool = s.pool := by
  simp only [tripGuard]
  (repeat' split) <;> simp
@[simp] theorem tripGuard_shares (n : LineNo) : (tripGuard n s).shares = s.shares := by
  simp only [tripGuard]
  (repeat' split) <;> simp
@[simp] theorem tripGuard_sched (n : LineNo) : (tripGuard n s).sched = s.sched := by
  simp only [tripGuard]
  (repeat' split) <;> simp
@[simp] theorem tripGuard_power (n : LineNo) : (tripGuard n s).power = s.power := by
  simp only [tripGuard]
  (repeat' split) <;> simp
@[simp] theorem tripGuard_mgmt (n : LineNo) : (tripGuard n s).mgmt = s.mgmt := by
  simp only [tripGuard]
  (repeat' split) <;> simp
@[simp] theorem tripGuard_memory (n : LineNo) : (tripGuard n s).memory = s.memory := by
  simp only [tripGuard]
  (repeat' split) <;> simp

@[simp] theorem guardCheck_pending : (guardCheck s).pending = s.pending := by
  simp only [guardCheck]
  (repeat' split) <;> simp
@[simp] theorem guardCheck_stations : (guardCheck s).stations = s.stations := by
  simp only [guardCheck]
  (repeat' split) <;> simp
@[simp] theorem guardCheck_lines : (guardCheck s).lines = s.lines := by
  simp only [guardCheck]
  (repeat' split) <;> simp
@[simp] theorem guardCheck_trainLimit : (guardCheck s).trainLimit = s.trainLimit := by
  simp only [guardCheck]
  (repeat' split) <;> simp
@[simp] theorem guardCheck_wakeLimit : (guardCheck s).wakeLimit = s.wakeLimit := by
  simp only [guardCheck]
  (repeat' split) <;> simp
@[simp] theorem guardCheck_pool : (guardCheck s).pool = s.pool := by
  simp only [guardCheck]
  (repeat' split) <;> simp
@[simp] theorem guardCheck_shares : (guardCheck s).shares = s.shares := by
  simp only [guardCheck]
  (repeat' split) <;> simp
@[simp] theorem guardCheck_sched : (guardCheck s).sched = s.sched := by
  simp only [guardCheck]
  (repeat' split) <;> simp
@[simp] theorem guardCheck_power : (guardCheck s).power = s.power := by
  simp only [guardCheck]
  (repeat' split) <;> simp
@[simp] theorem guardCheck_mgmt : (guardCheck s).mgmt = s.mgmt := by
  simp only [guardCheck]
  (repeat' split) <;> simp
@[simp] theorem guardCheck_memory : (guardCheck s).memory = s.memory := by
  simp only [guardCheck]
  (repeat' split) <;> simp

@[simp] theorem shedLine_pending (n : LineNo) : (shedLine n s).pending = s.pending := by
  unfold shedLine
  simp only []
  split <;> (try split) <;> simp
@[simp] theorem shedLine_trainLimit (n : LineNo) : (shedLine n s).trainLimit = s.trainLimit := by
  unfold shedLine
  simp only []
  split <;> (try split) <;> simp
@[simp] theorem shedLine_wakeLimit (n : LineNo) : (shedLine n s).wakeLimit = s.wakeLimit := by
  unfold shedLine
  simp only []
  split <;> (try split) <;> simp
@[simp] theorem shedLine_access (n : LineNo) : (shedLine n s).access = s.access := by
  unfold shedLine
  simp only []
  split <;> (try split) <;> simp
@[simp] theorem shedLine_mgmt (n : LineNo) : (shedLine n s).mgmt = s.mgmt := by
  unfold shedLine
  simp only []
  split <;> (try split) <;> simp
@[simp] theorem shedLine_memory (n : LineNo) : (shedLine n s).memory = s.memory := by
  unfold shedLine
  simp only []
  split <;> (try split) <;> simp

@[simp] theorem shedToBudget_pending : (shedToBudget s).pending = s.pending := by
  simp only [shedToBudget]
  split <;> simp [foldl_keeps (fun t : State => t.pending)]
@[simp] theorem shedToBudget_trainLimit : (shedToBudget s).trainLimit = s.trainLimit := by
  simp only [shedToBudget]
  split <;> simp [foldl_keeps (fun t : State => t.trainLimit)]
@[simp] theorem shedToBudget_wakeLimit : (shedToBudget s).wakeLimit = s.wakeLimit := by
  simp only [shedToBudget]
  split <;> simp [foldl_keeps (fun t : State => t.wakeLimit)]
@[simp] theorem shedToBudget_access : (shedToBudget s).access = s.access := by
  simp only [shedToBudget]
  split <;> simp [foldl_keeps (fun t : State => t.access)]
@[simp] theorem shedToBudget_mgmt : (shedToBudget s).mgmt = s.mgmt := by
  simp only [shedToBudget]
  split <;> simp [foldl_keeps (fun t : State => t.mgmt)]
@[simp] theorem shedToBudget_memory : (shedToBudget s).memory = s.memory := by
  simp only [shedToBudget]
  split <;> simp [foldl_keeps (fun t : State => t.memory)]

@[simp] theorem pruneRemove_pending (e : WakeEntry) : (pruneRemove e s).pending = s.pending := by simp [pruneRemove]
@[simp] theorem pruneRemove_stations (e : WakeEntry) : (pruneRemove e s).stations = s.stations := by simp [pruneRemove]
@[simp] theorem pruneRemove_trainLimit (e : WakeEntry) : (pruneRemove e s).trainLimit = s.trainLimit := by simp [pruneRemove]
@[simp] theorem pruneRemove_wakeLimit (e : WakeEntry) : (pruneRemove e s).wakeLimit = s.wakeLimit := by simp [pruneRemove]
@[simp] theorem pruneRemove_shares (e : WakeEntry) : (pruneRemove e s).shares = s.shares := by simp [pruneRemove]
@[simp] theorem pruneRemove_sched (e : WakeEntry) : (pruneRemove e s).sched = s.sched := by simp [pruneRemove]
@[simp] theorem pruneRemove_access (e : WakeEntry) : (pruneRemove e s).access = s.access := by simp [pruneRemove]
@[simp] theorem pruneRemove_seq (e : WakeEntry) : (pruneRemove e s).seq = s.seq := by simp [pruneRemove]
@[simp] theorem pruneRemove_power (e : WakeEntry) : (pruneRemove e s).power = s.power := by simp [pruneRemove]
@[simp] theorem pruneRemove_mgmt (e : WakeEntry) : (pruneRemove e s).mgmt = s.mgmt := by simp [pruneRemove]
@[simp] theorem pruneRemove_memory (e : WakeEntry) : (pruneRemove e s).memory = s.memory := by simp [pruneRemove]

@[simp] theorem prune_pending : (prune s).pending = s.pending := by simp [prune, foldl_keeps (fun t : State => t.pending)]
@[simp] theorem prune_stations : (prune s).stations = s.stations := by simp [prune, foldl_keeps (fun t : State => t.stations)]
@[simp] theorem prune_trainLimit : (prune s).trainLimit = s.trainLimit := by simp [prune, foldl_keeps (fun t : State => t.trainLimit)]
@[simp] theorem prune_wakeLimit : (prune s).wakeLimit = s.wakeLimit := by simp [prune, foldl_keeps (fun t : State => t.wakeLimit)]
@[simp] theorem prune_shares : (prune s).shares = s.shares := by simp [prune, foldl_keeps (fun t : State => t.shares)]
@[simp] theorem prune_sched : (prune s).sched = s.sched := by simp [prune, foldl_keeps (fun t : State => t.sched)]
@[simp] theorem prune_access : (prune s).access = s.access := by simp [prune, foldl_keeps (fun t : State => t.access)]
@[simp] theorem prune_seq : (prune s).seq = s.seq := by simp [prune, foldl_keeps (fun t : State => t.seq)]
@[simp] theorem prune_mgmt : (prune s).mgmt = s.mgmt := by simp [prune, foldl_keeps (fun t : State => t.mgmt)]
@[simp] theorem prune_memory : (prune s).memory = s.memory := by simp [prune, foldl_keeps (fun t : State => t.memory)]

@[simp] theorem setPowerState_pending (p : PowerState) : (setPowerState p s).pending = s.pending := by simp [setPowerState]
@[simp] theorem setPowerState_stations (p : PowerState) : (setPowerState p s).stations = s.stations := by simp [setPowerState]
@[simp] theorem setPowerState_lines (p : PowerState) : (setPowerState p s).lines = s.lines := by simp [setPowerState]
@[simp] theorem setPowerState_trainLimit (p : PowerState) : (setPowerState p s).trainLimit = s.trainLimit := by simp [setPowerState]
@[simp] theorem setPowerState_wakeLimit (p : PowerState) : (setPowerState p s).wakeLimit = s.wakeLimit := by simp [setPowerState]
@[simp] theorem setPowerState_pool (p : PowerState) : (setPowerState p s).pool = s.pool := by simp [setPowerState]
@[simp] theorem setPowerState_shares (p : PowerState) : (setPowerState p s).shares = s.shares := by simp [setPowerState]
@[simp] theorem setPowerState_sched (p : PowerState) : (setPowerState p s).sched = s.sched := by simp [setPowerState]
@[simp] theorem setPowerState_access (p : PowerState) : (setPowerState p s).access = s.access := by simp [setPowerState]
@[simp] theorem setPowerState_seq (p : PowerState) : (setPowerState p s).seq = s.seq := by simp [setPowerState]
@[simp] theorem setPowerState_counts (p : PowerState) : (setPowerState p s).counts = s.counts := by simp [setPowerState]
@[simp] theorem setPowerState_mgmt (p : PowerState) : (setPowerState p s).mgmt = s.mgmt := by simp [setPowerState]
@[simp] theorem setPowerState_memory (p : PowerState) : (setPowerState p s).memory = s.memory := by simp [setPowerState]

@[simp] theorem changePower_pending (a b : PowerState) (c : PowerCause) : (changePower a b c s).pending = s.pending := by simp [changePower]
@[simp] theorem changePower_trainLimit (a b : PowerState) (c : PowerCause) : (changePower a b c s).trainLimit = s.trainLimit := by simp [changePower]
@[simp] theorem changePower_wakeLimit (a b : PowerState) (c : PowerCause) : (changePower a b c s).wakeLimit = s.wakeLimit := by simp [changePower]
@[simp] theorem changePower_mgmt (a b : PowerState) (c : PowerCause) : (changePower a b c s).mgmt = s.mgmt := by simp [changePower]
@[simp] theorem changePower_memory (a b : PowerState) (c : PowerCause) : (changePower a b c s).memory = s.memory := by simp [changePower]

end

end Sys2Proof.Machine
end

