-- ==== Sys2Proof/Laws/Effects.lean ====
section
/-! SUPPORT. What each shared operation does: the block it writes as it leaves it. What it leaves unchanged stands in
Laws/Frames.lean. -/

namespace Sys2Proof.Machine

section
variable (s : State)

/-! ## Events -/

/-- Every event sets its kind's summary flag, whether or not a notice follows (R199). -/
theorem raise_flagged (u : Option LineNo) (d : Detail) : flagged (raise u d s) d.kind := by
  unfold flagged raise
  dsimp only
  split
  · unfold offerNotice
    split
    · simp
    · split
      · simp
      · simp [countDev]
  · simp

/-- A notice of the same kind and subject is coalesced, so the list keeps its length (R201). -/
theorem offerNotice_coalesced (u : Option LineNo) (d : Detail)
    (h : s.counts.notices.any (Notice.isOf u d.kind) = true) :
    (offerNotice u d s).counts.notices = s.counts.notices.map (Notice.coalesce u d s.mgmt.time) := by
  simp [offerNotice, h]

/-- The notice list never grows beyond its places (R201). -/
theorem offerNotice_bounded (u : Option LineNo) (d : Detail)
    (h : s.counts.notices.length ≤ Config.noticePlaces) :
    (offerNotice u d s).counts.notices.length ≤ Config.noticePlaces := by
  unfold offerNotice
  split
  · simpa using h
  · split
    · simp; omega
    · simpa [countDev] using h

/-! ## The cell pool -/

@[simp] theorem setFree_free (k : Nat) : (setFree k s).pool.free = k := by
  unfold setFree; dsimp only; split
  · split <;> simp
  · split <;> simp

@[simp] theorem setFree_recs (k : Nat) : (setFree k s).pool.recs = s.pool.recs := by
  unfold setFree; dsimp only; split
  · split <;> simp
  · split <;> simp

@[simp] theorem setFree_nextId (k : Nat) : (setFree k s).pool.nextId = s.pool.nextId := by
  unfold setFree; dsimp only; split
  · split <;> simp
  · split <;> simp

/-- After a free count below 128 the pool is not armed, and at 256 or more it is (R36). -/
theorem setFree_armed (k : Nat) :
    (setFree k s).pool.armed =
      (if k < Config.poolLowMark then false else if Config.poolArmMark ≤ k then true else s.pool.armed) := by
  unfold setFree; dsimp only; split
  · split <;> simp_all
  · split <;> simp

/-- Making a record takes its cells from the free count and numbers it last (R33). -/
theorem makeRecord_pool (r : FrameRec) :
    (makeRecord r s).pool.free = s.pool.free - r.cells
      ∧ (makeRecord r s).pool.recs = s.pool.recs ++ [(s.pool.nextId, r)]
      ∧ (makeRecord r s).pool.nextId = s.pool.nextId + 1 := by
  simp [makeRecord]

/-- The last holder's letting go ends the record and returns its cells (R34). -/
theorem dropRef_last (id : Nat) (r : FrameRec) (h : s.record id = some r) (hr : r.refs ≤ 1) :
    (dropRef id s).pool.free = s.pool.free + r.cells
      ∧ (dropRef id s).pool.recs = s.pool.recs.filter (fun x => x.1 != id) := by
  simp [dropRef, h, hr]

/-- Another holder's letting go lowers the count and frees nothing (R34). -/
theorem dropRef_other (id : Nat) (r : FrameRec) (h : s.record id = some r) (hr : 1 < r.refs) :
    (dropRef id s).pool.free = s.pool.free
      ∧ (dropRef id s).pool.recs =
        s.pool.recs.map (fun x => (x.1, if x.1 == id then { x.2 with refs := x.2.refs - 1 } else x.2)) := by
  have : ¬ r.refs ≤ 1 := by omega
  simp [dropRef, h, this]

/-- A number that names no live record holds nothing. -/
theorem dropRef_none (id : Nat) (h : s.record id = none) : dropRef id s = s := by simp [dropRef, h]

/-! ## The recompute -/

/-- A recompute gives every line its share and the credit of R68, and changes nothing else in it (R58, R61). -/
theorem recompute_line (n : LineNo) :
    (recompute s).line n =
      handOver ((computeShares s.lines (recompute s).sched.effective).1.get n).share (s.line n) := by
  simp [recompute, State.line]

/-- The effective capacity handed to the scheduler (R52, R61). -/
theorem recompute_effective :
    (recompute s).sched.effective =
      effectiveCapacity (capacityInUse s.shares)
        (scaledCeiling s.shares.ceiling (currentPolicy s).scale) s.shares.allowance := rfl

/-- Beside share, credit and eligibility a recompute leaves every line as it was. -/
theorem recompute_apart (n : LineNo) : ((recompute s).line n).apart = (s.line n).apart := by
  rw [recompute_line]; rfl

/-- Every line that is not UP or DRAINING has share 0 after a hand-over (R58). -/
theorem share_off (c : ShareCell) (h : c.on = false) : c.share = 0 := by simp [ShareCell.share, h]

/-- A line that is not eligible has credit 0 after a hand-over (R68). -/
theorem handOver_credit_off (g : Nat) (l : Line) (h : eligibleState l.st = false) : (handOver g l).credit = 0 := by
  simp [handOver, h]

/-! ## Line states -/

/-- A change to the same state does not occur (R89). -/
theorem enterCore_same (n : LineNo) (r : Reason) : enterCore n (s.line n).st r s = s := by simp [enterCore]

/-- A line's idle timer after its conditions are tested again (R45). -/
theorem refreshIdle_line (n : LineNo) :
    (refreshIdle n s).line n =
      { s.line n with idle := if (s.line n).idleHolds then some ((s.line n).idle.getD 0) else none } := by
  simp [refreshIdle]

/-- An entry takes the line to the state entered (R88). -/
theorem enterCore_st (n : LineNo) (new : LineState) (r : Reason) : ((enterCore n new r s).line n).st = new := by
  unfold enterCore
  dsimp only
  split
  · assumption
  · have key : ∀ u : State, ((lineStateEvent n (s.line n).st new r u).line n) = u.line n := by
      intro u; simp [State.line]
    rw [key, refreshIdle_line]
    have st : ∀ (u : State) (l : Line), (enterState u new (leaveState l)).st = new := by
      intro u l; unfold enterState; dsimp only; cases new <;> dsimp only
      split <;> rfl
    split
    · simp [removeLearned, dropStations, State.line, State.modLine, st]
    · simp [State.line, State.modLine, st]

/-! ## The Test Access Matrix -/

/-- A CONNECT in IDLE moves the pair's relay to TEST and starts the settle timer (R109). -/
theorem connectPair_idle (n : LineNo) (a : Access) (h : a.matrix = .idle) :
    (connectPair n a).matrix = .settlingIn n ∧ (connectPair n a).settleTimer = some a.settleTime := by
  simp [connectPair, h]

/-- A CONNECT is refused in every other matrix state (R109). -/
theorem connectPair_refused (n : LineNo) (a : Access) (h : a.matrix ≠ .idle) : connectPair n a = a := by
  unfold connectPair; split
  · contradiction
  · rfl

/-- A RELEASE leaves no pair connected, and the guard armed if a pair was (R109, R121). -/
theorem releasePair_pair (a : Access) : (releasePair a).matrix.pair = none := by
  unfold releasePair; split
  · rfl
  · rfl
  · rename_i h1 h2
    cases h : a.matrix <;> simp_all [MatrixState.pair]

/-- The end of a measurement of any kind leaves source and tone off (R116). -/
theorem endMeasurement_off (d : Bool) (a : Access) :
    (endMeasurement d a).sourceOn = false ∧ (endMeasurement d a).toneOn = false := by
  unfold endMeasurement; split <;> simp

/-- The tone drives nothing once it is off (R126). -/
theorem toneOutput_off (us : Nat) (a : Access) (h : a.toneOn = false) : a.toneOutput us = false := by
  simp [Access.toneOutput, h]

/-- The tone is high inside an on-burst alone, before the duration has elapsed (R126). -/
theorem toneLevel_high (us : Nat) (leg : Leg) (f on off d : Nat) (h : Spec.toneLevel us (.tone leg f on off d) = true) :
    us < d * 1000000 ∧ us % ((on + off) * 1000) < on * 1000 := by
  simp [Spec.toneLevel] at h
  exact ⟨h.1.1, h.1.2⟩

/-! ## The sequencer's part of a take -/

/-- Nothing is reported while something is left to drain (R44). -/
theorem drainReport_waits (n : LineNo) (h : (s.line n).drained = false) : drainReport n s = s := by
  simp [drainReport, h]

/-- A line with nothing left to drain is HELD and reported held (R44, R99). -/
theorem drainReport_held (n : LineNo) (h : (s.line n).drained = true) :
    drainReport n s = heldReport (enter n .held .drained s) := by
  simp [drainReport, h]

/-- Something offered that does not join the queue makes no selection (R136). -/
theorem joining_same (offer : State → State) (h : (offer s).seq.queue.length ≤ s.seq.queue.length) :
    joining offer s = offer s := by
  simp only [joining]
  rw [if_neg (by omega)]

/-- A request that joins the queue is followed by a selection (R136). -/
theorem joining_joined (offer : State → State) (h : s.seq.queue.length < (offer s).seq.queue.length) :
    joining offer s = idleStep (offer s) := by
  simp [joining, h]

/-! ## The result log -/

/-- A record takes the next sequence number, at the end of the log (R142). -/
theorem writeRecord_log (r : TestRecord) :
    (writeRecord r s).seq.counter = nextSequence s.seq.counter
      ∧ (writeRecord r s).seq.log =
        (if Config.logPlaces ≤ s.seq.log.length then s.seq.log.drop 1 else s.seq.log)
          ++ [{ r with seq := nextSequence s.seq.counter }] := by
  unfold writeRecord
  dsimp only
  by_cases h : Config.logPlaces ≤ s.seq.log.length <;> simp [h]

end

end Sys2Proof.Machine
end

