-- ==== Sys2Proof/WellFormed.lean ====
section
/-! DEFINITION. The operands that can be carried: every number within the width that carries it (11.1, 11.3, 11.4), and
every physical quantity within the range the spec gives its source (R115, R124, R159). What is within its width but
names nothing is well formed: the command's own rule refuses it. -/

namespace Sys2Proof

/-- A number carried in `k` bits. -/
def fits (k v : Nat) : Bool := decide (v < 2 ^ k)

/-- An optional number carried in `k` bits. -/
def fitsOpt (k : Nat) (o : Option Nat) : Bool := o.all (fits k)

/-- An optional number that may be carried as none. -/
def fitsNone (k : Nat) (o : Option (Option Nat)) : Bool := o.all (fitsOpt k)

/-- The fields of a spec: kind and leg in 8 bits, the rest in 32 (11.2). -/
def RawSpec.wf (r : RawSpec) : Bool :=
  fitsOpt 8 r.kind && fitsOpt 8 r.leg && fitsOpt 32 r.volts && fitsOpt 32 r.current && fitsOpt 32 r.window
    && fitsOpt 32 r.target && fitsOpt 32 r.freq && fitsOpt 32 r.onTime && fitsOpt 32 r.offTime
    && fitsOpt 32 r.duration && fitsOpt 32 r.marginal && fitsOpt 32 r.faulty

def LineFields.wf (f : LineFields) : Bool :=
  fitsOpt 16 f.vlan && fitsOpt 32 f.committed && fitsOpt 32 f.weight && fitsOpt 32 f.cap && fitsOpt 32 f.stationLimit
    && fitsOpt 8 f.learning && fitsOpt 8 f.broadcast && fitsOpt 8 f.defaultClass && fitsOpt 32 f.downLimit
    && fitsOpt 32 f.prioLimit && fitsOpt 32 f.bulkLimit && fitsNone 32 f.counterSet && fitsNone 32 f.routineGroup
    && fitsOpt 32 f.powerPriority && fitsOpt 32 f.quietDelay && fitsOpt 32 f.dormantDelay && fitsOpt 8 f.wakeOnDown
    && fitsOpt 8 f.senseEdge && fitsOpt 8 f.keepOnFault && fitsOpt 32 f.recordedLength

def UplinkFields.wf (f : UplinkFields) : Bool :=
  fitsOpt 32 f.ceiling && fitsOpt 32 f.allowance && fitsOpt 32 f.fallback && fitsOpt 32 f.hold && fitsOpt 8 f.spare
    && fitsOpt 16 f.ethertype

def LimitFields.wf (f : LimitFields) : Bool :=
  fitsOpt 32 f.settle && fitsOpt 32 f.discharge && fitsOpt 32 f.guardVolts && fitsOpt 32 f.cablePf
    && fitsOpt 32 f.drain && fitsOpt 32 f.suspend && fitsOpt 32 f.deferral

def PolicyFields.wf (f : PolicyFields) : Bool :=
  fitsOpt 32 f.budget && fitsOpt 8 f.sleep && fitsOpt 32 f.quietCap && fitsOpt 32 f.scale && fitsOpt 8 f.wakeSense
    && fitsOpt 8 f.wakeDown

def ThresholdFields.wf (f : ThresholdFields) : Bool :=
  fitsOpt 32 f.conserve && fitsOpt 32 f.reserve && fitsOpt 32 f.hysteresis && fitsOpt 32 f.stableDelay

def ManagementFields.wf (f : ManagementFields) : Bool :=
  fitsOpt 16 f.vlan && fitsOpt 16 f.ethertype && fitsOpt 8 f.managerOnly

def NoticeField.wf (f : NoticeField) : Bool := fits 8 f.kind && fitsOpt 8 f.enable && fitsOpt 8 f.urgency

def StationQuery.wf : StationQuery → Bool
  | .byAddress _ => true
  | .byLine line => fits 8 line
  | .fromIndex index => fits 32 index

/-- The scope ALL is carried as 255, so no line scope is (11.2). -/
def FlushScope.wf : FlushScope → Bool
  | .all => true
  | .line v => fits 8 v && v != 255

def RecordQuery.wf : RecordQuery → Bool
  | .bySequence seq => fits 32 seq
  | .byLine line => fits 8 line

/-- A sample within the sampler's ranges (R115). -/
def Sample.wf (x : Sample) : Bool := decide (x.mv.natAbs ≤ Config.voltMax) && decide (x.na ≤ Config.currentMax)

/-- Whether a command or event can occur with its operands. -/
def Instr.wellFormed : Instr → Bool
  | .startUpComplete sample => fits 16 sample
  | .capacityAdvisory figure => fits 32 figure
  | .classPause _ duration => fits 16 duration
  | .linkUp _ down up => fits 32 down && fits 32 up
  | .rates _ down up => fits 32 down && fits 32 up
  | .windowEnd samples => decide (20 ≤ samples.length) && decide (samples.length ≤ 1000) && samples.all Sample.wf
  | .captureTargetReached t => decide (t ≤ Config.captureTimeoutUs)
  | .batterySample mv => fits 16 mv
  | .writeStation _ _ line cls => fits 8 line && fits 8 cls
  | .writeStationTableForm _ aging => fits 32 aging
  | .readStation _ q => q.wf
  | .flushLearned _ scope => scope.wf
  | .writeLine _ line f => fits 8 line && f.wf
  | .readLine _ line => fits 8 line
  | .enableLine _ line => fits 8 line
  | .enableLineSettingsForm _ t w => fitsOpt 32 t && fitsOpt 32 w
  | .disableLine _ line => fits 8 line
  | .clearBar _ line => fits 8 line
  | .setUplink _ f => f.wf
  | .writeProgram _ p specs => fits 32 p && specs.all RawSpec.wf
  | .readProgram _ p => fits 32 p
  | .requestTest _ line p v => fits 8 line && fits 32 p && fitsOpt 8 v
  | .abortTest _ line => fits 8 line
  | .readTestRecord _ q => q.wf
  | .setRoutineGroup _ g b k p => fits 32 g && fitsOpt 32 b && fitsOpt 32 k && fitsOpt 32 p
  | .startRoutineGroup _ g => fits 32 g
  | .stopRoutineGroup _ g => fits 32 g
  | .setTestLimits _ f => f.wf
  | .connectExternal _ line => fits 8 line
  | .writePowerPolicy _ p f => fits 8 p && f.wf
  | .setBatteryThresholds _ f => f.wf
  | .readCounters _ k c => fits 32 k && fitsOpt 8 c
  | .readGlobalCounters _ c => fitsOpt 8 c
  | .setNotices _ fs => fs.all NoticeField.wf
  | .setManagement _ f => f.wf
  | .lock _ l => fitsOpt 8 l
  | .coldReset | .pinReset | .supplyReset | .startUp | .uplinkFrameReceived _ | .craftFrameReceived _ _
  | .lineLinkFrameReceived _ _ | .ready _ | .activity _ | .linkFail _ | .linkDown _ | .awake _ | .senseEdge _ _
  | .wakeGrant | .agingSweep | .holdTimerExpiry | .refill | .pauseTimerExpiry _ | .upstreamChoice
  | .transmissionComplete | .handOffStart _ | .handOffComplete _ | .drainComplete _ | .uplinkLinkDown
  | .uplinkLinkUp | .craftTransmissionStart | .craftTransmissionComplete | .craftLinkDown | .trainingTimerExpiry _
  | .wakeTimerExpiry _ | .idleTimerExpiry _ | .dormantTimerExpiry _ | .drainTimerExpiry _ | .settleTimerExpiry
  | .captureTimeout | .toneDurationElapsed | .dischargeWaitExpiry | .guardTrip _ | .extreqAsserted
  | .extreqReleased | .suspendTimerExpiry | .halfTick _ | .fullTick _ | .mainsOkDeasserted | .mainsOkAsserted
  | .mainsStableTimerExpiry | .controlFrameTaken _ | .unknownCommand _ | .noticeFrameBuild | .removeStation _ _
  | .clearSense _ _ | .readUplink _ | .readTestQueue _ | .disconnectExternal _ | .readPower _ | .clearEvents _ _
  | .clearResetCause _ _ | .readStatus _ | .setTime _ _ | .saveConfiguration _ | .saveDone _ | .trafficReset _
  | .deviceReset _ | .deviceResetTimerExpiry | .craftLinkUp => true

end Sys2Proof
end

