-- ==== Sys2Proof/Tests/Slice0.lean ====
section
/-! SUPPORT. Tests: a refused term for each check of the operands, the spec's worked cases, and for each statement of
Certificates/Slice0/Obligations.lean that has hypotheses theorems `hyp_<statement>` that show concrete states and
operands meeting the hypotheses of each of its clauses. What several statements share has one of its own:
`hyp_wakeTaken`, `hyp_nothingQueued`, `hyp_wakesListed`, `hyp_backhaul_frames`. Expected values come from spec/ or from
hand calculation. -/

namespace Sys2Proof.Tests

open Sys2Proof Sys2Proof.Machine

/-! ## Operands that cannot be carried -/

theorem test_wf_batsense_beyond_16_bits : Instr.wellFormed (.batterySample 65536) = false := by decide
theorem test_wf_start_up_sample : Instr.wellFormed (.startUpComplete 65536) = false := by decide
theorem test_wf_figure_beyond_32_bits : Instr.wellFormed (.capacityAdvisory 4294967296) = false := by decide
theorem test_wf_pause_beyond_16_bits : Instr.wellFormed (.classPause 1 65536) = false := by decide
theorem test_wf_rates :
    Instr.wellFormed (.linkUp 0 4294967296 0) = false ∧ Instr.wellFormed (.rates 0 0 4294967296) = false := by decide
theorem test_wf_window_too_short : Instr.wellFormed (.windowEnd [⟨5, 5⟩]) = false := by decide
theorem test_wf_sample_beyond_the_sampler :
    Instr.wellFormed (.windowEnd (List.replicate 20 ⟨150001, 0⟩)) = false
      ∧ Instr.wellFormed (.windowEnd (List.replicate 20 ⟨0, 60000001⟩)) = false := by decide
theorem test_wf_capture_beyond_the_timeout : Instr.wellFormed (.captureTargetReached 2000001) = false := by decide
theorem test_wf_line_byte :
    Instr.wellFormed (.readLine .uplink 256) = false ∧ Instr.wellFormed (.enableLine .uplink 256) = false
      ∧ Instr.wellFormed (.disableLine .uplink 256) = false ∧ Instr.wellFormed (.clearBar .uplink 256) = false
      ∧ Instr.wellFormed (.abortTest .uplink 256) = false ∧ Instr.wellFormed (.connectExternal .uplink 256) = false
      ∧ Instr.wellFormed (.writeStation .uplink 0 256 0) = false
      ∧ Instr.wellFormed (.requestTest .uplink 256 0 none) = false := by decide
theorem test_wf_counts :
    Instr.wellFormed (.writeStationTableForm .uplink 4294967296) = false
      ∧ Instr.wellFormed (.readStation .uplink (.fromIndex 4294967296)) = false
      ∧ Instr.wellFormed (.flushLearned .uplink (.line 255)) = false
      ∧ Instr.wellFormed (.enableLineSettingsForm .uplink (some 4294967296) none) = false
      ∧ Instr.wellFormed (.readProgram .uplink 4294967296) = false
      ∧ Instr.wellFormed (.writeProgram .uplink 4294967296 []) = false
      ∧ Instr.wellFormed (.readTestRecord .uplink (.bySequence 4294967296)) = false
      ∧ Instr.wellFormed (.setRoutineGroup .uplink 0 (some 4294967296) none none) = false
      ∧ Instr.wellFormed (.startRoutineGroup .uplink 4294967296) = false
      ∧ Instr.wellFormed (.stopRoutineGroup .uplink 4294967296) = false
      ∧ Instr.wellFormed (.readCounters .uplink 4294967296 none) = false := by decide
theorem test_wf_fields :
    Instr.wellFormed (.writeLine .uplink 0 { vlan := some 65536 }) = false
      ∧ Instr.wellFormed (.setUplink .uplink { ethertype := some 65536 }) = false
      ∧ Instr.wellFormed (.setTestLimits .uplink { drain := some 4294967296 }) = false
      ∧ Instr.wellFormed (.writePowerPolicy .uplink 0 { sleep := some 256 }) = false
      ∧ Instr.wellFormed (.setBatteryThresholds .uplink { conserve := some 4294967296 }) = false
      ∧ Instr.wellFormed (.readGlobalCounters .uplink (some 256)) = false
      ∧ Instr.wellFormed (.setNotices .uplink [{ kind := 256 }]) = false
      ∧ Instr.wellFormed (.setManagement .uplink { vlan := some 65536 }) = false
      ∧ Instr.wellFormed (.lock .uplink (some 256)) = false := by decide

/-! ## States and frames for the tests -/

def mgmtAddr : Addr := 0x020000000001
def managerAddr : Addr := 0x020000000002
def homeAddr : Addr := 0x020000000003

/-- A part in service, in MAINS, with the uplink up. -/
def base : State :=
  (((State.reset.modMgmt fun m => { m with phase := .running, station := some mgmtAddr, storePresent := true }).modPower
    fun p => { p with state := some .mains }).modSched fun x => { x with uplinkUp := true, craftUp := true, effective := 9 })

/-- A part in service with no line allowed awake. -/
def noBudget : State :=
  base.modPower fun p => { p with policies := p.policies.map fun x => { x with budget := 0 } }

/-- The same part with line 0 in a state. -/
def at0 (st : LineState) (s : State) : State := s.modLine 0 fun l => { l with st := st }

/-- A STATIC entry for the home's address on line 0. -/
def homeEntry : Entry := { addr := homeAddr, line := 0, cls := .bulk, origin := .static }
def withHome (s : State) : State := setStation 0 (some homeEntry) s

/-- A test in hand on line 0. -/
def act0 : Activity :=
  { line := 0, program := some 0, origin := .demand, override := false, start := 0
    specs := [.resistance .tr 50 20 9 5], next := 0, results := [], pending := none, interrupted := false
    guardTripped := false }

def testing (st : SeqState) (m : MatrixState) (a : Activity) (s : State) : State :=
  (s.modSeq fun q => { q with st := st, act := some a }).modAccess fun c => { c with matrix := m }

def withExtreq (s : State) : State := s.modSeq fun q => { q with extreq := true, extack := true }

def measuring (x : Spec) (s : State) : State := s.modAccess fun c => { c with unit := .measuring, spec := some x }

/-- The part on battery, in a state, after a sample. -/
def onBattery (st : PowerState) : State :=
  base.modPower fun p => { p with state := some st, sample := some (12000, 0), stableTimer := some 0 }

/-- One record, number 0, in the pool. -/
def rec0 : FrameRec := { bytes := List.replicate 68 0, cls := none, origin := .line 0, refs := 1 }
def withRec (r : FrameRec) (s : State) : State :=
  s.modPool fun p => { p with recs := [(0, r)], nextId := 1, free := 4095 }

/-- A frame of a length with an optional tag. -/
def frame (dst src : Addr) (tag : Option Nat) (ety len : Nat) : List Byte :=
  let h := beBytes 6 dst.toNat ++ beBytes 6 src.toNat ++ tag.elim [] (fun v => beBytes 2 0x8100 ++ beBytes 2 v)
    ++ beBytes 2 ety
  withCheck (h ++ List.replicate (len - 4 - h.length) 0)

/-- A frame for the home on line 0 and one from it. -/
def toHome : List Byte := frame homeAddr managerAddr (some 100) 0x0800 68
def fromHome : List Byte := frame managerAddr homeAddr none 0x0800 64
def toAll : List Byte := frame 0xFFFFFFFFFFFF managerAddr (some 100) 0x0800 68
def toPart : List Byte := frame mgmtAddr managerAddr (some 4000) 0xB7E1 68

/-! ## The spec's worked cases -/

/-- CRC-32 of the nine digits "123456789" is 0xCBF43926, the check value of the code of 11.6. -/
theorem test_crc32_check_value :
    crc32 [0x31, 0x32, 0x33, 0x34, 0x35, 0x36, 0x37, 0x38, 0x39] = 0xCBF43926 := by decide +kernel

/-- The five lines of section 3.5's worked cases. -/
def caseLine (c w t cap : Nat) (g : Grade) (l : Line) : Line :=
  { l with st := .up, upRate := t, grade := g, cfg := { l.cfg with committed := c, weight := w, cap := cap } }

def caseState (advised : Nat) : State :=
  (((((base.modLine 0 (caseLine 2000 4 3000 0 .good)).modLine 3 (caseLine 1000 2 1200 0 .good)).modLine 7
    (caseLine 4000 8 8000 6000 .good)).modLine 9 (caseLine 0 1 10000 0 .good)).modLine 12
    (caseLine 3000 4 2500 0 .marginal)).modShares fun x =>
      { x with ceiling := 50000, source := .advised, advised := some advised }

theorem test_shares_with_room_to_spare :
    ([0, 3, 7, 9, 12].map fun n => ((recompute (caseState 20000)).line n).share) = [3000, 1200, 6000, 7044, 2500]
      ∧ (recompute (caseState 20000)).shares.last.residue = 0
      ∧ (recompute (caseState 20000)).shares.last.rounds = 2 := by decide

theorem test_shares_oversubscribed :
    ([0, 3, 7, 9, 12].map fun n => ((recompute (caseState 6256)).line n).share) = [1263, 631, 2526, 0, 1578]
      ∧ (recompute (caseState 6256)).shares.last.residue = 2 := by decide

/-- Section 6.4's worked cases: the insulation reading dry and wet, and the pair that reads short or times out. -/
theorem test_resistance_reading :
    resistanceOf (List.replicate 200 ⟨49800, 830⟩) = 60000000
      ∧ verdictBelow 60000000 20000000 1000000 = .pass
      ∧ resistanceOf (List.replicate 25 ⟨-49877, 24802⟩ ++ List.replicate 25 ⟨49877, 24801⟩
          ++ List.replicate 50 ⟨49876, 24801⟩) = 2011047
      ∧ verdictBelow 2011047 20000000 1000000 = .marginal := by decide +kernel

theorem test_capacitance_reading :
    capacitanceOf 10 105000 10000 = 105000 ∧ deviation 2100 5200 = 59
      ∧ capacitanceVerdict false 5200 2100 10 40 = .faulty ∧ capacitanceOf 1 2000000 20000 = 100000
      ∧ capacitanceVerdict true 5200 2000 10 40 = .overRange := by decide

/-- Section 4.1's worked example: eight refills fill a depth of 24,000, and a share of 1,000 cuts it to 12,288. -/
def refills : Nat → Line → Line
  | 0, l => l
  | n + 1, l => refills n l.refilled

theorem test_depth_and_refill :
    let l := { Line.reset 4 with st := .up, share := 3000, eligible := true }
    (refills 8 l).credit = 24000 ∧ (refills 9 l).credit = 24000 ∧ (handOver 1000 (refills 9 l)).credit = 12288
      ∧ (handOver 1000 (refills 9 l)).refilled.credit = 12288
      ∧ (handOver 4000 (handOver 1000 (refills 9 l))).refilled.credit = 16288 := by decide

/-- Section 4.3's worked round of choices: three lines, five choices. -/
def roundRec (n : LineNo) (len : Nat) : FrameRec :=
  { bytes := List.replicate len 0, cls := none, origin := .line n, refs := 1 }

def roundState : State :=
  (((base.modLine 2 fun l => { l with st := .up, share := 2000, credit := 1000, eligible := true, bulkQ := [0, 1] }).modLine 5
    fun l => { l with st := .up, share := 500, credit := 300, eligible := true, prioQ := [2] }).modLine 9
    fun l => { l with st := .up, eligible := true, bulkQ := [3] }).modPool fun p =>
      { p with recs := [(0, roundRec 2 1522), (1, roundRec 2 1000), (2, roundRec 5 200), (3, roundRec 9 500)], nextId := 4 }

def after (c : Instr) (s : State) : State :=
  match exec c s with
  | .next t => t
  | _ => s

def choices : Nat → State → State
  | 0, s => s
  | n + 1, s => choices n (after .transmissionComplete (after .upstreamChoice s))

theorem test_round_of_choices : ∀ k ∈ [1, 2, 3, 4, 5],
    let s := choices k roundState
    ((s.line 2).credit, (s.line 5).credit, s.sched.prioPtr, s.sched.bulkPtr, s.sched.sparePtr, s.counts.total.upBytes,
      s.counts.total.spareFrames)
      = [(1000, -1300, 6, 0, 0, 196, 0), (-11176, -1300, 6, 3, 0, 196 + 1518, 0),
         (-11176, -1300, 6, 3, 3, 196 + 1518 + 996, 1), (-11176, -1300, 6, 3, 10, 196 + 1518 + 996 + 496, 2),
         (-11176, -1300, 6, 3, 10, 196 + 1518 + 996 + 496, 2)].getD (k - 1) (0, 0, 0, 0, 0, 0, 0) := by decide +kernel

/-- Section 8.9: the shedding order of the ten awake lines, and the two shed at the drop to CONSERVE. -/
def awakeLine (n : LineNo) (st : LineState) (priority idleSeconds : Nat) (s : State) : State :=
  s.modLine n fun l => { l with st := st, idle := some (idleSeconds * 1000), cfg := { l.cfg with powerPriority := priority } }

def worked : State :=
  awakeLine 1 .up 0 400 (awakeLine 2 .up 0 0 (awakeLine 4 .training 0 0 (awakeLine 5 .up 3 1200 (awakeLine 8 .up 5 30
    (awakeLine 10 .draining 0 0 (awakeLine 13 .up 7 0 (awakeLine 15 .up 2 900 (awakeLine 17 .up 0 400
      (awakeLine 20 .up 5 30 (onBattery .battery))))))))))

theorem test_shed_order : shedOrder worked = [17, 1, 4, 2, 15, 5, 20, 8, 13, 10] := by decide

theorem test_drop_to_conserve :
    let s := after (.batterySample 11790) worked
    s.power.state = some .conserve ∧ (s.line 17).st = .quiet ∧ (s.line 1).st = .quiet ∧ awakeCount s = 8
      ∧ s.shares.last.scale = 50 := by decide +kernel

/-- R55: a weight of 1 on a MARGINAL line gives 1, and a weight of 5 gives 2. -/
theorem test_adjusted_weight :
    adjustedWeight { Line.reset 0 with grade := .marginal } = 1
      ∧ adjustedWeight (caseLine 0 5 0 0 .faulty (Line.reset 0)) = 2 := by decide

/-- R8: an age of 59 reaches an aging time of 60 and the entry is removed; an age of 58 stays. -/
theorem test_sweep_removes_at_the_aging_time :
    let s := (setStation 1 (some { homeEntry with origin := .learned 58 })
      (setStation 0 (some { homeEntry with origin := .learned 59 }) base)).modStations fun t => { t with sweep := some 0 }
    (match exec .agingSweep s with
      | .next t => (t.stations.entries.get 0, t.stations.entries.get 1)
      | _ => (some homeEntry, none)) = (none, some { homeEntry with origin := .learned 59 }) := by decide

/-- R69: a frame of 1,522 bytes as stored costs 12,176 bits. -/
theorem test_charge_of_the_longest_frame :
    chargeOf (withRec { rec0 with bytes := List.replicate 1522 0 } base) 0 = 12176 := by decide +kernel

/-- R187: after 2^48 - 1 the timebase goes on from 0. -/
theorem test_timebase_wraps :
    (passTime (base.modMgmt fun m => { m with time := BitVec.allOnes 48 })).mgmt.time = 0 := by decide

/-- R142: after 2^32 - 1 the sequence number is 1, and after a cold reset the first is 1. -/
theorem test_sequence_wraps : nextSequence 4294967295 = 1 ∧ nextSequence 0 = 1 := by decide

/-- R204: a cold reset sets COLD alone; a warm one keeps it and sets its own flag. -/
theorem test_reset_causes :
    (match exec .pinReset State.reset with
      | .next t => t.counts.resetCause.items
      | _ => []) = [true, true, false, false, false] := by decide

/-- R126: 3,000 Hz has a period of 333 us, high for 166; the wave starts anew at each on-burst, and is low in the
off-burst and once the duration has elapsed. -/
theorem test_tone_output :
    let out := fun ms us => Access.toneOutput us
      { Access.reset with toneOn := true, spec := some (.tone .tr 3000 100 50 1), elapsed := ms }
    [out 0 0, out 0 165, out 0 166, out 0 332, out 0 333, out 99 999, out 100 0, out 149 999, out 150 0, out 150 166,
      out 999 999, out 1000 0] = [true, true, false, false, true, true, false, false, true, false, true, false]
      ∧ Access.toneOutput 0 { Access.reset with spec := some (.tone .tr 3000 100 50 1) } = false := by decide

/-- R136: each request is decided as it joins. Line 4 is in use and deferred before line 5 is requested and started, so
the request for line 6 stands after it. -/
theorem test_tick_requests_join_one_by_one :
    let member := fun (st : LineState) (l : Line) => { l with st := st, cfg := { l.cfg with routineGroup := some 0 } }
    let s := (((base.modLine 4 (member .up)).modLine 5 (member .quiet)).modLine 6 (member .quiet)).modSeq fun q =>
      { q with groups := q.groups.modify 0 fun g => { g with enabled := true } }
    (after (.fullTick 0) s).seq.queue = [.routine 4 0 0 1 true, .routine 6 0 0 0 false]
      ∧ (after (.fullTick 0) s).lineUnderTest = some 5 := by decide +kernel

/-- R44: drain complete is reported at the entry to DRAINING when nothing is left to drain, so the line is HELD at once.
-/
theorem test_drain_reported_on_entry :
    let s := (at0 .up base).modSeq fun q => { q with programs := q.programs.set 0 [.tone .tr 400 100 100 1] }
    let t := after (.requestTest .uplink 0 0 none) s
    (t.line 0).st = .held ∧ t.seq.st = .settling ∧ t.access.matrix = .settlingIn 0 := by decide +kernel

/-- R144: every abort sets the pending outcome. -/
theorem test_second_abort_sets_the_outcome :
    let s := measuring (.resistance .tr 50 20 9 5)
      (testing .measuring (.connected 0) { act0 with pending := some .abortedPower } base)
    (after (.abortTest .uplink 0) s).seq.act.map Activity.pending = some (some .abortedCmd) := by decide

/-- R117: a STOP of a unit in IDLE changes nothing. -/
theorem test_stop_in_idle : stopStep (testing .measuring (.connected 0) act0 base)
    = testing .measuring (.connected 0) act0 base := by decide

/-! ## Hypotheses that are met -/

theorem hyp_IdlePassesOneMillisecond :
    (base.pending = [] ∧ base.mgmt.phase = .running ∧ dueStep base = none)
      ∧ (let s := base.modMgmt fun m => { m with phase := .started }
         s.pending = [] ∧ s.mgmt.phase = .started ∧ dueStep s = none) := by decide

def pendingReset : State := base.modMgmt fun m => { m with devReset := some { reply := some 0, timer := 1000 } }

theorem hyp_WarmResets : pendingReset.mgmt.devReset.isSome = true := by decide

/-- A part held in reset, with a good image or with none. -/
def held (cold good : Bool) : State :=
  { State.reset with
    mgmt := { Mgmt.reset with phase := .held cold }
    memory := { answers := true, identity := some mgmtAddr, image := savedImage good .default }
    seq := { Seq.reset with marker := some { line := 3, program := some 1, origin := .demand, start := 7 } } }

theorem hyp_StartUp :
    (held true true).mgmt.phase = .held true
      ∧ ((held false true).mgmt.phase = .held false ∧ imagePasses (held false true).memory = true)
      ∧ ((held false false).mgmt.phase = .held false ∧ imagePasses (held false false).memory = false)
      ∧ (∀ i, (held false true).stations.entries.get i = none)
      ∧ (∀ cold good, (held cold good).seq.marker = some { line := 3, program := some 1, origin := .demand, start := 7 })
      ∧ (State.reset.mgmt.phase = .held true ∧ State.reset.seq.marker = none) := by decide

/-- R142, R147: with the log full the oldest record makes room for that of a set marker, which is counted. -/
theorem test_marker_record_in_a_full_log :
    let r := markerRecord { line := 3, program := some 1, origin := .demand, start := 7 } (held false true)
    let s := (held false true).modSeq fun q => { q with log := List.replicate 63 { r with seq := 9 } ++ [{ r with seq := 8 }] }
    let t := settleMarker s
    t.seq.log = List.replicate 62 { r with seq := 9 } ++ [{ r with seq := 8 }, r]
      ∧ t.counts.dev.get DevCount.logOverwrite.idx = 1 := by decide

/-- R183, R186: while locked, a station address carried as it is stored is stored again, and its source is COMMAND. -/
theorem test_locked_same_station_address :
    let s := base.modMgmt fun m => { m with locked := true, station := some mgmtAddr, stationSource := .identity }
    (after (.setManagement .uplink { station := some mgmtAddr }) s).mgmt.stationSource = .command := by decide

theorem hyp_StartUpComplete : ∀ b : Bool,
    let s := (State.reset.modMgmt fun m => { m with phase := .started }).modSeq fun q => { q with extreq := b }
    s.mgmt.phase = .started ∧ s.seq.extreq = b := by decide

theorem hyp_TrafficReset : base.takesCommands ∧ (testing .measuring (.connected 0) act0 base).takesCommands
    ∧ (testing .measuring (.connected 0) act0 base).seq.act.isSome = true := by
  unfold State.takesCommands; decide

theorem hyp_DeviceResetPending :
    (base.takesCommands ∧ base.mgmt.save = none)
      ∧ (let s := base.modMgmt fun m => { m with save := some .default }
         s.takesCommands ∧ s.mgmt.save.isSome = true)
      ∧ (pendingReset.mgmt.devReset.isSome = true ∧ isCommand (.readStatus .uplink) = true) := by
  unfold State.takesCommands; decide

theorem withCheck_length (b : List Byte) : (withCheck b).length = b.length + 4 := by
  simp [withCheck, leBytes, beBytes]

theorem withCheck_good (b : List Byte) : checkGood (withCheck b) = true := by
  simp [checkGood, frameBody, withCheck, leBytes, beBytes]

/-- A frame at each boundary of the three ports: too short by one, shortest, longest, and too long by one. -/
theorem hyp_ReceptionChecks : checkGood [0] = false
    ∧ (∀ n, checkGood (withCheck (List.replicate n 0)) = true ∧ (withCheck (List.replicate n 0)).length = n + 4)
    ∧ (59 + 4 < 64 ∧ 64 ≤ 60 + 4 ∧ 1514 + 4 ≤ 1518 ∧ 1518 < 1515 + 4 ∧ 1518 + 4 ≤ 1522 ∧ 1522 < 1519 + 4)
    ∧ (held true true).running = false := by
  refine ⟨by decide, fun n => ⟨withCheck_good _, ?_⟩, by decide, by decide⟩
  rw [withCheck_length, List.length_replicate]

/-- What the traffic statements share: a frame for the home on line 0 in a state. -/
theorem hyp_traffic_to_home (st : LineState) :
    isTraffic toHome (withHome (at0 st base)) ∧ (frameDst toHome).isGroup = false
      ∧ entryFor (withHome (at0 st base)) (frameDst toHome) = some homeEntry
      ∧ ((withHome (at0 st base)).line homeEntry.line).cfg.vlan = frameVlan toHome
      ∧ ((withHome (at0 st base)).line homeEntry.line).st = st := by
  unfold isTraffic passesReception; cases st <;> decide +kernel

/-- The frame leaves 127 and 128 cells free with the pool armed, and 255 and 256 with it not armed. -/
theorem hyp_UnicastToUpLine_levels : ∀ free armed, (free, armed) ∈ [(128, true), (129, true), (256, false), (257, false)] →
    let s := (withHome (at0 .up base)).modPool fun p => { p with free := free, armed := armed }
    poolCheck s (cellsFor toHome.length) = true ∧ queueRoom s 0 .down (cellsFor toHome.length) = true
      ∧ cellsFor toHome.length = 1 ∧ s.pool.free = free ∧ s.pool.armed = armed := by
  simp only [List.mem_cons, Prod.mk.injEq, List.not_mem_nil, or_false]
  rintro free armed (⟨rfl, rfl⟩ | ⟨rfl, rfl⟩ | ⟨rfl, rfl⟩ | ⟨rfl, rfl⟩) <;> decide

theorem hyp_UnicastToUpLine_notice :
    let s := base.modMgmt fun m => { m with manager := some managerAddr }
    (s.counts.settings.get EventKind.poolLow.idx).enabled = true ∧ s.mgmt.manager.isSome = true
      ∧ s.counts.notices.length < 32 := by decide

theorem hyp_UnicastToUpLine :
    (poolCheck (withHome (at0 .up base)) (cellsFor toHome.length) = true
        ∧ queueRoom (withHome (at0 .up base)) 0 .down (cellsFor toHome.length) = true)
      ∧ poolCheck ((withHome (at0 .up base)).modPool fun p => { p with free := 64 }) (cellsFor toHome.length) = false
      ∧ poolCheck ((withHome (at0 .up base)).modPool fun p => { p with free := 65 }) (cellsFor toHome.length) = true
      ∧ (let s := (withHome (at0 .up base)).modLine 0 fun l => { l with cfg := { l.cfg with downLimit := 0 } }
         poolCheck s (cellsFor toHome.length) = true ∧ queueRoom s 0 .down (cellsFor toHome.length) = false) := by
  decide

theorem hyp_UnicastToDormantLine :
    let s := withHome (at0 .dormant noBudget)
    (isTraffic toHome s ∧ entryFor s (frameDst toHome) = some homeEntry ∧ (s.line 0).st = .dormant
        ∧ (s.line 0).cfg.vlan = frameVlan toHome ∧ wakeOnDownAllowed s 0 = true)
      ∧ ((s.line 0).wakeStore = none ∧ poolCheck s (cellsFor toHome.length) = true ∧ awakeBudget s ≤ awakeCount s
          ∧ ∀ w ∈ s.power.wakeList, w.line ≠ 0)
      ∧ (let u := s.modLine 0 fun l => { l with wakeStore := some 0 }
         isTraffic toHome u ∧ (u.line 0).st = .dormant ∧ wakeOnDownAllowed u 0 = true
          ∧ (u.line 0).wakeStore.isSome = true) := by
  unfold isTraffic passesReception; decide +kernel

/-- The other forms for a DORMANT line: without the wake, and with no cells to spare. -/
theorem hyp_UnicastToDormantLine_refused :
    (let s := (withHome (at0 .dormant base)).modLine 0 fun l => { l with cfg := { l.cfg with wakeOnDown := false } }
     isTraffic toHome s ∧ (s.line 0).st = .dormant ∧ wakeOnDownAllowed s 0 = false)
      ∧ (let s := (withHome (at0 .dormant base)).modPool fun p => { p with free := 64 }
         isTraffic toHome s ∧ wakeOnDownAllowed s 0 = true ∧ (s.line 0).wakeStore = none
          ∧ poolCheck s (cellsFor toHome.length) = false) := by
  unfold isTraffic passesReception; decide +kernel

theorem hyp_UnicastToDormantLine_quiet :
    let s := withHome (at0 .quiet base)
    (isTraffic toHome s ∧ (s.line 0).st = .quiet ∧ poolCheck s (cellsFor toHome.length) = true
        ∧ queueRoom s 0 .down (cellsFor toHome.length) = true ∧ wakeOnDownAllowed s 0 = true)
      ∧ wakeOnDownAllowed (s.modLine 0 fun l => { l with cfg := { l.cfg with wakeOnDown := false } }) 0 = false
      ∧ poolCheck (s.modPool fun p => { p with free := 64 }) (cellsFor toHome.length) = false
      ∧ queueRoom (s.modLine 0 fun l => { l with cfg := { l.cfg with downLimit := 0 } }) 0 .down
          (cellsFor toHome.length) = false := by
  unfold isTraffic passesReception; decide +kernel

/-- Wakes waiting for line 1, which is DOWN, and line 2, which is DORMANT, under a budget of `b`. -/
def twoWaiting (b : Nat) (s : State) : State :=
  ((s.modLine 1 fun l => { l with st := .down }).modLine 2 fun l => { l with st := .dormant }).modPower fun p =>
    { p with
      wakeList := [{ line := 1, cause := .start, time := 0 }, { line := 2, cause := .downstream, time := 0 }]
      policies := p.policies.map fun x => { x with budget := b } }

/-- What the statements of lines that leave their states share: two wakes listed, under a budget that leaves room for none
of them, for none before the line leaves, for one, and for both. -/
theorem hyp_wakesListed (st : LineState) : WakesListed (at0 st base)
    ∧ ∀ b ∈ [0, 1, 2, 3], WakesListed (twoWaiting b (at0 st base)) ∧ awakeBudget (twoWaiting b (at0 st base)) = b
      ∧ (awakeState st = true → awakeCount (twoWaiting b (at0 st base)) = 1)
      ∧ ((twoWaiting b (at0 st base)).line 0).st = st := by
  unfold WakesListed; cases st <;> decide

/-- What a wake request meets: a listed line, no budget, room with an empty list, and room for one with another waiting.
-/
theorem hyp_wakeTaken :
    let w : WakeEntry := { line := 1, cause := .start, time := 0 }
    let s := (at0 .dormant (base.modLine 1 fun l => { l with st := .down })).modPower fun p => { p with wakeList := [w] }
    let one := s.modPower fun p => { p with policies := p.policies.map fun x => { x with budget := 1 } }
    (∃ x ∈ s.power.wakeList, x.line = 1) ∧ (∀ x ∈ s.power.wakeList, x.line ≠ 0)
      ∧ (awakeBudget noBudget ≤ awakeCount noBudget ∧ ∀ x ∈ noBudget.power.wakeList, x.line ≠ 0)
      ∧ (awakeCount (at0 .dormant base) < awakeBudget (at0 .dormant base) ∧ (at0 .dormant base).power.wakeList = []
          ∧ asleepState ((at0 .dormant base).line 0).st = true)
      ∧ (one.power.wakeList = [w] ∧ asleepState (one.line 1).st = true ∧ awakeCount one < awakeBudget one
          ∧ awakeCount one + 1 = awakeBudget one) := by decide

theorem hyp_UnicastDropped_short : ∀ f ∈ [frame homeAddr managerAddr none 0x0800 64,
      frame homeAddr managerAddr (some 100) 0x0800 64, frame homeAddr managerAddr (some 100) 0x0800 67],
    passesReception 1522 f base ∧ isBackhaul base f = false ∧ isControl base f = false
      ∧ (isTagged f = false ∨ isTagged f = true ∧ f.length < 68) := by
  unfold passesReception; decide +kernel

theorem hyp_UnicastDropped :
    (isTraffic toHome base ∧ entryFor base (frameDst toHome) = none)
      ∧ (let s := (withHome base).modLine 0 fun l => { l with cfg := { l.cfg with vlan := 7 } }
         isTraffic toHome s ∧ entryFor s (frameDst toHome) = some homeEntry ∧ (s.line 0).cfg.vlan ≠ frameVlan toHome) := by
  unfold isTraffic passesReception; decide +kernel

theorem hyp_BroadcastReplicated :
    (isTraffic toAll base ∧ (frameDst toAll).isGroup = true ∧ recipients base toAll = [])
      ∧ (isTraffic toAll (at0 .up base) ∧ recipients (at0 .up base) toAll = [0]
          ∧ poolCheck (at0 .up base) (cellsFor toAll.length) = true
          ∧ queueRoom (at0 .up base) 0 .down (cellsFor toAll.length) = true)
      ∧ (let s := (at0 .up base).modPool fun p => { p with free := 64 }
         isTraffic toAll s ∧ recipients s toAll = [0] ∧ poolCheck s (cellsFor toAll.length) = false) := by
  unfold isTraffic passesReception; decide +kernel

theorem hyp_BroadcastReplicated_no_room :
    let s := (at0 .up base).modLine 0 fun l => { l with cfg := { l.cfg with downLimit := 0 } }
    isTraffic toAll s ∧ recipients s toAll = [0] ∧ poolCheck s (cellsFor toAll.length) = true
      ∧ queueRoom s 0 .down (cellsFor toAll.length) = false := by
  unfold isTraffic passesReception; decide +kernel

/-- A backhaul frame with a content, from the backhaul address. -/
def backhaulOf (content : List Byte) : List Byte :=
  withCheck (beBytes 6 mgmtAddr.toNat ++ beBytes 6 managerAddr.toNat ++ beBytes 2 Config.advisoryEthertype ++ content
    ++ List.replicate (46 - content.length) 0)
def backhauled : State := base.modShares fun x => { x with backhaul := some managerAddr }

/-- An advisory of 65,536 kbps, a pause of both classes for 5 us, and a message of another kind. -/
theorem hyp_backhaul_frames :
    (let f := backhaulOf [1, 0, 1, 0, 0]
     passesReception 1522 f backhauled ∧ isBackhaul backhauled f = true ∧ contentAt f + 5 ≤ (frameBody f).length
      ∧ wireField (frameBody f) (contentAt f) 1 = 1 ∧ wireField (frameBody f) (contentAt f + 1) 4 = 65536)
      ∧ (let f := backhaulOf [2, 3, 0, 5]
         passesReception 1522 f backhauled ∧ isBackhaul backhauled f = true ∧ contentAt f + 4 ≤ (frameBody f).length
          ∧ wireField (frameBody f) (contentAt f) 1 = 2)
      ∧ (let f := backhaulOf [3]
         passesReception 1522 f backhauled ∧ isBackhaul backhauled f = true
          ∧ wireField (frameBody f) (contentAt f) 1 = 3) := by
  unfold passesReception; decide +kernel

theorem hyp_ControlFramesQueued :
    (passesReception 1522 toPart base ∧ isBackhaul base toPart = false ∧ isControl base toPart = true
        ∧ managerRefuses base toPart = false)
      ∧ (let s := base.modMgmt fun m => { m with managerOnly := true, manager := some homeAddr }
         passesReception 1522 toPart s ∧ isBackhaul s toPart = false ∧ isControl s toPart = true
          ∧ managerRefuses s toPart = true) := by
  unfold passesReception; decide +kernel

theorem hyp_CapacitySource : base.running = true
    ∧ (base.modShares fun x => { x with holdTimer := some 0, source := .lost }).shares.holdTimer = some 0
    ∧ (base.modShares fun x => { x with source := .lost }).shares.source = .lost := by decide

theorem hyp_ClassPause : base.running = true ∧ (held true true).running = false := by decide

theorem hyp_SourceCheckTable :
    reachesSourceCheck 0 fromHome (at0 .up base) ∧ reachesSourceCheck 0 fromHome (withHome (at0 .up base))
      ∧ (frameSrc fromHome).isGroup = false ∧ lookupStation (at0 .up base) (frameSrc fromHome) = none
      ∧ lowestInvalid (at0 .up base) = some 0
      ∧ lookupStation (withHome (at0 .up base)) (frameSrc fromHome) = some 0
      ∧ reachesSourceCheck 0 (frame managerAddr (0x010000000000) none 0x0800 64) (at0 .up base)
      ∧ (frameSrc (frame managerAddr (0x010000000000) none 0x0800 64)).isGroup = true := by
  unfold reachesSourceCheck passesReception; decide +kernel

/-- The source check's entries: its own STATIC and LEARNED ones, and another line's LEARNED one. -/
theorem hyp_SourceCheckTable_entries :
    ((withHome (at0 .up base)).stations.entries.get 0 = some homeEntry ∧ homeEntry.isLearned = false)
      ∧ (let e := { homeEntry with origin := .learned 5 }
         (setStation 0 (some e) (at0 .up base)).stations.entries.get 0 = some e ∧ e.line = 0 ∧ e.isLearned = true)
      ∧ (let e := { homeEntry with origin := .learned 5, line := 1 }
         (setStation 0 (some e) (at0 .up base)).stations.entries.get 0 = some e ∧ e.line ≠ 0 ∧ e.isLearned = true) := by
  decide

/-- The refusals of the source check, and a move that is allowed. -/
theorem hyp_SourceCheckTable_drops :
    (let s := (at0 .up base).modLine 0 fun l => { l with cfg := { l.cfg with learning := false } }
     reachesSourceCheck 0 fromHome s ∧ lookupStation s (frameSrc fromHome) = none ∧ (s.line 0).cfg.learning = false)
      ∧ (let e := { homeEntry with line := 1 }
         let s := setStation 0 (some e) (at0 .up base)
         reachesSourceCheck 0 fromHome s ∧ lookupStation s (frameSrc fromHome) = some 0
          ∧ s.stations.entries.get 0 = some e ∧ e.line ≠ 0 ∧ e.isLearned = false)
      ∧ (let e := { homeEntry with origin := .learned 5, line := 1 }
         let s := setStation 0 (some e) (at0 .up base)
         reachesSourceCheck 0 fromHome s ∧ lookupStation s (frameSrc fromHome) = some 0 ∧ e.isLearned = true
          ∧ (s.line 0).cfg.learning = true ∧ stationCount s 0 (some 0) < (s.line 0).cfg.stationLimit) := by
  unfold reachesSourceCheck passesReception; decide +kernel

/-- The drops of R31, and a source that is learned with its frame passed on. -/
theorem hyp_UpstreamFrameQueued_forms :
    let control := frame mgmtAddr homeAddr none 0xB7E1 64
    let s := at0 .up base
    (passesReception 1518 toHome s ∧ isTagged toHome = true)
      ∧ (passesReception 1518 control s ∧ isTagged control = false ∧ controlFromHome s control = true)
      ∧ (∀ st : LineState, passesReception 1518 fromHome (at0 st base) ∧ controlFromHome (at0 st base) fromHome = false
          ∧ isTagged fromHome = false ∧ ((at0 st base).line 0).st = st)
      ∧ (reachesSourceCheck 0 fromHome s ∧ sourceCheck 0 (frameSrc fromHome) s
          = (some .bulk, setStation 0 (some { homeEntry with origin := .learned 0 }) s))
      ∧ poolCheck s (cellsFor (fromHome.length + 4)) = true
      ∧ queueRoom s 0 (.ofCls .bulk) (cellsFor (fromHome.length + 4)) = true := by
  unfold reachesSourceCheck passesReception
  refine ⟨by decide +kernel, by decide +kernel, fun st => by cases st <;> decide +kernel, by decide +kernel,
    by decide +kernel, by decide +kernel⟩

/-- No cell to spare for a learned source's frame, and no room in the class's queue. -/
theorem hyp_UpstreamFrameQueued_refused :
    poolCheck ((at0 .up base).modPool fun p => { p with free := 64 }) (cellsFor (fromHome.length + 4)) = false
      ∧ queueRoom ((at0 .up base).modLine 0 fun l => { l with cfg := { l.cfg with bulkLimit := 0 } }) 0 (.ofCls .bulk)
          (cellsFor (fromHome.length + 4)) = false := by decide

theorem hyp_UpstreamFrameQueued :
    let s := withHome (at0 .up base)
    reachesSourceCheck 0 fromHome s ∧ lookupStation s (frameSrc fromHome) = some 0
      ∧ s.stations.entries.get 0 = some homeEntry ∧ homeEntry.line = 0
      ∧ poolCheck s (cellsFor (fromHome.length + 4)) = true
      ∧ queueRoom s 0 (.ofCls homeEntry.cls) (cellsFor (fromHome.length + 4)) = true := by
  unfold reachesSourceCheck passesReception; decide +kernel

theorem hyp_WakeRequestsListed : noBudget.running = true ∧ awakeBudget noBudget ≤ awakeCount noBudget
    ∧ (∀ w ∈ noBudget.power.wakeList, w.line ≠ 0) ∧ edgeMatches (noBudget.line 0).cfg.senseEdge true = true
    ∧ edgeMatches (noBudget.line 0).cfg.senseEdge false = false := by decide

theorem hyp_WakeRequestsListed_granted (st : LineState) : (at0 st base).running = true ∧ ((at0 st base).line 0).st = st
    ∧ (currentPolicy base).wakeSense = true
    ∧ (currentPolicy (base.modPower fun p =>
        { p with policies := p.policies.map fun x => { x with wakeSense := false } })).wakeSense = false := by
  cases st <;> decide

theorem hyp_LinkUpAndRates (st : LineState) : (at0 st base).running = true ∧ ((at0 st base).line 0).st = st := by
  cases st <;> decide

theorem hyp_LineGoesDown : (at0 .training base).running = true
    ∧ ((at0 .training base).line 0).st = .training ∧ ((at0 .quiet base).line 0).st = .quiet
    ∧ (((at0 .up base).modLine 0 fun l => { l with wakeTimer := some 0 }).line 0).st = .up
    ∧ (((at0 .up base).modLine 0 fun l => { l with wakeTimer := some 0 }).line 0).wakeTimer.isSome = true := by decide

theorem hyp_DrainEnds : ∀ b : Bool,
    let s := (testing .drainingWait .idle act0 (at0 .draining base)).modSeq fun q => { q with extreq := b }
    s.running = true ∧ (s.line 0).drained = true ∧ (s.line 0).st = .draining
      ∧ s.seq.act = some act0 ∧ act0.line = 0 ∧ act0.origin ≠ .external ∧ s.seq.st = .drainingWait
      ∧ s.access.matrix = .idle ∧ s.seq.extreq = b := by decide

theorem hyp_IdleAndDormantTimers :
    (let s := (at0 .up base).modLine 0 fun l => { l with idle := some 0, cfg := { l.cfg with quietDelay := 1 } }
     s.running = true ∧ (s.line 0).st = .up ∧ (s.line 0).idle.isSome = true
      ∧ (s.line 0).cfg.quietDelay ≠ 0)
      ∧ (base.line 0).cfg.quietDelay = 0 ∧ (base.line 0).cfg.dormantDelay = 0
      ∧ (let s := (at0 .quiet base).modLine 0 fun l => { l with cfg := { l.cfg with dormantDelay := 1 } }
         (s.line 0).st = .quiet ∧ (s.line 0).cfg.dormantDelay ≠ 0) := by decide

theorem hyp_WakeGranted (st : LineState) :
    let w : WakeEntry := { line := 0, cause := .start, time := 0 }
    (let s := (at0 st base).modPower fun p => { p with wakeList := [w] }
     s.power.wakeList = [w] ∧ (st = .down ∨ st = .dormant ∨ st = .quiet → awakeCount s < awakeBudget s)
      ∧ (s.line 0).st = st ∧ s.running = true)
      ∧ (let s := (at0 st noBudget).modPower fun p => { p with wakeList := [w] }
         s.power.wakeList = [w] ∧ awakeBudget s ≤ awakeCount s) := by
  cases st <;> decide

theorem hyp_SweepRefillAndPauseEnd :
    (base.modStations fun t => { t with sweep := some 0 }).stations.sweep = some 0
      ∧ (base.modSched fun t => { t with refill := some 0 }).sched.refill = some 0 := by decide

/-- A part with a frame in a queue of line 0, and with a reply in the transmit list. -/
def withPrio (credit : Int) : State :=
  withRec rec0 ((at0 .up base).modLine 0 fun l => { l with prioQ := [0], credit := credit })
def reply0 : TxEntry := { recId := 0, port := .uplink, part := .reply }

theorem hyp_UpstreamChoice :
    (held true true).running = false
      ∧ (let s := (withRec rec0 base).modMgmt fun m => { m with txList := [reply0] }
         s.running = true ∧ s.sched.uplinkUp = true ∧ s.sched.uplinkTx = none ∧ s.sched.prioPause = none
          ∧ (s.mgmt.txList.find? fun x => x.port == .uplink) = some reply0)
      ∧ (let s := withPrio 1
         s.sched.prioPause = none ∧ (∀ x ∈ s.mgmt.txList, x.port ≠ .uplink) ∧ 0 < s.sched.effective
          ∧ (s.line 0).prioQ = [0] ∧ 0 < (s.line 0).credit ∧ s.record 0 = some rec0
          ∧ ∀ k : LineNo, k < 0 - s.sched.prioPtr →
              (s.line (s.sched.prioPtr + k)).prioQ = [] ∨ (s.line (s.sched.prioPtr + k)).credit ≤ 0)
      ∧ (let s := withRec rec0 ((at0 .up base).modLine 0 fun l => { l with bulkQ := [0] })
         managementPass s = none ∧ creditedPass .prio s = none ∧ creditedPass .bulk s = none ∧ s.shares.spare = true
          ∧ 0 < s.sched.effective ∧ s.sched.bulkPause = none ∧ s.sched.prioPause = none ∧ (s.line 0).prioQ = []
          ∧ (s.line 0).bulkQ = [0] ∧ ∀ k : LineNo, k < 0 - s.sched.sparePtr →
              (s.line (s.sched.sparePtr + k)).prioQ = [] ∧ (s.line (s.sched.sparePtr + k)).bulkQ = []) := by
  decide

theorem hyp_UpstreamChoice_more :
    let s := withRec rec0 (at0 .up base)
    (let u := s.modLine 0 fun l => { l with bulkQ := [0], credit := 1 }
     managementPass u = none ∧ creditedPass .prio u = none ∧ u.sched.bulkPause = none ∧ 0 < u.sched.effective
      ∧ (u.line 0).bulkQ = [0] ∧ 0 < (u.line 0).credit ∧ u.record 0 = some rec0)
      ∧ (let u := s.modLine 0 fun l => { l with prioQ := [0] }
         managementPass u = none ∧ creditedPass .prio u = none ∧ creditedPass .bulk u = none ∧ u.shares.spare = true
          ∧ 0 < u.sched.effective ∧ u.sched.prioPause = none ∧ (u.line 0).prioQ = [0])
      ∧ (let u := (s.modLine 0 fun l => { l with prioQ := [1], bulkQ := [0] }).modSched fun x =>
           { x with prioPause := some 5 }
         managementPass u = none ∧ creditedPass .prio u = none ∧ creditedPass .bulk u = none
          ∧ offers u 0 .prio = false ∧ u.sched.bulkPause = none ∧ (u.line 0).bulkQ = [0]) := by decide

/-- A transmission of record 0 in progress. -/
def sending (s : State) : State := (withRec rec0 s).modSched fun x => { x with uplinkTx := some ⟨0, true⟩ }

theorem hyp_UplinkLink : base.sched.uplinkTx = none ∧ (sending base).sched.uplinkTx = some ⟨0, true⟩
    ∧ (sending base).record 0 = some rec0 ∧ ((sending base).modPool fun p => { p with recs := [] }).record 0 = none := by
  decide

theorem hyp_UplinkLink_up : (choose base = none ∧ base.running = true ∧ base.sched.uplinkTx = none)
    ∧ (held true true).running = false
    ∧ (let s := (withRec rec0 base).modMgmt fun m => { m with txList := [reply0] }
       s.running = true ∧ s.sched.uplinkTx = none ∧ s.sched.prioPause = none
        ∧ (s.mgmt.txList.find? fun y => y.port == .uplink) = some reply0) := by decide

theorem hyp_TransmissionComplete :
    ((sending pendingReset).sched.uplinkTx = some ⟨0, true⟩ ∧ startsReset (sending pendingReset) 0 = true)
      ∧ ((sending base).sched.uplinkTx = some ⟨0, true⟩ ∧ startsReset (sending base) 0 = false
          ∧ (sending base).record 0 = some rec0 ∧ rec0.origin = .line 0) := by decide

/-- The last holder of a frame and one of two, with 128, 255 and 256 cells free at the end, for a line that its record
gives a counter set. -/
theorem hyp_HandOffs_completion : ∀ refs ∈ [1, 2], ∀ free ∈ [127, 254, 255],
    let s := ((withRec { rec0 with refs := refs } (at0 .up base)).modLine 0 fun l =>
      { l with handOff := some 0, cfg := { l.cfg with counterSet := some 15 } }).modPool fun p => { p with free := free }
    (s.line 0).handOff = some 0 ∧ s.record 0 = some { rec0 with refs := refs } ∧ (s.line 0).cfg.counterSet = some 15
      ∧ 128 ≤ s.pool.free + ({ rec0 with refs := refs } : FrameRec).cells := by decide

theorem hyp_HandOffs :
    let up := (withRec rec0 (at0 .up base)).modLine 0 fun l => { l with ready := true }
    (let s := up.modLine 0 fun l => { l with wakeStore := some 0 }
     (s.line 0).st = .up ∧ (s.line 0).ready = true ∧ (s.line 0).handOff = none ∧ (s.line 0).wakeStore = some 0)
      ∧ (let s := up.modLine 0 fun l => { l with downQ := [0] }
         (s.line 0).st = .up ∧ (s.line 0).ready = true ∧ (s.line 0).handOff = none ∧ (s.line 0).wakeStore = none
          ∧ (s.line 0).downQ = [0])
      ∧ (let s := up.modLine 0 fun l => { l with handOff := some 0 }
         (s.line 0).handOff = some 0 ∧ s.record 0 = some rec0) := by decide

theorem hyp_CraftTransmitter :
    let e : TxEntry := { recId := 0, port := .craft, part := .reply }
    let part : FrameRec := { rec0 with origin := .part }
    (let s := (withRec part base).modMgmt fun m => { m with txList := [e] }
     s.sched.craftUp = true ∧ s.sched.craftTx = none ∧ (s.mgmt.txList.find? fun x => x.port == .craft) = some e)
      ∧ (let s := (withRec part base).modSched fun x => { x with craftTx := some 0 }
         s.sched.craftTx = some 0 ∧ s.record 0 = some part ∧ part.origin = .part ∧ startsReset s 0 = false)
      ∧ (let s := pendingReset.modSched fun x => { x with craftTx := some 0 }
         s.sched.craftTx = some 0 ∧ startsReset s 0 = true) := by decide

theorem hyp_SettleTimer :
    let s := testing .settling (.settlingIn 0) act0 base
    (s.seq.act = some act0 ∧ s.access.matrix = .settlingIn 0 ∧ s.seq.st = .settling)
      ∧ (act0.origin ≠ .external ∧ s.seq.extreq = false ∧ s.seq.extack = false ∧ s.access.unit = .idle
          ∧ s.access.tripped = false ∧ act0.specs[act0.next]? = some (.resistance .tr 50 20 9 5)
          ∧ ∀ r ∈ act0.results, r.verdict ≠ .guarded)
      ∧ (withExtreq s).seq.extreq = true ∧ ({ act0 with next := 1 } : Activity).specs.length ≤ 1
      ∧ ({ act0 with origin := .external } : Activity).origin = .external := by decide

theorem hyp_TestFinished : ∀ p : Option Outcome, p = none ∨ p = some .abortedPower →
    let a := { act0 with pending := p }
    let s := testing .releasing .settlingOut a (at0 .held base)
    s.seq.act = some a ∧ s.access.matrix = .settlingOut ∧ s.seq.st = .releasing ∧ a.origin ≠ .external
      ∧ s.seq.extreq = false ∧ s.seq.queue = [] ∧ s.seq.log.length < Config.logPlaces ∧ (s.line a.line).st = .held := by
  rintro p (rfl | rfl) <;> decide

theorem hyp_MeasurementCompletes : ∀ x : Spec, x = .resistance .tr 50 20 9 5 ∨ x = .capacitance .tg 10 5000 5 9
      ∨ x = .tone .rg 400 100 100 1 →
    let s := measuring x (testing .measuring (.connected 0) act0 base)
    s.seq.act = some act0 ∧ s.access.unit = .measuring ∧ s.access.spec = some x := by
  rintro x (rfl | rfl | rfl) <;> decide

theorem hyp_MeasurementCompletes_operands :
    (List.replicate 20 (⟨5, 5⟩ : Sample)).length = 20 ∧ 2000000 ≤ 2000000
      ∧ (let s := measuring (.foreign .tr 20 5 9) (testing .measuring (.connected 0) { act0 with next := 1 } base)
         s.access.spec = some (.foreign .tr 20 5 9) ∧ s.access.matrix = .connected 0 ∧ s.seq.extreq = false
          ∧ s.access.unit = .measuring ∧ s.seq.act = some { act0 with next := 1 } ∧ act0.specs.length ≤ 1) := by decide

/-- A FOREIGN measurement with another spec left, and one with EXTREQ asserted. -/
theorem hyp_MeasurementCompletes_foreign : ∀ extreq : Bool,
    let x : Spec := .foreign .tr 20 5 9
    let a := { act0 with specs := [x, .resistance .tr 50 20 9 5], next := 1 }
    let s := (measuring x (testing .measuring (.connected 0) a base)).modSeq fun q => { q with extreq := extreq }
    s.seq.act = some a ∧ s.access.unit = .measuring ∧ s.access.spec = some x ∧ (List.replicate 20 (⟨5, 5⟩ : Sample)).length = 20
      ∧ s.access.matrix = .connected 0 ∧ s.seq.extreq = extreq ∧ s.seq.extack = false ∧ s.access.tripped = false
      ∧ a.specs[a.next]? = some (.resistance .tr 50 20 9 5) ∧ ∀ z ∈ a.results, z.verdict ≠ .guarded := by decide

theorem hyp_DischargeWait : ∀ stopping extreq : Bool,
    let s := ((testing .discharging (.connected 0) act0 base).modAccess fun c =>
      { c with unit := .discharging, stopping := stopping, legMv := 60000 }).modSeq fun q => { q with extreq := extreq }
    s.access.unit = .discharging ∧ s.access.matrix = .connected 0 ∧ s.access.legMv ≤ s.access.guardVolts * 1000
      ∧ s.seq.act = some act0 ∧ s.access.stopping = stopping ∧ s.seq.st = .discharging ∧ s.seq.extreq = extreq
      ∧ s.seq.extack = false ∧ s.access.tripped = false ∧ act0.specs[act0.next]? = some (.resistance .tr 50 20 9 5)
      ∧ (∀ r ∈ act0.results, r.verdict ≠ .guarded) := by decide

theorem hyp_GuardTrips :
    let x : Spec := .resistance .tr 50 20 9 5
    let s := measuring x (testing .measuring (.connected 0) act0 base)
    base.access.matrix = .idle
      ∧ (s.access.matrix = .connected 0 ∧ s.access.unit = .measuring ∧ s.access.spec = some x ∧ x.kind.driving = true
          ∧ s.access.tripped = false ∧ s.seq.act = some act0 ∧ act0.line = 0)
      ∧ 110000 ≤ s.access.guardVolts * 1000 + 50 * 1000 ∧ s.access.guardVolts * 1000 + 50 * 1000 < 110001 := by decide

/-- A leg at the level and above it with the unit idle, discharging after a resistance drive, and in a FOREIGN measurement;
and the guard tripped already. -/
theorem hyp_GuardTrips_at_rest :
    (let s := testing .settling (.settlingIn 0) act0 base
     s.access.matrix = .settlingIn 0 ∧ s.access.unit = .idle ∧ s.access.tripped = false
      ∧ s.access.guardVolts * 1000 = 60000)
      ∧ (let s := (testing .discharging (.connected 0) act0 base).modAccess fun c =>
           { c with unit := .discharging, spec := some (.resistance .tr 50 20 9 5) }
         s.access.matrix = .connected 0 ∧ s.access.unit = .discharging
          ∧ s.access.guardVolts * 1000 + 50 * 1000 = 110000 ∧ s.access.tripped = false)
      ∧ (let x : Spec := .foreign .tr 20 5 9
         let s := measuring x (testing .measuring (.connected 0) act0 base)
         s.access.matrix = .connected 0 ∧ s.access.unit = .measuring ∧ s.access.spec = some x ∧ x.kind = .foreign
          ∧ (s.modAccess fun c => { c with tripped := true }).access.tripped = true) := by decide

theorem hyp_ExternalHead :
    (held true true).running = false ∧ (base.seq.st = .idle ∧ base.running = true ∧ base.seq.act = none)
      ∧ base.seq.extack = false
      ∧ (let s := withExtreq (base.modSeq fun q => { q with st := .suspended })
         s.seq.extack = true ∧ s.seq.act = none ∧ s.access.matrix = .idle ∧ s.seq.queue = [])
      ∧ (let s := (withExtreq (testing .suspended (.connected 0) act0 base)).modSeq fun q => { q with suspended := true }
         s.seq.extack = true ∧ s.seq.act = some act0 ∧ act0.origin ≠ .external ∧ s.access.matrix = .connected 0
          ∧ act0.next < act0.specs.length ∧ (∀ r ∈ act0.results, r.verdict ≠ .guarded) ∧ s.seq.st = .suspended
          ∧ s.seq.suspended = true ∧ s.seq.log.length < Config.logPlaces)
      ∧ base.seq.suspended = false := by decide

theorem hyp_RoutineTicks :
    let s := (testing .settling (.settlingIn 1) { act0 with line := 1 } (at0 .down base)).modSeq fun q =>
      { q with groups := q.groups.modify 0 fun g => { g with enabled := true } }
    let u := s.modLine 0 fun l => { l with grade := .faulty, cfg := { l.cfg with routineGroup := some 0 } }
    groupCounts base 0 = false ∧ groupCounts u 0 = true ∧ u.seq.st ≠ .idle ∧ (u.line 0).cfg.routineGroup = some 0
      ∧ (u.line 0).st ≠ .disabled ∧ (u.line 0).grade = .faulty ∧ (u.line 0).st ≠ .barred := by decide

theorem hyp_RoutineTicks_idle :
    let s := (base.modSeq fun q => { q with groups := q.groups.modify 0 fun g => { g with enabled := true } }).modLine 0
      fun l => { l with st := .down, grade := .marginal, cfg := { l.cfg with routineGroup := some 0 } }
    groupCounts s 0 = true ∧ s.seq.st = .idle ∧ s.seq.act = none ∧ s.seq.queue = [] ∧ s.seq.extreq = false
      ∧ ticked s 0 true 0 = true ∧ ticked s 0 false 0 = true ∧ (∀ m : LineNo, m < 0 → ticked s 0 true m = false)
      ∧ (s.line 0).st = .down := by decide

theorem hyp_PowerInputs : base.power.state = some .mains ∧ base.running = true
    ∧ (onBattery .reserve).power.state = some .reserve ∧ PowerState.reserve ≠ .mains
    ∧ (held true true).running = false ∧ base.power.stableTimer = none
    ∧ (held true true).power.state = none := by decide

/-- A sample at each threshold of the defaults: 11,200, 11,500, 11,800 and 12,100 mV. -/
theorem hyp_PowerStateChanges :
    let p := base.power
    (11199 < p.reserve) ∧ (p.reserve ≤ 11200 ∧ 11200 < p.conserve) ∧ (p.reserve ≤ 12100 ∧ p.conserve + p.hysteresis ≤ 12100)
      ∧ (p.reserve + p.hysteresis ≤ 11500 ∧ 11500 < p.conserve + p.hysteresis) ∧ p.conserve ≤ 11800
      ∧ (onBattery .mains).power.sample.map Prod.fst = some 12000
      ∧ (onBattery .conserve).power.stableTimer = some 0 ∧ (onBattery .conserve).running = true
      ∧ (onBattery .conserve).power.state = some .conserve := by decide

theorem hyp_PowerStateChanges_lines :
    (WakesListed worked ∧ worked.seq.act = none ∧ worked.seq.queue = []
        ∧ (∀ n, (worked.line n).cfg.quietDelay = 0) ∧ worked.power.state = some .battery ∧ worked.running = true)
      ∧ (let s := testing .settling (.settlingIn 0) act0 (onBattery .battery)
         s.seq.act = some act0 ∧ act0.origin ≠ .external ∧ s.seq.st = .settling ∧ s.access.matrix = .settlingIn 0
          ∧ ¬(act0.origin = .demand ∧ act0.override = true)) := by unfold WakesListed; decide

/-- A wake of each cause waiting for a DORMANT line whose wake store holds a frame, and for a QUIET one: under RESERVE's
policy, which permits no wake by downstream traffic, the DOWNSTREAM ones are removed and the others stay. -/
theorem hyp_PowerStateChanges_wakes : ∀ st, st = .dormant ∨ st = .quiet → ∀ cause : WakeCause,
    let s := ((onBattery .battery).modLine 1 fun l => { l with st := st, wakeStore := some 0 }).modPower fun p =>
      { p with wakeList := [{ line := 1, cause := cause, time := 0 }] }
    WakesListed s ∧ s.power.state = some .battery ∧ s.running = true ∧ s.seq.act = none ∧ s.seq.queue = []
      ∧ s.power.wakeList.filterMap (prunedEntry (setPowerState .reserve s))
          = (if cause = .downstream then [] else s.power.wakeList)
      ∧ (s.power.wakeList.filter fun e => (prunedEntry (setPowerState .reserve s) e).isNone)
          = (if cause = .downstream then s.power.wakeList else []) := by
  unfold WakesListed
  rintro st (rfl | rfl) cause <;> cases cause <;> decide

/-- Section 3.5's cases are one over the capacity, and one within it; and a first round that cuts no line short. -/
theorem hyp_SharesFit_rounds :
    ((recompute (caseState 6256)).shares.last.effective < (recompute (caseState 6256)).shares.last.committedSum
        ∧ (recompute (caseState 20000)).shares.last.committedSum < (recompute (caseState 20000)).shares.last.effective)
      ∧ (let s := (base.modLine 0 (caseLine 100 2 90000 0 .good)).modShares fun x =>
           { x with source := .advised, advised := some 1000 }
         (s.line 0).st = .up ∧ (s.line 0).cfg.committed < ceilingOf (s.line 0)
          ∧ (recompute s).shares.last.effective = 744 ∧ (s.lines.items.map fun l =>
              if (l.st = .up ∨ l.st = .draining) ∧ l.cfg.committed < ceilingOf l then adjustedWeight l else 0).sum = 2
          ∧ (s.line 0).cfg.committed + (744 - 100) * adjustedWeight (s.line 0) / 2 < ceilingOf (s.line 0)) := by
  decide

theorem hyp_SharesFit : ((at0 .up base).line 0).st = .up ∧ ((at0 .quiet base).line 0).st = .quiet := by decide

theorem hyp_ControlAndNoticeFrames :
    let bad := frame mgmtAddr managerAddr (some 4000) 0xB7E1 68
    let event : Notice := { subject := none, detail := .poolLow 5, time := 0, count := 1 }
    (base.mgmt.controlQ = [] ∧ (held true true).running = false)
      ∧ (let s := base.modMgmt fun m => { m with controlQ := [(.craft, bad)] }
         s.mgmt.controlQ = [(.craft, bad)] ∧ mayTake s = true ∧ headerRefused (frameBody bad) = true
          ∧ s.sched.craftUp = true ∧ (s.modSched fun x => { x with craftUp := false }).sched.craftUp = false
          ∧ mayTake (s.modSched fun x => { x with craftUp := false }) = true)
      ∧ (base.mgmt.manager = none ∧ base.counts.notices = [])
      ∧ (let s := (base.modMgmt fun m => { m with manager := some managerAddr }).modCounts fun k =>
           { k with notices := [event] }
         s.mgmt.manager = some managerAddr ∧ s.counts.notices ≠ [] ∧ s.mgmt.txList.length < 16
          ∧ cellsFor (noticeFrame managerAddr s).length ≤ s.pool.free) := by decide +kernel

/-- Ten ROUTINE notices and an URGENT one: the URGENT one goes first and alone, and of the ten the oldest eight. -/
theorem hyp_ControlAndNoticeFrames_urgencies :
    let urgent : Notice := { subject := none, detail := .advisoryLost (some 5), time := 0, count := 1 }
    let routine : Notice := { subject := some 1, detail := .sense true, time := 0, count := 1 }
    let s := fun xs : List Notice => base.modCounts fun k => { k with notices := xs }
    nextNotices (s (List.replicate 10 routine ++ [urgent])) = [urgent]
      ∧ nextNotices (s (List.replicate 10 routine)) = List.replicate 8 routine := by decide

/-- A control frame of one element, READ UPLINK, as 11.2 lays it out. -/
def readUplinkFrame : List Byte :=
  withCheck (beBytes 6 mgmtAddr.toNat ++ beBytes 6 managerAddr.toNat ++ beBytes 2 0x8100 ++ beBytes 2 4000
    ++ beBytes 2 0xB7E1 ++ [1, 1, 0, 7, 1, 0] ++ [0x31, 0, 0] ++ List.replicate 37 0)

theorem hyp_ControlAndNoticeFrames_taken : ∀ p : Port, p = .uplink ∨ p = .craft →
    let s := base.modMgmt fun m => { m with controlQ := [(p, readUplinkFrame)] }
    s.mgmt.controlQ = [(p, readUplinkFrame)] ∧ mayTake s = true ∧ headerRefused (frameBody readUplinkFrame) = false
      ∧ readElements (wireField (frameBody readUplinkFrame) 22 1) ((frameBody readUplinkFrame).drop 24)
          = [.whole 0x31 []]
      ∧ s.sched.craftUp = true ∧ (s.modSched fun x => { x with craftUp := false }).sched.craftUp = false := by
  rintro p (rfl | rfl) <;> decide +kernel

theorem hyp_ElementRunsItsRow_lock :
    (base.modMgmt fun m => { m with locked := true }).mgmt.locked = true ∧ (∀ b, base.mgmt.phase ≠ .held b)
      ∧ isCommand (.setTime .craft 0) = true ∧ commandOrigin (.setTime .craft 0) ≠ some .craftService := by decide

/-- A body of ENABLE LINE's line form for line 3, as 11.2 lays it out: the form item 0 and the line item 1. -/
theorem hyp_ElementRunsItsRow :
    readElement .uplink 0x20 [0, 1, 1, 1, 1, 3] = .command (.enableLine .uplink 3)
      ∧ readElement .craft 0x72 [1, 6, 0, 0, 0, 0, 1, 2] = .command (.setTime .craft 258) := by decide

theorem hyp_ReadsChangeNothing :
    (withHome base).takesCommands ∧ (withHome base).stations.entries.get 0 = some homeEntry
      ∧ (∀ j, base.stations.entries.get j = none) := by
  unfold State.takesCommands; decide

/-- One entry cannot share its address with another. -/
theorem hyp_ReadsChangeNothing_tables : TablesSafe (withHome base) := by
  have h : ∀ i, (withHome base).stations.entries.get i = if i = 0 then some homeEntry else none := by decide
  constructor
  · intro i j x y hx hy _
    rw [h] at hx hy
    split at hx <;> split at hy <;> simp_all
  · intro i e he hl
    rw [h] at he
    split at he
    · cases he; exact absurd hl (by decide)
    · cases he

theorem hyp_ReadsChangeNothing_records :
    let r : TestRecord :=
      { seq := 1, line := 3, program := none, origin := .external, start := 0, stop := 9, outcome := .externalSession
        grade := .none, interrupted := false, guardTripped := false, results := [] }
    (base.modSeq fun q => { q with log := [r] }).seq.log.find? (fun x => x.seq == 1) = some r
      ∧ (base.modSeq fun q => { q with log := [r] }).seq.log.reverse.find? (fun x => x.line == 3) = some r
      ∧ (∀ x ∈ base.seq.log, x.seq ≠ 1) := by decide

theorem hyp_StationCommands :
    let s := withHome base
    let locked := s.modMgmt fun m => { m with locked := true }
    (base.takesCommands ∧ homeAddr.isGroup = false ∧ lockForbids base .uplink = false
        ∧ lookupStation base homeAddr = none ∧ stationCount base 0 none < (base.line 0).cfg.stationLimit
        ∧ lowestInvalid base = some 0)
      ∧ (lookupStation s homeAddr = some 0 ∧ s.stations.entries.get 0 = some homeEntry)
      ∧ (lockForbids locked .uplink = true ∧ homeEntry.cls ≠ .prio ∧ homeEntry.isLearned = false)
      ∧ lowestInvalid (base.modStations fun t => { t with entries := .fill 96 (some homeEntry) }) = none
      ∧ (let u := base.modLine 0 fun l => { l with cfg := { l.cfg with stationLimit := 0 } }
         lookupStation u homeAddr = none ∧ (u.line 0).cfg.stationLimit ≤ stationCount u 0 none) := by
  unfold State.takesCommands; decide

theorem hyp_StationCommands_more :
    let s := (withHome base).modLine 1 fun l => { l with cfg := { l.cfg with stationLimit := 0 } }
    (0x010000000000 : Addr).isGroup = true
      ∧ (lookupStation base homeAddr = none ∧ lockForbids (base.modMgmt fun m => { m with locked := true }) .craft = true)
      ∧ (lookupStation s homeAddr = some 0 ∧ s.stations.entries.get 0 = some homeEntry ∧ homeEntry.line ≠ 1
          ∧ lockForbids s .uplink = false ∧ (s.line 1).cfg.stationLimit ≤ stationCount s 1 (some 0))
      ∧ (homeEntry.line = 0 ∧ homeEntry.cls = .bulk ∧ homeEntry.isLearned = false) := by decide

theorem hyp_ClearingCommands : base.takesCommands ∧ (0xFFFFFF : BitVec 32).toNat < 2 ^ 24
    ∧ 2 ^ 24 ≤ (0x1000000 : BitVec 32).toNat ∧ (0xFFF : BitVec 32).toNat < 2 ^ 12
    ∧ 2 ^ 12 ≤ (0x1000 : BitVec 32).toNat := by unfold State.takesCommands; decide

theorem hyp_WriteLine :
    let f : LineFields := { weight := some 65 }
    LineFields.exist { learning := some 2 } = false
      ∧ (base.takesCommands ∧ LineFields.exist f = true ∧ lockForbids base .uplink = false ∧ f.quietDelay = none
          ∧ f.dormantDelay = none)
      ∧ (let s := base.modMgmt fun m => { m with locked := true }
         lockForbids s .uplink = true ∧ protectedChange (s.line 0).cfg (LineFields.store f (s.line 0).cfg) = true)
      ∧ LineFields.exist {} = true := by unfold State.takesCommands; decide

/-- An idle time and a time in QUIET at the delay written, and one below it. -/
theorem hyp_WriteLine_delays :
    (let s := (at0 .up base).modLine 0 fun l => { l with idle := some 5000 }
     WakesListed s ∧ (s.line 0).st = .up ∧ (s.line 0).idle = some 5000 ∧ (currentPolicy s).quietCap = 0
      ∧ min 3600 5 ≤ 5000 / 1000)
      ∧ (let s := (at0 .quiet base).modLine 0 fun l => { l with quietFor := some 5000 }
         WakesListed s ∧ (s.line 0).st = .quiet ∧ (s.line 0).quietFor = some 5000 ∧ min 86400 5 * 1000 ≤ 5000
          ∧ 5000 < min 86400 6 * 1000) := by unfold WakesListed; decide

theorem hyp_LineCommands (st : LineState) :
    (at0 st base).takesCommands ∧ (at0 st base).underTest 0 = false ∧ ((at0 st base).line 0).st = st
      ∧ (testing .settling (.settlingIn 0) act0 (at0 st base)).underTest 0 = true := by
  unfold State.takesCommands; cases st <;> decide

theorem hyp_SettingsStored :
    let th : ThresholdFields := { conserve := some 11200 }
    (base.takesCommands ∧ lockForbids base .uplink = false ∧ base.access.matrix = .idle)
      ∧ (let s := base.modSeq fun q => { q with
           groups := q.groups.modify 0 fun g => { g with enabled := true }
           programs := q.programs.set 0 [.tone .tr 400 100 100 1] }
         (s.seq.groups.get 0).enabled = true ∧ s.seq.programs.get (s.seq.groups.get 0).program ≠ [])
      ∧ (base.seq.groups.get 0).enabled = false
      ∧ ((ThresholdFields.store th base.power).conserve ≤ (ThresholdFields.store th base.power).reserve)
      ∧ ((ThresholdFields.store {} base.power).reserve < (ThresholdFields.store {} base.power).conserve)
      ∧ ManagementFields.exist { vlan := some 4095 } = true
      ∧ (lockForbids (base.modMgmt fun m => { m with locked := true }) .uplink = true
          ∧ base.mgmt.lockAtStart = false) := by unfold State.takesCommands; decide

/-- SET ROUTINE GROUP: a base that does not exist, a program that does not, a group beyond the four, a started group, and a
group at rest with every value at an end of its range. START ROUTINE GROUP: an empty program. -/
theorem hyp_SettingsStored_groups :
    (fieldOk Base.ofMinutes (some 2) = false ∧ fieldOk programOf (some 8) = false ∧ 4 ≤ 4)
      ∧ (fieldOk Base.ofMinutes (some 240) = true ∧ fieldOk Base.ofMinutes none = true
          ∧ fieldOk programOf (some 7) = true ∧ fieldOk programOf none = true)
      ∧ ((base.modSeq fun q => { q with groups := q.groups.modify 0 fun g => { g with enabled := true } }).seq.groups.get
          0).enabled = true
      ∧ (base.seq.groups.get 3).enabled = false
      ∧ base.seq.programs.get (base.seq.groups.get 0).program = [] := by decide

/-- WRITE PROGRAM: a value that does not exist, inverted limits, an empty program in use by a queued test, a test in hand and
a started group, and a change and no change while locked. -/
theorem hyp_SettingsStored_programs :
    let r : RawSpec :=
      { kind := some 0, leg := some 1, volts := none, current := none, window := some 20, target := none, freq := none
        onTime := none, offTime := none, duration := none, marginal := some 6, faulty := some 5 }
    let locked := base.modMgmt fun m => { m with locked := true }
    (readSpecs [{ r with kind := some 4 }] = none ∧ 8 ≤ 8)
      ∧ (readSpecs [r] = some [(.foreign .tg 20 6 5, false)] ∧ Spec.inverted (.foreign .tg 20 6 5) = true)
      ∧ readSpecs [] = some []
      ∧ (∃ q ∈ (base.modSeq fun q => { q with queue := [.demand 3 1 false] }).seq.queue, q.program = 1)
      ∧ (∃ a ∈ (testing .settling (.settlingIn 0) act0 base).seq.act.toList, a.program = some 0)
      ∧ (∃ h : Fin 4, ((base.modSeq fun q =>
          { q with groups := q.groups.modify 0 fun g => { g with enabled := true } }).seq.groups.get h).enabled = true
          ∧ (base.seq.groups.get h).program = 0)
      ∧ programBusy base 0 = false
      ∧ (lockForbids locked .uplink = true ∧ [Spec.foreign .tg 20 5 5] ≠ locked.seq.programs.get 0
          ∧ [] = locked.seq.programs.get 0) := by decide

/-- SET TEST LIMITS with a leg at the new trip level and above it, and a change and no change while locked; the same for SET
BATTERY THRESHOLDS. -/
theorem hyp_SettingsStored_limits :
    let locked := base.modMgmt fun m => { m with locked := true }
    let u := fun (lim : LimitFields) (s : State) =>
      (s.modAccess (LimitFields.storeAccess lim)).modSeq (LimitFields.storeSeq lim)
    (lockForbids locked .uplink = true ∧ limitItems (u { guardVolts := some 10 } locked) ≠ limitItems locked
        ∧ limitItems (u { guardVolts := some 60 } locked) = limitItems locked)
      ∧ (∀ mv, mv = 10000 ∨ mv = 10001 →
          let s := u { guardVolts := some 10 } ((testing .settling (.settlingIn 0) act0 base).modAccess fun k =>
            { k with legMv := mv })
          s.access.matrix.pair = some 0 ∧ s.access.tripped = false ∧ tripLevel s.access = 10000 ∧ s.access.legMv = mv)
      ∧ (u {} base).access.matrix.pair = none
      ∧ (ThresholdFields.store { conserve := some 11900 } locked.power ≠ locked.power
          ∧ (ThresholdFields.store { conserve := some 11900 } locked.power).reserve
              < (ThresholdFields.store { conserve := some 11900 } locked.power).conserve
          ∧ ThresholdFields.store { conserve := some 11800 } locked.power = locked.power) := by
  refine ⟨by decide, ?_, by decide, by decide⟩
  rintro mv (rfl | rfl) <;> decide

/-- SET MANAGEMENT: a yes/no value that does not exist, a change and no change while locked. -/
theorem hyp_SettingsStored_management :
    let locked := base.modMgmt fun m => { m with locked := true }
    ManagementFields.exist { managerOnly := some 2 } = false
      ∧ ManagementFields.exist { managerOnly := some 1, vlan := some 0 } = true
      ∧ managementChange locked.mgmt { locked.mgmt with managerOnly := true } = true
      ∧ managementChange locked.mgmt { locked.mgmt with station := some mgmtAddr } = false
      ∧ (lockForbids locked .uplink = true ∧ locked.mgmt.lockAtStart ≠ true ∧ locked.mgmt.lockAtStart = false) := by
  decide

/-- A spec of R112 whose window of 19 ms is brought to 20. -/
theorem hyp_SettingsStored_program :
    let r : RawSpec :=
      { kind := some 0, leg := some 1, volts := none, current := none, window := some 19, target := none, freq := none
        onTime := none, offTime := none, duration := none, marginal := some 5, faulty := some 5 }
    readSpecs [r] = some [(.foreign .tg 20 5 5, true)] ∧ Spec.inverted (.foreign .tg 20 5 5) = false := by decide

theorem hyp_CountersAndNoticeSettings : base.takesCommands
    ∧ [({ kind := 12, enable := some 0 } : NoticeField)].all NoticeField.exist = true
    ∧ [({ kind := 13, enable := some 0 } : NoticeField)].all NoticeField.exist = false
    ∧ (31 : BitVec 32).toNat < 2 ^ 5 ∧ 2 ^ 5 ≤ (32 : BitVec 32).toNat := by unfold State.takesCommands; decide

theorem hyp_UplinkAndPolicySettings :
    let f : UplinkFields := { ceiling := some 999 }
    let pf : PolicyFields := { budget := some 25, scale := some 9 }
    let locked := base.modMgmt fun m => { m with locked := true }
    (base.takesCommands ∧ UplinkFields.exist { spare := some 2 } = false ∧ UplinkFields.exist f = true
        ∧ lockForbids base .uplink = false ∧ lockForbids locked .uplink = true
        ∧ UplinkFields.store f locked.shares ≠ locked.shares)
      ∧ (PolicyFields.exist { sleep := some 2 } = false ∧ PolicyFields.exist pf = true ∧ base.power.state = some .mains
          ∧ base.power.state ≠ some .reserve ∧ base.seq.act = none ∧ base.seq.queue = []
          ∧ (∀ n, (base.line n).cfg.quietDelay = 0) ∧ PolicyFields.store pf (locked.power.policies.get 3) ≠ locked.power.policies.get 3) := by
  unfold State.takesCommands; decide

theorem hyp_TestRequests :
    let busy := testing .settling (.settlingIn 0) act0 base
    let s := busy.modSeq fun q => { q with programs := q.programs.set 0 [.tone .tr 400 100 100 1] }
    (base.takesCommands ∧ base.seq.programs.get 0 = [])
      ∧ (s.seq.programs.get 0 ≠ [] ∧ s.lineUnderTest = some 0 ∧ s.lineUnderTest ≠ some 1 ∧ s.seq.st ≠ .idle
          ∧ s.seq.queue.length < 8 ∧ (∀ r ∈ s.seq.queue, r.line ≠ 1)
          ∧ ∀ h m, (s.seq.groups.get h).due.get m = false)
      ∧ (let q : List TestRequest := [.demand 1 0 false, .routine 2 0 0 0 false]
         (∃ r ∈ q, r.isDemand = true ∧ r.line = 1) ∧ (∃ r ∈ q, r.line = 2) ∧ ∀ r ∈ q, r.isDemand = true → r.line ≠ 2)
      ∧ (8 ≤ (List.replicate 8 (TestRequest.demand 2 0 false)).length
          ∧ ∀ r ∈ List.replicate 8 (TestRequest.demand 2 0 false), r.line ≠ 1)
      ∧ (let u := at0 .up base
         u.seq.queue = [] ∧ u.seq.st = .idle ∧ u.running = true ∧ u.seq.extreq = false ∧ u.power.state = some .mains
          ∧ (u.line 0).st = .up)
      ∧ (busy.seq.act = some act0 ∧ act0.line = 0 ∧ act0.origin ≠ .external ∧ busy.seq.st = .settling
          ∧ busy.access.matrix = .settlingIn 0) := by
  unfold State.takesCommands; decide

theorem hyp_nothingQueued : Line.nothingQueued ((at0 .up base).line 0)
    ∧ (at0 .up base).access.matrix = .idle
    ∧ ¬ Line.nothingQueued ((withPrio 1).line 0) ∧ ((withPrio 1).line 0).st = .up := by
  unfold Line.nothingQueued; decide

theorem hyp_ExternalConnections :
    let free := withExtreq (base.modSeq fun q => { q with st := .suspended })
    let a := { act0 with origin := .external }
    let s := withExtreq (testing .external (.connected 0) a base)
    (free.takesCommands ∧ Origin.uplink ≠ .craftService ∧ busFree base = false ∧ busFree free = true
        ∧ free.access.matrix = .idle ∧ free.power.state ≠ some .reserve
        ∧ (∀ r ∈ free.seq.queue, r.isDemand = true → r.line ≠ 0))
      ∧ (busFree (at0 .down free) = true ∧ ((at0 .down free).line 0).st = .down ∧ ((at0 .up free).line 0).st = .up)
      ∧ busFree (free.modPower fun p => { p with state := some .reserve }) = true
      ∧ base.seq.act = none
      ∧ (s.seq.act = some a ∧ a.origin = .external ∧ s.seq.st = .external ∧ s.access.matrix = .connected 0) := by
  unfold State.takesCommands; decide

theorem hyp_SavedConfiguration :
    let saving := base.modMgmt fun m => { m with save := some .default }
    (base.takesCommands ∧ base.mgmt.storePresent = true ∧ base.power.state ≠ some .conserve
        ∧ base.power.state ≠ some .reserve ∧ base.mgmt.save = none)
      ∧ (base.modMgmt fun m => { m with storePresent := false }).mgmt.storePresent = false
      ∧ (onBattery .conserve).mgmt.storePresent = true
      ∧ (saving.mgmt.save.isSome = true ∧ saving.mgmt.save = some .default) := by
  unfold State.takesCommands; decide

/-- The invariants' premises are met by the part after reset, whose step answers a next state. -/
theorem hyp_invariants_kept : ListsBounded State.reset ∧ DriveSafe State.reset ∧ BudgetKept State.reset
    ∧ PoolConserved State.reset := by
  unfold ListsBounded DriveSafe testsAtRest BudgetKept PoolConserved; decide

theorem hyp_invariants_kept_lists : PoolArmed State.reset ∧ WakesListed State.reset
    ∧ PoolArmed (base.modPool fun p => { p with free := 127, armed := false })
    ∧ PoolArmed (base.modPool fun p => { p with free := 255, armed := false })
    ∧ PoolArmed (base.modPool fun p => { p with free := 128, armed := true }) := by
  unfold PoolArmed WakesListed; decide

theorem hyp_TablesSafeKept_entry : (base.line 0).st ≠ .down ∧ ((at0 .up base).line 0).st ≠ .disabled
    ∧ ((at0 .held base).line 0).st ≠ .barred := by decide

theorem hyp_invariants_kept_credit : CreditKept State.reset := by
  unfold CreditKept; decide

/-- The part after reset has no record and no holder. -/
theorem hyp_invariants_kept_refs : RefsCounted State.reset := by
  have h : holders State.reset = [] ∧ State.reset.pool.recs = [] := by decide
  unfold RefsCounted
  simp [State.record, h.1, h.2]

theorem hyp_invariants_kept_step : step State.reset = .next State.reset := by
  have h : dueStep State.reset = none := by decide
  show idle State.reset = _
  unfold idle
  rw [h]
  rfl

theorem hyp_invariants_kept_tables : TablesSafe State.reset := by
  have h : ∀ i, State.reset.stations.entries.get i = none := by decide
  constructor
  · intro i j x y hx
    rw [h] at hx
    cases hx
  · intro i e he
    rw [h] at he
    cases he

end Sys2Proof.Tests
end

