-- ==== Sys2Proof/Proofs/Moved.lean ====
section
/-! PROOF. What a change of line states, with the grants, reports and selections that follow it, leaves of the state:
one relation between the state before and the state after, and one lemma for each shared operation that it holds
across. -/

namespace Sys2Proof.Machine

/-- What every change of line states leaves: the Station Table's rules (R1, R7) and its STATIC entries, the settings of
the lines, the upstream side, the Power Manager but for its wake list, the notice settings and the reset causes, and
what `besideKept` names. -/
structure Moved (s t : State) : Prop where
  tables : TablesSafe s → TablesSafe t
  stations : t.stations = { s.stations with entries := t.stations.entries }
  static : staticSame s t
  cfg : ∀ n, (t.line n).cfg = (s.line n).cfg
  power : { t.power with wakeList := s.power.wakeList } = s.power
  settings : t.counts.settings = s.counts.settings
  resetCause : t.counts.resetCause = s.counts.resetCause
  beside : besideKept s t

/-! ## The Station Table's rules -/

/-- The rules hold on where every entry that is left stood with its address and line, and each line with LEARNED
entries left loses none that it did not lose before. -/
theorem TablesSafe.of_entries {s t : State} (hs : TablesSafe s)
    (he : ∀ i x, t.stations.entries.get i = some x →
      ∃ y, s.stations.entries.get i = some y ∧ y.addr = x.addr ∧ y.line = x.line ∧ (x.isLearned = true → y.isLearned = true))
    (hl : ∀ i x, t.stations.entries.get i = some x → x.isLearned = true →
      losesLearned (s.line x.line).st = false → losesLearned (t.line x.line).st = false) : TablesSafe t := by
  obtain ⟨huniq, hlearned⟩ := hs
  refine ⟨fun i j x y hi hj hxy => ?_, fun i x hi hx => ?_⟩
  · obtain ⟨x', hi', hx', -⟩ := he i x hi
    obtain ⟨y', hj', hy', -⟩ := he j y hj
    exact huniq i j x' y' hi' hj' (by rw [hx', hy', hxy])
  · obtain ⟨x', hi', -, hline, hlrn⟩ := he i x hi
    exact hl i x hi hx (hline ▸ hlearned i x' hi' (hlrn hx))

/-- The rules read the entries and the states of the lines alone. -/
theorem TablesSafe.congr {s t : State} (hs : TablesSafe s) (he : t.stations.entries = s.stations.entries)
    (hl : ∀ n, (t.line n).st = (s.line n).st) : TablesSafe t :=
  hs.of_entries (fun _ x hi => ⟨x, he ▸ hi, rfl, rfl, id⟩) fun _ x _ _ h => by rw [hl]; exact h

/-- An empty table meets the rules. -/
theorem TablesSafe.of_empty {s : State} (h : ∀ i, s.stations.entries.get i = none) : TablesSafe s :=
  ⟨fun i _ _ _ hi => by simp [h i] at hi, fun i _ hi => by simp [h i] at hi⟩

/-! ## Composing -/

theorem upstreamKept.refl (s : State) : upstreamKept s s := ⟨rfl, rfl⟩

theorem upstreamKept.trans {s t u : State} (h : upstreamKept s t) (k : upstreamKept t u) : upstreamKept s u :=
  ⟨calc { u.shares with last := s.shares.last }
      = { { u.shares with last := t.shares.last } with last := s.shares.last } := rfl
    _ = s.shares := by rw [k.1]; exact h.1,
   calc { u.sched with effective := s.sched.effective }
      = { { u.sched with effective := t.sched.effective } with effective := s.sched.effective } := rfl
    _ = s.sched := by rw [k.2]; exact h.2⟩

theorem besideKept.refl (s : State) : besideKept s s := ⟨.refl s, rfl, rfl, rfl, rfl, rfl⟩

theorem besideKept.trans {s t u : State} (h : besideKept s t) (k : besideKept t u) : besideKept s u := by
  obtain ⟨h1, h2, h3, h4, h5, h6⟩ := h
  obtain ⟨k1, k2, k3, k4, k5, k6⟩ := k
  exact ⟨h1.trans k1, k2.trans h2, k3.trans h3, k4.trans h4, k5.trans h5, k6.trans h6⟩

theorem Moved.refl (s : State) : Moved s s where
  tables := id
  stations := rfl
  static _ _ _ := Iff.rfl
  cfg _ := rfl
  power := rfl
  settings := rfl
  resetCause := rfl
  beside := .refl s

theorem Moved.trans {s t u : State} (h : Moved s t) (k : Moved t u) : Moved s u where
  tables := k.tables ∘ h.tables
  stations := by rw [k.stations, h.stations]
  static i e he := (k.static i e he).trans (h.static i e he)
  cfg n := (k.cfg n).trans (h.cfg n)
  power := calc { u.power with wakeList := s.power.wakeList }
      = { { u.power with wakeList := t.power.wakeList } with wakeList := s.power.wakeList } := rfl
    _ = s.power := by rw [k.power]; exact h.power
  settings := k.settings.trans h.settings
  resetCause := k.resetCause.trans h.resetCause
  beside := h.beside.trans k.beside

/-- An operation that leaves the Station Table, the lines' states and settings and the rest of what `Moved` names. -/
theorem Moved.of_kept {s t : State} (hs : t.stations = s.stations)
    (hl : ∀ n, (t.line n).st = (s.line n).st ∧ (t.line n).cfg = (s.line n).cfg)
    (hp : { t.power with wakeList := s.power.wakeList } = s.power)
    (hset : t.counts.settings = s.counts.settings) (hrc : t.counts.resetCause = s.counts.resetCause)
    (hb : besideKept s t) : Moved s t where
  tables h := h.congr (by rw [hs]) fun n => (hl n).1
  stations := by rw [hs]
  static _ _ _ := by rw [hs]
  cfg n := (hl n).2
  power := hp
  settings := hset
  resetCause := hrc
  beside := hb

section
variable {s t : State}

theorem modSeq_moved (f : Seq → Seq) (h : Moved s t) : Moved s (t.modSeq f) :=
  h.trans (.of_kept rfl (fun _ => ⟨rfl, rfl⟩) rfl rfl rfl (.refl t))

theorem modAccess_moved (f : Access → Access) (h : Moved s t) : Moved s (t.modAccess f) :=
  h.trans (.of_kept rfl (fun _ => ⟨rfl, rfl⟩) rfl rfl rfl (.refl t))

theorem modPool_moved (f : Pool → Pool) (h : Moved s t) : Moved s (t.modPool f) :=
  h.trans (.of_kept rfl (fun _ => ⟨rfl, rfl⟩) rfl rfl rfl (.refl t))

/-- The wake list written. -/
theorem modWakes_moved (f : List WakeEntry → List WakeEntry) (h : Moved s t) :
    Moved s (t.modPower fun p => { p with wakeList := f p.wakeList }) :=
  h.trans (.of_kept rfl (fun _ => ⟨rfl, rfl⟩) rfl rfl rfl (.refl t))

/-- Counters, flags and notices written. -/
theorem modCounts_moved (f : Counts → Counts) (hs : (f t.counts).settings = t.counts.settings)
    (hr : (f t.counts).resetCause = t.counts.resetCause) (h : Moved s t) : Moved s (t.modCounts f) :=
  h.trans (.of_kept rfl (fun _ => ⟨rfl, rfl⟩) rfl hs hr (.refl t))

/-- One line written, but for its state and its settings. -/
theorem modLine_moved (n : LineNo) (f : Line → Line) (hf : ∀ l, (f l).st = l.st ∧ (f l).cfg = l.cfg) (h : Moved s t) :
    Moved s (t.modLine n f) := by
  refine h.trans (.of_kept rfl (fun m => ?_) rfl rfl rfl (.refl t))
  by_cases hm : m = n
  · subst hm
    rw [State.modLine_line_self]
    exact hf _
  · rw [State.modLine_line_other _ _ hm]
    exact ⟨rfl, rfl⟩

/-! ## Counters, events and the cell pool -/

theorem countDev_moved (c : DevCount) (h : Moved s t) : Moved s (countDev c t) := modCounts_moved _ rfl rfl h

theorem countFor_moved (n : LineNo) (f : CounterSet → CounterSet) (h : Moved s t) : Moved s (countFor n f t) := by
  unfold countFor
  dsimp only
  split
  · exact modCounts_moved _ rfl rfl h
  · exact modCounts_moved _ rfl rfl (modCounts_moved _ rfl rfl h)

theorem countDrop_moved (n : LineNo) (c : LineCause) (h : Moved s t) : Moved s (countDrop n c t) :=
  countFor_moved n _ h

theorem raise_moved (u : Option LineNo) (d : Detail) (h : Moved s t) : Moved s (raise u d t) := by
  unfold raise
  dsimp only
  have hf := modCounts_moved (fun k => { k with flags := k.flags.set d.kind.idx true }) rfl rfl h
  split
  · unfold offerNotice
    split
    · exact modCounts_moved _ rfl rfl hf
    · split
      · exact modCounts_moved _ rfl rfl hf
      · exact countDev_moved _ hf
  · exact hf

theorem setFree_moved (k : Nat) (h : Moved s t) : Moved s (setFree k t) := by
  unfold setFree
  dsimp only
  split
  · split
    · exact raise_moved _ _ (modPool_moved _ (modPool_moved _ h))
    · exact modPool_moved _ h
  · split
    · exact modPool_moved _ (modPool_moved _ h)
    · exact modPool_moved _ h

theorem dropRef_moved (id : Nat) (h : Moved s t) : Moved s (dropRef id t) := by
  unfold dropRef
  split
  · exact h
  · split
    · exact setFree_moved _ (modPool_moved _ h)
    · exact modPool_moved _ h

theorem dropAll_moved (n : LineNo) (c : LineCause) (ids : List Nat) (h : Moved s t) : Moved s (dropAll n c ids t) :=
  foldl_holds (Moved s) _ (fun _ _ hu => countDrop_moved n c (dropRef_moved _ hu)) ids t h

theorem refreshIdle_moved (n : LineNo) (h : Moved s t) : Moved s (refreshIdle n t) :=
  modLine_moved n _ (fun _ => ⟨rfl, rfl⟩) h

theorem flush_moved (n : LineNo) (x : Flush) (h : Moved s t) : Moved s (flush n x t) :=
  dropAll_moved n _ _ (modLine_moved n _ (fun _ => ⟨rfl, rfl⟩) h)

/-! ## Recompute -/

theorem recompute_upstreamKept (s : State) : upstreamKept s (recompute s) := ⟨rfl, rfl⟩

theorem recompute_besideKept (s : State) : besideKept s (recompute s) :=
  ⟨recompute_upstreamKept s, rfl, rfl, rfl, rfl, rfl⟩

theorem apart_st {a b : Line} (h : a.apart = b.apart) : a.st = b.st := (congrArg Line.st h : a.apart.st = b.apart.st)
theorem apart_cfg {a b : Line} (h : a.apart = b.apart) : a.cfg = b.cfg :=
  (congrArg Line.cfg h : a.apart.cfg = b.apart.cfg)

theorem recompute_moved (h : Moved s t) : Moved s (recompute t) :=
  h.trans (.of_kept rfl (fun n => ⟨apart_st (recompute_apart t n), apart_cfg (recompute_apart t n)⟩) rfl rfl rfl
    (recompute_besideKept t))

theorem recomputeIf_moved (n : LineNo) (before : Line) (h : Moved s t) : Moved s (recomputeIf n before t) := by
  unfold recomputeIf
  split
  · exact recompute_moved h
  · exact h

end

/-! ## Entering a state -/

section
variable (n : LineNo) (new : LineState) (r : Reason) (s : State)

@[simp] theorem leaveState_cfg (l : Line) : (leaveState l).cfg = l.cfg := by unfold leaveState; split <;> rfl

@[simp] theorem enterState_cfg (l : Line) : (enterState s new l).cfg = l.cfg := by
  unfold enterState
  dsimp only
  cases new <;> dsimp only
  split <;> rfl

/-- A line as its entry to a state leaves it, its idle timer tested again (R45, R88). -/
def Line.entered (s : State) (new : LineState) (r : Reason) (l : Line) : Line :=
  let e := enterState s new (leaveState ((entryFlush l.st new r).empty l))
  { e with idle := if e.idleHolds then some (e.idle.getD 0) else none }

@[simp] theorem enterState_st (l : Line) : (enterState s new l).st = new := by
  unfold enterState
  dsimp only
  cases new <;> dsimp only
  split <;> rfl

@[simp] theorem Line.entered_cfg (l : Line) : (l.entered s new r).cfg = l.cfg := by
  simp [Line.entered, Flush.empty]

@[simp] theorem Line.entered_st (l : Line) : (l.entered s new r).st = new := by simp [Line.entered]

/-- The entry reads the limits of the state alone. -/
theorem enterState_congr {s t : State} (h1 : t.trainLimit = s.trainLimit) (h2 : t.wakeLimit = s.wakeLimit)
    (h3 : t.seq.drainLimit = s.seq.drainLimit) : enterState t = enterState s := by
  funext new l
  simp only [enterState, h1, h2, h3]

@[simp] theorem dropAll_line (c : LineCause) (ids : List Nat) (m : LineNo) : (dropAll n c ids s).line m = s.line m :=
  State.line_of_lines (dropAll_lines s n c ids) m

@[simp] theorem flush_line_self (x : Flush) : (flush n x s).line n = x.empty (s.line n) := by simp [flush]

theorem flush_line_other {m : LineNo} (x : Flush) (h : m ≠ n) : (flush n x s).line m = s.line m := by
  simp [flush, State.modLine_line_other _ _ h]

theorem refreshIdle_line_other {m : LineNo} (h : m ≠ n) : (refreshIdle n s).line m = s.line m :=
  State.modLine_line_other s _ h

@[simp] theorem removeWake_line (m : LineNo) : (removeWake n s).line m = s.line m := rfl
@[simp] theorem removeLearned_line (m : LineNo) : (removeLearned n s).line m = s.line m := rfl
@[simp] theorem lineStateEvent_line (old : LineState) (m : LineNo) : (lineStateEvent n old new r s).line m = s.line m :=
  State.line_of_lines (lineStateEvent_lines s n old new r) m

/-- The entry that changes nothing (R89). -/
theorem enterCore_of_eq (h : (s.line n).st = new) : enterCore n new r s = s := by simp [enterCore, h]

/-- An entry changes its own line as `Line.entered` says (R88). -/
theorem enterCore_line_self (h : (s.line n).st ≠ new) :
    (enterCore n new r s).line n = (s.line n).entered s new r := by
  unfold enterCore
  simp only [h, if_false]
  rw [lineStateEvent_line, refreshIdle_line]
  split <;> split <;>
    simp [Line.entered, enterState_congr (t := flush n _ s) (s := s),
      enterState_congr (t := removeWake n (flush n _ s)) (s := s)]

/-- An entry leaves the other lines. -/
theorem enterCore_line_other {m : LineNo} (h : m ≠ n) : (enterCore n new r s).line m = s.line m := by
  unfold enterCore
  dsimp only
  split
  · rfl
  · rw [lineStateEvent_line, refreshIdle_line_other _ _ h]
    split <;> split <;> simp [State.modLine_line_other _ _ h, flush_line_other _ _ _ h]

/-- An entry to DISABLED, DOWN or BARRED removes the line's LEARNED entries and no other; any other entry leaves the
Station Table (R7). -/
theorem enterCore_stations (h : (s.line n).st ≠ new) :
    (enterCore n new r s).stations =
      if losesLearned new then (removeLearned n s).stations else s.stations := by
  unfold enterCore
  simp only [h, if_false, lineStateEvent_stations, refreshIdle_stations]
  split <;> split <;> simp [removeLearned, dropStations]

/-- A line that leaves an asleep state leaves the wake list (R169). -/
theorem enterCore_power (h : (s.line n).st ≠ new) :
    (enterCore n new r s).power = if asleepState (s.line n).st then (removeWake n s).power else s.power := by
  unfold enterCore
  simp only [h, if_false, lineStateEvent_power, refreshIdle_power]
  split <;> split <;> simp [removeWake]

/-- The rules of the Station Table across an entry (R7). -/
theorem enterCore_tables (hs : TablesSafe s) : TablesSafe (enterCore n new r s) := by
  by_cases h : (s.line n).st = new
  · rwa [enterCore_of_eq n new r s h]
  · have hst := enterCore_stations n new r s h
    have hown : ((enterCore n new r s).line n).st = new := enterCore_st s n new r
    by_cases hl : losesLearned new = true
    · rw [if_pos hl] at hst
      have hget : ∀ i x, (enterCore n new r s).stations.entries.get i = some x →
          s.stations.entries.get i = some x ∧ (x.isLearned = false ∨ x.line ≠ n) := by
        intro i x hx
        rw [hst] at hx
        simpa [removeLearned, dropStations, Option.filter_eq_some_iff] using hx
      refine hs.of_entries (fun i x hx => ⟨x, (hget i x hx).1, rfl, rfl, id⟩) fun i x hx hlrn hlose => ?_
      have hne : x.line ≠ n := (hget i x hx).2.resolve_left (by simp [hlrn])
      rwa [enterCore_line_other n new r s hne]
    · rw [if_neg hl] at hst
      refine hs.of_entries (fun i x hx => ⟨x, hst ▸ hx, rfl, rfl, id⟩) fun i x _ _ hlose => ?_
      by_cases hx : x.line = n
      · rw [hx, hown]
        simpa using hl
      · rwa [enterCore_line_other n new r s hx]

end

section
variable {s t : State}

theorem removeWake_moved (n : LineNo) (h : Moved s t) : Moved s (removeWake n t) := modWakes_moved _ h

theorem lineStateEvent_moved (n : LineNo) (old new : LineState) (r : Reason) (h : Moved s t) :
    Moved s (lineStateEvent n old new r t) := by
  unfold lineStateEvent
  split
  · exact raise_moved _ _ h
  · exact h

theorem enterCore_settings (n : LineNo) (new : LineState) (r : Reason) (s : State) :
    (enterCore n new r s).counts.settings = s.counts.settings
      ∧ (enterCore n new r s).counts.resetCause = s.counts.resetCause := by
  by_cases h : (s.line n).st = new
  · rw [enterCore_of_eq n new r s h]
    exact ⟨rfl, rfl⟩
  · unfold enterCore
    simp only [h, if_false]
    have hf : Moved s (flush n (entryFlush (s.line n).st new r) s) := flush_moved n _ (.refl s)
    have hev : ∀ u : State, Moved u (lineStateEvent n (s.line n).st new r (refreshIdle n u)) :=
      fun u => lineStateEvent_moved n _ new r (refreshIdle_moved n (.refl u))
    rw [(hev _).settings, (hev _).resetCause]
    split <;> split <;> exact ⟨hf.settings, hf.resetCause⟩

theorem enterCore_moved (n : LineNo) (new : LineState) (r : Reason) (h : Moved s t) : Moved s (enterCore n new r t) := by
  by_cases heq : (t.line n).st = new
  · rwa [enterCore_of_eq n new r t heq]
  · refine h.trans ?_
    have hst := enterCore_stations n new r t heq
    have hpow := enterCore_power n new r t heq
    exact {
      tables := enterCore_tables n new r t
      stations := by rw [hst]; split <;> rfl
      static := fun i e he => by
        rw [hst]
        split
        · simp [removeLearned, dropStations, Option.filter_eq_some_iff, he]
        · rfl
      cfg := fun m => by
        by_cases hm : m = n
        · rw [hm, enterCore_line_self n new r t heq, Line.entered_cfg]
        · rw [enterCore_line_other n new r t hm]
      power := by rw [hpow]; split <;> rfl
      settings := (enterCore_settings n new r t).1
      resetCause := (enterCore_settings n new r t).2
      beside := ⟨⟨by simp, by simp⟩, by simp, by simp, by simp, by simp, by simp⟩ }

/-! ## Wakes -/

theorem grantOne_moved (e : WakeEntry) (h : Moved s t) : Moved s (grantOne e t) := by
  unfold grantOne
  dsimp only
  split
  · exact recomputeIf_moved _ _ (enterCore_moved _ _ _ (modWakes_moved _ h))
  · exact modWakes_moved _ h

theorem grants_moved (k : Nat) (h : Moved s t) : Moved s (grants k t) := by
  induction k generalizing t with
  | zero => exact h
  | succ k ih =>
    unfold grants
    split
    · exact h
    · split
      · exact ih (grantOne_moved _ h)
      · exact h

theorem grantAll_moved (h : Moved s t) : Moved s (grantAll t) := grants_moved _ h

theorem wakeRequest_moved (n : LineNo) (c : WakeCause) (h : Moved s t) : Moved s (wakeRequest n c t) := by
  unfold wakeRequest
  split
  · exact h
  · exact grantAll_moved (modWakes_moved (fun w => w ++ [_]) h)

theorem enter_moved (n : LineNo) (new : LineState) (r : Reason) (h : Moved s t) : Moved s (enter n new r t) := by
  unfold enter
  dsimp only
  have hc := recomputeIf_moved n (t.line n) (enterCore_moved n new r h)
  split
  · exact grantAll_moved hc
  · exact hc

theorem rederiveQuiet_moved (n : LineNo) (h : Moved s t) : Moved s (rederiveQuiet n t) := by
  unfold rederiveQuiet
  split
  · exact enter_moved n _ _ h
  · exact h

theorem rederiveAll_moved (h : Moved s t) : Moved s (rederiveAll t) :=
  foldl_holds (Moved s) _ (fun _ n hu => rederiveQuiet_moved n hu) _ t h

theorem rederiveDormant_moved (n : LineNo) (h : Moved s t) : Moved s (rederiveDormant n t) := by
  unfold rederiveDormant
  dsimp only
  split
  · split
    · exact enter_moved n _ _ h
    · exact h
  · exact h

theorem takeLine_moved (n : LineNo) (h : Moved s t) : Moved s (takeLine n t) := by
  unfold takeLine
  dsimp only
  split
  · exact enter_moved n _ _ (modLine_moved n _ (fun _ => ⟨rfl, rfl⟩) h)
  · exact h

theorem returnLine_moved (n : LineNo) (g : Option Grade) (h : Moved s t) : Moved s (returnLine n g t) := by
  unfold returnLine
  dsimp only
  split
  · exact enter_moved n _ _ h
  · exact enter_moved n _ _ h
  · split
    · exact enter_moved n _ _ h
    · exact h
  · exact h

theorem takeRates_moved (n : LineNo) (down up : Nat) (h : Moved s t) : Moved s (takeRates n down up t) :=
  recomputeIf_moved n _ (modLine_moved n _ (fun _ => ⟨rfl, rfl⟩) h)

/-! ## The sequencer -/

theorem writeRecord_moved (r : TestRecord) (h : Moved s t) : Moved s (writeRecord r t) := by
  unfold writeRecord
  dsimp only
  split
  · exact modSeq_moved _ (countDev_moved _ h)
  · exact modSeq_moved _ h

theorem writeGrade_moved (n : LineNo) (g : Grade) (h : Moved s t) : Moved s (writeGrade n g t) := by
  unfold writeGrade
  dsimp only
  have hl := modLine_moved n (fun l => { l with grade := g }) (fun _ => ⟨rfl, rfl⟩) h
  split
  · exact recompute_moved hl
  · exact hl

theorem closeActivity_moved (o : Outcome) (askReturn : Bool) (h : Moved s t) : Moved s (closeActivity o askReturn t) := by
  unfold closeActivity
  split
  · exact h
  · dsimp only
    refine modSeq_moved _ (raise_moved _ _ ?_)
    have hw := writeRecord_moved (t := t) (s := s)
    by_cases ho : o = .completed <;> by_cases ha : askReturn = true <;>
      simp only [ho, ha, if_true, if_false, reduceCtorEq]
    · exact returnLine_moved _ _ (modLine_moved _ _ (fun _ => ⟨rfl, rfl⟩) (writeGrade_moved _ _ (hw _ h)))
    · exact modLine_moved _ _ (fun _ => ⟨rfl, rfl⟩) (writeGrade_moved _ _ (hw _ h))
    · exact returnLine_moved _ _ (hw _ h)
    · exact hw _ h

theorem modAct_moved (f : Activity → Activity) (h : Moved s t) : Moved s (modAct f t) := modSeq_moved _ h

theorem releaseStep_moved (h : Moved s t) : Moved s (releaseStep t) := modSeq_moved _ (modAccess_moved _ h)

theorem connectStep_moved (n : LineNo) (h : Moved s t) : Moved s (connectStep n t) := modSeq_moved _ (modAccess_moved _ h)

theorem startStep_moved (h : Moved s t) : Moved s (startStep t) := by
  unfold startStep
  split
  · exact h
  · split
    · split
      · dsimp only
        split
        · exact modSeq_moved _ (modAct_moved _ (modAccess_moved _ (modAccess_moved _ (modSeq_moved _ h))))
        · exact modAccess_moved _ (modSeq_moved _ h)
      · exact h
    · exact h

theorem nextStep_moved (h : Moved s t) : Moved s (nextStep t) := by
  unfold nextStep
  split
  · exact startStep_moved h
  · exact releaseStep_moved h

theorem suspendSeq_moved (h : Moved s t) : Moved s (suspendSeq t) := by
  unfold suspendSeq
  dsimp only
  split
  · exact modSeq_moved _ (modSeq_moved _ (raise_moved _ _ h))
  · exact modSeq_moved _ (raise_moved _ _ h)

theorem boundary_moved (k : State → State) (hk : Moved s (k t)) (h : Moved s t) : Moved s (boundary k t) := by
  unfold boundary
  split
  · exact suspendSeq_moved h
  · exact hk

theorem resultStep_moved (r : Result) (h : Moved s t) : Moved s (resultStep r t) := by
  unfold resultStep
  dsimp only
  split
  · exact modSeq_moved _ (modAct_moved _ h)
  · exact boundary_moved _ (nextStep_moved (modAct_moved _ h)) (modAct_moved _ h)

theorem heldReport_moved (h : Moved s t) : Moved s (heldReport t) := by
  unfold heldReport
  split
  · exact h
  · split
    · split
      · exact connectStep_moved _ h
      · exact boundary_moved _ (connectStep_moved _ h) h
    · exact h

theorem drainReport_moved (n : LineNo) (h : Moved s t) : Moved s (drainReport n t) := by
  unfold drainReport
  split
  · exact heldReport_moved (enter_moved n _ _ h)
  · exact h

theorem askForLine_moved (n : LineNo) (h : Moved s t) : Moved s (askForLine n t) := by
  unfold askForLine
  dsimp only
  split
  · exact heldReport_moved (takeLine_moved n h)
  · exact drainReport_moved n (takeLine_moved n h)

theorem stopStep_moved (h : Moved s t) : Moved s (stopStep t) := by
  unfold stopStep
  split
  · exact h
  · exact modAccess_moved _ h
  · dsimp only
    split
    · exact modAccess_moved _ (modAccess_moved _ h)
    · exact releaseStep_moved (modAccess_moved _ h)

theorem setDue_moved (g : Fin 4) (n : LineNo) (b : Bool) (h : Moved s t) : Moved s (setDue g n b t) := modSeq_moved _ h

theorem offerRoutine_moved (g : Fin 4) (n : LineNo) (h : Moved s t) : Moved s (offerRoutine g n t) := by
  unfold offerRoutine
  dsimp only
  split
  · exact setDue_moved g n _ h
  · split
    · split
      · exact h
      · exact setDue_moved g n _ (modSeq_moved _ h)
    · exact setDue_moved g n _ (modSeq_moved _ h)

theorem offerDue_moved (g : Fin 4) (n : LineNo) (h : Moved s t) : Moved s (offerDue g n t) := by
  unfold offerDue
  split
  · split
    · exact offerRoutine_moved g n h
    · exact setDue_moved g n _ h
  · exact h

theorem placeFreed_moved (h : Moved s t) : Moved s (placeFreed t) :=
  foldl_holds (Moved s) _ (fun u g hu => foldl_holds (Moved s) _ (fun _ n hv => offerDue_moved g n hv) _ u hu) _ t h

theorem deferRequest_moved (r : TestRequest) (h : Moved s t) : Moved s (deferRequest r t) := by
  unfold deferRequest
  dsimp only
  split
  · exact h
  · split
    · exact placeFreed_moved (raise_moved _ _ (writeRecord_moved _ (modSeq_moved _ h)))
    · exact modSeq_moved _ (modSeq_moved _ h)

theorem startRequest_moved (r : TestRequest) (h : Moved s t) : Moved s (startRequest r t) := by
  unfold startRequest
  exact askForLine_moved _ (placeFreed_moved (modSeq_moved _ h))

theorem selectWalk_moved (k : Nat) (h : Moved s t) : Moved s (selectWalk k t) := by
  induction k generalizing t with
  | zero => exact h
  | succ k ih =>
    unfold selectWalk
    split
    · exact h
    · split
      · exact ih (deferRequest_moved _ h)
      · exact startRequest_moved _ h

theorem idleStep_moved (h : Moved s t) : Moved s (idleStep t) := by
  unfold idleStep
  split
  · exact boundary_moved _ (selectWalk_moved _ h) h
  · exact h

theorem joining_moved (offer : State → State) (ho : Moved s (offer t)) : Moved s (joining offer t) := by
  unfold joining
  dsimp only
  split
  · exact idleStep_moved ho
  · exact ho

theorem placesFreed_moved (h : Moved s t) : Moved s (placesFreed t) :=
  idleStep_moved (foldl_holds (Moved s) _ (fun u g hu => foldl_holds (Moved s) _
    (fun _ n hv => joining_moved _ (offerDue_moved g n hv)) _ u hu) _ t h)

theorem enterIdle_moved (h : Moved s t) : Moved s (enterIdle t) := idleStep_moved (modSeq_moved _ h)

theorem afterExternal_moved (h : Moved s t) : Moved s (afterExternal t) := by
  unfold afterExternal
  split
  · exact modSeq_moved _ h
  · exact enterIdle_moved h

theorem releasedReport_moved (h : Moved s t) : Moved s (releasedReport t) := by
  unfold releasedReport
  split
  · exact enterIdle_moved h
  · split
    · exact afterExternal_moved (closeActivity_moved _ _ h)
    · exact enterIdle_moved (closeActivity_moved _ _ h)

theorem abortTestNow_moved (o : Outcome) (h : Moved s t) : Moved s (abortTestNow o t) := by
  unfold abortTestNow
  split
  · exact enterIdle_moved (closeActivity_moved _ _ h)
  · exact releaseStep_moved (modAct_moved _ h)
  · exact stopStep_moved (modAct_moved _ h)
  · exact stopStep_moved (modAct_moved _ h)
  · exact closeActivity_moved _ _ h
  all_goals exact h

theorem shedReport_moved (n : LineNo) (h : Moved s t) : Moved s (shedReport n t) := by
  unfold shedReport
  split
  · exact h
  · split
    · dsimp only
      split
      · exact modSeq_moved _ (closeActivity_moved _ _ h)
      · exact modSeq_moved _ (closeActivity_moved _ _ h)
    · exact h

theorem endExternal_moved (h : Moved s t) : Moved s (endExternal t) := by
  unfold endExternal
  split
  · exact afterExternal_moved (closeActivity_moved _ _ h)
  · exact releaseStep_moved h
  · exact releaseStep_moved h
  · exact h

theorem restrainTest_moved (p : PowerState) (h : Moved s t) : Moved s (restrainTest p t) := by
  unfold restrainTest
  split
  · exact h
  · split
    · exact h
    · split
      · exact h
      · exact h
      · split
        · exact h
        · exact abortTestNow_moved _ h
      · exact abortTestNow_moved _ h

theorem tripGuard_moved (n : LineNo) (h : Moved s t) : Moved s (tripGuard n t) := by
  unfold tripGuard
  dsimp only
  generalize (if decide (t.access.unit = UnitState.measuring) = true then t.access.spec else none) = inHand
  have hr := fun f g d => modAct_moved (s := s) f (modAccess_moved g (raise_moved (some n) d h))
  split
  · split
    · exact resultStep_moved _ (modAccess_moved _ (hr _ _ _))
    · exact hr _ _ _
  · exact hr _ _ _

theorem guardCheck_moved (h : Moved s t) : Moved s (guardCheck t) := by
  unfold guardCheck
  split
  · split
    · exact tripGuard_moved _ h
    · exact h
  · exact h

/-! ## Shedding and pruning -/

theorem shedLine_moved (n : LineNo) (h : Moved s t) : Moved s (shedLine n t) := by
  unfold shedLine
  dsimp only
  split
  · split
    · exact shedReport_moved n (enterCore_moved n _ _ h)
    · exact enterCore_moved n _ _ h
  · exact h

theorem shedToBudget_moved (h : Moved s t) : Moved s (shedToBudget t) := by
  unfold shedToBudget
  dsimp only
  have hf := foldl_holds (Moved s) _ (fun u n hu => shedLine_moved n (t := u) hu) (shedLines t) t h
  split
  · exact recompute_moved hf
  · exact hf

theorem pruneRemove_moved (e : WakeEntry) (h : Moved s t) : Moved s (pruneRemove e t) :=
  refreshIdle_moved _ (flush_moved _ _ h)

theorem prune_moved (h : Moved s t) : Moved s (prune t) :=
  foldl_holds (Moved s) _ (fun _ e hu => pruneRemove_moved e hu) _ _ (modWakes_moved _ h)

end

end Sys2Proof.Machine
end

