-- ==== Sys2Proof/Proofs/Tables.lean ====
section
/-! PROOF. The Station Table's rules across every step (R1, R7), and what an entry to DISABLED, DOWN or BARRED removes. -/

namespace Sys2Proof.Machine

/-! ## Looking up the table -/

/-- An address is held by no entry where the lookup finds none (R1). -/
theorem lookupStation_none {s : State} {a : Addr} (h : lookupStation s a = none) {i : Fin 96} {e : Entry}
    (he : s.stations.entries.get i = some e) : e.addr ≠ a := by
  have := List.find?_eq_none.mp h i (mem_indexes i)
  simpa [he] using this

/-- What the lookup finds holds the address (R1). -/
theorem lookupStation_some {s : State} {a : Addr} {i : Fin 96} (h : lookupStation s a = some i) :
    ∃ e, s.stations.entries.get i = some e ∧ e.addr = a := by
  have := List.find?_some h
  simpa [Option.any_eq_true] using this

/-- The lowest invalid index is invalid (R1). -/
theorem lowestInvalid_some {s : State} {i : Fin 96} (h : lowestInvalid s = some i) :
    s.stations.entries.get i = none := by
  simpa using List.find?_some h

section
variable {s t : State}

/-! ## Writing the table -/

/-- An entry written where no other index holds its address, STATIC or for a line in service. -/
theorem setStation_tables {i : Fin 96} {e : Entry} (hs : TablesSafe s)
    (ha : ∀ j x, j ≠ i → s.stations.entries.get j = some x → x.addr ≠ e.addr)
    (hl : e.isLearned = true → losesLearned (s.line e.line).st = false) : TablesSafe (setStation i (some e) s) := by
  have hget : ∀ j, (setStation i (some e) s).stations.entries.get j =
      if j = i then some e else s.stations.entries.get j := by
    intro j
    by_cases hj : j = i
    · subst hj; simp [setStation]
    · simp [setStation, Tab.get_set_other _ _ hj, hj]
  obtain ⟨huniq, hlearned⟩ := hs
  refine ⟨fun j k x y hj hk hxy => ?_, fun j x hj hx => ?_⟩
  · rw [hget] at hj hk
    split at hj <;> split at hk
    · omega
    · cases hj
      exact absurd hxy.symm (ha k y ‹_› hk)
    · cases hk
      exact absurd hxy (ha j x ‹_› hj)
    · exact huniq j k x y hj hk hxy
  · rw [hget] at hj
    split at hj
    · cases hj
      exact hl hx
    · exact hlearned j x hj hx

/-- Entries made invalid. -/
theorem dropStations_tables (p : Entry → Bool) (hs : TablesSafe s) : TablesSafe (dropStations p s) := by
  refine hs.of_entries (fun i x hx => ⟨x, ?_, rfl, rfl, id⟩) fun _ _ _ _ h => h
  simp only [dropStations, State.modStations_stations, Tab.get_map, Option.filter_eq_some_iff] at hx
  exact hx.1

/-- One entry made invalid (R11). -/
theorem setStation_none_tables (i : Fin 96) (hs : TablesSafe s) : TablesSafe (setStation i none s) := by
  refine hs.of_entries (fun j x hx => ⟨x, ?_, rfl, rfl, id⟩) fun _ _ _ _ h => h
  by_cases hj : j = i
  · subst hj; simp [setStation] at hx
  · simpa [setStation, Tab.get_set_other _ _ hj] using hx

/-- An address that the lookup does not find is free at every index. -/
theorem addr_free_of_lookup_none {a : Addr} (h : lookupStation s a = none) (i : Fin 96) :
    ∀ j x, j ≠ i → s.stations.entries.get j = some x → x.addr ≠ a := fun _ _ _ hx => lookupStation_none h hx

/-- An address held at one index is held at no other (R1). -/
theorem addr_free_of_get (hs : TablesSafe s) {i : Fin 96} {e : Entry} (h : s.stations.entries.get i = some e) :
    ∀ j x, j ≠ i → s.stations.entries.get j = some x → x.addr ≠ e.addr :=
  fun j x hj hx hxe => hj (hs.1 j i x e hx h hxe)

/-! ## Learning (R4 to R6) -/

theorem learnEntry_tables {n : LineNo} {a : Addr} (hs : TablesSafe s) (hup : (s.line n).st = .up)
    (ha : lookupStation s a = none) : TablesSafe (learnEntry n a s).2 := by
  unfold learnEntry
  dsimp only
  split
  · split
    · exact setStation_tables hs (addr_free_of_lookup_none ha _) fun _ => by rw [hup]; rfl
    · exact (countDrop_moved n _ (.refl s)).tables hs
  · exact (countDrop_moved n _ (.refl s)).tables hs

theorem sourceCheck_tables {n : LineNo} {a : Addr} (hs : TablesSafe s) (hup : (s.line n).st = .up) :
    TablesSafe (sourceCheck n a s).2 := by
  have hspoof : TablesSafe (spoofed n s).2 := (countDrop_moved n _ (.refl s)).tables hs
  unfold sourceCheck
  split
  · exact hspoof
  · split
    case h_1 hnone => exact learnEntry_tables hs hup hnone
    case h_2 i hi =>
      obtain ⟨e, he, -⟩ := lookupStation_some hi
      rw [he]
      dsimp only
      split
      case isTrue hown =>
        split
        · exact setStation_tables hs (addr_free_of_get hs he :) fun _ => by simp [hown, hup, losesLearned]
        · exact hs
      case isFalse =>
        split
        · exact (countDev_moved _ (.refl _)).tables
            (setStation_tables hs (addr_free_of_get hs he :) fun _ => by simp [hup, losesLearned])
        · exact hspoof

/-! ## The frame path -/

theorem makeRecord_moved (r : FrameRec) (h : Moved s t) : Moved s (makeRecord r t) := setFree_moved _ (modPool_moved _ h)

theorem pushQueue_moved (n : LineNo) (k : QueueKind) (id : Nat) (h : Moved s t) : Moved s (pushQueue n k id t) :=
  refreshIdle_moved n (modLine_moved n _ (fun _ => by cases k <;> exact ⟨rfl, rfl⟩) h)

theorem queueFrame_moved (n : LineNo) (k : QueueKind) (c d : LineCause) (r : FrameRec) (h : Moved s t) :
    Moved s (queueFrame n k c d r t) := by
  unfold queueFrame
  split
  · exact countDrop_moved n _ h
  · split
    · exact countDrop_moved n _ h
    · exact pushQueue_moved n k _ (makeRecord_moved r h)

theorem countDeviceDrop_moved (c : LineCause) (h : Moved s t) : Moved s (countDeviceDrop c t) :=
  modCounts_moved _ rfl rfl h

theorem toWakeStore_moved (n : LineNo) (f : List Byte) (h : Moved s t) : Moved s (toWakeStore n f t) := by
  unfold toWakeStore
  dsimp only
  split
  · exact countDrop_moved n _ h
  · split
    · exact countDrop_moved n _ h
    · split
      · exact countDrop_moved n _ h
      · exact wakeRequest_moved n _ (modLine_moved n _ (fun _ => ⟨rfl, rfl⟩) (makeRecord_moved _ h))

theorem decideUnicast_moved (n : LineNo) (f : List Byte) (h : Moved s t) : Moved s (decideUnicast n f t) := by
  unfold decideUnicast
  dsimp only
  split
  · exact queueFrame_moved n _ _ _ _ h
  · split
    · exact wakeRequest_moved n _ (queueFrame_moved n _ _ _ _ h)
    · exact queueFrame_moved n _ _ _ _ h
  · exact toWakeStore_moved n f h
  all_goals exact countDrop_moved n _ h

theorem replicate_moved (f : List Byte) (h : Moved s t) : Moved s (replicate f t) := by
  unfold replicate
  dsimp only
  split
  · exact countDev_moved _ h
  · split
    · exact countDeviceDrop_moved _ h
    · have hno := foldl_holds (Moved s) (fun u n => countDrop n .downQueueFull u)
        (fun u n hu => countDrop_moved n _ hu)
        ((recipients t f).filter fun n => !queueRoom t n .down (cellsFor f.length)) t h
      split
      · exact hno
      · exact foldl_holds (Moved s) _ (fun u n hu => pushQueue_moved n _ _ hu) _ _ (makeRecord_moved _ hno)

theorem sortDownstream_moved (f : List Byte) (h : Moved s t) : Moved s (sortDownstream f t) := by
  unfold sortDownstream
  split
  · exact countDev_moved _ h
  · split
    · exact countDev_moved _ h
    · split
      · exact replicate_moved f h
      · unfold unicast
        split
        · exact countDev_moved _ h
        · split
          · exact decideUnicast_moved _ f h
          · exact countDev_moved _ h

theorem modMgmt_tables (f : Mgmt → Mgmt) (hs : TablesSafe s) : TablesSafe (s.modMgmt f) := hs.congr rfl fun _ => rfl
theorem modSched_tables (f : Sched → Sched) (hs : TablesSafe s) : TablesSafe (s.modSched f) := hs.congr rfl fun _ => rfl
theorem modShares_tables (f : Shares → Shares) (hs : TablesSafe s) : TablesSafe (s.modShares f) :=
  hs.congr rfl fun _ => rfl
theorem modPower_tables (f : Power → Power) (hs : TablesSafe s) : TablesSafe (s.modPower f) := hs.congr rfl fun _ => rfl

theorem takeAdvisory_tables (v : Nat) (hs : TablesSafe s) : TablesSafe (takeAdvisory v s) := by
  unfold takeAdvisory
  dsimp only
  refine (recompute_moved (.refl _)).tables (modShares_tables _ ?_)
  have hx := fun f => modShares_tables f ((countDev_moved .advisories (.refl s)).tables hs)
  split
  · exact (raise_moved _ _ (.refl _)).tables (hx _)
  · exact hx _

theorem takePause_tables (m : Byte) (d : Nat) (hs : TablesSafe s) : TablesSafe (takePause m d s) :=
  modSched_tables _ ((countDev_moved _ (.refl s)).tables hs)

theorem queueControl_tables (p : Port) (f : List Byte) (hs : TablesSafe s) : TablesSafe (queueControl p f s) := by
  unfold queueControl
  split
  · exact modMgmt_tables _ hs
  · exact (countDev_moved _ (.refl s)).tables hs

theorem recogniseUplink_tables (f : List Byte) (hs : TablesSafe s) : TablesSafe (recogniseUplink f s) := by
  have hdev : ∀ c, TablesSafe (countDev c s) := fun c => (countDev_moved c (.refl s)).tables hs
  unfold recogniseUplink
  split
  · unfold backhaulFrame
    dsimp only
    split
    · exact takeAdvisory_tables _ hs
    · split
      · exact takePause_tables _ _ hs
      · exact hdev _
  · split
    · split
      · exact hdev _
      · exact queueControl_tables _ f hs
    · exact (sortDownstream_moved f (.refl s)).tables hs

theorem recogniseCraft_tables (b : Bool) (f : List Byte) (hs : TablesSafe s) : TablesSafe (recogniseCraft b f s) := by
  unfold recogniseCraft
  split
  · exact (countDev_moved _ (.refl s)).tables hs
  · split
    · exact queueControl_tables _ f hs
    · exact (countDev_moved _ (.refl s)).tables hs

theorem upstream_tables (n : LineNo) (f : List Byte) (hs : TablesSafe s) : TablesSafe (upstream n f s) := by
  have hdrop : ∀ c, TablesSafe (countDrop n c s) := fun c => (countDrop_moved n c (.refl s)).tables hs
  unfold upstream
  split
  · exact (countDev_moved _ (.refl s)).tables hs
  · split
    · exact (countDev_moved _ (.refl s)).tables hs
    · split
      · exact hdrop _
      · rename_i hup
        have hcheck := sourceCheck_tables (n := n) (a := frameSrc f) hs hup
        split
        · rename_i h
          rw [h] at hcheck
          exact (queueFrame_moved n _ _ _ _ (.refl _)).tables hcheck
        · rename_i h
          rw [h] at hcheck
          exact hcheck
      · exact hdrop _

theorem receive_tables (k : Nat) (f : List Byte) (pass : State → State) (hp : TablesSafe (pass s)) (hs : TablesSafe s) :
    TablesSafe (receive k f pass s) := by
  unfold receive
  split
  · exact (countDev_moved _ (.refl s)).tables hs
  · split
    · exact hp
    · exact (countDeviceDrop_moved _ (.refl s)).tables hs

/-! ## The upstream side -/

theorem takeHead_tables (n : LineNo) (c : Cls) (b : Bool) (hs : TablesSafe s) : TablesSafe (takeHead n c b s) := by
  unfold takeHead
  split
  · exact hs
  · exact (refreshIdle_moved n (.refl _)).tables (modSched_tables _
      ((modLine_moved n _ (fun _ => by cases c <;> exact ⟨rfl, rfl⟩) (.refl s)).tables hs))

theorem chargeHead_moved (n : LineNo) (c : Cls) (h : Moved s t) : Moved s (chargeHead n c t) := by
  unfold chargeHead
  split
  · exact h
  · exact modLine_moved n _ (fun _ => ⟨rfl, rfl⟩) h

theorem makeChoice_tables (hs : TablesSafe s) : TablesSafe (makeChoice s) := by
  unfold makeChoice
  split
  · cases choose s with
    | none => exact hs
    | some p =>
      simp only [Option.elim, startChoice]
      cases p with
      | management e => exact modSched_tables _ (modMgmt_tables _ hs)
      | credited n c => exact modSched_tables _ (takeHead_tables n c _ ((chargeHead_moved n c (.refl s)).tables hs))
      | spare n c => exact modSched_tables _ (takeHead_tables n c _ hs)
  · exact hs

theorem dropRefs_moved (ids : List Nat) (h : Moved s t) : Moved s (ids.foldl (fun u id => dropRef id u) t) :=
  foldl_holds (Moved s) _ (fun _ id hu => dropRef_moved id hu) ids t h

theorem dropCraftEntries_tables (hs : TablesSafe s) : TablesSafe (dropCraftEntries s) :=
  (dropRefs_moved _ (.refl _)).tables (modMgmt_tables _ hs)

/-! ## Resets and start-up -/

theorem coldState_tables (s : State) : TablesSafe (coldState s) := .of_empty fun i => Tab.get_fill none i

theorem warmReset_tables (f : ResetFlag) (s : State) : TablesSafe (warmReset f s) := .of_empty fun i => Tab.get_fill none i

theorem completeTransmission_tables (id : Nat) (b : Bool) (hs : TablesSafe s) :
    TablesSafe (completeTransmission id b s) := by
  unfold completeTransmission
  split
  · exact warmReset_tables _ s
  · split
    · exact hs
    · unfold countTransmission
      split
      · exact (modCounts_moved _ rfl rfl (countFor_moved _ _ (dropRef_moved id (.refl s)))).tables hs
      · exact (dropRef_moved id (.refl s)).tables hs
      · exact (dropRef_moved id (.refl s)).tables hs

theorem loadStation_tables (e : ImageEntry) (hs : TablesSafe s) : TablesSafe (loadStation e s) := by
  unfold loadStation
  split
  · split
    · exact hs
    · rename_i hfree
      simp only [Bool.or_eq_true, not_or, Bool.not_eq_true, Option.isSome_eq_false_iff, Option.isNone_iff_eq_none] at hfree
      exact setStation_tables hs (addr_free_of_lookup_none hfree.2 _) (by simp [Entry.isLearned])
  · exact hs

theorem loadImage_tables (b : ImageBody) (hs : TablesSafe s) : TablesSafe (loadImage b s) := by
  have hload : TablesSafe (b.stations.foldl (fun s e => loadStation e s) s) :=
    foldl_holds TablesSafe _ (fun _ e hu => loadStation_tables e hu) _ s hs
  exact hload.congr rfl fun n => by simp [loadImage, State.line]

theorem warmLoad_tables (hs : TablesSafe s) : TablesSafe (warmLoad s) := by
  unfold warmLoad
  split
  · exact modMgmt_tables _ (loadImage_tables _ hs)
  · exact (raise_moved _ _ (.refl _)).tables (modMgmt_tables _ hs)

theorem settleMarker_moved (h : Moved s t) : Moved s (settleMarker t) := by
  unfold settleMarker
  split
  · exact h
  · exact modSeq_moved _ (raise_moved _ _ (writeRecord_moved _ h))

theorem enableLines_moved (h : Moved s t) : Moved s (enableLines t) := by
  refine foldl_holds (Moved s) _ (fun u n hu => ?_) _ t h
  split
  · exact enterCore_moved n _ _ hu
  · exact hu

theorem runStartUp_tables (cold : Bool) (hs : TablesSafe s) : TablesSafe (runStartUp cold s) := by
  have hid : TablesSafe (readIdentity s) := hs.congr rfl fun n => by simp [readIdentity, State.line]
  have hload : TablesSafe (if cold = true then readIdentity s else warmLoad (readIdentity s)) := by
    split
    · exact hid
    · exact warmLoad_tables hid
  unfold runStartUp
  dsimp only
  exact modMgmt_tables _ ((raise_moved _ _ (enableLines_moved (settleMarker_moved (.refl _)))).tables hload)

theorem completeStartUp_tables (mv : Nat) (hs : TablesSafe s) : TablesSafe (completeStartUp mv s) := by
  have hpower : TablesSafe (setPowerState (if s.power.mainsOk then .mains else batteryChoice s.power mv)
      (s.modPower fun p => { p with sample := some (mv, s.mgmt.time) })) := hs.congr rfl fun _ => rfl
  have hrec := (recompute_moved (.refl _)).tables hpower
  unfold completeStartUp
  exact (enterIdle_moved (.refl _)).tables (hrec.congr rfl fun _ => rfl)

theorem flushLines_moved (ns : List LineNo) (x : Flush) (h : Moved s t) :
    Moved s (ns.foldl (fun u n => flush n x u) t) :=
  foldl_holds (Moved s) _ (fun _ n hu => flush_moved n x hu) ns t h

theorem discardUplink_tables (hs : TablesSafe s) : TablesSafe (discardUplink s) := by
  unfold discardUplink
  split
  · exact hs
  · refine (dropRef_moved _ (.refl _)).tables (modSched_tables _ ?_)
    split
    · exact hs
    · exact (countDev_moved _ (.refl s)).tables hs

theorem releaseAll_tables (hs : TablesSafe s) : TablesSafe (releaseAll s) := by
  unfold releaseAll discardManagement
  dsimp only
  refine (modPool_moved _ (dropRefs_moved _ (.refl _))).tables (modMgmt_tables _ (modSched_tables _ ?_))
  exact discardUplink_tables ((flushLines_moved _ _ (.refl s)).tables hs)

/-- The lines of a traffic reset sent to DOWN (R87). -/
theorem trafficLines_moved (h : Moved s t) : Moved s (trafficLines t) := by
  have hdown : Moved s ((indexes 24).foldl (fun u n =>
      if (u.line n).st = .disabled ∨ (u.line n).st = .barred then u else enterCore n .down .trafficReset u) t) := by
    refine foldl_holds (Moved s) _ (fun u n hu => ?_) _ t h
    split
    · exact hu
    · exact enterCore_moved n _ _ hu
  unfold trafficLines
  dsimp only
  generalize (indexes 24).foldl _ t = u at hdown
  exact hdown.trans (.of_kept rfl (fun n => by simp [State.line, Line.trafficCleared]) rfl rfl rfl (.refl u))

theorem trafficTests_moved (h : Moved s t) : Moved s (trafficTests t) := by
  unfold trafficTests
  exact modAccess_moved _ (modSeq_moved _ (closeActivity_moved _ _ h))

theorem setResetFlag_tables (f : ResetFlag) (hs : TablesSafe s) : TablesSafe (setResetFlag f s) :=
  hs.congr rfl fun _ => rfl

theorem doTrafficReset_tables (hs : TablesSafe s) : TablesSafe (doTrafficReset s) := by
  have hdropped := modPower_tables (fun p => { p with wakeList := [] })
    (dropStations_tables Entry.isLearned (releaseAll_tables hs))
  have htests := (trafficTests_moved (trafficLines_moved (.refl _))).tables hdropped
  unfold doTrafficReset
  dsimp only
  refine (idleStep_moved (.refl _)).tables (setResetFlag_tables _ ((recompute_moved (.refl _)).tables ?_))
  exact modSched_tables _ htests

/-! ## Cabinet power -/

theorem changePower_tables (l p : PowerState) (c : PowerCause) (hs : TablesSafe s) : TablesSafe (changePower l p c s) := by
  have hset : TablesSafe (setPowerState p s) := modPower_tables _ hs
  unfold changePower
  dsimp only
  exact (raise_moved _ _ (idleStep_moved (restrainTest_moved _ (recompute_moved (rederiveAll_moved
    (grantAll_moved (prune_moved (shedToBudget_moved (.refl _))))))))).tables hset

theorem takeSample_tables (mv : Nat) (hs : TablesSafe s) : TablesSafe (takeSample mv s) := by
  unfold takeSample
  dsimp only
  have hp := modPower_tables (fun p => { p with sample := some (mv, s.mgmt.time) }) hs
  split
  · exact hp
  · split
    · exact hp
    · exact changePower_tables _ _ _ hp

theorem loseMains_tables (hs : TablesSafe s) : TablesSafe (loseMains s) := by
  unfold loseMains
  dsimp only
  split
  · exact modPower_tables _ hs
  · exact changePower_tables _ _ _ (modPower_tables _ hs)
  · exact modPower_tables _ (modPower_tables _ hs)

theorem gainMains_tables (hs : TablesSafe s) : TablesSafe (gainMains s) := by
  unfold gainMains
  dsimp only
  split
  · exact modPower_tables _ hs
  · exact modPower_tables _ hs
  · exact modPower_tables _ (modPower_tables _ hs)

theorem mainsStable_tables (hs : TablesSafe s) : TablesSafe (mainsStable s) := by
  unfold mainsStable
  split
  · exact changePower_tables _ _ _ (modPower_tables _ hs)
  · exact hs

/-! ## Line events -/

theorem whenRunning_moved (f : State → State) (hf : Moved s (f t)) (h : Moved s t) : Moved s (whenRunning f t) := by
  unfold whenRunning
  split
  · exact hf
  · exact h

theorem failTraining_moved (n : LineNo) (r : Reason) (h : Moved s t) : Moved s (failTraining n r t) :=
  enter_moved n _ _ (modLine_moved n _ (fun _ => ⟨rfl, rfl⟩) h)

theorem takeReady_moved (n : LineNo) (h : Moved s t) : Moved s (takeReady n t) := by
  unfold takeReady
  split
  · exact modLine_moved n _ (fun _ => ⟨rfl, rfl⟩) h
  · exact h

theorem takeActivity_moved (n : LineNo) (h : Moved s t) : Moved s (takeActivity n t) := by
  unfold takeActivity
  split
  · exact wakeRequest_moved n _ h
  · split
    · exact wakeRequest_moved n _ h
    · exact h
  · exact h

theorem takeLinkUp_moved (n : LineNo) (down up : Nat) (h : Moved s t) : Moved s (takeLinkUp n down up t) := by
  unfold takeLinkUp
  split
  · exact enter_moved n _ _ (modLine_moved n _ (fun _ => ⟨rfl, rfl⟩) h)
  · exact takeRates_moved n down up h
  · exact takeRates_moved n down up h
  · exact takeRates_moved n down up h
  · exact h

theorem takeRatesReport_moved (n : LineNo) (down up : Nat) (h : Moved s t) : Moved s (takeRatesReport n down up t) := by
  unfold takeRatesReport
  split
  · exact takeRates_moved n down up h
  · exact takeRates_moved n down up h
  · exact takeRates_moved n down up h
  · exact h

theorem takeLinkDown_moved (n : LineNo) (h : Moved s t) : Moved s (takeLinkDown n t) := by
  unfold takeLinkDown
  split
  · exact failTraining_moved n _ h
  · exact enter_moved n _ _ h
  · exact enter_moved n _ _ h
  · exact heldReport_moved (enter_moved n _ _ h)
  · exact h

theorem takeAwake_moved (n : LineNo) (h : Moved s t) : Moved s (takeAwake n t) := by
  unfold takeAwake
  split
  · exact modLine_moved n _ (fun _ => ⟨rfl, rfl⟩) h
  · exact h

theorem takeSense_moved (n : LineNo) (b : Bool) (h : Moved s t) : Moved s (takeSense n b t) := by
  unfold takeSense
  split
  · dsimp only
    have hr := raise_moved (some n) (.sense b)
      (modLine_moved n (fun l => { l with sense := true }) (fun _ => ⟨rfl, rfl⟩) h)
    split
    · exact wakeRequest_moved n _ hr
    · split
      · exact wakeRequest_moved n _ hr
      · exact hr
    · split
      · exact wakeRequest_moved n _ hr
      · exact hr
    · exact hr
  · exact h

theorem sweep_tables (v : Option Nat) (hs : TablesSafe s) : TablesSafe (s.modStations fun t =>
    { t with entries := if t.agingTime = 0 then t.entries else sweepEntries t.agingTime t.entries, sweep := v }) := by
  refine hs.of_entries (fun i x hx => ?_) fun _ _ _ _ h => h
  simp only [State.modStations_stations] at hx
  split at hx
  · exact ⟨x, hx, rfl, rfl, id⟩
  · simp only [sweepEntries, Tab.get_map, Option.filter_eq_some_iff, Option.map_eq_some_iff] at hx
    obtain ⟨⟨y, hy, rfl⟩, -⟩ := hx
    refine ⟨y, hy, ?_⟩
    unfold Entry.aged
    split <;> rename_i ho <;> simp [Entry.isLearned, ho]

theorem handOffComplete_moved (n : LineNo) (id len : Nat) (h : Moved s t) : Moved s (countDelivered n len
    (refreshIdle n (dropRef id (t.modLine n fun l => { l with handOff := none })))) :=
  modCounts_moved _ rfl rfl (countFor_moved n _ (refreshIdle_moved n (dropRef_moved id
    (modLine_moved n _ (fun _ => ⟨rfl, rfl⟩) h))))

/-! ## Test events -/

theorem settledReport_moved (h : Moved s t) : Moved s (settledReport t) := by
  unfold settledReport
  split
  · exact h
  · split
    · split
      · exact modSeq_moved _ h
      · exact boundary_moved _ (nextStep_moved h) h
    · exact h

theorem settleEnds_moved (h : Moved s t) : Moved s (settleEnds t) := by
  unfold settleEnds
  split
  · exact settledReport_moved (modAccess_moved _ h)
  · dsimp only
    split
    · exact releasedReport_moved (modAccess_moved _ h)
    · exact modAccess_moved _ h
  · exact h
  · exact h

theorem completeMeasurement_moved (r : Result) (h : Moved s t) : Moved s (completeMeasurement r t) :=
  resultStep_moved r (modAccess_moved _ h)

theorem windowEnds_moved (xs : List Sample) (h : Moved s t) : Moved s (windowEnds xs t) := by
  unfold windowEnds
  split
  · exact h
  · split
    · exact h
    · split
      · exact completeMeasurement_moved _ h
      · exact h

theorem captureEnds_moved (k : Nat) (b : Bool) (h : Moved s t) : Moved s (captureEnds k b t) := by
  unfold captureEnds
  split
  · exact completeMeasurement_moved _ h
  · exact h

theorem toneEnds_moved (h : Moved s t) : Moved s (toneEnds t) := by
  unfold toneEnds
  split
  · exact completeMeasurement_moved _ h
  · exact h

theorem dischargeEnds_moved (h : Moved s t) : Moved s (dischargeEnds t) := by
  unfold dischargeEnds
  split
  · dsimp only
    have hg := fun f => guardCheck_moved (s := s) (modAccess_moved f h)
    split
    · exact releaseStep_moved (hg _)
    · split
      · exact boundary_moved _ (nextStep_moved (hg _)) (hg _)
      · exact hg _
  · exact h

theorem resumeTest_moved (a : Activity) (h : Moved s t) : Moved s (resumeTest a t) := by
  unfold resumeTest
  dsimp only
  split
  · split
    · exact modSeq_moved _ (modAccess_moved _ (modSeq_moved _ h))
    · exact connectStep_moved _ (modSeq_moved _ h)
  · exact releaseStep_moved (modSeq_moved _ h)

theorem reclaimBus_moved (h : Moved s t) : Moved s (reclaimBus t) := by
  unfold reclaimBus
  dsimp only
  have hr := raise_moved t.lineUnderTest (.external false) h
  split
  · split
    · exact endExternal_moved hr
    · exact resumeTest_moved _ (modSeq_moved _ hr)
  · split
    · exact releaseStep_moved (modSeq_moved _ hr)
    · exact releaseStep_moved (modSeq_moved _ hr)
    · exact enterIdle_moved (modSeq_moved _ hr)
    · exact modSeq_moved _ hr

theorem tickRequests_moved (g : Fin 4) (half : Bool) (h : Moved s t) : Moved s (tickRequests g half t) := by
  refine foldl_holds (Moved s) _ (fun u n hu => joining_moved _ (offerRoutine_moved g n hu)) _ _ ?_
  split
  · exact idleStep_moved (modSeq_moved _ h)
  · exact modSeq_moved _ h

/-! ## Commands -/

theorem cmdWriteStation_tables (o : Origin) (a : Addr) (line cls : Nat) (hs : TablesSafe s) :
    TablesSafe (cmdWriteStation o a line cls s).1 := by
  unfold cmdWriteStation
  split
  · split
    · exact hs
    · split
      · exact hs
      · unfold placeStation
        dsimp only
        split
        case h_1 i hi =>
          obtain ⟨e, he, rfl⟩ := lookupStation_some hi
          split
          · exact hs
          · exact setStation_tables hs (addr_free_of_get hs he :) (by simp [Entry.isLearned])
        case h_2 hnone =>
          split
          · exact hs
          · split
            · exact hs
            · exact setStation_tables hs (addr_free_of_lookup_none hnone _) (by simp [Entry.isLearned])
  · exact hs

theorem cmdRemoveStation_tables (o : Origin) (a : Addr) (hs : TablesSafe s) :
    TablesSafe (cmdRemoveStation o a s).1 := by
  unfold cmdRemoveStation
  split
  · exact hs
  · split
    · exact hs
    · split
      · exact hs
      · split
        · exact hs
        · exact setStation_none_tables _ hs

theorem cmdFlushLearned_tables (q : FlushScope) (hs : TablesSafe s) : TablesSafe (cmdFlushLearned q s).1 := by
  unfold cmdFlushLearned
  dsimp only
  split
  · exact dropStations_tables _ hs
  · split
    · exact hs
    · exact dropStations_tables _ hs

theorem afterLineWrite_moved (n : LineNo) (f : LineFields) (old : LineConfig) (h : Moved s t) :
    Moved s (afterLineWrite n f old t) := by
  unfold afterLineWrite
  dsimp only
  have h1 : Moved s (if shareChange old (t.line n).cfg = true then recompute t else t) := by
    split
    · exact recompute_moved h
    · exact h
  have h2 : ∀ u, Moved s u → Moved s (if f.quietDelay.isSome = true then rederiveQuiet n u else u) := by
    intro u hu
    split
    · exact rederiveQuiet_moved n hu
    · exact hu
  split
  · exact rederiveDormant_moved n (h2 _ h1)
  · exact h2 _ h1

/-- A line written, but for its state. -/
theorem modLine_tables (n : LineNo) (f : Line → Line) (hf : ∀ l, (f l).st = l.st) (hs : TablesSafe s) :
    TablesSafe (s.modLine n f) := by
  refine hs.congr rfl fun m => ?_
  by_cases hm : m = n
  · subst hm
    rw [State.modLine_line_self, hf]
  · rw [State.modLine_line_other _ _ hm]

theorem cmdWriteLine_tables (o : Origin) (line : Nat) (f : LineFields) (hs : TablesSafe s) :
    TablesSafe (cmdWriteLine o line f s).1 := by
  unfold cmdWriteLine
  split
  · exact hs
  · dsimp only
    split
    · exact hs
    · split
      · exact hs
      · exact (afterLineWrite_moved _ _ _ (.refl _)).tables (modLine_tables _ _ (fun _ => rfl) hs)

theorem cmdEnableLine_tables (line : Nat) (hs : TablesSafe s) : TablesSafe (cmdEnableLine line s).1 := by
  unfold cmdEnableLine
  split
  · exact hs
  · split
    · exact hs
    · split
      · exact (enter_moved _ _ _ (.refl _)).tables (modLine_tables _ _ (fun _ => rfl) hs)
      · exact hs

theorem cmdDisableLine_tables (line : Nat) (hs : TablesSafe s) : TablesSafe (cmdDisableLine line s).1 := by
  unfold cmdDisableLine
  split
  · exact hs
  · split
    · exact hs
    · split
      · exact hs
      · exact (enter_moved _ _ _ (.refl _)).tables (modLine_tables _ _ (fun _ => rfl) hs)

theorem cmdClearBar_tables (line : Nat) (hs : TablesSafe s) : TablesSafe (cmdClearBar line s).1 := by
  unfold cmdClearBar
  split
  · exact hs
  · split
    · exact hs
    · split
      · exact (enter_moved _ _ _ (.refl _)).tables hs
      · exact hs

theorem cmdClearSense_tables (m : BitVec 32) (hs : TablesSafe s) : TablesSafe (cmdClearSense m s).1 := by
  unfold cmdClearSense
  split
  · exact hs
  · exact hs.congr rfl fun n => by simp [answer, State.line]

theorem cmdSetUplink_tables (o : Origin) (f : UplinkFields) (hs : TablesSafe s) : TablesSafe (cmdSetUplink o f s).1 := by
  unfold cmdSetUplink
  dsimp only
  split
  · exact hs
  · split
    · exact hs
    · exact (recompute_moved (.refl _)).tables (modShares_tables _ hs)

theorem cmdRequestTest_tables (line program : Nat) (v : Option Nat) (hs : TablesSafe s) :
    TablesSafe (cmdRequestTest line program v s).1 := by
  unfold cmdRequestTest
  split
  · split
    · exact hs
    · dsimp only
      split
      · exact (idleStep_moved (modSeq_moved _ (.refl s))).tables hs
      · exact hs
  · exact hs

theorem cmdAbortTest_tables (line : Nat) (hs : TablesSafe s) : TablesSafe (cmdAbortTest line s).1 := by
  unfold cmdAbortTest
  split
  · exact hs
  · split
    · dsimp only [answer]
      exact (placesFreed_moved (modSeq_moved _ (.refl s))).tables hs
    · split
      · exact hs
      · split
        · split
          · exact hs
          · exact (abortTestNow_moved _ (.refl s)).tables hs
        · exact hs

theorem cmdStopRoutineGroup_tables (g : Nat) (hs : TablesSafe s) : TablesSafe (cmdStopRoutineGroup g s).1 := by
  unfold cmdStopRoutineGroup
  split
  · exact hs
  · have hm := fun f g => modSeq_moved f (modSeq_moved (s := s) g (.refl s))
    dsimp only [answer]
    split
    · exact (hm _ _).tables hs
    · exact (placesFreed_moved (hm _ _)).tables hs

theorem cmdSetTestLimits_tables (o : Origin) (f : LimitFields) (hs : TablesSafe s) :
    TablesSafe (cmdSetTestLimits o f s).1 := by
  unfold cmdSetTestLimits
  dsimp only
  split
  · exact hs
  · exact (guardCheck_moved (modSeq_moved _ (modAccess_moved _ (.refl s)))).tables hs

theorem makeExternal_moved (n : LineNo) (h : Moved s t) : Moved s (makeExternal n t) := by
  unfold makeExternal
  dsimp only
  refine askForLine_moved n ?_
  split
  · exact placeFreed_moved (modSeq_moved _ h)
  · exact modSeq_moved _ h

theorem cmdConnectExternal_tables (o : Origin) (line : Nat) (hs : TablesSafe s) :
    TablesSafe (cmdConnectExternal o line s).1 := by
  unfold cmdConnectExternal
  split
  · exact hs
  · split
    · exact hs
    · split
      · exact hs
      · split
        · exact hs
        · split
          · exact hs
          · exact (makeExternal_moved _ (.refl s)).tables hs

theorem cmdDisconnectExternal_tables (o : Origin) (hs : TablesSafe s) : TablesSafe (cmdDisconnectExternal o s).1 := by
  unfold cmdDisconnectExternal
  split
  · exact hs
  · split
    · exact (endExternal_moved (.refl s)).tables hs
    · exact hs

theorem cmdWritePowerPolicy_tables (o : Origin) (v : Nat) (f : PolicyFields) (hs : TablesSafe s) :
    TablesSafe (cmdWritePowerPolicy o v f s).1 := by
  unfold cmdWritePowerPolicy
  split
  · exact hs
  · dsimp only
    split
    · exact hs
    · split
      · exact hs
      · refine (recompute_moved (.refl _)).tables ?_
        have hp := fun f => modPower_tables f hs
        split
        · have hi := fun f => (idleStep_moved (grantAll_moved (shedToBudget_moved (.refl _)))).tables (hp f)
          unfold afterPolicyWrite
          dsimp only
          split
          · exact (rederiveAll_moved (.refl _)).tables (hi _)
          · exact hi _
        · exact hp _

theorem cmdTrafficReset_tables (hs : TablesSafe s) : TablesSafe (cmdTrafficReset s).1 := by
  unfold cmdTrafficReset
  dsimp only [answer]
  exact doTrafficReset_tables hs

/-- A command row keeps the Station Table's rules. The rows below the named ones write neither the table nor a line. -/
theorem runRow_tables (c : Instr) (hs : TablesSafe s) : TablesSafe (runRow c s).1 := by
  cases c with
  | writeStation o a line cls => exact cmdWriteStation_tables o a line cls hs
  | removeStation o a => exact cmdRemoveStation_tables o a hs
  | flushLearned o q => exact cmdFlushLearned_tables q hs
  | writeLine o line f => exact cmdWriteLine_tables o line f hs
  | enableLine o line => exact cmdEnableLine_tables line hs
  | disableLine o line => exact cmdDisableLine_tables line hs
  | clearBar o line => exact cmdClearBar_tables line hs
  | clearSense o m => exact cmdClearSense_tables m hs
  | setUplink o f => exact cmdSetUplink_tables o f hs
  | requestTest o line p v => exact cmdRequestTest_tables line p v hs
  | abortTest o line => exact cmdAbortTest_tables line hs
  | stopRoutineGroup o g => exact cmdStopRoutineGroup_tables g hs
  | setTestLimits o f => exact cmdSetTestLimits_tables o f hs
  | connectExternal o line => exact cmdConnectExternal_tables o line hs
  | disconnectExternal o => exact cmdDisconnectExternal_tables o hs
  | writePowerPolicy o v f => exact cmdWritePowerPolicy_tables o v f hs
  | trafficReset o => exact cmdTrafficReset_tables hs
  | _ =>
    simp only [runRow, cmdWriteStationTableForm, cmdReadStation, cmdReadLine, cmdEnableLineSettings, cmdReadUplink,
      cmdWriteProgram, cmdReadProgram, cmdReadTestQueue, cmdReadTestRecord, cmdSetRoutineGroup, cmdStartRoutineGroup,
      cmdSetBatteryThresholds, cmdReadPower, cmdReadCounters, cmdReadGlobalCounters, cmdClearEvents, cmdSetNotices,
      cmdClearResetCause, cmdReadStatus, cmdSetManagement, cmdSetTime, cmdLock, cmdSaveConfiguration, cmdDeviceReset,
      cmdUnknown]
    (repeat' split) <;> exact hs.congr rfl fun _ => rfl

theorem runCommand_tables (cmd : State → State × CmdResult) (hc : TablesSafe (cmd s).1) (hs : TablesSafe s) :
    TablesSafe (runCommand cmd s).1 := by
  unfold runCommand
  split
  · exact hs
  · exact hc

/-- A command row as a step is its row carried out, whatever device reset is pending (log entry 10). -/
theorem exec_of_isCommand {c : Instr} (h : isCommand c = true) (s : State) : exec c s = carryOut (runRow c) s := by
  cases c <;> cases h <;> rfl

/-! ## Control frames -/

theorem runElement_tables (o : Origin) (i : Nat) (b : List Byte) (hs : TablesSafe s) :
    TablesSafe (runElement o i b s).1 := by
  refine runCommand_tables _ ?_ hs
  split
  · exact hs
  · exact runRow_tables _ hs

theorem runElements_tables (o : Origin) (es : List Element) (hs : TablesSafe s) : TablesSafe (runElements o es s).1 := by
  induction es generalizing s with
  | nil => exact hs
  | cons e es ih =>
    cases e with
    | truncated i => exact hs
    | whole i b => exact ih (runElement_tables o i b hs)

theorem buildEntry_tables (b : List Byte) (p : Port) (q : TxPart) (hs : TablesSafe s) :
    TablesSafe (buildEntry b p q s) := by
  unfold buildEntry
  exact modMgmt_tables _ ((makeRecord_moved _ (.refl s)).tables hs)

theorem takeFrame_tables (b : Bool) (p : Port) (f : List Byte) (hs : TablesSafe s) : TablesSafe (takeFrame b p f s) := by
  have hcount : TablesSafe (countDev .framesTaken (s.modMgmt fun m =>
      { m with controlQ := m.controlQ.drop 1, service := b })) :=
    (countDev_moved _ (.refl _)).tables (modMgmt_tables _ hs)
  have hrun : TablesSafe (runFrame (originOf p b) f (countDev .framesTaken (s.modMgmt fun m =>
      { m with controlQ := m.controlQ.drop 1, service := b }))).1 := by
    unfold runFrame
    dsimp only
    split
    · exact hcount
    · exact runElements_tables _ _ hcount
  unfold takeFrame placeReply
  dsimp only
  split
  · exact dropCraftEntries_tables (modMgmt_tables _ (buildEntry_tables _ _ _ hrun))
  · exact modMgmt_tables _ (buildEntry_tables _ _ _ hrun)

theorem noticeFrameBuild_tables (hs : TablesSafe s) :
    TablesSafe ((noticeReady s).elim s fun f => buildNotice f s) := by
  cases noticeReady s with
  | none => exact hs
  | some f => exact buildEntry_tables _ _ _ (hs.congr rfl fun _ => rfl)

theorem endSave_tables (good : Bool) (hs : TablesSafe s) : TablesSafe (endSave good s) := by
  unfold endSave
  split
  · exact hs
  · exact (raise_moved _ _ (.refl _)).tables (hs.congr rfl fun _ => rfl)

/-! ## Every step -/

/-- A state that a condition chooses keeps the rules. -/
theorem TablesSafe.ite {p : Prop} [Decidable p] {a b : State} (ha : TablesSafe a) (hb : TablesSafe b) :
    TablesSafe (if p then a else b) := by
  split
  · exact ha
  · exact hb

/-- The state that an occurrence leaves, a command row apart. -/
theorem exec_event_tables {c : Instr} (hc : isCommand c = false) (hs : TablesSafe s) (h : exec c s = .next t) :
    TablesSafe t := by
  have key : ∀ u, exec c s = .next u → TablesSafe u → TablesSafe t := by
    rintro u hu htab
    rw [hu] at h
    cases h
    exact htab
  have moved : ∀ u, exec c s = .next u → Moved s u → TablesSafe t := fun u hu hm => key u hu (hm.tables hs)
  have mv := Moved.refl s
  cases c with
  | coldReset => exact key _ rfl (coldState_tables s)
  | pinReset => exact key _ rfl (warmReset_tables _ s)
  | supplyReset => exact key _ rfl (warmReset_tables _ s)
  | startUp =>
    refine key _ rfl ?_
    split
    · exact runStartUp_tables _ hs
    · exact hs
    · exact hs
  | startUpComplete v =>
    refine key _ rfl ?_
    split
    · exact completeStartUp_tables v hs
    · exact hs
    · exact hs
  | uplinkFrameReceived f => exact key _ rfl (receive_tables _ f _ (recogniseUplink_tables f hs) hs)
  | capacityAdvisory v =>
    exact key _ rfl (.ite (takeAdvisory_tables v hs) ((countDeviceDrop_moved _ mv).tables hs))
  | classPause m d => exact key _ rfl (.ite (takePause_tables m d hs) ((countDeviceDrop_moved _ mv).tables hs))
  | craftFrameReceived b f =>
    exact key _ rfl (receive_tables _ f _ (recogniseCraft_tables b f (modMgmt_tables _ hs)) (modMgmt_tables _ hs))
  | lineLinkFrameReceived n f => exact key _ rfl (receive_tables _ f _ (upstream_tables n f hs) hs)
  | ready n => exact moved _ rfl (whenRunning_moved _ (takeReady_moved n mv) mv)
  | activity n => exact moved _ rfl (whenRunning_moved _ (takeActivity_moved n mv) mv)
  | linkUp n d u => exact moved _ rfl (whenRunning_moved _ (takeLinkUp_moved n d u mv) mv)
  | rates n d u => exact moved _ rfl (whenRunning_moved _ (takeRatesReport_moved n d u mv) mv)
  | linkFail n =>
    refine moved _ rfl (whenRunning_moved _ ?_ mv)
    split
    · exact failTraining_moved n _ mv
    · exact mv
  | linkDown n => exact moved _ rfl (whenRunning_moved _ (takeLinkDown_moved n mv) mv)
  | awake n => exact moved _ rfl (whenRunning_moved _ (takeAwake_moved n mv) mv)
  | senseEdge n b => exact moved _ rfl (whenRunning_moved _ (takeSense_moved n b mv) mv)
  | wakeGrant => exact moved _ rfl (grants_moved 1 mv)
  | agingSweep =>
    refine key _ rfl ?_
    split
    · exact hs
    · exact sweep_tables _ hs
  | holdTimerExpiry =>
    refine key _ rfl ?_
    split
    · exact hs
    · exact (recompute_moved (raise_moved _ _ (.refl _))).tables (modShares_tables _ hs)
  | refill =>
    refine key _ rfl ?_
    split
    · exact hs
    · exact hs.congr rfl fun n => by simp [State.line, Line.refilled]
  | pauseTimerExpiry c => exact key _ rfl (modSched_tables _ hs)
  | upstreamChoice => exact key _ rfl (makeChoice_tables hs)
  | transmissionComplete =>
    refine key _ rfl ?_
    split
    · exact hs
    · exact completeTransmission_tables _ _ (modSched_tables _ hs)
  | handOffStart n =>
    exact key _ rfl (.ite ((refreshIdle_moved n (modLine_moved n Line.handed (fun _ => ⟨rfl, rfl⟩) mv)).tables hs) hs)
  | handOffComplete n =>
    refine moved _ rfl ?_
    split
    · exact mv
    · exact handOffComplete_moved n _ _ mv
  | drainComplete n => exact moved _ rfl (drainReport_moved n mv)
  | uplinkLinkDown =>
    refine key _ rfl ?_
    dsimp only
    split
    · exact modSched_tables _ hs
    · exact (countDev_moved _ (dropRef_moved _ (.refl _))).tables (modSched_tables _ hs)
  | uplinkLinkUp => exact key _ rfl (makeChoice_tables (modSched_tables _ hs))
  | craftTransmissionStart =>
    refine key _ rfl (.ite ?_ hs)
    split
    · exact hs
    · exact modSched_tables _ (modMgmt_tables _ hs)
  | craftTransmissionComplete =>
    refine key _ rfl ?_
    split
    · exact hs
    · exact completeTransmission_tables _ _ (modSched_tables _ hs)
  | craftLinkDown =>
    refine key _ rfl (dropCraftEntries_tables ?_)
    split
    · exact modSched_tables _ hs
    · exact (countDev_moved _ (dropRef_moved _ (.refl _))).tables (modSched_tables _ hs)
  | trainingTimerExpiry n => exact key _ rfl (.ite ((failTraining_moved n _ mv).tables hs) hs)
  | wakeTimerExpiry n => exact key _ rfl (.ite ((enter_moved n _ _ mv).tables hs) hs)
  | idleTimerExpiry n => exact key _ rfl (.ite ((enter_moved n _ _ mv).tables hs) hs)
  | dormantTimerExpiry n => exact key _ rfl (.ite ((enter_moved n _ _ mv).tables hs) hs)
  | drainTimerExpiry n => exact key _ rfl (.ite ((heldReport_moved (enter_moved n _ _ mv)).tables hs) hs)
  | settleTimerExpiry => exact moved _ rfl (settleEnds_moved mv)
  | windowEnd xs => exact moved _ rfl (windowEnds_moved xs mv)
  | captureTargetReached v => exact key _ rfl (.ite ((captureEnds_moved v _ mv).tables hs) hs)
  | captureTimeout => exact moved _ rfl (captureEnds_moved _ _ mv)
  | toneDurationElapsed => exact moved _ rfl (toneEnds_moved mv)
  | dischargeWaitExpiry => exact moved _ rfl (dischargeEnds_moved mv)
  | guardTrip v =>
    refine moved _ rfl ?_
    split
    · exact mv
    · exact guardCheck_moved (modAccess_moved _ mv)
  | extreqAsserted => exact moved _ rfl (idleStep_moved (modSeq_moved _ mv))
  | extreqReleased =>
    exact key _ rfl (.ite ((reclaimBus_moved (modSeq_moved _ mv)).tables hs) ((modSeq_moved _ mv).tables hs))
  | suspendTimerExpiry => exact key _ rfl (.ite ((abortTestNow_moved _ mv).tables hs) hs)
  | halfTick g => exact key _ rfl (.ite ((tickRequests_moved g _ (modSeq_moved _ mv)).tables hs) hs)
  | fullTick g => exact key _ rfl (.ite ((tickRequests_moved g _ (modSeq_moved _ mv)).tables hs) hs)
  | batterySample v => exact key _ rfl (.ite (takeSample_tables v hs) hs)
  | mainsOkDeasserted => exact key _ rfl (loseMains_tables hs)
  | mainsOkAsserted => exact key _ rfl (gainMains_tables hs)
  | mainsStableTimerExpiry => exact key _ rfl (mainsStable_tables hs)
  | controlFrameTaken b =>
    refine key _ rfl ?_
    split
    · exact hs
    · exact .ite (takeFrame_tables b _ _ hs) hs
  | noticeFrameBuild => exact key _ rfl (noticeFrameBuild_tables hs)
  | saveDone b => exact key _ rfl (endSave_tables b hs)
  | deviceResetTimerExpiry => exact key _ rfl (.ite (warmReset_tables _ s) hs)
  | craftLinkUp => exact key _ rfl (modSched_tables _ hs)
  | _ => cases hc

theorem exec_tables (c : Instr) (hs : TablesSafe s) (h : exec c s = .next t) : TablesSafe t := by
  by_cases hc : isCommand c = true
  · rw [exec_of_isCommand hc] at h
    cases h
    exact modMgmt_tables _ (runCommand_tables _ (runRow_tables c hs) hs)
  · exact exec_event_tables (by simpa using hc) hs h

theorem passMs_tables (hs : TablesSafe s) : TablesSafe (passMs s) := by
  unfold passMs
  split
  · exact hs
  · exact hs.congr rfl fun n => by simp [passTime, State.line, Line.passMs]
  · exact hs.congr rfl fun n => by simp [passTime, State.line, Line.passMs]

theorem step_tables (hs : TablesSafe s) (h : step s = .next t) : TablesSafe t := by
  unfold step at h
  split at h
  · rename_i rest _
    exact exec_tables _ (s := { s with pending := rest }) (hs.congr rfl fun _ => rfl) h
  · unfold idle at h
    split at h
    · exact exec_tables _ hs h
    · cases h
      exact passMs_tables hs

end

/-! ## Grants leave the table -/

section
variable (s : State)

/-- No grant takes a line into a state that loses its LEARNED entries (R91). -/
theorem grantState_keepsLearned (st : LineState) : losesLearned (grantState st) = false := by cases st <;> rfl

theorem grantState_ne (st : LineState) (h : asleepState st = true) : st ≠ grantState st := by cases st <;> simp_all [grantState, asleepState]

theorem grantOne_stations (e : WakeEntry) : (grantOne e s).stations = s.stations := by
  unfold grantOne
  dsimp only
  split
  · rename_i hasleep
    rw [recomputeIf_stations, enterCore_stations, grantState_keepsLearned]
    · rfl
    · exact grantState_ne _ hasleep
  · rfl

@[simp] theorem grants_stations (k : Nat) : (grants k s).stations = s.stations := by
  induction k generalizing s with
  | zero => rfl
  | succ k ih =>
    unfold grants
    split
    · rfl
    · split
      · rw [ih, grantOne_stations]
      · rfl

@[simp] theorem grantAll_stations : (grantAll s).stations = s.stations := grants_stations s _

/-- An entry with its recompute and grants changes the Station Table as the entry alone does (R7). -/
theorem enter_stations (n : LineNo) (new : LineState) (r : Reason) :
    (enter n new r s).stations = (enterCore n new r s).stations := by
  unfold enter
  dsimp only
  split <;> simp

end

end Sys2Proof.Machine

namespace Sys2Proof
open Machine

/-- Settles O56: the rules hold across each operation that a step is made of, and no grant that follows an entry touches
the table. -/
theorem tablesSafeKept : Obligations.TablesSafeKept := by
  refine ⟨fun s t hs h => step_tables hs h, fun n st r s hne hst i => ?_⟩
  have hloses : losesLearned st = true := by rcases hst with rfl | rfl | rfl <;> rfl
  rw [enter_stations, enterCore_stations _ _ _ _ hne, if_pos hloses]
  simp [removeLearned, dropStations]

end Sys2Proof
end

