-- ==== Sys2Proof/Proofs/StationCommands.lean ====
section
/-! PROOF. Commands as steps, and the commands of the Station Table, the reads and the clearing commands. -/

namespace Sys2Proof.Machine

/-! ## Numbers that a command carries -/

@[simp] theorem lineOf_val (n : LineNo) : lineOf n.val = some n := by simp [lineOf]
theorem lineOf_of_le {v : Nat} (h : 24 ≤ v) : lineOf v = none := by simp [lineOf, Nat.not_lt.mpr h]
@[simp] theorem programOf_val (p : Fin 8) : programOf p.val = some p := by simp [programOf]
theorem programOf_of_le {v : Nat} (h : 8 ≤ v) : programOf v = none := by simp [programOf, Nat.not_lt.mpr h]
@[simp] theorem clsOfCode_code (c : Cls) : Cls.ofCode c.code = some c := by cases c <;> rfl
theorem clsOfCode_of_le {v : Nat} (h : 2 ≤ v) : Cls.ofCode v = none := by
  match v, h with
  | v + 2, _ => rfl

theorem namesBeyond_of_lt {k : Nat} {m : BitVec 32} (h : m.toNat < 2 ^ k) : namesBeyond k m = false := by
  simp [namesBeyond, h]

theorem namesBeyond_of_le {k : Nat} {m : BitVec 32} (h : 2 ^ k ≤ m.toNat) : namesBeyond k m = true := by
  simp [namesBeyond, h]

/-! ## A command as a step -/

/-- A refusal is an answer without items (log entry 34). -/
theorem refuse_eq (st : Status) (s : State) : refuse st s = answer st [] s := rfl

/-- With no device reset pending a command row carries its command out (R193, log entry 10). -/
theorem exec_of_row {c : Instr} {s u : State} {st : Status} {items : List Item} (hs : s.takesCommands)
    (hc : isCommand c = true) (h : runRow c s = answer st items u) : exec c s = .next (u.answered st items) := by
  have hrun : runCommand (runRow c) s = answer st items u := by
    rw [runCommand, show s.mgmt.devReset = none from hs]
    exact h
  rw [exec_of_isCommand hc, carryOut, hrun]
  rfl

/-! ## Walking the table -/

/-- A table's items are its values at the indexes in rising order. -/
theorem tab_items_eq_map {n : Nat} {α : Type} (t : Tab n α) : t.items = (indexes n).map t.get := by
  have h : t = Tab.ofFn t.get := Tab.ext_get fun i => (Tab.get_ofFn _ i).symm
  calc t.items = (Tab.ofFn t.get).items := congrArg Tab.items h
    _ = (indexes n).map t.get := rfl

/-- The number of valid entries that a predicate picks. -/
theorem validEntries_length (s : State) (p : Entry → Bool) :
    (validEntries s fun _ e => p e).length = s.stations.entries.items.countP fun e => e.any p := by
  rw [tab_items_eq_map, List.countP_map, validEntries, List.length_filterMap_eq_countP]
  congr 1
  funext i
  cases h : s.stations.entries.get i <;> simp [h, Option.filter]
  split <;> simp_all

/-- Where one index alone yields an item, the walk yields that item alone. -/
theorem filterMap_singleton {α β : Type} {f : α → Option β} {l : List α} {a : α} {b : β} (hnd : l.Nodup) (ha : a ∈ l)
    (hb : f a = some b) (hother : ∀ x, x ≠ a → f x = none) : l.filterMap f = [b] := by
  obtain ⟨l₁, l₂, rfl⟩ := List.append_of_mem ha
  obtain ⟨-, h2, hdisj⟩ := List.nodup_append.mp hnd
  have h₁ : l₁.filterMap f = [] := List.filterMap_eq_nil_iff.mpr fun x hx => hother x (hdisj x hx a (by simp))
  have h₂ : l₂.filterMap f = [] := List.filterMap_eq_nil_iff.mpr fun x hx =>
    hother x fun h => (List.nodup_cons.mp h2).1 (h ▸ hx)
  simp [h₁, h₂, hb]

/-- The one entry that holds an address (R1). -/
theorem validEntries_addr {s : State} (hs : TablesSafe s) {i : Fin 96} {e : Entry}
    (he : s.stations.entries.get i = some e) : (validEntries s fun _ x => x.addr == e.addr) = [(i, e)] := by
  refine filterMap_singleton (List.nodup_finRange 96) (mem_indexes i) (by simp [he, Option.filter]) fun j hj => ?_
  cases h : s.stations.entries.get j with
  | none => simp
  | some x => simpa [Option.filter] using addr_free_of_get hs he j x hj h

theorem validEntries_none {s : State} {a : Addr} (h : ∀ j x, s.stations.entries.get j = some x → x.addr ≠ a) :
    (validEntries s fun _ x => x.addr == a) = [] := by
  refine List.filterMap_eq_nil_iff.mpr fun j _ => ?_
  cases hj : s.stations.entries.get j with
  | none => simp
  | some x => simpa [Option.filter] using h j x hj

/-! ## READ TEST RECORD -/

theorem readTestRecord_bySequence {k : Nat} (s : State) (h : k ≠ 0) :
    cmdReadTestRecord (.bySequence k) s =
      (s.seq.log.find? fun x => x.seq == k).elim (answer .notFound (logItems s) s) fun r =>
        answer .ok (⟨1, r.bytes⟩ :: logItems s) s := by
  simp only [cmdReadTestRecord, h, if_false]
  cases s.seq.log.find? fun x => x.seq == k <;> rfl

theorem readTestRecord_byLine (n : LineNo) (s : State) :
    cmdReadTestRecord (.byLine n.val) s =
      (s.seq.log.reverse.find? fun x => x.line == n).elim (answer .notFound (logItems s) s) fun r =>
        answer .ok (⟨1, r.bytes⟩ :: logItems s) s := by
  simp only [cmdReadTestRecord, lineOf_val]
  cases s.seq.log.reverse.find? fun x => x.line == n <;> rfl

/-! ## WRITE STATION -/

theorem entryFor_some {s : State} {a : Addr} {i : Fin 96} {e : Entry} (hi : lookupStation s a = some i)
    (he : s.stations.entries.get i = some e) : entryFor s a = some e := by simp [entryFor, hi, he]

section
variable {s : State} {o : Origin} {a : Addr} {n : LineNo} {c : Cls}

/-- WRITE STATION for a station address on a line and in a class that exist (R9). -/
theorem cmdWriteStation_of_exists (ha : a.isGroup = false) : cmdWriteStation o a n.val c.code s =
    if lockForbids s o && stationChanges s a n c then refuse .locked s else placeStation a n c s := by
  simp [cmdWriteStation, ha]

/-- A rewrite of a STATIC entry as it stands changes nothing (R9). -/
theorem setStation_same {i : Fin 96} {e : Entry} (he : s.stations.entries.get i = some e) :
    setStation i (some e) s = s := by
  have h : s.stations.entries.set i (some e) = s.stations.entries := by rw [← he, Tab.set_get]
  simp [setStation, State.modStations, h]

end

end Sys2Proof.Machine

namespace Sys2Proof
open Machine

/-- Settles O3: the cold state written out, block by block. -/
theorem coldReset : Obligations.ColdReset := by
  refine fun s => ⟨coldState s, rfl, rfl, rfl, rfl, fun n => ?_, fun i => ?_⟩
  · have hline : (coldState s).line n = Line.reset n := Tab.get_ofFn _ n
    rw [hline]
    exact ⟨rfl, rfl, rfl, rfl, rfl, rfl⟩
  · exact Tab.get_fill none i

/-- Settles O26, each clause on its own timer. -/
theorem sweepRefillAndPauseEnd : Obligations.SweepRefillAndPauseEnd := by
  refine fun k s => ⟨fun hsweep => ?_, fun hrefill => ?_, rfl, rfl⟩
  · refine ⟨s.modStations fun t =>
      { t with entries := if t.agingTime = 0 then t.entries else sweepEntries t.agingTime t.entries
               sweep := some Config.sweepMs }, ?_, rfl, fun i => ?_⟩
    · simp [exec, execAgingSweep, hsweep]
    · by_cases hz : s.stations.agingTime = 0
      · cases he : s.stations.entries.get i with
        | none => simp [hz, he]
        | some e => cases ho : e.origin <;> simp [hz, he, ho]
      · cases he : s.stations.entries.get i with
        | none => simp [hz, he, sweepEntries]
        | some e =>
          cases ho : e.origin with
          | static => simp [hz, he, ho, sweepEntries, Entry.aged, Entry.old]
          | learned a =>
            by_cases hle : s.stations.agingTime ≤ min 255 (a + 1) <;>
              simp [hz, he, ho, hle, sweepEntries, Entry.aged, Entry.old, bumpTo, -le_inf_iff]
  · refine ⟨{ s with lines := s.lines.map Line.refilled, sched := { s.sched with refill := some Config.refillMs } },
      by simp [exec, execRefill, hrefill], rfl, fun n => ?_⟩
    simp [State.line, Line.refilled, depthOf, Config.leastDepth]

/-- Settles O44: each read's row answers its items on the state it read. -/
theorem readsChangeNothing : Obligations.ReadsChangeNothing := by
  intro o n a i e es p r k ident s hs
  refine ⟨?byAddress, ?noAddress, ?byLine, ?noLine, ?fromIndex, ?noIndex, ?readLine, ?readNoLine, ?uplink, ?program,
    ?noProgram, ?queue, ?record, ?noRecord, ?zero, ?newest, ?noNewest, ?recordNoLine, ?power, ?status, ?unknown⟩
  case byAddress =>
    exact fun htab he => exec_of_row hs rfl (by simp [runRow, cmdReadStation, validEntries_addr htab he, listEntries])
  case noAddress => exact fun h => exec_of_row hs rfl (by simp [runRow, cmdReadStation, validEntries_none h])
  case byLine =>
    rintro rfl
    exact exec_of_row hs rfl (by simp [runRow, cmdReadStation])
  case noLine => exact fun h => exec_of_row hs rfl (by simp [runRow, cmdReadStation, lineOf_of_le h, refuse_eq])
  case fromIndex =>
    rintro h rfl
    exact exec_of_row hs rfl (by simp [runRow, cmdReadStation, Nat.not_le.mpr h])
  case noIndex => exact fun h => exec_of_row hs rfl (by simp [runRow, cmdReadStation, h, refuse_eq])
  case readLine => exact exec_of_row hs rfl (by simp [runRow, cmdReadLine])
  case readNoLine => exact fun h => exec_of_row hs rfl (by simp [runRow, cmdReadLine, lineOf_of_le h, refuse_eq])
  case uplink => exact exec_of_row hs rfl rfl
  case program => exact exec_of_row hs rfl (by simp [runRow, cmdReadProgram])
  case noProgram => exact fun h => exec_of_row hs rfl (by simp [runRow, cmdReadProgram, programOf_of_le h, refuse_eq])
  case queue => exact exec_of_row hs rfl rfl
  case record =>
    exact fun hk h => exec_of_row hs rfl (by simp only [runRow, readTestRecord_bySequence s hk, h, Option.elim])
  case noRecord =>
    intro hk h
    have hnone : (s.seq.log.find? fun x => x.seq == k) = none := by simpa using h
    exact exec_of_row hs rfl (by simp only [runRow, readTestRecord_bySequence s hk, hnone, Option.elim])
  case zero => exact exec_of_row hs rfl rfl
  case newest => exact fun h => exec_of_row hs rfl (by simp only [runRow, readTestRecord_byLine, h, Option.elim])
  case noNewest =>
    intro h
    have hnone : (s.seq.log.reverse.find? fun x => x.line == n) = none := by simpa using h
    exact exec_of_row hs rfl (by simp only [runRow, readTestRecord_byLine, hnone, Option.elim])
  case recordNoLine => exact fun h => exec_of_row hs rfl (by simp [runRow, cmdReadTestRecord, lineOf_of_le h, refuse_eq])
  case power => exact exec_of_row hs rfl rfl
  case status => exact exec_of_row hs rfl rfl
  case unknown => exact exec_of_row hs rfl rfl

/-- Settles O45, by the order of R9's checks. -/
theorem stationCommands : Obligations.StationCommands := by
  intro o a b n c i e v s hs ha
  refine ⟨fun hb => ⟨?_, ?_⟩, fun hv => ?_, fun hv => ?_, fun hl hnone => ?_, fun hl hnone hroom => ⟨fun hi => ?_, fun hi => ?_⟩,
    fun hl hnone hfull => ?_, fun hi he => ⟨fun hl hroom => ?_, fun hl hne hfull => ?_, fun hline hcls hlrn => ?_,
      fun hl hch => ?_, fun hl => ?_, fun hl hlrn => ?_⟩, fun hnone => ?_, ?_⟩
  · exact exec_of_row hs rfl (by simp [runRow, cmdWriteStation, hb, refuse_eq])
  · exact exec_of_row hs rfl (by simp [runRow, cmdRemoveStation, hb, refuse_eq])
  · exact exec_of_row hs rfl (by simp [runRow, cmdWriteStation, lineOf_of_le hv, refuse_eq])
  · exact exec_of_row hs rfl (by simp [runRow, cmdWriteStation, clsOfCode_of_le hv, refuse_eq])
  · exact exec_of_row hs rfl (by
      simp [runRow, cmdWriteStation_of_exists ha, hl, stationChanges, entryFor, hnone, refuse_eq])
  · exact exec_of_row hs rfl (by
      simp [runRow, cmdWriteStation_of_exists ha, hl, placeStation, hnone, atLimit, Nat.not_le.mpr hroom, hi,
        setStation])
  · exact exec_of_row hs rfl (by
      simp [runRow, cmdWriteStation_of_exists ha, hl, placeStation, hnone, atLimit, Nat.not_le.mpr hroom, hi, refuse_eq])
  · exact exec_of_row hs rfl (by
      simp [runRow, cmdWriteStation_of_exists ha, hl, placeStation, hnone, atLimit, hfull, refuse_eq])
  · have hok : ((s.stations.entries.get i).all (fun old => old.line != n) && atLimit s n (some i)) = false := by
      simpa [he, atLimit, Bool.eq_false_iff, imp_iff_not_or] using hroom
    exact exec_of_row hs rfl (by
      simp [runRow, cmdWriteStation_of_exists ha, hl, placeStation, hi, hok, setStation])
  · exact exec_of_row hs rfl (by
      simp [runRow, cmdWriteStation_of_exists ha, hl, placeStation, hi, he, hne, atLimit, hfull, refuse_eq])
  · obtain ⟨e', he', hea⟩ := lookupStation_some hi
    obtain rfl : e' = e := Option.some.inj (he'.symm.trans he)
    have hsame : ({ addr := a, line := n, cls := c, origin := .static } : Entry) = e' := by
      cases e' with | mk addr line cls origin => cases origin <;> simp_all [Entry.isLearned]
    exact exec_of_row hs rfl (by
      simp [runRow, cmdWriteStation_of_exists ha, stationChanges, entryFor_some hi he, placeStation, hi, he, hline,
        hcls, hlrn, hsame, setStation_same he])
  · have hchange : stationChanges s a n c = true := by
      simpa [stationChanges, entryFor_some hi he, or_assoc] using hch
    exact exec_of_row hs rfl (by simp [runRow, cmdWriteStation_of_exists ha, hl, hchange, refuse_eq])
  · have hfree : (lockForbids s o && !e.isLearned) = false := by rcases hl with h | h <;> simp [h]
    exact exec_of_row hs rfl (by simp [runRow, cmdRemoveStation, ha, hi, he, hfree, setStation])
  · exact exec_of_row hs rfl (by simp [runRow, cmdRemoveStation, ha, hi, he, hl, hlrn, refuse_eq])
  · exact exec_of_row hs rfl (by simp [runRow, cmdRemoveStation, ha, hnone, refuse_eq])
  · exact exec_of_row hs rfl (by simp [runRow, cmdWriteStationTableForm, clamp, clampStatus, outside])

/-- Settles O46: what each scope, set or mask names is cleared, and what it does not name stands. -/
theorem clearingCommands : Obligations.ClearingCommands := by
  intro o n v m s hs
  refine ⟨?_, ?_, fun hv _ => ?_, fun hm => ?_, fun hm => ?_, fun hm => ?_, fun hm => ?_⟩
  · exact exec_of_row hs rfl (by simp [runRow, cmdFlushLearned, validEntries_length, dropStations])
  · exact exec_of_row hs rfl (by simp [runRow, cmdFlushLearned, validEntries_length, dropStations])
  · exact exec_of_row hs rfl (by simp [runRow, cmdFlushLearned, lineOf_of_le hv, refuse_eq])
  · refine ⟨_, exec_of_row hs rfl (by simp only [runRow, cmdClearSense, namesBeyond_of_lt hm]; rfl), fun k => ?_, rfl⟩
    exact Tab.get_ofFn _ k
  · exact exec_of_row hs rfl (by simp [runRow, cmdClearSense, namesBeyond_of_le hm, refuse_eq])
  · refine ⟨_, exec_of_row hs rfl (by simp only [runRow, cmdClearEvents, namesBeyond_of_lt hm]; rfl), fun k => ?_, rfl⟩
    exact Tab.get_ofFn _ k
  · exact exec_of_row hs rfl (by simp [runRow, cmdClearEvents, namesBeyond_of_le hm, refuse_eq])

end Sys2Proof
end

