-- ==== Sys2Proof/Proofs/Learning.lean ====
section
/-! PROOF. A home's frame from its reception to its queue: the source check with what it does to the Station Table (R4 to
R6), and the admission of R35. -/

namespace Sys2Proof.Machine

/-! ## Global counters across an event -/

/-- An event counts at most a dropped notice among the global counters (R196, R201). -/
theorem raise_dev (u : Option LineNo) (d : Detail) (s : State) {k : DevCount} (hk : k ≠ .noticesDropped) :
    (raise u d s).counts.dev.get k.idx = s.counts.dev.get k.idx := by
  have hidx : k.idx ≠ DevCount.noticesDropped.idx := by cases k <;> simp_all [DevCount.idx]
  unfold raise
  dsimp only
  split
  · unfold offerNotice
    split
    · rfl
    · split
      · rfl
      · exact Tab.get_modify_other _ _ hidx
  · rfl

theorem setFree_dev (j : Nat) (s : State) {k : DevCount} (hk : k ≠ .noticesDropped) :
    (setFree j s).counts.dev.get k.idx = s.counts.dev.get k.idx := by
  unfold setFree
  dsimp only
  split
  · split
    · rw [raise_dev _ _ _ hk]; rfl
    · rfl
  · split <;> rfl

@[simp] theorem countFor_dev (n : LineNo) (f : CounterSet → CounterSet) (s : State) :
    (countFor n f s).counts.dev = s.counts.dev := by
  unfold countFor
  dsimp only
  split <;> rfl

@[simp] theorem countDrop_dev (n : LineNo) (c : LineCause) (s : State) : (countDrop n c s).counts.dev = s.counts.dev :=
  countFor_dev n _ s

@[simp] theorem countDev_dev (k : DevCount) (s : State) :
    (countDev k s).counts.dev.get k.idx = bump (s.counts.dev.get k.idx) := by simp [countDev]

/-! ## Admission -/

section
variable (n : LineNo) (k : QueueKind) (c d : LineCause) (r : FrameRec) (s : State)

theorem queueFrame_poolFull (h : poolCheck s r.cells = false) : queueFrame n k c d r s = countDrop n c s := by
  simp [queueFrame, h]

theorem queueFrame_queueFull (h : poolCheck s r.cells = true) (hq : queueRoom s n k r.cells = false) :
    queueFrame n k c d r s = countDrop n d s := by
  simp [queueFrame, h, hq]

theorem queueFrame_admitted (h : poolCheck s r.cells = true) (hq : queueRoom s n k r.cells = true) :
    queueFrame n k c d r s = pushQueue n k s.pool.nextId (makeRecord r s) := by
  simp [queueFrame, h, hq]

/-- A line that a frame joins holds it last in the queue, and its idle timer stops (R37, R45). -/
theorem pushQueue_line_self (id : Nat) : (pushQueue n k id s).line n =
    { (s.line n).setQueue k ((s.line n).queue k ++ [id]) with idle := none } := by
  rw [pushQueue, refreshIdle_line, State.modLine_line_self]
  have hholds : ((s.line n).setQueue k ((s.line n).queue k ++ [id])).idleHolds = false := by
    cases k <;> simp [Line.idleHolds, Line.setQueue, Line.queue]
  simp [hholds]

theorem pushQueue_line_other (id : Nat) {m : LineNo} (h : m ≠ n) : (pushQueue n k id s).line m = s.line m := by
  rw [pushQueue, refreshIdle_line_other _ _ h, State.modLine_line_other _ _ h]

@[simp] theorem makeRecord_line (m : LineNo) : (makeRecord r s).line m = s.line m :=
  State.line_of_lines (makeRecord_lines s r) m

@[simp] theorem pushQueue_stations (id : Nat) : (pushQueue n k id s).stations = s.stations := rfl

/-- What an admission leaves, whichever of R35's outcomes it has: all but its own line, the pool and the counters. -/
theorem queueFrame_kept : plantKept s (queueFrame n k c d r s) ∧ (queueFrame n k c d r s).stations = s.stations
    ∧ ∀ m, m ≠ n → (queueFrame n k c d r s).line m = s.line m := by
  have hdrop : ∀ x, plantKept s (countDrop n x s) ∧ (countDrop n x s).stations = s.stations
      ∧ ∀ m, m ≠ n → (countDrop n x s).line m = s.line m := fun x =>
    ⟨⟨⟨by simp, by simp⟩, by simp⟩, by simp, fun m _ => State.line_of_lines (by simp) m⟩
  unfold queueFrame
  split
  · exact hdrop c
  · split
    · exact hdrop d
    · refine ⟨⟨⟨?_, ?_⟩, ?_⟩, by simp, fun m hm => by rw [pushQueue_line_other _ _ _ _ hm, makeRecord_line]⟩ <;>
        simp [pushQueue]

/-- An admission counts no global occurrence but a dropped notice. -/
theorem queueFrame_dev {x : DevCount} (hx : x ≠ .noticesDropped) :
    (queueFrame n k c d r s).counts.dev.get x.idx = s.counts.dev.get x.idx := by
  unfold queueFrame
  split
  · simp
  · split
    · simp
    · simp [pushQueue, makeRecord, setFree_dev _ _ hx]

end

/-! ## The source check -/

section
variable {n : LineNo} {a : Addr} {s : State}

/-- The entries of the Station Table written. -/
def State.withEntries (s : State) (es : Tab 96 (Option Entry)) : State := s.modStations fun t => { t with entries := es }

/-- What a source check can come to: a drop counted on the line, or a class with entries written, counted as a move or
not (R4 to R6). -/
theorem sourceCheck_cases (n : LineNo) (a : Addr) (s : State) :
    (∃ d, sourceCheck n a s = (none, countDrop n d s))
      ∨ (∃ c es, sourceCheck n a s = (some c, s.withEntries es))
      ∨ ∃ c es, sourceCheck n a s = (some c, countDev .move (s.withEntries es)) := by
  have hlearn : (∃ d, learnEntry n a s = (none, countDrop n d s))
      ∨ ∃ c es, learnEntry n a s = (some c, s.withEntries es) := by
    unfold learnEntry
    dsimp only
    split
    · split
      · exact .inr ⟨_, _, rfl⟩
      · exact .inl ⟨_, rfl⟩
    · exact .inl ⟨_, rfl⟩
  unfold sourceCheck
  split
  · exact .inl ⟨_, rfl⟩
  · split
    · exact hlearn.imp_right .inl
    · split
      · exact hlearn.imp_right .inl
      · split
        · refine .inr (.inl ?_)
          split
          · exact ⟨_, _, rfl⟩
          · exact ⟨_, s.stations.entries, rfl⟩
        · split
          · exact .inr (.inr ⟨_, _, rfl⟩)
          · exact .inl ⟨_, rfl⟩

/-- What the source check leaves: all but the entries of the table and the counters. -/
theorem sourceCheck_kept (n : LineNo) (a : Addr) (s : State) : plantKept s (sourceCheck n a s).2
    ∧ besideKept s (sourceCheck n a s).2 ∧ (sourceCheck n a s).2.lines = s.lines
    ∧ (sourceCheck n a s).2.pool = s.pool
    ∧ (sourceCheck n a s).2.stations = { s.stations with entries := (sourceCheck n a s).2.stations.entries } := by
  obtain ⟨d, h⟩ | ⟨c, es, h⟩ | ⟨c, es, h⟩ := sourceCheck_cases n a s <;> rw [h]
  · exact ⟨⟨⟨by simp, by simp⟩, by simp⟩, (countDrop_moved n d (.refl s)).beside, by simp, by simp, by simp⟩
  · exact ⟨⟨⟨rfl, rfl⟩, rfl⟩, .refl s, rfl, rfl, rfl⟩
  · exact ⟨⟨⟨rfl, rfl⟩, rfl⟩, .refl s, rfl, rfl, rfl⟩

theorem sourceCheck_group (h : a.isGroup = true) : sourceCheck n a s = (none, countDrop n .spoof s) := by
  simp [sourceCheck, h, spoofed]

/-- An unknown source is learned or refused (R6). -/
theorem sourceCheck_unknown (h : a.isGroup = false) (hu : lookupStation s a = none) :
    sourceCheck n a s = learnEntry n a s := by
  simp [sourceCheck, h, hu]

theorem learnEntry_learned {i : Fin 96} (hi : lowestInvalid s = some i) (hp : (s.line n).cfg.learning = true)
    (hl : stationCount s n none < (s.line n).cfg.stationLimit) : learnEntry n a s = (some (s.line n).cfg.defaultClass,
      setStation i (some { addr := a, line := n, cls := (s.line n).cfg.defaultClass, origin := .learned 0 }) s) := by
  simp [learnEntry, hi, hp, hl]

theorem learnEntry_refused (h : lowestInvalid s = none ∨ (s.line n).cfg.learning = false
    ∨ (s.line n).cfg.stationLimit ≤ stationCount s n none) : learnEntry n a s = (none, countDrop n .learnRefused s) := by
  unfold learnEntry
  dsimp only
  split
  case h_1 i hi =>
    rw [if_neg]
    simpa [hi, imp_iff_not_or] using h
  case h_2 => rfl

/-- A source with an entry of its own line keeps its class, and a LEARNED entry is refreshed (R4). -/
theorem sourceCheck_own {i : Fin 96} {e : Entry} (h : a.isGroup = false) (hi : lookupStation s a = some i)
    (he : s.stations.entries.get i = some e) (hl : e.line = n) : sourceCheck n a s =
      (some e.cls, if e.isLearned then setStation i (some { e with origin := .learned 0 }) s else s) := by
  simp [sourceCheck, h, hi, he, hl]

theorem sourceCheck_moved {i : Fin 96} {e : Entry} (h : a.isGroup = false) (hi : lookupStation s a = some i)
    (he : s.stations.entries.get i = some e) (hl : e.line ≠ n) (hlrn : e.isLearned = true)
    (hp : (s.line n).cfg.learning = true) (hc : stationCount s n (some i) < (s.line n).cfg.stationLimit) :
    sourceCheck n a s = moveEntry n i e s := by
  simp [sourceCheck, h, hi, he, hl, hlrn, hp, hc]

theorem sourceCheck_spoofed {i : Fin 96} {e : Entry} (h : a.isGroup = false) (hi : lookupStation s a = some i)
    (he : s.stations.entries.get i = some e) (hl : e.line ≠ n) (hno : e.isLearned = false
      ∨ (s.line n).cfg.learning = false ∨ (s.line n).cfg.stationLimit ≤ stationCount s n (some i)) :
    sourceCheck n a s = (none, countDrop n .spoof s) := by
  have hcond : (e.isLearned && (s.line n).cfg.learning
      && decide (stationCount s n (some i) < (s.line n).cfg.stationLimit)) = false := by
    rcases hno with h | h | h <;> simp [h]
  simp [sourceCheck, h, hi, he, hl, hcond, spoofed]

/-! ## A home's frame -/

variable {f : List Byte}

/-- A frame that passes the reception of a line is dealt with in the order of R31. -/
theorem exec_lineFrame (h : passesReception Config.greatestLineFrame f s) :
    exec (.lineLinkFrameReceived n f) s = .next (upstream n f s) := by
  obtain ⟨hdrop, hrun⟩ := h
  simp [exec, execLineLinkFrameReceived, receive, hdrop, hrun]

/-- A frame that reaches the source check is dropped by it, or queued in the class it gives (R31, R32). -/
theorem exec_checkedFrame (h : reachesSourceCheck n f s) : exec (.lineLinkFrameReceived n f) s =
    .next ((sourceCheck n (frameSrc f) s).1.elim (sourceCheck n (frameSrc f) s).2 fun c =>
      queueUpstream n f c (sourceCheck n (frameSrc f) s).2) := by
  obtain ⟨hrec, htag, hctl, hup⟩ := h
  rw [exec_lineFrame hrec, upstream]
  simp only [htag, hctl, hup, Bool.false_eq_true, if_false]
  split <;> rename_i hc <;> rw [hc] <;> rfl

theorem exec_droppedFrame {u : State} (h : reachesSourceCheck n f s) (hc : sourceCheck n (frameSrc f) s = (none, u)) :
    exec (.lineLinkFrameReceived n f) s = .next u := by
  rw [exec_checkedFrame h, hc]
  rfl

theorem exec_passedFrame {c : Cls} {u : State} (h : reachesSourceCheck n f s)
    (hc : sourceCheck n (frameSrc f) s = (some c, u)) :
    exec (.lineLinkFrameReceived n f) s = .next (queueUpstream n f c u) := by
  rw [exec_checkedFrame h, hc]
  rfl

/-- A frame that passes reception is long enough to be tagged (R22). -/
theorem passesReception_length {k : Nat} (h : passesReception k f s) : Config.leastFrame ≤ f.length := by
  obtain ⟨hdrop, -⟩ := h
  unfold receptionDrop at hdrop
  split at hdrop
  · cases hdrop
  · split at hdrop
    · cases hdrop
    · omega

theorem beBytes_length (k v : Nat) : (beBytes k v).length = k := by
  induction k with
  | zero => rfl
  | succ k ih => simp [beBytes, ih]

/-- A tag adds four bytes (R32). -/
theorem insertTag_length (v : Nat) (h : 4 ≤ f.length) : (insertTag v f).length = f.length + 4 := by
  simp [insertTag, withCheck, leBytes, frameBody, beBytes_length]
  omega

theorem upstreamRecord_cells (h : reachesSourceCheck n f s) (v : Nat) (c : Option Cls) (o : RecOrigin) (k : Nat) :
    FrameRec.cells { bytes := insertTag v f, cls := c, origin := o, refs := k } = cellsFor (f.length + 4) := by
  have hlen : 4 ≤ f.length := le_trans (by decide) (passesReception_length h.1)
  rw [FrameRec.cells, FrameRec.length, insertTag_length v hlen]

/-- The checks of R35 read the lines and the pool. -/
theorem queueRoom_congr {t : State} (hl : t.lines = s.lines) (hp : t.pool = s.pool) (k : QueueKind) (j : Nat) :
    queueRoom t n k j = queueRoom s n k j := by
  have hcells : t.cellsOf = s.cellsOf := by
    funext id
    simp [State.cellsOf, State.record, hp]
  rw [queueRoom, queueCheck, occupancy, hcells, State.line_of_lines hl]
  rfl

theorem poolCheck_congr {t : State} (hp : t.pool = s.pool) (j : Nat) : poolCheck t j = poolCheck s j := by
  simp [poolCheck, hp]

/-- A line after a frame of a class has joined its queue. -/
theorem setQueue_queues (l : Line) (c : Cls) (id : Nat) :
    (l.setQueue (.ofCls c) (l.queue (.ofCls c) ++ [id])).prioQ = (if c = .prio then l.prioQ ++ [id] else l.prioQ)
      ∧ (l.setQueue (.ofCls c) (l.queue (.ofCls c) ++ [id])).bulkQ
        = (if c = .bulk then l.bulkQ ++ [id] else l.bulkQ) := by
  cases c <;> exact ⟨rfl, rfl⟩

/-- The admission of a tagged frame that passes both checks (R32, R33, R35). -/
theorem queueUpstream_admitted {c : Cls} {u : State} (h : reachesSourceCheck n f s) (hl : u.lines = s.lines)
    (hp : u.pool = s.pool) (hpool : poolCheck s (cellsFor (f.length + 4)) = true)
    (hroom : queueRoom s n (.ofCls c) (cellsFor (f.length + 4)) = true) :
    let t := queueUpstream n f c u
    (t.line n).prioQ = (if c = .prio then (s.line n).prioQ ++ [s.pool.nextId] else (s.line n).prioQ)
      ∧ (t.line n).bulkQ = (if c = .bulk then (s.line n).bulkQ ++ [s.pool.nextId] else (s.line n).bulkQ)
      ∧ (t.line n).idle = none ∧ (∀ m, m ≠ n → t.line m = s.line m) ∧ t.stations = u.stations
      ∧ t.pool.recs = s.pool.recs ++ [(s.pool.nextId,
          { bytes := insertTag (s.line n).cfg.vlan f, cls := some c, origin := .line n, refs := 1 })]
      ∧ t.pool.free = s.pool.free - cellsFor (f.length + 4) := by
  have hline : ∀ m, u.line m = s.line m := State.line_of_lines hl
  dsimp only
  unfold queueUpstream
  rw [queueFrame_admitted]
  · refine ⟨?_, ?_, ?_, fun m hm => ?_, by simp, ?_, ?_⟩
    · rw [pushQueue_line_self, makeRecord_line, hline, hp]
      exact (setQueue_queues _ c _).1
    · rw [pushQueue_line_self, makeRecord_line, hline, hp]
      exact (setQueue_queues _ c _).2
    · rw [pushQueue_line_self]
    · rw [pushQueue_line_other _ _ _ _ hm, makeRecord_line, hline]
    · simp [pushQueue, makeRecord_pool, hline, hp]
    · simp [pushQueue, makeRecord_pool, hp, upstreamRecord_cells h]
  · rw [upstreamRecord_cells h, poolCheck_congr hp, hpool]
  · rw [upstreamRecord_cells h, queueRoom_congr hl hp, hroom]

end

end Sys2Proof.Machine

namespace Sys2Proof
open Machine

/-- What follows a source check leaves, whether the frame is dropped or queued. -/
theorem checkedFrame_kept (n : LineNo) (f : List Byte) (s : State) :
    let r := sourceCheck n (frameSrc f) s
    let t := r.1.elim r.2 fun c => queueUpstream n f c r.2
    plantKept s t ∧ besideKept s t ∧ (∀ m, m ≠ n → t.line m = s.line m) ∧ t.stations = r.2.stations := by
  dsimp only
  obtain ⟨⟨⟨hacc, hseq⟩, hpow⟩, hbeside, hlines, -, -⟩ := sourceCheck_kept n (frameSrc f) s
  generalize sourceCheck n (frameSrc f) s = r at *
  obtain ⟨_ | c, u⟩ := r
  · exact ⟨⟨⟨hacc, hseq⟩, hpow⟩, hbeside, fun m _ => State.line_of_lines hlines m, rfl⟩
  · obtain ⟨⟨⟨kacc, kseq⟩, kpow⟩, kst, kline⟩ := queueFrame_kept n (.ofCls c) .upPoolFull .upQueueFull
      { bytes := insertTag (u.line n).cfg.vlan f, cls := some c, origin := .line n, refs := 1 } u
    exact ⟨⟨⟨kacc.trans hacc, kseq.trans hseq⟩, kpow.trans hpow⟩,
      hbeside.trans (queueFrame_moved n _ _ _ _ (.refl u)).beside,
      fun m hm => (kline m hm).trans (State.line_of_lines hlines m), kst⟩

/-- Settles O17, by the outcomes of the source check. -/
theorem sourceCheckTable : Obligations.SourceCheckTable := by
  intro n f s h
  refine ⟨fun hg => exec_droppedFrame h (sourceCheck_group hg), fun hg hu hno => ?_, fun i e hg hi he hne => ⟨fun hno => ?_,
    fun hlrn hp hc => ?_⟩, ?_⟩
  · exact exec_droppedFrame h ((sourceCheck_unknown hg hu).trans (learnEntry_refused hno))
  · exact exec_droppedFrame h (sourceCheck_spoofed hg hi he hne hno)
  · refine ⟨_, exec_passedFrame h (sourceCheck_moved hg hi he hne hlrn hp hc), ?_⟩
    have hkept := fun r u => queueFrame_dev n (.ofCls (s.line n).cfg.defaultClass) .upPoolFull .upQueueFull r u
      (x := .move) (by decide)
    exact (hkept _ _).trans (countDev_dev .move _)
  · refine ⟨_, exec_checkedFrame h, ?_⟩
    obtain ⟨hplant, hbeside, hlines, hst⟩ := checkedFrame_kept n f s
    obtain ⟨-, -, -, -, hentries⟩ := sourceCheck_kept n (frameSrc f) s
    rw [hst]
    refine ⟨hplant, hbeside, hlines, hentries, fun hg => by rw [sourceCheck_group hg]; simp, fun hg hu => ?_,
      fun i e hg hi he => ?_⟩
    · rw [sourceCheck_unknown hg hu]
      refine ⟨fun hfull => by rw [learnEntry_refused (.inl hfull)]; simp, fun i hi => ?_⟩
      split
      case isTrue hok =>
        rw [learnEntry_learned hi hok.1 hok.2]
        rfl
      case isFalse hno =>
        rw [learnEntry_refused (.inr (by simpa [imp_iff_not_or] using hno))]
        simp
    · by_cases hl : e.line = n
      · rw [sourceCheck_own hg hi he hl]
        exact ⟨fun _ hlrn => by simp [hlrn, setStation], fun hlrn => by simp [hlrn], fun hne => absurd hl hne⟩
      · refine ⟨fun hown => absurd hown hl, fun hlrn => by rw [sourceCheck_spoofed hg hi he hl (.inl hlrn)]; simp,
          fun _ hlrn => ?_⟩
        split
        case isTrue hok =>
          rw [sourceCheck_moved hg hi he hl hlrn hok.1 hok.2]
          simp [moveEntry, setStation]
        case isFalse hno =>
          rw [sourceCheck_spoofed hg hi he hl (.inr (by simpa [imp_iff_not_or] using hno))]
          simp

/-- The class that a source check gives: the entry's own, or the line's default class for a source learned or moved. -/
theorem sourceCheck_class {n : LineNo} {a : Addr} {c : Cls} {s u : State} (h : sourceCheck n a s = (some c, u)) :
    c = if (entryFor s a).any (fun x => x.line == n) then ((entryFor s a).map Entry.cls).getD .prio
      else (s.line n).cfg.defaultClass := by
  have hlearn : ∀ c u, learnEntry n a s = (some c, u) → c = (s.line n).cfg.defaultClass := by
    intro c u hl
    unfold learnEntry at hl
    dsimp only at hl
    split at hl
    · split at hl
      · exact (Option.some.inj (Prod.mk.inj hl).1).symm
      · cases hl
    · cases hl
  by_cases hg : a.isGroup = true
  · rw [sourceCheck_group hg] at h
    cases h
  · rw [Bool.not_eq_true] at hg
    cases hi : lookupStation s a with
    | none =>
      rw [sourceCheck_unknown hg hi] at h
      simp [entryFor, hi, hlearn c u h]
    | some i =>
      obtain ⟨e, he, -⟩ := lookupStation_some hi
      rw [entryFor_some hi he]
      by_cases hl : e.line = n
      · rw [sourceCheck_own hg hi he hl] at h
        simp [hl, (Option.some.inj (Prod.mk.inj h).1).symm]
      · by_cases hok : e.isLearned = true ∧ (s.line n).cfg.learning = true
            ∧ stationCount s n (some i) < (s.line n).cfg.stationLimit
        · rw [sourceCheck_moved hg hi he hl hok.1 hok.2.1 hok.2.2] at h
          simp [hl, (Option.some.inj (Prod.mk.inj h).1).symm]
        · rw [sourceCheck_spoofed hg hi he hl (by simpa [imp_iff_not_or] using hok)] at h
          cases h

/-- Settles O18: the drops before the source check, and the admission of what it passes on. -/
theorem upstreamFrameQueued : Obligations.UpstreamFrameQueued := by
  intro n f i e c u s
  refine ⟨fun hrec => ⟨fun ht => ?_, fun ht hctl => ?_, fun ht hctl => ⟨fun hst => ?_, fun hup hdr => ?_⟩⟩,
    fun h hc => ?_, fun h hg hi he hl => ⟨?_, fun hpool hroom => ?_⟩⟩
  · rw [exec_lineFrame hrec, upstream, if_pos ht]
  · simp [exec_lineFrame hrec, upstream, ht, hctl]
  · simp [exec_lineFrame hrec, upstream, ht, hctl, hst]
  · rw [exec_lineFrame hrec, upstream]
    cases hst : (s.line n).st <;> simp_all
  · obtain ⟨-, -, hlines, hpool, -⟩ := sourceCheck_kept n (frameSrc f) s
    rw [hc] at hlines hpool
    refine ⟨sourceCheck_class hc, hlines, hpool, fun hfull => ?_, fun hok hfull => ?_, fun hok hroom => ?_⟩
    · rw [exec_passedFrame h hc, queueUpstream, queueFrame_poolFull]
      rw [upstreamRecord_cells h, poolCheck_congr hpool, hfull]
    · rw [exec_passedFrame h hc, queueUpstream, queueFrame_queueFull]
      · rw [upstreamRecord_cells h, poolCheck_congr hpool, hok]
      · rw [upstreamRecord_cells h, queueRoom_congr hlines hpool, hfull]
    · exact ⟨_, exec_passedFrame h hc, queueUpstream_admitted h hlines hpool hok hroom⟩
  · exact insertTag_length _ (le_trans (by decide) (passesReception_length h.1))
  · have hc := sourceCheck_own hg hi he hl
    obtain ⟨-, -, hlines, hpl, -⟩ := sourceCheck_kept n (frameSrc f) s
    rw [hc] at hlines hpl
    obtain ⟨h1, h2, h3, -, -, h6, h7⟩ := queueUpstream_admitted (c := e.cls) h hlines hpl hpool hroom
    exact ⟨_, exec_passedFrame h hc, h1, h2, h3, h6, h7⟩

end Sys2Proof
end

