-- ==== Sys2Proof/Proofs/Entries.lean ====
section
/-! PROOF. What an entry to a state does: the drops it counts, the event it raises, the line it leaves, and the wakes
granted in the room that it makes (R39, R88, R89, R169, R170). -/

namespace Sys2Proof

section
variable {n : Nat} {α : Type}

theorem Tab.modify_id (t : Tab n α) (i : Fin n) (f : α → α) (h : ∀ a, f a = a) : t.modify i f = t := by
  simp [Tab.modify, h]

theorem Tab.modify_modify (t : Tab n α) (i : Fin n) (f g : α → α) :
    (t.modify i f).modify i g = t.modify i fun a => g (f a) := by
  apply Tab.ext_get
  intro j
  by_cases h : j = i
  · subst h; simp
  · simp [Tab.get_modify_other _ _ h]

end

end Sys2Proof

namespace Sys2Proof.Machine

/-! ## Counting drops -/

theorem raisedBy_zero (v : Nat) : raisedBy 0 v = v := rfl

theorem raisedBy_raisedBy (j k v : Nat) : raisedBy j (raisedBy k v) = raisedBy (k + j) v := by
  unfold raisedBy
  (repeat' split) <;> omega

theorem bump_eq_raisedBy (v : Nat) : bump v = raisedBy 1 v := rfl

/-- A counter set with one drop counter raised `k` times. -/
def CounterSet.raised (c : LineCause) (k : Nat) (x : CounterSet) : CounterSet :=
  { x with drops := x.drops.modify c.idx (raisedBy k) }

theorem CounterSet.raised_zero (c : LineCause) (x : CounterSet) : x.raised c 0 = x := by
  rw [CounterSet.raised, Tab.modify_id _ _ _ raisedBy_zero]

theorem CounterSet.raised_raised (c : LineCause) (j k : Nat) (x : CounterSet) :
    (x.raised c k).raised c j = x.raised c (k + j) := by
  simp [CounterSet.raised, Tab.modify_modify, raisedBy_raisedBy]

/-- The references let go on the lines whose record names a counter set. -/
def refsOfSet (s : State) (xs : List (LineNo × Nat)) (j : Fin 16) : Nat :=
  ((xs.filter fun x => (s.line x.1).cfg.counterSet == some j).map Prod.snd).sum

/-- `dropsCounted` by the raise of each counter set. -/
theorem dropsCounted_iff {c : LineCause} {xs : List (LineNo × Nat)} {s t : State} : dropsCounted c xs s t ↔
    t.counts.total = s.counts.total.raised c (xs.map Prod.snd).sum
      ∧ ∀ j, t.counts.sets.get j = (s.counts.sets.get j).raised c (refsOfSet s xs j) := Iff.rfl

/-- The counters of drops, of frames and of bytes are as they were. -/
def countsSame (s t : State) : Prop := t.counts.total = s.counts.total ∧ t.counts.sets = s.counts.sets

/-- No summary flag is cleared. -/
def flagsKept (s t : State) : Prop := ∀ k, flagged s k → flagged t k

theorem countsSame.refl (s : State) : countsSame s s := ⟨rfl, rfl⟩
theorem countsSame.trans {s t u : State} (h : countsSame s t) (k : countsSame t u) : countsSame s u :=
  ⟨k.1.trans h.1, k.2.trans h.2⟩
theorem flagsKept.refl (s : State) : flagsKept s s := fun _ h => h
theorem flagsKept.trans {s t u : State} (h : flagsKept s t) (k : flagsKept t u) : flagsKept s u := fun x hx => k x (h x hx)
theorem flagsKept.of_eq {s t : State} (h : t.counts.flags = s.counts.flags) : flagsKept s t := fun k hk => by
  unfold flagged at *; rwa [h]

theorem countsSame.of_eq {s t : State} (h : t.counts = s.counts) : countsSame s t := ⟨by rw [h], by rw [h]⟩

theorem dropsCounted_nil {c : LineCause} {s t : State} (h : countsSame s t) : dropsCounted c [] s t := by
  rw [dropsCounted_iff]
  refine ⟨?_, fun j => ?_⟩
  · simpa [CounterSet.raised_zero] using h.1
  · simpa [CounterSet.raised_zero, refsOfSet] using congrArg (fun x => x.get j) h.2

theorem refsOfSet_congr {s t : State} (h : ∀ n, (t.line n).cfg.counterSet = (s.line n).cfg.counterSet)
    (xs : List (LineNo × Nat)) (j : Fin 16) : refsOfSet t xs j = refsOfSet s xs j := by simp [refsOfSet, h]

/-- Drops counted one after the other. -/
theorem dropsCounted.append {c : LineCause} {xs ys : List (LineNo × Nat)} {s t u : State} (h : dropsCounted c xs s t)
    (hc : ∀ n, (t.line n).cfg.counterSet = (s.line n).cfg.counterSet) (k : dropsCounted c ys t u) :
    dropsCounted c (xs ++ ys) s u := by
  rw [dropsCounted_iff] at *
  obtain ⟨h1, h2⟩ := h
  obtain ⟨k1, k2⟩ := k
  refine ⟨by rw [k1, h1, CounterSet.raised_raised, List.map_append, List.sum_append], fun j => ?_⟩
  rw [k2, h2, CounterSet.raised_raised, refsOfSet_congr hc]
  simp [refsOfSet, List.filter_append, List.sum_append]

/-- Drops counted between states whose counters and line records count alike. -/
theorem dropsCounted.congr {c : LineCause} {xs : List (LineNo × Nat)} {s s' t t' : State} (h : dropsCounted c xs s' t)
    (hs : countsSame s s') (ht : countsSame t t')
    (hc : ∀ n, (s'.line n).cfg.counterSet = (s.line n).cfg.counterSet) : dropsCounted c xs s t' := by
  rw [dropsCounted_iff] at *
  refine ⟨by rw [ht.1, h.1, hs.1], fun j => ?_⟩
  rw [ht.2, h.2, hs.2, refsOfSet_congr hc]

theorem raise_countsSame (u : Option LineNo) (d : Detail) (s : State) : countsSame s (raise u d s) := by
  unfold raise
  dsimp only
  split
  · unfold offerNotice
    split
    · exact ⟨rfl, rfl⟩
    · split <;> exact ⟨rfl, rfl⟩
  · exact ⟨rfl, rfl⟩

theorem raise_flags (u : Option LineNo) (d : Detail) (s : State) :
    (raise u d s).counts.flags = s.counts.flags.set d.kind.idx true := by
  unfold raise
  dsimp only
  split
  · unfold offerNotice
    split
    · rfl
    · split <;> rfl
  · rfl

theorem raise_flagsKept (u : Option LineNo) (d : Detail) (s : State) : flagsKept s (raise u d s) := by
  intro k hk
  unfold flagged at *
  rw [raise_flags]
  by_cases h : k.idx = d.kind.idx
  · rw [h, Tab.get_set_self]
  · rw [Tab.get_set_other _ _ h, hk]

theorem setFree_countsSame (k : Nat) (s : State) : countsSame s (setFree k s) := by
  unfold setFree
  dsimp only
  split
  · split
    · exact raise_countsSame _ _ ((s.modPool _).modPool _)
    · exact ⟨rfl, rfl⟩
  · split <;> exact ⟨rfl, rfl⟩

theorem setFree_flagsKept (k : Nat) (s : State) : flagsKept s (setFree k s) := by
  unfold setFree
  dsimp only
  split
  · split
    · exact raise_flagsKept _ _ ((s.modPool _).modPool _)
    · exact .refl s
  · split <;> exact .refl s

theorem dropRef_countsSame (id : Nat) (s : State) : countsSame s (dropRef id s) := by
  unfold dropRef
  split
  · exact .refl s
  · split
    · exact setFree_countsSame _ (s.modPool _)
    · exact ⟨rfl, rfl⟩

theorem dropRef_flagsKept (id : Nat) (s : State) : flagsKept s (dropRef id s) := by
  unfold dropRef
  split
  · exact .refl s
  · split
    · exact setFree_flagsKept _ (s.modPool _)
    · exact .refl s

theorem countDrop_flagsKept (n : LineNo) (c : LineCause) (s : State) : flagsKept s (countDrop n c s) := by
  unfold countDrop countFor
  dsimp only
  split <;> exact .refl s

/-- One drop on a line (R21). -/
theorem countDrop_counted (n : LineNo) (c : LineCause) (s : State) : dropsCounted c [(n, 1)] s (countDrop n c s) := by
  rw [dropsCounted_iff]
  unfold countDrop countFor
  dsimp only
  cases hset : (s.line n).cfg.counterSet with
  | none => simp [hset, refsOfSet, CounterSet.raised_zero]; rfl
  | some k =>
    refine ⟨by simp [hset]; rfl, fun j => ?_⟩
    by_cases hj : j = k
    · subst hj
      simp [hset, refsOfSet]
      rfl
    · simp [hset, refsOfSet, Tab.get_modify_other _ _ hj, Ne.symm hj, CounterSet.raised_zero]

/-- Each reference let go is counted once (R39). -/
theorem dropAll_counted (n : LineNo) (c : LineCause) (ids : List Nat) (s : State) :
    dropsCounted c [(n, ids.length)] s (dropAll n c ids s) := by
  induction ids generalizing s with
  | nil =>
    rw [dropsCounted_iff]
    simp [dropAll, refsOfSet, CounterSet.raised_zero, List.filter_cons]
    intro j
    split <;> simp [CounterSet.raised_zero]
  | cons id ids ih =>
    have hone : dropsCounted c [(n, 1)] s (countDrop n c (dropRef id s)) :=
      (countDrop_counted n c (dropRef id s)).congr (dropRef_countsSame id s) (.refl _)
        fun m => by rw [(dropRef_moved id (.refl s)).cfg]
    have hboth := hone.append (fun m => by rw [(countDrop_moved n c (dropRef_moved id (.refl s))).cfg]) (ih _)
    rw [dropsCounted_iff] at hboth ⊢
    obtain ⟨h1, h2⟩ := hboth
    refine ⟨h1.trans (by simp [Nat.add_comm]), fun j => (h2 j).trans ?_⟩
    congr 1
    by_cases hj : (s.line n).cfg.counterSet = some j <;> simp [refsOfSet, hj, Nat.add_comm]

theorem dropAll_flagsKept (n : LineNo) (c : LineCause) (ids : List Nat) (s : State) : flagsKept s (dropAll n c ids s) :=
  foldl_holds (flagsKept s) _ (fun u id hu => hu.trans ((dropRef_flagsKept id u).trans (countDrop_flagsKept n c _))) ids s
    (.refl s)

/-- What a flush of a line lets go is counted (R39). -/
theorem flush_counted (n : LineNo) (x : Flush) (s : State) :
    dropsCounted x.cause [(n, (x.refs (s.line n)).length)] s (flush n x s) :=
  (dropAll_counted n x.cause (x.refs (s.line n)) (s.modLine n x.empty)).congr (.refl s) (.refl _)
    fun m => by rw [(modLine_moved n x.empty (fun _ => ⟨rfl, rfl⟩) (.refl s)).cfg]

theorem flush_flagsKept (n : LineNo) (x : Flush) (s : State) : flagsKept s (flush n x s) :=
  dropAll_flagsKept n x.cause _ (s.modLine n x.empty)

/-! ## An entry -/

section
variable (n : LineNo) (new : LineState) (r : Reason) (s : State)

theorem lineStateEvent_countsSame (old : LineState) : countsSame s (lineStateEvent n old new r s) := by
  unfold lineStateEvent
  split
  · exact raise_countsSame _ _ s
  · exact .refl s

theorem lineStateEvent_flagsKept (old : LineState) : flagsKept s (lineStateEvent n old new r s) := by
  unfold lineStateEvent
  split
  · exact raise_flagsKept _ _ s
  · exact .refl s

theorem lineStateEvent_flagged (old : LineState) (h : s.running = true) :
    flagged (lineStateEvent n old new r s) .lineState := by
  rw [lineStateEvent, if_pos h]
  exact raise_flagged s (some n) (.lineState old new r)

/-- An entry as its flush, the changes of its line and of the tables, which count nothing, and its event (R88). -/
theorem enterCore_eq (h : (s.line n).st ≠ new) : ∃ u : State,
    enterCore n new r s = lineStateEvent n (s.line n).st new r u ∧ u.mgmt = s.mgmt
      ∧ u.counts = (flush n (entryFlush (s.line n).st new r) s).counts
      ∧ u.pool = (flush n (entryFlush (s.line n).st new r) s).pool := by
  unfold enterCore
  simp only [h, if_false]
  refine ⟨_, rfl, ?_⟩
  split <;> split <;> exact ⟨by simp, by simp [removeWake], by simp [removeWake]⟩

/-- The drops that an entry counts (R39). -/
theorem enterCore_counted (h : (s.line n).st ≠ new) :
    dropsCounted (entryFlush (s.line n).st new r).cause
      [(n, ((entryFlush (s.line n).st new r).refs (s.line n)).length)] s (enterCore n new r s) := by
  obtain ⟨u, hu, -, hcounts, -⟩ := enterCore_eq n new r s h
  rw [hu]
  exact (flush_counted n _ s).congr (.refl s)
    ((countsSame.of_eq hcounts).trans (lineStateEvent_countsSame n new r u _)) fun _ => rfl

theorem enterCore_flagsKept : flagsKept s (enterCore n new r s) := by
  by_cases h : (s.line n).st = new
  · rw [enterCore_of_eq n new r s h]
    exact .refl s
  · obtain ⟨u, hu, -, hcounts, -⟩ := enterCore_eq n new r s h
    rw [hu]
    exact (flush_flagsKept n _ s).trans ((flagsKept.of_eq (by rw [hcounts])).trans
      (lineStateEvent_flagsKept n new r u _))

/-- An entry raises LINE_STATE once the start-up has completed (R89). -/
theorem enterCore_flagged (h : (s.line n).st ≠ new) (hr : s.running = true) :
    flagged (enterCore n new r s) .lineState := by
  obtain ⟨u, hu, hmgmt, -, -⟩ := enterCore_eq n new r s h
  rw [hu]
  exact lineStateEvent_flagged n new r u _ (by rw [State.running, hmgmt]; exact hr)

end

/-! ## The line entered -/

section
variable (s : State) (r : Reason) (l : Line)

/-- The parts of a line that no entry changes. -/
theorem Line.entered_kept (new : LineState) : (l.entered s new r).grade = l.grade
    ∧ (l.entered s new r).trainFails = l.trainFails ∧ (l.entered s new r).lastTest = l.lastTest
    ∧ (l.entered s new r).sense = l.sense := by
  have hleave : ∀ x : Line, (leaveState x).grade = x.grade ∧ (leaveState x).trainFails = x.trainFails
      ∧ (leaveState x).lastTest = x.lastTest ∧ (leaveState x).sense = x.sense := by
    intro x
    unfold leaveState
    split <;> exact ⟨rfl, rfl, rfl, rfl⟩
  have henter : ∀ x : Line, (enterState s new x).grade = x.grade ∧ (enterState s new x).trainFails = x.trainFails
      ∧ (enterState s new x).lastTest = x.lastTest ∧ (enterState s new x).sense = x.sense := by
    intro x
    unfold enterState
    dsimp only
    cases new <;> dsimp only <;> (try split) <;> exact ⟨rfl, rfl, rfl, rfl⟩
  simp [Line.entered, henter, hleave, Flush.empty]

/-- Leaving a state changes no state, no queue and no slot. -/
@[simp] theorem leaveState_st : (leaveState l).st = l.st := by unfold leaveState; split <;> rfl
@[simp] theorem leaveState_downQ : (leaveState l).downQ = l.downQ := by unfold leaveState; split <;> rfl
@[simp] theorem leaveState_prioQ : (leaveState l).prioQ = l.prioQ := by unfold leaveState; split <;> rfl
@[simp] theorem leaveState_bulkQ : (leaveState l).bulkQ = l.bulkQ := by unfold leaveState; split <;> rfl
@[simp] theorem leaveState_wakeStore : (leaveState l).wakeStore = l.wakeStore := by unfold leaveState; split <;> rfl
@[simp] theorem leaveState_handOff : (leaveState l).handOff = l.handOff := by unfold leaveState; split <;> rfl

/-- The states whose entry lets go of everything the line holds, unless it is shed (R39). -/
theorem entryFlush_all {new : LineState} (hn : losesLearned new = true) (hr : r ≠ .shed) (old : LineState) :
    entryFlush old new r = { down := true, up := true, wake := true, hand := true, cause := .flush } := by
  cases new <;> simp_all [entryFlush, losesLearned]

theorem refs_all (c : LineCause) :
    (Flush.refs { down := true, up := true, wake := true, hand := true, cause := c } l).length = l.refsHeld := by
  simp [Flush.refs, Line.refsHeld]
  omega

/-- A line as an entry to DISABLED, DOWN or BARRED leaves it (R85, R88). -/
theorem Line.entered_out {new : LineState} (hn : losesLearned new = true) (hr : r ≠ .shed) :
    (l.entered s new r).holdsNothing ∧ (l.entered s new r).downRate = 0 ∧ (l.entered s new r).upRate = 0
      ∧ (l.entered s new r).ready = false ∧ (l.entered s new r).idle = none
      ∧ (l.entered s new r).command = entryCommand l.st new := by
  unfold Line.entered Line.holdsNothing
  rw [entryFlush_all r hn hr]
  cases new <;> simp [losesLearned] at hn <;> simp [enterState, Flush.empty, Line.idleHolds, entryCommand]

/-- A line as its entry to DOWN leaves it (R85, R88). -/
theorem Line.entered_down (hr : r ≠ .shed) : (l.entered s .down r).isDown := by
  obtain ⟨hnothing, hdr, hur, hready, hidle, hcmd⟩ := Line.entered_out s r l (new := .down) rfl hr
  exact ⟨Line.entered_st _ _ _ _, hdr, hur, hready, hcmd, hidle, hnothing⟩

/-- A QUIET line that a grant wakes is UP with its wake timer running, and keeps what is queued for it (R91, R95). -/
theorem Line.entered_woken_quiet (h : l.st = .quiet) :
    (l.entered s .up .wakeGranted).wakePending = true ∧ (l.entered s .up .wakeGranted).wakeTimer = some s.wakeLimit
      ∧ (l.entered s .up .wakeGranted).command = some .wake ∧ (l.entered s .up .wakeGranted).quietFor = none
      ∧ (l.entered s .up .wakeGranted).downQ = l.downQ := by
  simp [Line.entered, entryFlush, leaveState, enterState, Flush.empty, entryCommand, h]

/-- Any other line that a grant wakes is TRAINING, and keeps its wake store (R91, R92). -/
theorem Line.entered_woken_down :
    (l.entered s .training .wakeGranted).trainTimer = some (s.trainLimit * 1000)
      ∧ (l.entered s .training .wakeGranted).command = some .start
      ∧ (l.entered s .training .wakeGranted).wakeStore = l.wakeStore := by
  simp [Line.entered, entryFlush, enterState, entryCommand, Flush.empty]

/-- A line woken by a grant (R91, R95). -/
theorem Line.wokenFrom_entered : Line.wokenFrom s l (l.entered s (grantState l.st) .wakeGranted) := by
  unfold Line.wokenFrom
  split
  case isTrue hq => simpa [hq, grantState] using Line.entered_woken_quiet s l hq
  case isFalse hq =>
    have hg : grantState l.st = .training := by cases hl : l.st <;> simp_all [grantState]
    simpa [hg] using Line.entered_woken_down s l

/-- A wake reads no share and no credit, and of the state its limits alone. -/
theorem Line.wokenFrom_congr {s t : State} {a a' b b' : Line} (ha : a'.apart = a.apart) (hb : b'.apart = b.apart)
    (hw : t.wakeLimit = s.wakeLimit) (ht : t.trainLimit = s.trainLimit) (h : Line.wokenFrom t a' b') :
    Line.wokenFrom s a b := by
  have h' : Line.wokenFrom t a'.apart b'.apart := h
  rw [ha, hb] at h'
  have h'' : Line.wokenFrom t a b := h'
  simpa [Line.wokenFrom, hw, ht] using h''

end

/-! ## Recomputes -/

section
variable (s : State)

theorem recomputeIf_apart (n m : LineNo) (before : Line) : ((recomputeIf n before s).line m).apart = (s.line m).apart := by
  unfold recomputeIf
  split
  · exact recompute_apart s m
  · rfl

/-- A line that is not eligible has neither share nor credit after a recompute (R58, R68). -/
theorem recompute_ineligible {n : LineNo} (h : eligibleState (s.line n).st = false) :
    ((recompute s).line n).share = 0 ∧ ((recompute s).line n).credit = 0 := by
  rw [recompute_line]
  refine ⟨?_, handOver_credit_off _ _ h⟩
  exact share_off _ (computeShares_off _ _ h)
  where
    /-- No round changes whether a cell takes part (R53). -/
    weightedRounds_on (k x b : Nat) (cs : Tab 24 ShareCell) (n : LineNo) :
        ((weightedRounds k x b cs).1.get n).on = (cs.get n).on := by
      induction k generalizing x b cs with
      | zero => rfl
      | succ k ih =>
        unfold weightedRounds
        split
        · rfl
        · dsimp only
          split
          · rw [ih, Tab.get_map, saturate]
            split <;> rfl
          · rw [Tab.get_map, grantRound]
            split <;> rfl
    computeShares_off {n : LineNo} (ls : Tab 24 Line) (e : Nat) (h : eligibleState (ls.get n).st = false) :
        ((computeShares ls e).1.get n).on = false := by
      rw [computeShares, weightedRounds_on, Tab.get_map]
      exact h

end

/-! ## The awake count -/

/-- Where two predicates agree on all of a list but one member, their counts differ by that member. -/
theorem countP_change {α : Type} {p q : α → Bool} {l : List α} {a : α} (hnd : l.Nodup) (ha : a ∈ l)
    (h : ∀ x, x ≠ a → p x = q x) :
    l.countP p + (if q a then 1 else 0) = l.countP q + (if p a then 1 else 0) := by
  obtain ⟨l₁, l₂, rfl⟩ := List.append_of_mem ha
  obtain ⟨-, h2, hdisj⟩ := List.nodup_append.mp hnd
  have h₁ : l₁.countP p = l₁.countP q :=
    List.countP_congr fun x hx => by rw [h x (hdisj x hx a (by simp))]
  have h₂ : l₂.countP p = l₂.countP q :=
    List.countP_congr fun x hx => by rw [h x fun e => (List.nodup_cons.mp h2).1 (e ▸ hx)]
  simp only [List.countP_append, List.countP_cons, h₁, h₂]
  omega

theorem awakeCount_eq (s : State) : awakeCount s = (indexes 24).countP fun n => awakeState (s.line n).st := by
  rw [awakeCount, tab_items_eq_map, List.countP_map]
  rfl

/-- The awake count after one line has changed its state (R158). -/
theorem awakeCount_change {s t : State} (n : LineNo) (h : ∀ m, m ≠ n → (t.line m).st = (s.line m).st) :
    awakeCount t + (if awakeState (s.line n).st then 1 else 0)
      = awakeCount s + (if awakeState (t.line n).st then 1 else 0) := by
  rw [awakeCount_eq, awakeCount_eq]
  exact countP_change (p := fun m => awakeState (t.line m).st) (q := fun m => awakeState (s.line m).st)
    (List.nodup_finRange 24) (mem_indexes n) fun m hm => by rw [h m hm]

theorem awakeCount_congr {s t : State} (h : ∀ m, (t.line m).st = (s.line m).st) : awakeCount t = awakeCount s := by
  simp [awakeCount_eq, h]

theorem awakeBudget_congr {s t : State} (h : { t.power with wakeList := s.power.wakeList } = s.power) :
    awakeBudget t = awakeBudget s := by
  have hst : t.power.state = s.power.state := by rw [← h]
  have hpol : t.power.policies = s.power.policies := by rw [← h]
  simp [awakeBudget, currentPolicy, hst, hpol]

/-! ## Grants -/

section
variable {s : State}

theorem grantState_awake (st : LineState) : awakeState (grantState st) = true := by cases st <;> rfl

theorem asleep_not_awake {st : LineState} (h : asleepState st = true) : awakeState st = false := by
  cases st <;> simp_all [asleepState, awakeState]

/-- What one grant of the oldest entry does (R170). -/
structure Granted (e : WakeEntry) (rest : List WakeEntry) (s t : State) : Prop where
  woken : Line.wokenFrom s (s.line e.line) (t.line e.line)
  awake : awakeState (t.line e.line).st = true
  others : ∀ m, m ≠ e.line → (t.line m).apart = (s.line m).apart
  power : t.power = { s.power with wakeList := rest }
  pool : t.pool = s.pool
  counts : countsSame s t
  flags : flagsKept s t
  raised : s.running = true → flagged t .lineState

/-- The grant of a line flushes nothing (R39). -/
theorem entryFlush_grant (st : LineState) : entryFlush st (grantState st) .wakeGranted
    = { down := false, up := false, wake := false, hand := false, cause := .flush } := by
  cases st <;> simp [entryFlush, grantState]

theorem grantOne_granted {e : WakeEntry} {rest : List WakeEntry} (hl : s.power.wakeList = e :: rest)
    (ha : asleepState (s.line e.line).st = true) (hnd : ∀ w ∈ rest, w.line ≠ e.line) :
    Granted e rest s (grantOne e s) := by
  have hne := grantState_ne _ ha
  unfold grantOne
  simp only [ha, if_true]
  generalize hu : (s.modPower fun p => { p with wakeList := p.wakeList.drop 1 }) = u
  have hline : ∀ m, u.line m = s.line m := fun m => by rw [← hu]; rfl
  have hupow : u.power = { s.power with wakeList := rest } := by rw [← hu]; simp [hl]
  have hstart : u.counts = s.counts ∧ u.pool = s.pool ∧ u.wakeLimit = s.wakeLimit ∧ u.trainLimit = s.trainLimit
      ∧ u.mgmt = s.mgmt := by rw [← hu]; exact ⟨rfl, rfl, rfl, rfl, rfl⟩
  obtain ⟨hcounts, hpool, hwake, htrain, hmgmt⟩ := hstart
  rw [← hline] at ha hne ⊢
  have hflush : ∀ x : Flush, x = { down := false, up := false, wake := false, hand := false, cause := .flush } →
      (flush e.line x u).pool = u.pool ∧ (flush e.line x u).counts = u.counts := by
    rintro _ rfl
    exact ⟨rfl, rfl⟩
  obtain ⟨v, hv, -, hvcounts, hvpool⟩ := enterCore_eq e.line _ .wakeGranted u hne
  obtain ⟨hfpool, hfcounts⟩ := hflush _ (entryFlush_grant (u.line e.line).st)
  have hself : ((recomputeIf e.line (u.line e.line)
      (enterCore e.line (grantState (u.line e.line).st) .wakeGranted u)).line e.line).apart =
      ((u.line e.line).entered u (grantState (u.line e.line).st) .wakeGranted).apart := by
    rw [recomputeIf_apart, enterCore_line_self _ _ _ _ hne]
  exact {
    woken := Line.wokenFrom_congr (by rw [hline]) hself.symm hwake htrain (Line.wokenFrom_entered u _)
    awake := by rw [apart_st hself, Line.entered_st, grantState_awake]
    others := fun m hm => by rw [recomputeIf_apart, enterCore_line_other _ _ _ _ hm, hline]
    power := by
      rw [recomputeIf_power, enterCore_power _ _ _ _ hne, if_pos ha]
      have hfilter : rest.filter (fun w => w.line != e.line) = rest :=
        List.filter_eq_self.mpr fun w hw => by simpa using hnd w hw
      simp [removeWake, hupow, hfilter]
    pool := by rw [recomputeIf_pool, hv, lineStateEvent_pool, hvpool, hfpool, hpool]
    counts := by
      have hev := lineStateEvent_countsSame e.line (grantState (u.line e.line).st) .wakeGranted v (u.line e.line).st
      rw [countsSame, recomputeIf_counts, hv]
      exact (countsSame.of_eq (by rw [hvcounts, hfcounts, hcounts])).trans hev
    flags := by
      have hk := enterCore_flagsKept e.line (grantState (u.line e.line).st) .wakeGranted u
      refine (flagsKept.of_eq (s := s) (t := u) (by rw [hcounts])).trans (hk.trans (.of_eq ?_))
      rw [recomputeIf_counts]
    raised := fun hr => by
      have hf := enterCore_flagged e.line (grantState (u.line e.line).st) .wakeGranted u hne
        (by rw [State.running, hmgmt]; exact hr)
      rwa [flagged, recomputeIf_counts] }

/-- A line that is not eligible and has neither share nor credit. -/
def Line.unshared (l : Line) : Prop := eligibleState l.st = false ∧ l.share = 0 ∧ l.credit = 0

theorem recompute_unshared {n : LineNo} (h : eligibleState (s.line n).st = false) : ((recompute s).line n).unshared :=
  ⟨by rw [apart_st (recompute_apart s n)]; exact h, recompute_ineligible s h⟩

theorem grantOne_unshared {e : WakeEntry} {n : LineNo} (hn : n ≠ e.line) (h : (s.line n).unshared) :
    ((grantOne e s).line n).unshared := by
  unfold grantOne
  dsimp only
  split
  · have hcore : ∀ r, ((enterCore e.line (grantState (s.line e.line).st) r
        (s.modPower fun p => { p with wakeList := p.wakeList.drop 1 })).line n).unshared := fun r => by
      rw [enterCore_line_other _ _ _ _ hn]
      exact h
    unfold recomputeIf
    split
    · exact recompute_unshared (hcore _).1
    · exact hcore _
  · exact h

/-- What the grants of one occasion do: the entries `woken` from the front of the list are granted (R170). -/
structure Grants (woken : List WakeEntry) (s t : State) : Prop where
  each : ∀ w ∈ woken, Line.wokenFrom s (s.line w.line) (t.line w.line)
  others : ∀ m, (∀ w ∈ woken, w.line ≠ m) → (t.line m).apart = (s.line m).apart
  power : t.power = { s.power with wakeList := s.power.wakeList.drop woken.length }
  pool : t.pool = s.pool
  counts : countsSame s t
  flags : flagsKept s t
  listed : WakesListed t
  count : awakeCount t = awakeCount s + woken.length
  unshared : ∀ m, (∀ w ∈ woken, w.line ≠ m) → (s.line m).unshared → (t.line m).unshared

theorem Grants.nil (h : WakesListed s) : Grants [] s s where
  each := by simp
  others _ _ := rfl
  power := rfl
  pool := rfl
  counts := .refl s
  flags := .refl s
  listed := h
  count := rfl
  unshared _ _ h := h

/-- The list after its oldest entry has been granted. -/
theorem Granted.listed {e : WakeEntry} {rest : List WakeEntry} {t : State} (g : Granted e rest s t)
    (hl : s.power.wakeList = e :: rest) (hw : WakesListed s) : WakesListed t := by
  obtain ⟨hasleep, hnd⟩ := hw
  rw [hl] at hasleep hnd
  obtain ⟨hnot, hnd⟩ := List.nodup_cons.mp hnd
  refine ⟨fun w hwm => ?_, ?_⟩
  · rw [g.power] at hwm
    have hne : w.line ≠ e.line := fun h => hnot (h ▸ List.mem_map_of_mem hwm)
    rw [apart_st (g.others _ hne)]
    exact hasleep w (by simp [show w ∈ rest from hwm])
  · rw [g.power]
    exact hnd

theorem Granted.then {e : WakeEntry} {rest woken : List WakeEntry} {u t : State} (g : Granted e rest s u)
    (hun : ∀ m, m ≠ e.line → (s.line m).unshared → (u.line m).unshared) (hl : s.power.wakeList = e :: rest)
    (hw : WakesListed s) (hlim : u.wakeLimit = s.wakeLimit ∧ u.trainLimit = s.trainLimit) (hsub : ∀ w ∈ woken, w ∈ rest)
    (h : Grants woken u t) : Grants (e :: woken) s t := by
  obtain ⟨hasleep, hnd⟩ := hw
  rw [hl] at hasleep hnd
  obtain ⟨hnot, -⟩ := List.nodup_cons.mp hnd
  have hne : ∀ w ∈ woken, w.line ≠ e.line := fun w hwm hx => hnot (hx ▸ List.mem_map_of_mem (hsub w hwm))
  exact {
    each := by
      intro w hwm
      rcases List.mem_cons.mp hwm with rfl | hwm
      · exact Line.wokenFrom_congr rfl (h.others _ hne).symm rfl rfl g.woken
      · exact Line.wokenFrom_congr (g.others _ (hne w hwm)) rfl hlim.1 hlim.2 (h.each w hwm)
    others := fun m hm => (h.others m fun w hwm => hm w (by simp [hwm])).trans
      (g.others m fun hx => hm e (by simp) hx.symm)
    power := by
      rw [h.power, g.power, hl]
      rfl
    pool := h.pool.trans g.pool
    counts := g.counts.trans h.counts
    flags := g.flags.trans h.flags
    listed := h.listed
    count := by
      have hch := awakeCount_change (s := s) (t := u) e.line fun m hm => apart_st (g.others m hm)
      rw [g.awake, asleep_not_awake (hasleep e (by simp))] at hch
      rw [h.count]
      simp only [Bool.false_eq_true, if_false, if_true, List.length_cons] at hch ⊢
      omega
    unshared := fun m hm hs => h.unshared m (fun w hwm => hm w (by simp [hwm]))
      (hun m (fun hx => hm e (by simp) hx.symm) hs) }

/-- Grants take as many entries from the front of the list as the fuel and the budget allow (R170). -/
theorem grants_grants (k : Nat) (hw : WakesListed s) :
    Grants (s.power.wakeList.take (min k (awakeBudget s - awakeCount s))) s (grants k s) := by
  induction k generalizing s with
  | zero => simpa [grants] using Grants.nil hw
  | succ k ih =>
    unfold grants
    cases hl : s.power.wakeList with
    | nil => simpa using Grants.nil hw
    | cons e rest =>
      dsimp only
      split
      case isFalse hfull =>
        have hz : awakeBudget s - awakeCount s = 0 := by omega
        simpa [hz] using Grants.nil hw
      case isTrue hroom =>
        have hasleep : asleepState (s.line e.line).st = true := hw.1 e (by simp [hl])
        have hnd : ∀ w ∈ rest, w.line ≠ e.line := by
          have hn := hw.2
          rw [hl] at hn
          exact fun w hwm hx => (List.nodup_cons.mp hn).1 (hx ▸ List.mem_map_of_mem hwm)
        have g := grantOne_granted hl hasleep hnd
        have hlisted := g.listed hl hw
        have hbudget : awakeBudget (grantOne e s) = awakeBudget s := awakeBudget_congr (by rw [g.power])
        have hcount : awakeCount (grantOne e s) = awakeCount s + 1 := by
          have hch := awakeCount_change (s := s) (t := grantOne e s) e.line fun m hm => apart_st (g.others m hm)
          rw [g.awake, asleep_not_awake hasleep] at hch
          simpa using hch
        have hrest := ih hlisted
        rw [hbudget, hcount, g.power] at hrest
        have hmin : min (k + 1) (awakeBudget s - awakeCount s)
            = min k (awakeBudget s - (awakeCount s + 1)) + 1 := by omega
        rw [hmin, List.take_succ_cons]
        exact g.then (fun m hm => grantOne_unshared hm) hl hw ⟨by simp, by simp⟩ (fun w hwm => List.mem_of_mem_take hwm)
          hrest

/-- The grants of one occasion (R170). -/
theorem grantAll_grants (hw : WakesListed s) :
    Grants (s.power.wakeList.take (awakeBudget s - awakeCount s)) s (grantAll s) := by
  have h := grants_grants s.power.wakeList.length hw
  rwa [← List.take_take, List.take_of_length_le (List.length_take_le' _ _)] at h

end

end Sys2Proof.Machine
end

