-- ==== Sys2Proof/Proofs/LineGoesDown.lean ====
section
/-! PROOF. An entry with the wakes granted in the room that it makes, the events that take a line to DOWN, and the
commands that move a line. -/

namespace Sys2Proof.Machine

/-! ## An entry to a state that is not awake -/

/-- What an entry to a state that is not awake leaves (R39, R88, R169, R170). -/
structure Entered (n : LineNo) (new : LineState) (r : Reason) (s t : State) : Prop where
  line : (t.line n).apart = ((s.line n).entered s new r).apart
  room : roomTaken n s t
  counted : dropsCounted (entryFlush (s.line n).st new r).cause
    [(n, ((entryFlush (s.line n).st new r).refs (s.line n)).length)] s t
  raised : s.running = true → flagged t .lineState
  unshared : eligibleState (s.line n).st = true → (t.line n).unshared

section
variable {n : LineNo} {new : LineState} {r : Reason} {s t : State}

/-- A line that is not asleep is not listed. -/
theorem WakesListed.not_listed (hw : WakesListed s) (h : asleepState (s.line n).st = false) :
    ∀ w ∈ s.power.wakeList, w.line ≠ n := by
  rintro w hwm rfl
  simp [hw.1 w hwm] at h

theorem awake_not_asleep {st : LineState} (h : awakeState st = true) : asleepState st = false := by
  cases st <;> simp_all [asleepState, awakeState]

theorem filter_not_listed {l : List WakeEntry} (h : ∀ w ∈ l, w.line ≠ n) : (l.filter fun w => w.line != n) = l :=
  List.filter_eq_self.mpr fun w hw => by simpa using h w hw

/-- An entry takes the line's own entry off the wake list (R169). -/
theorem enterCore_wakes (hw : WakesListed s) (hne : (s.line n).st ≠ new) : (enterCore n new r s).power =
    { s.power with wakeList := s.power.wakeList.filter fun w => w.line != n } := by
  rw [enterCore_power n new r s hne]
  split
  · rfl
  · rename_i h
    rw [filter_not_listed (hw.not_listed (by simpa using h))]

/-- Lines asleep stay so across a change of another line, and the wake list may lose entries. -/
theorem WakesListed.sublist (hw : WakesListed s) (hl : ∀ w ∈ t.power.wakeList, (t.line w.line).st = (s.line w.line).st)
    (hp : t.power.wakeList.Sublist s.power.wakeList) : WakesListed t :=
  ⟨fun w hwm => by rw [hl w hwm]; exact hw.1 w (hp.subset hwm), hw.2.sublist (hp.map _)⟩

theorem enter_of_not_awake (h : awakeState (s.line n).st = false) :
    enter n new r s = recomputeIf n (s.line n) (enterCore n new r s) := by simp [enter, h]

theorem enter_of_awake (h : awakeState (s.line n).st = true) (hnew : awakeState new = false) :
    enter n new r s = grantAll (recomputeIf n (s.line n) (enterCore n new r s)) := by simp [enter, h, hnew]

/-- An entry to a state that is not awake (R88, R170). -/
theorem enter_entered (hw : WakesListed s) (hne : (s.line n).st ≠ new) (hnew : awakeState new = false) :
    Entered n new r s (enter n new r s) := by
  generalize hu : recomputeIf n (s.line n) (enterCore n new r s) = u
  have hself : (u.line n).apart = ((s.line n).entered s new r).apart := by
    rw [← hu, recomputeIf_apart, enterCore_line_self n new r s hne]
  have hothers : ∀ m, m ≠ n → (u.line m).apart = (s.line m).apart := fun m hm => by
    rw [← hu, recomputeIf_apart, enterCore_line_other n new r s hm]
  have hpow : u.power = { s.power with wakeList := s.power.wakeList.filter fun w => w.line != n } := by
    rw [← hu, recomputeIf_power, enterCore_wakes hw hne]
  have hcounts : u.counts = (enterCore n new r s).counts := by rw [← hu, recomputeIf_counts]
  have hcounted := (enterCore_counted n new r s hne).congr (.refl s) (.of_eq hcounts) fun _ => rfl
  have hraised : s.running = true → flagged u .lineState := fun hr => by
    rw [flagged, hcounts]
    exact enterCore_flagged n new r s hne hr
  have hnst : (u.line n).st = new := by rw [apart_st hself, Line.entered_st]
  have hunsh : eligibleState (s.line n).st = true → (u.line n).unshared := fun he => by
    have hoff : eligibleState new = false := by cases new <;> simp_all [eligibleState, awakeState]
    have hcall : callsRecompute (s.line n) ((enterCore n new r s).line n) = true := by
      simp [callsRecompute, enterCore_st, he, hoff]
    rw [← hu, recomputeIf, if_pos hcall]
    exact recompute_unshared (by rw [enterCore_st, hoff])
  by_cases hawake : awakeState (s.line n).st = true
  · have hfree := hw.not_listed (awake_not_asleep hawake)
    rw [filter_not_listed hfree] at hpow
    have hpow' : u.power = s.power := hpow
    have hlisted : WakesListed u := hw.sublist
      (fun w hwm => apart_st (hothers _ (hfree w (by rwa [hpow'] at hwm)))) (by rw [hpow'])
    have hcount : awakeCount u + 1 = awakeCount s := by
      have h := awakeCount_change (s := s) (t := u) n fun m hm => apart_st (hothers m hm)
      rw [hnst, hnew, hawake] at h
      simpa using h
    have hbudget : awakeBudget u = awakeBudget s := awakeBudget_congr (by rw [hpow'])
    have hlim : u.wakeLimit = s.wakeLimit ∧ u.trainLimit = s.trainLimit := by rw [← hu]; simp
    have g := grantAll_grants hlisted
    rw [hbudget, show awakeBudget s - awakeCount u = awakeBudget s + 1 - awakeCount s by omega, hpow'] at g
    rw [enter_of_awake hawake hnew, hu]
    have hnwoken : ∀ w ∈ s.power.wakeList.take (awakeBudget s + 1 - awakeCount s), w.line ≠ n :=
      fun w hwm => hfree w (List.mem_of_mem_take hwm)
    exact {
      line := (g.others n hnwoken).trans hself
      room := by
        unfold roomTaken
        rw [if_pos hawake]
        refine ⟨fun w hwm => ?_, fun m hm hnot => (g.others m hnot).trans (hothers m hm), ?_⟩
        · exact Line.wokenFrom_congr (hothers _ (hnwoken w hwm)) rfl hlim.1 hlim.2 (g.each w hwm)
        · rw [g.power, hpow', filter_not_listed fun w hwm => hfree w (List.mem_of_mem_drop hwm)]
      counted := hcounted.congr (.refl s) g.counts fun _ => rfl
      raised := fun hr => g.flags _ (hraised hr)
      unshared := fun he => g.unshared n hnwoken (hunsh he) }
  · rw [Bool.not_eq_true] at hawake
    rw [enter_of_not_awake hawake, hu]
    exact {
      line := hself
      room := by
        unfold roomTaken
        simp only [hawake, Bool.false_eq_true, if_false, List.take_zero, List.length_nil, List.drop_zero]
        exact ⟨by simp, fun m hm _ => hothers m hm, hpow⟩
      counted := hcounted
      raised := hraised
      unshared := hunsh }

/-- The room that a line makes is the same from a state that differs in what the line itself holds. -/
theorem roomTaken.of_agree {s' : State} (hw : WakesListed s) (hl : ∀ m, m ≠ n → (s'.line m).apart = (s.line m).apart)
    (hst : (s'.line n).st = (s.line n).st) (hp : s'.power = s.power)
    (hlim : s'.wakeLimit = s.wakeLimit ∧ s'.trainLimit = s.trainLimit) (h : roomTaken n s' t) : roomTaken n s t := by
  have hstall : ∀ m, (s'.line m).st = (s.line m).st := fun m => by
    by_cases hm : m = n
    · rw [hm, hst]
    · exact apart_st (hl m hm)
  have hbudget : awakeBudget s' = awakeBudget s := awakeBudget_congr (by rw [hp])
  unfold roomTaken at *
  rw [hst, hp, hbudget, awakeCount_congr hstall] at h
  obtain ⟨h1, h2, h3⟩ := h
  refine ⟨fun w hwm => ?_, fun m hm hnot => (h2 m hm hnot).trans (hl m hm), h3⟩
  have hne : w.line ≠ n := by
    split at hwm
    · exact hw.not_listed (awake_not_asleep ‹_›) w (List.mem_of_mem_take hwm)
    · simp at hwm
  exact Line.wokenFrom_congr (hl _ hne) rfl hlim.1 hlim.2 (h1 w hwm)

/-- A line that is DOWN, but for share and credit. -/
theorem isDown_congr {a b : Line} (h : a.apart = b.apart) (hb : b.isDown) : a.isDown := by
  have hd : b.apart.isDown := hb
  rw [← h] at hd
  exact hd

theorem holdsNothing_congr {a b : Line} (h : a.apart = b.apart) (hb : b.holdsNothing) : a.holdsNothing := by
  have hd : b.apart.holdsNothing := hb
  rw [← h] at hd
  exact hd

/-- What an entry to DISABLED, DOWN or BARRED leaves of the Station Table: the line's LEARNED entries go, and every STATIC
entry stands (R7). -/
theorem enter_noLearned (hne : (s.line n).st ≠ new) (hloses : losesLearned new = true) :
    noLearned (enter n new r s) n := by
  intro i e he hlrn hline
  rw [enter_stations, enterCore_stations n new r s hne, if_pos hloses] at he
  simp [removeLearned, dropStations, Option.filter_eq_some_iff, hlrn, hline] at he

theorem Moved.staticKept (h : Moved s t) : staticKept s t := fun i e he hst => (h.static i e hst).mpr he

/-- A line whose function changes nothing. -/
theorem State.modLine_same {f : Line → Line} (h : f (s.line n) = s.line n) : s.modLine n f = s := by
  have hset : s.lines.modify n f = s.lines := by
    rw [Tab.modify, show f (s.lines.get n) = s.lines.get n from h, Tab.set_get]
  simp [State.modLine, hset]

/-- An event that takes a line to DOWN, once its training failure count is written (R88, R92). -/
theorem goesDown (k : Nat) (hw : WakesListed s) (hrun : s.running = true) (hst : (s.line n).st ≠ .down) (hr : r ≠ .shed) :
    let t := enter n .down r (s.modLine n fun l => { l with trainFails := k })
    (t.line n).isDown ∧ noLearned t n ∧ staticKept s t ∧ roomTaken n s t ∧ testsKept s t ∧ besideKept s t
      ∧ dropsCounted .flush [(n, (s.line n).refsHeld)] s t ∧ flagged t .lineState
      ∧ (t.line n).cfg = (s.line n).cfg ∧ (t.line n).grade = (s.line n).grade ∧ (t.line n).trainFails = k := by
  dsimp only
  generalize hs' : (s.modLine n fun l => { l with trainFails := k }) = s'
  have hself : s'.line n = { s.line n with trainFails := k } := by rw [← hs']; simp
  have hother : ∀ m, m ≠ n → s'.line m = s.line m := fun m hm => by
    rw [← hs', State.modLine_line_other _ _ hm]
  have hmoved : Moved s s' := by rw [← hs']; exact modLine_moved n _ (fun _ => ⟨rfl, rfl⟩) (.refl s)
  have hkept : s'.power = s.power ∧ s'.wakeLimit = s.wakeLimit ∧ s'.trainLimit = s.trainLimit ∧ s'.counts = s.counts
      ∧ s'.access = s.access ∧ s'.seq = s.seq ∧ s'.mgmt = s.mgmt := by
    rw [← hs']
    exact ⟨rfl, rfl, rfl, rfl, rfl, rfl, rfl⟩
  obtain ⟨hpow, hwl, htl, hcnt, hacc, hseq, hmg⟩ := hkept
  have hst' : (s'.line n).st = (s.line n).st := by rw [hself]
  have hw' : WakesListed s' := hw.sublist (fun w _ => by
    by_cases h : w.line = n
    · rw [h, hst']
    · rw [hother _ h]) (by rw [hpow])
  have E := enter_entered (r := r) hw' (new := .down) (by rw [hst']; exact hst) rfl
  have hmt := enter_moved n .down r hmoved
  have hcounted := E.counted
  rw [entryFlush_all r rfl hr, refs_all, show (s'.line n).refsHeld = (s.line n).refsHeld by rw [hself]; rfl] at hcounted
  obtain ⟨kgrade, kfails, -, -⟩ := Line.entered_kept s' r (s'.line n) .down
  refine ⟨isDown_congr E.line (Line.entered_down s' r _ hr), enter_noLearned (by rw [hst']; exact hst) rfl,
    hmt.staticKept, E.room.of_agree hw (fun m hm => by rw [hother m hm]) hst' hpow ⟨hwl, htl⟩, ?_, hmt.beside,
    hcounted.congr (.of_eq hcnt) (.refl _) fun m => by rw [hmoved.cfg],
    E.raised (by rw [State.running, hmg]; exact hrun), hmt.cfg n, ?_, ?_⟩
  · exact ⟨by simp [hacc], by simp [hseq]⟩
  · calc ((enter n .down r s').line n).grade = ((s'.line n).entered s' .down r).grade :=
        (congrArg Line.grade E.line : _)
      _ = (s.line n).grade := by rw [kgrade, hself]
  · calc ((enter n .down r s').line n).trainFails = ((s'.line n).entered s' .down r).trainFails :=
        (congrArg Line.trainFails E.line : _)
      _ = k := by rw [kfails, hself]

end

end Sys2Proof.Machine

namespace Sys2Proof
open Machine

/-- Settles O22: each event is an entry to DOWN, after the training failure count where the line was TRAINING. -/
theorem lineGoesDown : Obligations.LineGoesDown := by
  intro n c s hrun hw hc
  have hfail : (s.line n).st = .training → ∀ r, r ≠ .shed → Completes c s (fun t => t = failTraining n r s) →
      Completes c s fun t => (t.line n).isDown ∧ noLearned t n ∧ staticKept s t ∧ roomTaken n s t ∧ testsKept s t
        ∧ besideKept s t ∧ dropsCounted .flush [(n, (s.line n).refsHeld)] s t ∧ flagged t .lineState
        ∧ (t.line n).cfg = (s.line n).cfg ∧ (t.line n).grade = (s.line n).grade
        ∧ (t.line n).trainFails = (if (s.line n).st = .training then min 4294967295 ((s.line n).trainFails + 1)
            else (s.line n).trainFails) := by
    rintro hst r hr ⟨t, ht, rfl⟩
    refine ⟨_, ht, ?_⟩
    have hmod : (s.modLine n fun l => { l with trainFails := bump l.trainFails })
        = s.modLine n fun l => { l with trainFails := bump (s.line n).trainFails } := rfl
    rw [failTraining, hmod, if_pos hst]
    exact goesDown _ hw hrun (by rw [hst]; decide) hr
  have hleave : (s.line n).st = .up ∨ (s.line n).st = .quiet → ∀ r, r ≠ .shed →
      Completes c s (fun t => t = enter n .down r s) →
      Completes c s fun t => (t.line n).isDown ∧ noLearned t n ∧ staticKept s t ∧ roomTaken n s t ∧ testsKept s t
        ∧ besideKept s t ∧ dropsCounted .flush [(n, (s.line n).refsHeld)] s t ∧ flagged t .lineState
        ∧ (t.line n).cfg = (s.line n).cfg ∧ (t.line n).grade = (s.line n).grade
        ∧ (t.line n).trainFails = (if (s.line n).st = .training then min 4294967295 ((s.line n).trainFails + 1)
            else (s.line n).trainFails) := by
    rintro hst r hr ⟨t, ht, rfl⟩
    refine ⟨_, ht, ?_⟩
    have hnot : (s.line n).st ≠ .training ∧ (s.line n).st ≠ .down := by rcases hst with h | h <;> rw [h] <;> decide
    have hsame : (s.modLine n fun l => { l with trainFails := (s.line n).trainFails }) = s := State.modLine_same rfl
    rw [if_neg hnot.1]
    have h := goesDown (n := n) (r := r) (s.line n).trainFails hw hrun hnot.2 hr
    rwa [hsame] at h
  rcases hc with ⟨rfl | rfl | rfl, hst⟩ | ⟨rfl, hst⟩ | ⟨rfl, hst, htimer⟩
  · exact hfail hst .linkFail (by decide) ⟨_, rfl, by simp [whenRunning, hrun, hst]⟩
  · exact hfail hst .linkFail (by decide) ⟨_, rfl, by simp [whenRunning, hrun, takeLinkDown, hst]⟩
  · exact hfail hst .trainingTimeout (by decide) ⟨_, rfl, by simp [hst]⟩
  · exact hleave hst .linkDown (by decide)
      ⟨_, rfl, by rcases hst with h | h <;> simp [whenRunning, hrun, takeLinkDown, h]⟩
  · exact hleave (.inl hst) .wakeTimeout (by decide) ⟨_, rfl, by simp [hst, htimer]⟩

end Sys2Proof
end

