-- ==== Sys2Proof/Proofs/LineCommands.lean ====
section
/-! PROOF. ENABLE LINE, DISABLE LINE and CLEAR BAR (R104 to R106), and WRITE LINE with its consequences (R14 to R18). -/

namespace Sys2Proof.Machine

section
variable {n : LineNo} {new : LineState} {r : Reason} {s t u : State}

/-! ## Between states that are not awake -/

/-- An entry between states that are neither awake nor asleep takes no wake and grants none. -/
theorem enter_aside_power (hne : (s.line n).st ≠ new) (ha : awakeState (s.line n).st = false)
    (hs : asleepState (s.line n).st = false) : (enter n new r s).power = s.power := by
  rw [enter_of_not_awake ha, recomputeIf_power, enterCore_power n new r s hne, hs]
  rfl

theorem enter_aside_line (hne : (s.line n).st ≠ new) (ha : awakeState (s.line n).st = false) :
    ((enter n new r s).line n).apart = ((s.line n).entered s new r).apart ∧ othersKept n s (enter n new r s) := by
  rw [enter_of_not_awake ha]
  exact ⟨by rw [recomputeIf_apart, enterCore_line_self n new r s hne],
    fun m hm => by rw [recomputeIf_apart, enterCore_line_other n new r s hm]⟩

/-- A line written changes no other line. -/
theorem modLine_othersKept (f : Line → Line) : othersKept n s (s.modLine n f) := fun m hm => by
  rw [State.modLine_line_other s f hm]

theorem othersKept.trans (h : othersKept n s t) (k : othersKept n t u) : othersKept n s u :=
  fun m hm => (k m hm).trans (h m hm)

/-! ## The three line commands -/

theorem row_enableLine (o : Origin) (hu : s.underTest n = false) (hst : (s.line n).st = .disabled) :
    runRow (.enableLine o n.val) s = answer .ok
      [.code 1 ((enter n .down .enabled (s.modLine n fun l => { l with cfg := { l.cfg with enabled := true } })).line n).st.code,
       .code 2 (boolCode (!((enter n .down .enabled
         (s.modLine n fun l => { l with cfg := { l.cfg with enabled := true } })).line n).cfg.enabled))]
      (enter n .down .enabled (s.modLine n fun l => { l with cfg := { l.cfg with enabled := true } })) := by
  simp [runRow, cmdEnableLine, hu, hst]

theorem row_disableLine (o : Origin) (hu : s.underTest n = false) (hst : (s.line n).st ≠ .disabled)
    (hd : (s.line n).st ≠ .draining) (hh : (s.line n).st ≠ .held) : runRow (.disableLine o n.val) s = answer .ok []
      (enter n .disabled .disabled (s.modLine n fun l => { l with cfg := { l.cfg with enabled := false } })) := by
  simp [runRow, cmdDisableLine, hu, hst, hd, hh]

theorem row_clearBar (o : Origin) (hu : s.underTest n = false) (hst : (s.line n).st = .barred) :
    runRow (.clearBar o n.val) s = answer .ok [.code 1 ((enter n .down .barCleared s).line n).st.code]
      (enter n .down .barCleared s) := by
  simp [runRow, cmdClearBar, hu, hst]

/-- A line written to its settings alone, and the change of a line's state that follows. -/
theorem modCfg_kept (c : LineConfig) (hu : u = s.modLine n fun l => { l with cfg := c }) :
    u.line n = { s.line n with cfg := c } ∧ (∀ m, m ≠ n → u.line m = s.line m) ∧ besideKept s u ∧ testsKept s u
      ∧ u.power = s.power ∧ u.stations = s.stations ∧ u.counts = s.counts ∧ u.pool = s.pool := by
  subst hu
  exact ⟨by simp, fun m hm => State.modLine_line_other s _ hm, .refl s, ⟨rfl, rfl⟩, rfl, rfl, rfl, rfl⟩

theorem WakesListed.congr (hw : WakesListed s) (hl : ∀ m, (t.line m).st = (s.line m).st) (hp : t.power = s.power) :
    WakesListed t := hw.sublist (fun w _ => hl w.line) (by rw [hp])

/-- A line that DISABLE LINE takes to DISABLED (R105). -/
theorem disable_entered (hw : WakesListed s) (hst : (s.line n).st ≠ .disabled)
    (hu : u = s.modLine n fun l => { l with cfg := { l.cfg with enabled := false } }) :
    let t := enter n .disabled .disabled u
    (t.line n).st = .disabled ∧ (t.line n).cfg = { (s.line n).cfg with enabled := false }
      ∧ (t.line n).holdsNothing ∧ (t.line n).downRate = 0 ∧ (t.line n).upRate = 0
      ∧ (t.line n).command = some .off ∧ noLearned t n ∧ staticKept s t ∧ roomTaken n s t ∧ upstreamKept s t
      ∧ testsKept s t ∧ dropsCounted .flush [(n, (s.line n).refsHeld)] s t := by
  have hmod : u = s.modLine n fun l => { l with cfg := { (s.line n).cfg with enabled := false } } := by rw [hu]; rfl
  obtain ⟨hself, hother, hbeside, htests, hpow, hstat, hcnt, -⟩ := modCfg_kept _ hmod
  have hstu : (u.line n).st = (s.line n).st := by rw [hself]
  have hwu : WakesListed u := hw.congr (fun m => by
    by_cases hm : m = n
    · rw [hm, hstu]
    · rw [hother m hm]) hpow
  have E := enter_entered (r := .disabled) hwu (new := .disabled) (by rw [hstu]; exact hst) rfl
  have hm := enter_moved n .disabled .disabled (.refl u)
  obtain ⟨hnothing, hdown, hup, -, -, hcmd⟩ :=
    Line.entered_out u .disabled (u.line n) (new := .disabled) rfl (by decide)
  have hcounted := E.counted
  rw [entryFlush_all _ rfl (by decide), refs_all, show (u.line n).refsHeld = (s.line n).refsHeld by rw [hself]; rfl]
    at hcounted
  dsimp only
  refine ⟨(apart_st E.line).trans (Line.entered_st _ _ _ _), by rw [hm.cfg, hself], holdsNothing_congr E.line hnothing,
    (congrArg Line.downRate E.line : _).trans hdown, (congrArg Line.upRate E.line : _).trans hup,
    (congrArg Line.command E.line : _).trans hcmd, enter_noLearned (by rw [hstu]; exact hst) rfl,
    fun i e he hlrn => hm.staticKept i e (by rwa [hstat]) hlrn,
    E.room.of_agree hw (fun m hm => by rw [hother m hm]) hstu hpow ⟨hbeside.2.2.2.1, hbeside.2.2.1⟩,
    hbeside.1.trans hm.beside.1, ⟨by rw [enter_access, htests.1], by rw [enter_seq, htests.2]⟩,
    hcounted.congr (.of_eq hcnt) (.refl _) fun m => ?_⟩
  by_cases hm : m = n
  · rw [hm, hself]
  · rw [hother m hm]

end

end Sys2Proof.Machine

namespace Sys2Proof
open Machine

/-- Settles O48: each command's entry, and its refusal in the states that the entry does not leave. -/
theorem lineCommands : Obligations.LineCommands := by
  intro o n s hs
  refine ⟨fun hu hst => ?_, fun hbusy => ?_, fun hu hst hd hh hw => ?_, fun hu hst => ?_, fun hbusy => ?_,
    fun hu hst => ?_, fun hbusy => ?_⟩
  · generalize hmod : (s.modLine n fun l => { l with cfg := { l.cfg with enabled := true } }) = u at *
    have hrow := row_enableLine o hu hst
    rw [hmod] at hrow
    have hmod' : u = s.modLine n fun l => { l with cfg := { (s.line n).cfg with enabled := true } } := by rw [← hmod]; rfl
    obtain ⟨hself, hother, hbeside, htests, hpow, -, -, -⟩ := modCfg_kept _ hmod'
    have hstu : (u.line n).st = .disabled := by rw [hself]; exact hst
    have hne : (u.line n).st ≠ .down := by rw [hstu]; decide
    obtain ⟨hline, hothers⟩ := enter_aside_line (r := .enabled) hne (by rw [hstu]; rfl)
    have hm := enter_moved n .down .enabled (.refl u)
    have hcfg : ((enter n .down .enabled u).line n).cfg = { (s.line n).cfg with enabled := true } := by
      rw [hm.cfg, hself]
    have hdown := isDown_congr hline (Line.entered_down u .enabled (u.line n) (by decide))
    refine ⟨_, exec_of_row hs rfl hrow, hdown, hcfg, othersKept.trans (fun m hm => by rw [hother m hm]) hothers,
      hbeside.1.trans hm.beside.1, ⟨⟨(enter_access _ _ _ _).trans htests.1, (enter_seq _ _ _ _).trans htests.2⟩,
        (enter_aside_power hne (by rw [hstu]; rfl) (by rw [hstu]; rfl)).trans hpow⟩, ?_⟩
    rw [hdown.1, hcfg]
    simp [State.answered, hbeside.2.2.2.2.1, boolCode, LineState.code]
  · exact exec_of_row hs rfl (by
      rcases hbusy with h | h <;> simp [runRow, cmdEnableLine, h, refuse_eq])
  · obtain ⟨h1, h2, h3, h4, h5, h6, h7, h8, h9, h10, h11, h12⟩ := disable_entered hw hst rfl
    exact ⟨_, exec_of_row hs rfl (row_disableLine o hu hst hd hh), h1, h2, h3, h4, h5, h6, h7, h8, h9, h10, h11, h12,
      by simp [State.answered]⟩
  · exact exec_of_row hs rfl (by simp [runRow, cmdDisableLine, hu, hst, refuse_eq])
  · exact exec_of_row hs rfl (by
      rcases hbusy with h | h | h <;> simp [runRow, cmdDisableLine, h, refuse_eq])
  · have hne : (s.line n).st ≠ .down := by rw [hst]; decide
    obtain ⟨hline, hothers⟩ := enter_aside_line (r := .barCleared) hne (by rw [hst]; rfl)
    have hm := enter_moved n .down .barCleared (.refl s)
    have hdown := isDown_congr hline (Line.entered_down s .barCleared (s.line n) (by decide))
    refine ⟨_, exec_of_row hs rfl (row_clearBar o hu hst), hdown, hm.cfg n, ?_, hothers, hm.beside.1,
      ⟨⟨by simp [State.answered], by simp [State.answered]⟩, enter_aside_power hne (by rw [hst]; rfl) (by rw [hst]; rfl)⟩, ?_⟩
    · exact (congrArg Line.grade hline : _).trans (Line.entered_kept s .barCleared (s.line n) .down).1
    · rw [hdown.1]
      simp [State.answered, LineState.code]
  · exact exec_of_row hs rfl (by
      rcases hbusy with h | h <;> simp [runRow, cmdClearBar, h, refuse_eq])

end Sys2Proof

namespace Sys2Proof.Machine

/-! ## WRITE LINE -/

section
variable {n : LineNo} {f : LineFields} {s t u : State}

/-- A write that nothing refuses (R17, R18). -/
theorem row_writeLine (o : Origin) (he : LineFields.exist f = true) (hl : lockForbids s o = false)
    (hu : u = s.modLine n fun l => { l with cfg := LineFields.store f l.cfg }) : runRow (.writeLine o n.val f) s =
      answer (clampStatus (LineFields.clamps f)) (LineFields.store f (s.line n).cfg).items
        (afterLineWrite n f (s.line n).cfg u) := by
  have hmod : u = s.modLine n fun l => { l with cfg := LineFields.store f (s.line n).cfg } := by rw [hu]; rfl
  simp [runRow, cmdWriteLine, he, hl, hmod]

/-- The one recompute of a write (R18). -/
def sharesWritten (old : LineConfig) (n : LineNo) (u : State) : State :=
  if shareChange old (u.line n).cfg then recompute u else u

theorem sharesWritten_apart (old : LineConfig) (m : LineNo) : ((sharesWritten old n u).line m).apart = (u.line m).apart := by
  unfold sharesWritten
  split
  · exact recompute_apart u m
  · rfl

/-- The recompute of a write leaves all but the shares, the credits and the results. -/
theorem sharesWritten_kept (old : LineConfig) : let x := sharesWritten old n u
    x.stations = u.stations ∧ x.pool = u.pool ∧ x.counts = u.counts ∧ x.power = u.power ∧ x.access = u.access
      ∧ x.seq = u.seq ∧ besideKept u x := by
  dsimp only
  unfold sharesWritten
  split
  · exact ⟨rfl, rfl, rfl, rfl, rfl, rfl, recompute_besideKept u⟩
  · exact ⟨rfl, rfl, rfl, rfl, rfl, rfl, .refl u⟩

theorem sharesWritten_none {old : LineConfig} (h : shareChange old (u.line n).cfg = false) : sharesWritten old n u = u := by
  simp [sharesWritten, h]

/-- A write that carries neither the committed rate, the weight nor the cap calls for no recompute (R18). -/
theorem shareChange_none {c : LineConfig} (h1 : f.committed = none) (h2 : f.weight = none) (h3 : f.cap = none) :
    shareChange c (LineFields.store f c) = false := by
  simp [shareChange, LineFields.store, h1, h2, h3, clampOr]

theorem afterLineWrite_eq (old : LineConfig) : afterLineWrite n f old u =
    (let x := sharesWritten old n u
     let y := if f.quietDelay.isSome then rederiveQuiet n x else x
     if f.dormantDelay.isSome then rederiveDormant n y else y) := rfl

theorem afterLineWrite_noDelays (old : LineConfig) (hq : f.quietDelay = none) (hd : f.dormantDelay = none) :
    afterLineWrite n f old u = sharesWritten old n u := by
  simp [afterLineWrite_eq, hq, hd]

theorem afterLineWrite_quiet (old : LineConfig) (hq : f.quietDelay.isSome = true) (hd : f.dormantDelay = none) :
    afterLineWrite n f old u = rederiveQuiet n (sharesWritten old n u) := by
  simp [afterLineWrite_eq, hq, hd]

theorem rederiveQuiet_not_reached (h : idleReached (currentPolicy s) (s.line n) = false) : rederiveQuiet n s = s := by
  simp [rederiveQuiet, h]

theorem rederiveQuiet_reached (h : idleReached (currentPolicy s) (s.line n) = true) :
    rederiveQuiet n s = enter n .quiet .idle s := by
  simp [rederiveQuiet, h]

/-- A line that is not UP, or whose idle timer does not run, has not reached its quiet delay (R93). -/
theorem idleReached_of_not_up {p : Policy} {l : Line} (h : l.st ≠ .up ∨ l.idle = none) : idleReached p l = false := by
  unfold idleReached
  split
  · rcases h with h | h <;> simp_all
  · rfl

/-- In QUIET the write of a dormant delay compares it with the time in QUIET (R94). -/
theorem afterLineWrite_dormant (old : LineConfig) (hst : (u.line n).st = .quiet) (hd : f.dormantDelay.isSome = true) :
    afterLineWrite n f old u = rederiveDormant n (sharesWritten old n u) := by
  have hx : ((sharesWritten old n u).line n).st ≠ .up := by
    rw [apart_st (sharesWritten_apart old n), hst]
    decide
  rw [afterLineWrite_eq]
  simp only [hd, if_true, rederiveQuiet_not_reached (idleReached_of_not_up (.inl hx)), ite_self]

/-- The entry to QUIET that a written quiet delay makes of an idle line (R93, R170). -/
theorem quiet_entered {x : State} (hw : WakesListed s) (hx : ∀ m, m ≠ n → (x.line m).apart = (s.line m).apart)
    (hst : (x.line n).st = .up) (hsu : (s.line n).st = .up) (hp : x.power = s.power)
    (hlim : x.wakeLimit = s.wakeLimit ∧ x.trainLimit = s.trainLimit) (hrun : x.running = s.running) :
    let t := enter n .quiet .idle x
    (t.line n).st = .quiet ∧ (t.line n).quietFor = some 0 ∧ (t.line n).command = some .lowPower
      ∧ (t.line n).share = 0 ∧ (t.line n).credit = 0 ∧ (s.running = true → flagged t .lineState)
      ∧ roomTaken n s t ∧ t.stations = x.stations ∧ dropsCounted .flush [] x t := by
  have hwx : WakesListed x := hw.congr (fun m => by
    by_cases hm : m = n
    · rw [hm, hst, hsu]
    · exact apart_st (hx m hm)) hp
  have hne : (x.line n).st ≠ .quiet := by rw [hst]; decide
  have E := enter_entered (r := .idle) hwx hne rfl
  obtain ⟨-, hshare, hcredit⟩ := E.unshared (by rw [hst]; rfl)
  have hcounted := E.counted
  have hflush : entryFlush (x.line n).st .quiet .idle =
      { down := false, up := false, wake := false, hand := false, cause := .flush } := by rw [hst]; rfl
  rw [hflush] at hcounted
  have hline : ((x.line n).entered x .quiet .idle).quietFor = some 0
      ∧ ((x.line n).entered x .quiet .idle).command = some .lowPower := by
    simp [Line.entered, hflush, enterState, entryCommand]
  dsimp only
  refine ⟨(apart_st E.line).trans (Line.entered_st _ _ _ _), (congrArg Line.quietFor E.line : _).trans hline.1,
    (congrArg Line.command E.line : _).trans hline.2, hshare, hcredit, fun hr => E.raised (hrun.trans hr),
    E.room.of_agree hw hx (hst.trans hsu.symm) hp hlim, ?_, ?_⟩
  · rw [enter_stations, enterCore_stations n _ _ x hne]
    rfl
  · rw [dropsCounted_iff] at hcounted ⊢
    refine ⟨hcounted.1, fun j => (hcounted.2 j).trans ?_⟩
    congr 1
    by_cases hj : (x.line n).cfg.counterSet = some j <;> simp [refsOfSet, hj, Flush.refs]

/-- The entry to DORMANT that a written dormant delay makes of a QUIET line (R94, R39). -/
theorem dormant_entered {x : State} (hw : WakesListed s) (hx : ∀ m, m ≠ n → (x.line m).apart = (s.line m).apart)
    (hst : (x.line n).st = .quiet) (hsu : (s.line n).st = .quiet) (hp : x.power = s.power)
    (hlim : x.wakeLimit = s.wakeLimit ∧ x.trainLimit = s.trainLimit) (hrun : x.running = s.running) :
    let t := enter n .dormant .dormantDelay x
    (t.line n).st = .dormant ∧ (t.line n).command = some .off ∧ (t.line n).downQ = [] ∧ (t.line n).upRate = 0
      ∧ (s.running = true → flagged t .lineState) ∧ roomTaken n s t ∧ t.stations = x.stations
      ∧ dropsCounted .flush [(n, (x.line n).downQ.length)] x t := by
  have hwx : WakesListed x := hw.congr (fun m => by
    by_cases hm : m = n
    · rw [hm, hst, hsu]
    · exact apart_st (hx m hm)) hp
  have hne : (x.line n).st ≠ .dormant := by rw [hst]; decide
  have E := enter_entered (r := .dormantDelay) hwx hne rfl
  have hflush : entryFlush (x.line n).st .dormant .dormantDelay =
      { down := true, up := false, wake := false, hand := false, cause := .flush } := by rw [hst]; rfl
  have hcounted := E.counted
  rw [hflush] at hcounted
  have hline : ((x.line n).entered x .dormant .dormantDelay).command = some .off
      ∧ ((x.line n).entered x .dormant .dormantDelay).downQ = []
      ∧ ((x.line n).entered x .dormant .dormantDelay).upRate = 0 := by
    simp [Line.entered, hflush, enterState, entryCommand, Flush.empty]
  dsimp only
  refine ⟨(apart_st E.line).trans (Line.entered_st _ _ _ _), (congrArg Line.command E.line : _).trans hline.1,
    (congrArg Line.downQ E.line : _).trans hline.2.1, (congrArg Line.upRate E.line : _).trans hline.2.2,
    fun hr => E.raised (hrun.trans hr), E.room.of_agree hw hx (hst.trans hsu.symm) hp hlim, ?_, ?_⟩
  · rw [enter_stations, enterCore_stations n _ _ x hne]
    rfl
  · simpa [Flush.refs] using hcounted

/-- The number of a stored counter set is the one carried (R14). -/
theorem store_counterSet {w : Option Nat} {c : LineConfig} (he : LineFields.exist f = true) (hw : f.counterSet = some w) :
    (LineFields.store f c).counterSet.map Fin.val = w := by
  have hok : indexOk Machine.setOf f.counterSet = true := by
    simp only [LineFields.exist, Bool.and_eq_true] at he
    exact he.1.1.1.1.2
  rw [hw] at hok
  simp only [LineFields.store, hw]
  cases w with
  | none => rfl
  | some j =>
    by_cases hj : j < 16
    · simp [indexOr, Machine.setOf, hj]
    · simp [indexOk, Machine.setOf, hj] at hok

theorem shareChange_iff {c d : LineConfig} : shareChange c d = true ↔
    d.committed ≠ c.committed ∨ d.weight ≠ c.weight ∨ d.cap ≠ c.cap := by
  simp [shareChange, or_assoc, ne_comm]

/-- What a write and its recompute leave: the line's record as stored, and of the rest what a recompute writes (R18). -/
structure Written (n : LineNo) (f : LineFields) (s x : State) : Prop where
  line : (x.line n).apart = { (s.line n).apart with cfg := LineFields.store f (s.line n).cfg }
  others : othersKept n s x
  stations : x.stations = s.stations
  pool : x.pool = s.pool
  counts : x.counts = s.counts
  power : x.power = s.power
  tests : testsKept s x
  beside : besideKept s x

theorem written (hu : u = s.modLine n fun l => { l with cfg := LineFields.store f l.cfg }) :
    Written n f s (sharesWritten (s.line n).cfg n u) := by
  obtain ⟨hself, hother, hbeside, htests, hpow, hstat, hcnt, hpool⟩ :=
    modCfg_kept (n := n) (s := s) (u := u) (LineFields.store f (s.line n).cfg) (by rw [hu]; rfl)
  obtain ⟨kstat, kpool, kcnt, kpow, kacc, kseq, kbeside⟩ := sharesWritten_kept (n := n) (u := u) (s.line n).cfg
  exact {
    line := (sharesWritten_apart _ n).trans (by rw [hself]; rfl)
    others := fun m hm => (sharesWritten_apart _ m).trans (by rw [hother m hm])
    stations := kstat.trans hstat
    pool := kpool.trans hpool
    counts := kcnt.trans hcnt
    power := kpow.trans hpow
    tests := ⟨kacc.trans htests.1, kseq.trans htests.2⟩
    beside := hbeside.trans kbeside }

theorem Written.cfg (h : Written n f s t) : (t.line n).cfg = LineFields.store f (s.line n).cfg :=
  (congrArg Line.cfg h.line : _)
theorem Written.st (h : Written n f s t) : (t.line n).st = (s.line n).st := (congrArg Line.st h.line : _)
theorem Written.idle (h : Written n f s t) : (t.line n).idle = (s.line n).idle := (congrArg Line.idle h.line : _)
theorem Written.quietFor (h : Written n f s t) : (t.line n).quietFor = (s.line n).quietFor :=
  (congrArg Line.quietFor h.line : _)
theorem Written.downQ (h : Written n f s t) : (t.line n).downQ = (s.line n).downQ := (congrArg Line.downQ h.line : _)
theorem Written.limits (h : Written n f s t) : t.wakeLimit = s.wakeLimit ∧ t.trainLimit = s.trainLimit :=
  ⟨h.beside.2.2.2.1, h.beside.2.2.1⟩
theorem Written.mgmt (h : Written n f s t) : t.mgmt = s.mgmt := h.beside.2.2.2.2.1
theorem Written.running (h : Written n f s t) : t.running = s.running := by rw [State.running, h.mgmt]; rfl
theorem Written.policy (h : Written n f s t) : currentPolicy t = currentPolicy s := by
  rw [currentPolicy, h.power]; rfl

theorem Written.quietDelay {v : Nat} (h : Written n f s t) (hq : f.quietDelay = some v) :
    (t.line n).cfg.quietDelay = min 3600 v := by
  rw [h.cfg]
  simp [LineFields.store, hq, clampOr, clamp]

theorem Written.dormantDelay {v : Nat} (h : Written n f s t) (hd : f.dormantDelay = some v) :
    (t.line n).cfg.dormantDelay = min 86400 v := by
  rw [h.cfg]
  simp [LineFields.store, hd, clampOr, clamp]

/-- An UP line has reached a written quiet delay when its idle timer is at or above it under the policy's cap (R93). -/
theorem Written.idleReached_iff {v k : Nat} (h : Written n f s t) (hst : (s.line n).st = .up)
    (hidle : (s.line n).idle = some k) (hq : f.quietDelay = some v) (hv : 0 < v) :
    idleReached (currentPolicy t) (t.line n) = true ↔
      (if (currentPolicy s).quietCap = 0 then min 3600 v else min (min 3600 v) (currentPolicy s).quietCap) ≤ k / 1000 := by
  have hnz : min 3600 v ≠ 0 := by omega
  unfold idleReached effectiveQuiet
  rw [h.policy, h.quietDelay hq, h.idle, hidle, h.st, hst, if_neg hnz]
  by_cases hc : (currentPolicy s).quietCap = 0
  · rw [if_pos hc, if_pos hc]
    simp
  · rw [if_neg hc, if_neg hc]
    simp

/-- The dormant timer compared with a written dormant delay, in QUIET (R94). -/
theorem Written.rederiveDormant_eq {v k : Nat} (h : Written n f s t) (hst : (s.line n).st = .quiet)
    (hquiet : (s.line n).quietFor = some k) (hd : f.dormantDelay = some v) : rederiveDormant n t =
      if 0 < v ∧ min 86400 v * 1000 ≤ k then enter n .dormant .dormantDelay t else t := by
  have hcond : ((t.line n).st = .quiet ∧ (t.line n).cfg.dormantDelay ≠ 0 ∧ (t.line n).cfg.dormantDelay * 1000 ≤ k)
      ↔ (0 < v ∧ min 86400 v * 1000 ≤ k) := by
    rw [h.st, hst, h.dormantDelay hd]
    constructor
    · rintro ⟨-, h1, h2⟩
      exact ⟨by omega, h2⟩
    · rintro ⟨h1, h2⟩
      exact ⟨rfl, by omega, h2⟩
  unfold rederiveDormant
  simp only [h.quietFor, hquiet, hcond]

end

end Sys2Proof.Machine

namespace Sys2Proof
open Machine

section
variable {o : Origin} {n : LineNo} {f : LineFields} {v k : Nat} {s u : State}

/-- A write without delays: the record as stored, and one recompute where a share's figure differs (R17, R18). -/
theorem writeLine_stored (hs : s.takesCommands) (he : LineFields.exist f = true) (hl : lockForbids s o = false)
    (hq : f.quietDelay = none) (hd : f.dormantDelay = none) : Completes (.writeLine o n.val f) s fun t =>
      (t.line n).apart = { (s.line n).apart with cfg := LineFields.store f (s.line n).cfg } ∧ othersKept n s t
        ∧ (t.line n).cfg.enabled = (s.line n).cfg.enabled
        ∧ (∀ w, f.vlan = some w → (t.line n).cfg.vlan = max 1 (min 4094 w))
        ∧ (∀ w, f.weight = some w → (t.line n).cfg.weight = max 1 (min 64 w))
        ∧ (∀ w, f.committed = some w → (t.line n).cfg.committed = min 100000 w)
        ∧ (∀ w, f.downLimit = some w → (t.line n).cfg.downLimit = max 16 (min 1024 w))
        ∧ (∀ w, f.counterSet = some w → (t.line n).cfg.counterSet.map Fin.val = w)
        ∧ (f.committed = none → f.weight = none → f.cap = none → t.shares = s.shares ∧ t.sched = s.sched)
        ∧ upstreamKept s t ∧ plantKept s t ∧ t.stations = s.stations ∧ t.pool = s.pool ∧ t.counts = s.counts
        ∧ t.mgmt = { s.mgmt with
            lastResult := some
              { status := if LineFields.clamps f = true then .clamped else .ok, items := (t.line n).cfg.items } }
        ∧ t.memory = s.memory := by
  have hrow := row_writeLine o he hl (n := n) rfl
  rw [afterLineWrite_noDelays _ hq hd] at hrow
  have W := written (n := n) (f := f) (s := s) rfl
  have hsame : f.committed = none → f.weight = none → f.cap = none → sharesWritten (s.line n).cfg n
      (s.modLine n fun l => { l with cfg := LineFields.store f l.cfg })
        = s.modLine n fun l => { l with cfg := LineFields.store f l.cfg } := fun h1 h2 h3 =>
    sharesWritten_none (by rw [State.modLine_line_self]; exact shareChange_none h1 h2 h3)
  generalize sharesWritten (s.line n).cfg n (s.modLine n fun l => { l with cfg := LineFields.store f l.cfg }) = x at *
  refine ⟨_, exec_of_row hs rfl hrow, W.line, W.others, (congrArg LineConfig.enabled W.cfg : _), fun w hw => ?_,
    fun w hw => ?_, fun w hw => ?_, fun w hw => ?_, fun w hw => ?_, fun h1 h2 h3 => ?_, W.beside.1, ⟨W.tests, W.power⟩,
    W.stations, W.pool, W.counts, ?_, W.beside.2.2.2.2.2⟩
  · exact (congrArg LineConfig.vlan W.cfg : _).trans (by simp [LineFields.store, hw, clampOr, clamp])
  · exact (congrArg LineConfig.weight W.cfg : _).trans (by simp [LineFields.store, hw, clampOr, clamp])
  · exact (congrArg LineConfig.committed W.cfg : _).trans (by simp [LineFields.store, hw, clampOr, clamp])
  · exact (congrArg LineConfig.downLimit W.cfg : _).trans (by simp [LineFields.store, hw, clampOr, clamp])
  · exact (congrArg (fun c : LineConfig => c.counterSet.map Fin.val) W.cfg : _).trans (store_counterSet he hw)
  · rw [hsame h1 h2 h3]
    exact ⟨rfl, rfl⟩
  · simp only [State.answered, State.modMgmt_mgmt, State.modMgmt_line, W.mgmt, W.cfg]
    rfl

/-- A write that carries none of the figures of a share writes the record alone before its delays (R18). -/
theorem sharesWritten_unchanged (hu : u = s.modLine n fun l => { l with cfg := LineFields.store f l.cfg })
    (h1 : f.committed = none) (h2 : f.weight = none) (h3 : f.cap = none) : sharesWritten (s.line n).cfg n u = u :=
  sharesWritten_none (by rw [hu, State.modLine_line_self]; exact shareChange_none h1 h2 h3)

/-- A quiet delay that is not carried, or that the idle timer cannot reach, moves nothing (R93). -/
theorem writeLine_stays (hs : s.takesCommands) (he : LineFields.exist f = true) (hl : lockForbids s o = false)
    (hu : u = s.modLine n fun l => { l with cfg := LineFields.store f l.cfg }) (hd : f.dormantDelay = none)
    (h1 : f.committed = none) (h2 : f.weight = none) (h3 : f.cap = none)
    (hno : (s.line n).st ≠ .up ∨ (s.line n).idle = none ∨ f.quietDelay = some 0) : exec (.writeLine o n.val f) s =
      .next (u.answered (clampStatus (LineFields.clamps f)) (LineFields.store f (s.line n).cfg).items) := by
  have W := written hu
  have hrow := row_writeLine o he hl hu
  rw [afterLineWrite_eq] at hrow
  simp only [sharesWritten_unchanged hu h1 h2 h3, hd, Option.isSome_none, Bool.false_eq_true, if_false] at W hrow
  have hreached : idleReached (currentPolicy u) (u.line n) = false := by
    rcases hno with h | h | h
    · exact idleReached_of_not_up (.inl (by rw [W.st]; exact h))
    · exact idleReached_of_not_up (.inr (by rw [W.idle]; exact h))
    · simp [idleReached, effectiveQuiet, W.quietDelay h]
  rw [rederiveQuiet_not_reached hreached, ite_self] at hrow
  exact exec_of_row hs rfl hrow

/-- A quiet delay that the idle timer has reached (R93, R170). -/
theorem writeLine_quiet (hs : s.takesCommands) (he : LineFields.exist f = true) (hl : lockForbids s o = false)
    (hu : u = s.modLine n fun l => { l with cfg := LineFields.store f l.cfg }) (hw : WakesListed s)
    (hd : f.dormantDelay = none) (hst : (s.line n).st = .up) (hidle : (s.line n).idle = some k)
    (hq : f.quietDelay = some v) (hv : 0 < v)
    (hreach : (if (currentPolicy s).quietCap = 0 then min 3600 v else min (min 3600 v) (currentPolicy s).quietCap)
      ≤ k / 1000) : Completes (.writeLine o n.val f) s fun t =>
        (t.line n).st = .quiet ∧ (t.line n).quietFor = some 0 ∧ (t.line n).command = some .lowPower
          ∧ (t.line n).share = 0 ∧ (t.line n).credit = 0 ∧ (s.running = true → flagged t .lineState)
          ∧ roomTaken n s t ∧ testsKept s t ∧ t.stations = s.stations ∧ dropsCounted .flush [] u t := by
  have W := written hu
  have hrow := row_writeLine o he hl hu
  rw [afterLineWrite_quiet _ (by simp [hq]) hd, rederiveQuiet_reached ((W.idleReached_iff hst hidle hq hv).mpr hreach)]
    at hrow
  obtain ⟨h1, h2, h3, h4, h5, h6, h7, h8, h9⟩ :=
    quiet_entered hw W.others (W.st.trans hst) hst W.power W.limits W.running
  have htests : testsKept s (enter n .quiet .idle (sharesWritten (s.line n).cfg n u)) :=
    ⟨(enter_access _ _ _ _).trans W.tests.1, (enter_seq _ _ _ _).trans W.tests.2⟩
  have hcounted := h9.congr (.of_eq (sharesWritten_kept (n := n) (u := u) (s.line n).cfg).2.2.1) (.refl _) fun m => by
    rw [apart_cfg (sharesWritten_apart _ m)]
  have hstations := h8.trans W.stations
  generalize enter n .quiet .idle (sharesWritten (s.line n).cfg n u) = t at *
  exact ⟨_, exec_of_row hs rfl hrow, h1, h2, h3, h4, h5, h6, h7, htests, hstations, hcounted⟩

/-- A dormant delay that the time in QUIET has reached (R94, R39). -/
theorem writeLine_dormant (hs : s.takesCommands) (he : LineFields.exist f = true) (hl : lockForbids s o = false)
    (hu : u = s.modLine n fun l => { l with cfg := LineFields.store f l.cfg }) (hw : WakesListed s)
    (hst : (s.line n).st = .quiet) (hquiet : (s.line n).quietFor = some k) (hd : f.dormantDelay = some v) (hv : 0 < v)
    (hreach : min 86400 v * 1000 ≤ k) : Completes (.writeLine o n.val f) s fun t =>
        (t.line n).st = .dormant ∧ (t.line n).command = some .off ∧ (t.line n).downQ = [] ∧ (t.line n).upRate = 0
          ∧ (s.running = true → flagged t .lineState) ∧ roomTaken n s t ∧ testsKept s t ∧ t.stations = s.stations
          ∧ dropsCounted .flush [(n, (s.line n).downQ.length)] u t := by
  have W := written hu
  have hrow := row_writeLine o he hl hu
  have hun : (u.line n).st = .quiet := by rw [hu, State.modLine_line_self]; exact hst
  rw [afterLineWrite_dormant _ hun (by simp [hd]), W.rederiveDormant_eq hst hquiet hd, if_pos ⟨hv, hreach⟩] at hrow
  obtain ⟨h1, h2, h3, h4, h5, h6, h7, h8⟩ :=
    dormant_entered hw W.others (W.st.trans hst) hst W.power W.limits W.running
  rw [W.downQ] at h8
  have htests : testsKept s (enter n .dormant .dormantDelay (sharesWritten (s.line n).cfg n u)) :=
    ⟨(enter_access _ _ _ _).trans W.tests.1, (enter_seq _ _ _ _).trans W.tests.2⟩
  have hcounted := h8.congr (.of_eq (sharesWritten_kept (n := n) (u := u) (s.line n).cfg).2.2.1) (.refl _) fun m => by
    rw [apart_cfg (sharesWritten_apart _ m)]
  have hstations := h7.trans W.stations
  generalize enter n .dormant .dormantDelay (sharesWritten (s.line n).cfg n u) = t at *
  exact ⟨_, exec_of_row hs rfl hrow, h1, h2, h3, h4, h5, h6, htests, hstations, hcounted⟩

end

/-- Settles O47: the checks of R17 in their order, then the recompute and the two delays of R18. -/
theorem writeLine : Obligations.WriteLine := by
  intro o n f v k u s hs
  refine ⟨fun he => ?_, fun hv => ?_, fun he hl hprot => ?_, fun he hl hq hd => writeLine_stored hs he hl hq hd,
    fun he hl => ?_, fun he hl hu => ⟨fun hq hd => ?_, fun hd h1 h2 h3 hno => writeLine_stays hs he hl hu hd h1 h2 h3 hno,
      fun hw hd hst hidle hq hv hreach => writeLine_quiet hs he hl hu hw hd hst hidle hq hv hreach,
      fun hw hst hquiet hd hv hreach => writeLine_dormant hs he hl hu hw hst hquiet hd hv hreach,
      fun h1 h2 h3 hst hquiet hd hno => ?_⟩⟩
  · exact exec_of_row hs rfl (by simp [runRow, cmdWriteLine, he, refuse_eq])
  · exact exec_of_row hs rfl (by simp [runRow, cmdWriteLine, lineOf_of_le hv, refuse_eq])
  · exact exec_of_row hs rfl (by simp [runRow, cmdWriteLine, he, hl, hprot, refuse_eq])
  · refine ⟨_, exec_of_row hs rfl (row_writeLine o he hl rfl), ?_⟩
    have hm := afterLineWrite_moved n f (s.line n).cfg
      (.refl (s.modLine n fun l => { l with cfg := LineFields.store f l.cfg }))
    exact (hm.cfg n).trans (by simp)
  · have hrow := row_writeLine o he hl hu
    rw [afterLineWrite_noDelays _ hq hd, sharesWritten] at hrow
    simp only [shareChange_iff] at hrow
    exact exec_of_row hs rfl hrow
  · have W := written hu
    have hrow := row_writeLine o he hl hu
    have hun : (u.line n).st = .quiet := by rw [hu, State.modLine_line_self]; exact hst
    have hcond : ¬ (0 < v ∧ min 86400 v * 1000 ≤ k) := by omega
    rw [afterLineWrite_dormant _ hun (by simp [hd]), W.rederiveDormant_eq hst hquiet hd, if_neg hcond,
      sharesWritten_unchanged hu h1 h2 h3] at hrow
    exact exec_of_row hs rfl hrow

end Sys2Proof
end

