-- ==== Sys2Proof/Proofs/StartUpComplete.lean ====
section
/-! PROOF. START_UP_COMPLETE (O6): what the first power state, the recompute and the timers write stands once the
sequencer has entered IDLE, and an asserted EXTREQ suspends it there. -/

namespace Sys2Proof.Machine

variable {s : State}

/-! ## A sequencer in IDLE with EXTREQ asserted -/

theorem suspendSeq_yields (s : State) : (suspendSeq s).seq.extack = true ∧ (suspendSeq s).seq.st = .suspended := by
  simp only [suspendSeq]
  split <;> exact ⟨rfl, rfl⟩

theorem idleStep_of_extreq (hst : s.seq.st = .idle) (hr : s.running = true) (hx : s.seq.extreq = true) :
    idleStep s = suspendSeq s := by
  simp [idleStep, boundary, hst, hr, hx]

/-! ## The part in service -/

/-- The part as START_UP_COMPLETE leaves it before the sequencer enters IDLE. -/
def inService (sample : Nat) (s : State) : State :=
  let chosen := if s.power.mainsOk then .mains else batteryChoice s.power sample
  let s := recompute (setPowerState chosen (s.modPower fun p => { p with sample := some (sample, s.mgmt.time) }))
  let s := s.modSched fun c => { c with refill := some Config.refillMs }
  let s := s.modStations fun t => { t with sweep := some Config.sweepMs }
  s.modMgmt fun m => { m with phase := .running }

theorem completeStartUp_eq (sample : Nat) (s : State) : completeStartUp sample s = enterIdle (inService sample s) := rfl

theorem enterIdle_of_extreq (hr : s.running = true) (hx : s.seq.extreq = true) :
    (enterIdle s).seq.extack = true ∧ (enterIdle s).seq.st = .suspended := by
  rw [enterIdle, idleStep_of_extreq]
  · exact suspendSeq_yields _
  · rfl
  · exact hr
  · exact hx

end Sys2Proof.Machine

namespace Sys2Proof
open Machine

/-- Settles O6: after the entry to IDLE nothing that the completion wrote has moved but the wake list, the Station
Table's entries and the sequencer, by `enterIdle_moved`. -/
theorem startUpComplete : Obligations.StartUpComplete := by
  intro mv s hs
  refine ⟨completeStartUp mv s, by simp [exec, execStartUpComplete, hs], ?_⟩
  have hmoved : Moved (inService mv s) (completeStartUp mv s) := enterIdle_moved (.refl _)
  obtain ⟨⟨-, hsched⟩, -, -, -, hmgmt, hmem⟩ := hmoved.beside
  have hpower : ∀ {α : Type} (f : Power → α), (∀ p l, f { p with wakeList := l } = f p) →
      f (completeStartUp mv s).power = f (inService mv s).power := fun f hf =>
    (hf _ _).symm.trans (congrArg f hmoved.power)
  refine ⟨hmgmt, hpower Power.sample fun _ _ => rfl, hpower Power.lastChange fun _ _ => rfl,
    hpower Power.stableTimer fun _ _ => rfl, ?_, congrArg Sched.refill hsched, congrArg Stations.sweep hmoved.stations,
    fun hx => enterIdle_of_extreq (s := inService mv s) rfl hx, hmem⟩
  rw [hpower Power.state fun _ _ => rfl]
  rfl

end Sys2Proof
end

