-- ==== Sys2Proof/Proofs/TrafficReset.lean ====
section
/-! PROOF. TRAFFIC_RESET (O7), stage by stage as R192 orders them: the frames let go and counted, the lines sent to DOWN
with nothing left to flush, the test ended, and the sequencer left in IDLE with an empty queue. -/

namespace Sys2Proof.Machine

/-! ## A pass over the lines -/

section
variable {f : State → LineNo → State}

/-- A pass that changes one line at a time leaves the lines that it does not reach. -/
theorem foldl_line_other (hother : ∀ u n m, m ≠ n → (f u n).line m = u.line m) {ns : List LineNo} {m : LineNo}
    (hm : m ∉ ns) (s : State) : (ns.foldl f s).line m = s.line m := by
  induction ns generalizing s with
  | nil => rfl
  | cons n ns ih =>
    obtain ⟨hne, hrest⟩ := not_or.mp (mt List.mem_cons.mpr hm)
    exact (ih hrest (f s n)).trans (hother s n m hne)

/-- A pass that changes one line at a time relates each line that it reaches to the line before as its step does. -/
theorem foldl_line_self {R : Line → Line → Prop} (hself : ∀ u n, R (u.line n) ((f u n).line n))
    (hother : ∀ u n m, m ≠ n → (f u n).line m = u.line m) {ns : List LineNo} (hnd : ns.Nodup) {m : LineNo} (hm : m ∈ ns)
    (s : State) : R (s.line m) ((ns.foldl f s).line m) := by
  induction ns generalizing s with
  | nil => simp at hm
  | cons n ns ih =>
    obtain ⟨hnot, hnd⟩ := List.nodup_cons.mp hnd
    by_cases hmn : m = n
    · subst hmn
      rw [List.foldl_cons, foldl_line_other hother hnot]
      exact hself s m
    · rw [← hother s n m hmn]
      exact ih hnd ((List.mem_cons.mp hm).resolve_left hmn) (f s n)

end

/-! ## Frames let go -/

/-- What letting go of frame records leaves: everything but the pool's records and free count, the events, the
device-wide counters beside those of drops, and the transmissions and lists that held them (R34, R36). -/
structure LetGo (s t : State) : Prop where
  lines : t.lines = s.lines
  stations : t.stations = s.stations
  shares : t.shares = s.shares
  access : t.access = s.access
  seq : t.seq = s.seq
  power : t.power = s.power
  memory : t.memory = s.memory
  nextId : t.pool.nextId = s.pool.nextId
  resetCause : t.counts.resetCause = s.counts.resetCause
  counts : countsSame s t

section
variable {s t : State}

theorem LetGo.refl (s : State) : LetGo s s := ⟨rfl, rfl, rfl, rfl, rfl, rfl, rfl, rfl, rfl, .refl s⟩

theorem LetGo.trans {u : State} (h : LetGo s t) (k : LetGo t u) : LetGo s u where
  lines := k.lines.trans h.lines
  stations := k.stations.trans h.stations
  shares := k.shares.trans h.shares
  access := k.access.trans h.access
  seq := k.seq.trans h.seq
  power := k.power.trans h.power
  memory := k.memory.trans h.memory
  nextId := k.nextId.trans h.nextId
  resetCause := k.resetCause.trans h.resetCause
  counts := h.counts.trans k.counts

theorem dropRef_nextId (id : Nat) (s : State) : (dropRef id s).pool.nextId = s.pool.nextId := by
  unfold dropRef
  split
  · rfl
  · split
    · exact setFree_nextId _ _
    · rfl

theorem dropRef_letGo (id : Nat) (s : State) : LetGo s (dropRef id s) where
  lines := dropRef_lines s id
  stations := dropRef_stations s id
  shares := dropRef_shares s id
  access := dropRef_access s id
  seq := dropRef_seq s id
  power := dropRef_power s id
  memory := dropRef_memory s id
  nextId := dropRef_nextId id s
  resetCause := (dropRef_moved id (.refl s)).resetCause
  counts := dropRef_countsSame id s

theorem countDev_letGo (c : DevCount) (s : State) : LetGo s (countDev c s) :=
  ⟨rfl, rfl, rfl, rfl, rfl, rfl, rfl, rfl, rfl, rfl, rfl⟩

theorem modSched_letGo (f : Sched → Sched) (s : State) : LetGo s (s.modSched f) :=
  ⟨rfl, rfl, rfl, rfl, rfl, rfl, rfl, rfl, rfl, .refl s⟩

theorem modMgmt_letGo (f : Mgmt → Mgmt) (s : State) : LetGo s (s.modMgmt f) :=
  ⟨rfl, rfl, rfl, rfl, rfl, rfl, rfl, rfl, rfl, .refl s⟩

theorem modPool_letGo (f : Pool → Pool) (hf : ∀ p, (f p).nextId = p.nextId) (s : State) : LetGo s (s.modPool f) :=
  ⟨rfl, rfl, rfl, rfl, rfl, rfl, rfl, hf _, rfl, .refl s⟩

theorem dropRefs_letGo (ids : List Nat) (s : State) : LetGo s (ids.foldl (fun s id => dropRef id s) s) :=
  foldl_holds (LetGo s) _ (fun u id hu => hu.trans (dropRef_letGo id u)) ids s (.refl s)

/-! ## Transmissions abandoned -/

theorem discardUplink_letGo (s : State) : LetGo s (discardUplink s) := by
  unfold discardUplink
  split
  · exact .refl s
  · dsimp only
    split
    · exact (modSched_letGo _ s).trans (dropRef_letGo _ _)
    · exact ((countDev_letGo _ s).trans (modSched_letGo _ _)).trans (dropRef_letGo _ _)

theorem discardUplink_sched (s : State) : (discardUplink s).sched = { s.sched with uplinkTx := none } := by
  unfold discardUplink
  split
  case h_1 hnone => rw [← hnone]
  case h_2 => dsimp only; split <;> simp

theorem discardUplink_mgmt (s : State) : (discardUplink s).mgmt = s.mgmt := by
  unfold discardUplink
  split
  · rfl
  · dsimp only
    split <;> simp

theorem discardManagement_letGo (s : State) : LetGo s (discardManagement s) :=
  ((modSched_letGo _ s).trans (modMgmt_letGo _ _)).trans (dropRefs_letGo _ _)

theorem discardManagement_sched (s : State) : (discardManagement s).sched = { s.sched with craftTx := none } :=
  foldl_keeps State.sched _ (fun u id => dropRef_sched u id) _ _

theorem discardManagement_mgmt (s : State) : (discardManagement s).mgmt = { s.mgmt with txList := [] } :=
  foldl_keeps State.mgmt _ (fun u id => dropRef_mgmt u id) _ _

/-! ## Every line flushed -/

/-- The flush of everything that a line holds (R39, R41). -/
def wholeFlush : Flush := { down := true, up := true, wake := true, hand := true, cause := .flush }

/-- Every line flushed whole, the lowest first (R41). -/
def flushLines (s : State) : State := (indexes 24).foldl (fun s n => flush n wholeFlush s) s

theorem wholeFlush_holdsNothing (l : Line) : (wholeFlush.empty l).holdsNothing := ⟨rfl, rfl, rfl, rfl, rfl⟩

theorem flushLines_line (s : State) (n : LineNo) : (flushLines s).line n = wholeFlush.empty (s.line n) :=
  foldl_line_self (R := fun a b => b = wholeFlush.empty a) (fun u n => flush_line_self n u _)
    (fun u n _ hm => flush_line_other n u _ hm) (List.nodup_finRange 24) (mem_indexes n) s

/-- Each line's references are counted on that line (R39). -/
theorem flushed_counted {ns : List LineNo} (hnd : ns.Nodup) (s : State) :
    dropsCounted .flush (ns.map fun m => (m, (s.line m).refsHeld)) s
      (ns.foldl (fun s n => flush n wholeFlush s) s) := by
  induction ns generalizing s with
  | nil => exact dropsCounted_nil (.refl s)
  | cons n ns ih =>
    obtain ⟨hnot, hnd⟩ := List.nodup_cons.mp hnd
    have hone : dropsCounted .flush [(n, (s.line n).refsHeld)] s (flush n wholeFlush s) := by
      have h := flush_counted n wholeFlush s
      rwa [wholeFlush, refs_all] at h
    have hrest : (ns.map fun m => (m, ((flush n wholeFlush s).line m).refsHeld))
        = ns.map fun m => (m, (s.line m).refsHeld) :=
      List.map_congr_left fun m hm => by rw [flush_line_other n s _ fun e => hnot (e ▸ hm)]
    exact hone.append (fun m => by rw [(flush_moved n wholeFlush (.refl s)).cfg]) (hrest ▸ ih hnd _)

theorem flush_nextId (n : LineNo) (x : Flush) (s : State) : (flush n x s).pool.nextId = s.pool.nextId :=
  foldl_keeps (fun u : State => u.pool.nextId) _ (fun u id => by rw [countDrop_pool, dropRef_nextId]) _ _

/-! ## The pool empty -/

/-- What the release of every frame leaves (R41, R36). -/
structure Released (s t : State) : Prop where
  lines : ∀ n, t.line n = wholeFlush.empty (s.line n)
  stations : t.stations = s.stations
  shares : t.shares = s.shares
  sched : t.sched = { s.sched with uplinkTx := none, craftTx := none }
  access : t.access = s.access
  seq : t.seq = s.seq
  power : t.power = s.power
  mgmt : t.mgmt = { s.mgmt with txList := [] }
  memory : t.memory = s.memory
  pool : t.pool = { s.pool with recs := [], free := 4096, armed := true }
  resetCause : t.counts.resetCause = s.counts.resetCause
  counted : dropsCounted .flush ((indexes 24).map fun m => (m, (s.line m).refsHeld)) s t

theorem releaseAll_eq (s : State) : releaseAll s = (discardManagement (discardUplink (flushLines s))).modPool
    fun p => { p with recs := [], free := Config.poolCells, armed := true } := rfl

theorem releaseAll_released (s : State) : Released s (releaseAll s) := by
  have hdiscard := (discardUplink_letGo (flushLines s)).trans (discardManagement_letGo _)
  have hall : LetGo (flushLines s) (releaseAll s) := by
    rw [releaseAll_eq]
    exact hdiscard.trans (modPool_letGo _ (fun _ => by rfl) _)
  have hkeep : ∀ {β : Type} (g : State → β), (∀ u n, g (flush n wholeFlush u) = g u) → g (flushLines s) = g s :=
    fun g hg => foldl_keeps g _ hg _ s
  exact {
    lines := fun n => (State.line_of_lines hall.lines n).trans (flushLines_line s n)
    stations := hall.stations.trans (hkeep State.stations fun u n => flush_stations u n _)
    shares := hall.shares.trans (hkeep State.shares fun u n => flush_shares u n _)
    sched := by
      rw [releaseAll_eq, State.modPool_sched, discardManagement_sched, discardUplink_sched,
        hkeep State.sched fun u n => flush_sched u n _]
    access := hall.access.trans (hkeep State.access fun u n => flush_access u n _)
    seq := hall.seq.trans (hkeep State.seq fun u n => flush_seq u n _)
    power := hall.power.trans (hkeep State.power fun u n => flush_power u n _)
    mgmt := by
      rw [releaseAll_eq, State.modPool_mgmt, discardManagement_mgmt, discardUplink_mgmt,
        hkeep State.mgmt fun u n => flush_mgmt u n _]
    memory := hall.memory.trans (hkeep State.memory fun u n => flush_memory u n _)
    pool := by
      have hid := hdiscard.nextId.trans (hkeep (fun u => u.pool.nextId) fun u n => flush_nextId n _ u)
      rw [releaseAll_eq, State.modPool_pool, hid]
      rfl
    resetCause := hall.resetCause.trans
      (hkeep (fun u => u.counts.resetCause) fun u n => (flush_moved n wholeFlush (.refl u)).resetCause)
    counted := (flushed_counted (List.nodup_finRange 24) s).congr (.refl s)
      hall.counts fun _ => rfl }

/-! ## Lines to DOWN -/

/-- A table without the entries that a predicate picks loses none of them. -/
theorem dropStations_of_none {p : Entry → Bool} (h : ∀ i x, s.stations.entries.get i = some x → p x = false) :
    (dropStations p s).stations = s.stations := by
  have hentries : (s.stations.entries.map fun e => e.filter fun x => !p x) = s.stations.entries := by
    apply Tab.ext_get
    intro i
    rw [Tab.get_map]
    cases hi : s.stations.entries.get i with
    | none => rfl
    | some x => simp [Option.filter, h i x hi]
  simp only [dropStations, State.modStations_stations, hentries]

/-- What a pass to DOWN of lines that hold nothing, with no LEARNED entry and no wake listed, leaves beside the lines. -/
structure Emptied (s t : State) : Prop where
  holds : ∀ n, (t.line n).holdsNothing
  stations : t.stations = s.stations
  power : t.power = s.power
  pool : t.pool = s.pool
  counts : countsSame s t

/-- The flush of a line that holds nothing lets go of nothing. -/
theorem flush_of_holdsNothing (n : LineNo) (x : Flush) (h : (s.line n).holdsNothing) :
    flush n x s = s.modLine n x.empty := by
  obtain ⟨h1, h2, h3, h4, h5⟩ := h
  have hrefs : x.refs (s.line n) = [] := by simp [Flush.refs, h1, h2, h3, h4, h5]
  rw [flush, hrefs]
  rfl

theorem removeWake_of_none (n : LineNo) (hw : s.power.wakeList = []) : (removeWake n s).power = s.power := by
  simp only [removeWake, State.modPower_power, hw, List.filter_nil]
  rw [← hw]

theorem enterCore_emptied {n : LineNo} {r : Reason} (hr : r ≠ .shed)
    (hl : ∀ i x, s.stations.entries.get i = some x → x.isLearned = false)
    (hw : s.power.wakeList = []) (hh : ∀ m, (s.line m).holdsNothing) (hst : (s.line n).st ≠ .down) :
    Emptied s (enterCore n .down r s) := by
  obtain ⟨u, hu, -, hcounts, hpool⟩ := enterCore_eq n .down r s hst
  rw [flush_of_holdsNothing n _ (hh n)] at hcounts hpool
  exact {
    holds := fun m => by
      by_cases hm : m = n
      · subst hm
        rw [enterCore_line_self _ _ _ _ hst]
        exact (Line.entered_out s r (s.line m) rfl hr).1
      · rw [enterCore_line_other _ _ _ _ hm]
        exact hh m
    stations := by
      rw [enterCore_stations _ _ _ _ hst, if_pos (show losesLearned .down = true from rfl)]
      exact dropStations_of_none fun i x hx => by simp [hl i x hx]
    power := by
      rw [enterCore_power _ _ _ _ hst]
      split
      · exact removeWake_of_none n hw
      · rfl
    pool := by rw [hu, lineStateEvent_pool, hpool]; rfl
    counts := by rw [hu]; exact (countsSame.of_eq hcounts).trans (lineStateEvent_countsSame _ _ _ _ _) }

theorem Emptied.trans {u : State} (h : Emptied s t) (k : Emptied t u) : Emptied s u where
  holds := k.holds
  stations := k.stations.trans h.stations
  power := k.power.trans h.power
  pool := k.pool.trans h.pool
  counts := h.counts.trans k.counts

/-- One line of the pass to DOWN (R87). -/
def trafficDown (s : State) (n : LineNo) : State :=
  if (s.line n).st = .disabled ∨ (s.line n).st = .barred then s else enterCore n .down .trafficReset s

/-- Every line not DISABLED or BARRED sent to DOWN (R87). Irreducible, so that no comparison of states runs the pass. -/
@[irreducible] def linesDown (s : State) : State := (indexes 24).foldl trafficDown s

theorem trafficLines_eq (s : State) :
    trafficLines s = { linesDown s with lines := (linesDown s).lines.map Line.trafficCleared } := by
  unfold linesDown
  rfl

theorem linesDown_emptied (hl : ∀ i x, s.stations.entries.get i = some x → x.isLearned = false)
    (hw : s.power.wakeList = []) (hh : ∀ m, (s.line m).holdsNothing) : Emptied s (linesDown s) := by
  unfold linesDown
  refine foldl_holds (Emptied s) _ (fun u n hu => ?_) _ s ⟨hh, rfl, rfl, rfl, .refl s⟩
  unfold trafficDown
  split
  · exact hu
  · by_cases hdown : (u.line n).st = .down
    · rwa [enterCore_of_eq n _ _ u hdown]
    · exact hu.trans (enterCore_emptied (by decide) (by rwa [hu.stations]) (by rwa [hu.power]) hu.holds hdown)

/-- A line after the pass to DOWN (R87). -/
def Line.sentDown (before after : Line) : Prop :=
  after.st = (if before.st = .disabled ∨ before.st = .barred then before.st else .down)
    ∧ after.cfg = before.cfg ∧ after.grade = before.grade

theorem linesDown_line (s : State) (n : LineNo) : Line.sentDown (s.line n) ((linesDown s).line n) := by
  unfold linesDown
  refine foldl_line_self (fun u m => ?_) (fun u m k hk => ?_) (List.nodup_finRange 24) (mem_indexes n) s
  · unfold trafficDown Line.sentDown
    split
    · exact ⟨rfl, rfl, rfl⟩
    · by_cases hdown : (u.line m).st = .down
      · rw [enterCore_of_eq m _ _ u hdown]
        exact ⟨hdown, rfl, rfl⟩
      · rw [enterCore_line_self m _ _ u hdown]
        exact ⟨Line.entered_st _ _ _ _, Line.entered_cfg _ _ _ _, (Line.entered_kept u _ _ _).1⟩
  · unfold trafficDown
    split
    · rfl
    · exact enterCore_line_other m _ _ u hk

/-! ## The test ended -/

/-- What the end of a test and the sequencer's rest leave: the lines, the frame side, the power side, the counters of
drops and the programs. -/
structure TestSide (s t : State) : Prop where
  lines : t.lines = s.lines
  stations : t.stations = s.stations
  pool : t.pool = s.pool
  power : t.power = s.power
  counts : countsSame s t
  programs : t.seq.programs = s.seq.programs

theorem TestSide.refl (s : State) : TestSide s s := ⟨rfl, rfl, rfl, rfl, .refl s, rfl⟩

theorem TestSide.trans {u : State} (h : TestSide s t) (k : TestSide t u) : TestSide s u where
  lines := k.lines.trans h.lines
  stations := k.stations.trans h.stations
  pool := k.pool.trans h.pool
  power := k.power.trans h.power
  counts := h.counts.trans k.counts
  programs := k.programs.trans h.programs

theorem modSeq_testSide {f : Seq → Seq} (hf : (f s.seq).programs = s.seq.programs) : TestSide s (s.modSeq f) :=
  ⟨rfl, rfl, rfl, rfl, .refl s, hf⟩

theorem modAccess_testSide (f : Access → Access) (s : State) : TestSide s (s.modAccess f) :=
  ⟨rfl, rfl, rfl, rfl, .refl s, rfl⟩

theorem raise_testSide (u : Option LineNo) (d : Detail) (s : State) : TestSide s (raise u d s) where
  lines := raise_lines s u d
  stations := raise_stations s u d
  pool := raise_pool s u d
  power := raise_power s u d
  counts := raise_countsSame u d s
  programs := by rw [raise_seq]

theorem writeRecord_testSide (r : TestRecord) (s : State) : TestSide s (writeRecord r s) := by
  unfold writeRecord
  dsimp only
  split <;> exact ⟨rfl, rfl, rfl, rfl, .refl s, rfl⟩

theorem closeActivity_testSide (s : State) : TestSide s (closeActivity .abortedReset false s) := by
  unfold closeActivity
  split
  · exact .refl s
  · exact ((writeRecord_testSide _ s).trans (raise_testSide _ _ _)).trans (modSeq_testSide rfl)

theorem closeActivity_of_none {o : Outcome} {b : Bool} (h : s.seq.act = none) : closeActivity o b s = s := by
  simp [closeActivity, h]

/-- The running test's record is the last of the log, and neither activity nor marker is left (R140, R147). -/
theorem closeActivity_reset (h : s.seq.act.isSome = true) :
    (closeActivity .abortedReset false s).seq.log.getLast?.map TestRecord.outcome = some .abortedReset
      ∧ (closeActivity .abortedReset false s).seq.act = none
      ∧ (closeActivity .abortedReset false s).seq.marker = none := by
  obtain ⟨a, ha⟩ := Option.isSome_iff_exists.mp h
  simp [closeActivity, ha, (writeRecord_log s _).2]

theorem trafficTests_testSide (s : State) : TestSide s (trafficTests s) := by
  unfold trafficTests
  exact ((closeActivity_testSide s).trans (modSeq_testSide (by rfl))).trans (modAccess_testSide _ _)

/-! ## The sequencer at rest -/

/-- A selection of an empty queue starts nothing (R136). -/
theorem selectWalk_of_empty (k : Nat) (h : s.seq.queue = []) : selectWalk k s = s := by
  cases k <;> simp [selectWalk, h]

/-- With nothing queued and nothing running the step of IDLE does no more than yield the bus (R136, R151). -/
theorem idleStep_of_rest (hq : s.seq.queue = []) : idleStep s = s ∨ idleStep s = suspendSeq s := by
  unfold idleStep boundary
  split
  · split
    · exact .inr rfl
    · exact .inl (selectWalk_of_empty 128 hq)
  · exact .inl rfl

theorem suspendSeq_of_none (ha : s.seq.act = none) : suspendSeq s =
    (raise s.lineUnderTest (.external true) s).modSeq fun q => { q with st := .suspended, extack := true } := by
  simp [suspendSeq, ha]

/-- What the step of IDLE leaves of a sequencer with nothing queued and nothing running. -/
structure Rested (s t : State) : Prop extends TestSide s t where
  access : t.access = s.access
  queue : t.seq.queue = s.seq.queue
  act : t.seq.act = s.seq.act
  log : t.seq.log = s.seq.log
  marker : t.seq.marker = s.seq.marker

theorem idleStep_rested (hq : s.seq.queue = []) (ha : s.seq.act = none) : Rested s (idleStep s) := by
  rcases idleStep_of_rest hq with h | h
  · rw [h]
    exact ⟨.refl s, rfl, rfl, rfl, rfl, rfl⟩
  · rw [h, suspendSeq_of_none ha]
    exact ⟨(raise_testSide _ _ s).trans (modSeq_testSide rfl), by simp, by simp, by simp, by simp, by simp⟩

theorem upstreamKept.shares_eq (h : upstreamKept s t) : t.shares = { s.shares with last := t.shares.last } := by
  rw [← h.1]

theorem upstreamKept.sched_eq (h : upstreamKept s t) : t.sched = { s.sched with effective := t.sched.effective } := by
  rw [← h.2]

/-! ## The stages of R192 -/

/-- Step 1 of a traffic reset: every frame let go, no LEARNED entry and no wake left. -/
def trafficEmptied (s : State) : State :=
  (dropStations Entry.isLearned (releaseAll s)).modPower fun p => { p with wakeList := [] }

/-- The lines and the tests at rest (R87, R147). -/
def trafficStopped (s : State) : State := trafficTests (trafficLines (trafficEmptied s))

/-- The scheduler's pointers and pauses reset (R82). -/
def Sched.atRest (c : Sched) : Sched :=
  { c with prioPtr := 0, bulkPtr := 0, sparePtr := 0, prioPause := none, bulkPause := none }

/-- The scheduler reset, the recompute made and the flag set (R82, R204). -/
def trafficFlagged (s : State) : State :=
  setResetFlag .traffic (recompute ((trafficStopped s).modSched Sched.atRest))

theorem doTrafficReset_eq (s : State) : doTrafficReset s = idleStep (trafficFlagged s) := by
  rfl

theorem trafficEmptied_learned (s : State) (i : Fin 96) (x : Entry)
    (hx : (trafficEmptied s).stations.entries.get i = some x) : x.isLearned = false := by
  simp [trafficEmptied, dropStations, Option.filter_eq_some_iff] at hx
  exact hx.2

theorem trafficEmptied_line (s : State) (n : LineNo) : (trafficEmptied s).line n = wholeFlush.empty (s.line n) := by
  rw [trafficEmptied, State.modPower_line, State.line_of_lines (dropStations_lines _ _), (releaseAll_released s).lines]

theorem trafficLines_emptied (s : State) : Emptied (trafficEmptied s) (linesDown (trafficEmptied s)) := by
  refine linesDown_emptied (trafficEmptied_learned s) rfl fun n => ?_
  rw [trafficEmptied_line]
  exact wholeFlush_holdsNothing _

/-- A line as the traffic reset leaves it, but for the recompute (R87). -/
theorem trafficStopped_line (s : State) (n : LineNo) : ∃ l, Line.sentDown (s.line n) l ∧ l.holdsNothing
    ∧ (trafficStopped s).line n = l.trafficCleared := by
  refine ⟨(linesDown (trafficEmptied s)).line n, ?_, (trafficLines_emptied s).holds n, ?_⟩
  · have h := linesDown_line (trafficEmptied s) n
    rw [trafficEmptied_line] at h
    exact h
  · rw [trafficStopped, State.line_of_lines (trafficTests_testSide _).lines, trafficLines_eq]
    exact Tab.get_map _ _ _

theorem linesDown_seq (s : State) : (linesDown s).seq = s.seq := by
  unfold linesDown
  refine foldl_keeps State.seq trafficDown (fun u n => ?_) _ s
  unfold trafficDown
  split
  · rfl
  · exact enterCore_seq u n _ _

theorem trafficLines_seq (s : State) : (trafficLines s).seq = s.seq := by
  rw [trafficLines_eq]
  exact linesDown_seq s

/-- Beside the lines, what is empty when the lines and the tests are stopped is left as it is. -/
theorem trafficStopped_kept (s : State) : (trafficStopped s).stations = (trafficEmptied s).stations
    ∧ (trafficStopped s).power = (trafficEmptied s).power ∧ (trafficStopped s).pool = (trafficEmptied s).pool
    ∧ countsSame (trafficEmptied s) (trafficStopped s) := by
  have htests := trafficTests_testSide (trafficLines (trafficEmptied s))
  have hlines := trafficLines_emptied s
  rw [trafficLines_eq] at htests
  rw [trafficStopped, trafficLines_eq]
  exact ⟨htests.stations.trans hlines.stations, htests.power.trans hlines.power, htests.pool.trans hlines.pool,
    hlines.counts.trans htests.counts⟩

theorem trafficEmptied_seq (s : State) : (trafficEmptied s).seq = s.seq := by
  rw [trafficEmptied, State.modPower_seq, dropStations_seq, (releaseAll_released s).seq]

/-- The sequencer stopped: the activity closed, and nothing queued (R147). -/
theorem trafficTests_seq (s : State) : (trafficTests s).seq.queue = []
    ∧ (trafficTests s).seq.act = (closeActivity .abortedReset false s).seq.act
    ∧ (trafficTests s).seq.log = (closeActivity .abortedReset false s).seq.log
    ∧ (trafficTests s).seq.marker = (closeActivity .abortedReset false s).seq.marker := ⟨rfl, rfl, rfl, rfl⟩

/-- The state in which a traffic reset closes the activity: its sequencer is as it was at first. -/
theorem trafficStopped_of_lines (s : State) : ∃ u : State, trafficStopped s = trafficTests u ∧ u.seq = s.seq :=
  ⟨_, rfl, (trafficLines_seq _).trans (trafficEmptied_seq s)⟩

/-- The flag set and the recompute made: beside the scheduler, the reset causes and what a recompute writes, the part is
as it was when its lines and tests stopped. -/
theorem trafficFlagged_kept (s : State) : (trafficFlagged s).stations = (trafficStopped s).stations
    ∧ (trafficFlagged s).power = (trafficStopped s).power ∧ (trafficFlagged s).pool = (trafficStopped s).pool
    ∧ countsSame (trafficStopped s) (trafficFlagged s) ∧ (trafficFlagged s).seq = (trafficStopped s).seq
    ∧ (trafficFlagged s).access = (trafficStopped s).access ∧ (trafficFlagged s).mgmt = (trafficStopped s).mgmt
    ∧ (trafficFlagged s).memory = (trafficStopped s).memory := by
  unfold trafficFlagged
  generalize trafficStopped s = u
  exact ⟨rfl, rfl, rfl, ⟨rfl, rfl⟩, rfl, rfl, rfl, rfl⟩

/-- A line is neither UP nor DRAINING, so the recompute leaves it without share and credit (R58, R68). -/
theorem trafficFlagged_line (s : State) (n : LineNo) : ∃ l, Line.sentDown (s.line n) l ∧ l.holdsNothing
    ∧ ((trafficFlagged s).line n).apart = l.trafficCleared.apart
    ∧ ((trafficFlagged s).line n).share = 0 ∧ ((trafficFlagged s).line n).credit = 0 := by
  obtain ⟨l, hsent, hnothing, hline⟩ := trafficStopped_line s n
  have hul : ((trafficStopped s).modSched Sched.atRest).line n = l.trafficCleared := by rw [State.modSched_line, hline]
  have hoff : eligibleState l.st = false := by
    rw [hsent.1]
    split
    case isTrue h => rcases h with h | h <;> rw [h] <;> rfl
    case isFalse => rfl
  refine ⟨l, hsent, hnothing, ?_⟩
  rw [trafficFlagged, setResetFlag, State.modCounts_line]
  exact ⟨(recompute_apart _ n).trans (by rw [hul]), recompute_ineligible _ (by rw [hul]; exact hoff)⟩

theorem trafficFlagged_upstream (s : State) :
    upstreamKept ((trafficStopped s).modSched Sched.atRest) (trafficFlagged s)
      ∧ (trafficFlagged s).counts.resetCause = (trafficStopped s).counts.resetCause.set ResetFlag.traffic.idx true := by
  have hup := recompute_upstreamKept ((trafficStopped s).modSched Sched.atRest)
  have hcounts := recompute_counts ((trafficStopped s).modSched Sched.atRest)
  unfold trafficFlagged
  generalize recompute _ = u at hup hcounts ⊢
  exact ⟨hup, by rw [setResetFlag, State.modCounts_counts, hcounts, State.modSched_counts]⟩

/-! ## What a traffic reset leaves -/

/-- The flag set, the sequencer has no more than its rest to take (R136, R151). -/
theorem doTrafficReset_rested (s : State) : Rested (trafficFlagged s) (doTrafficReset s) := by
  obtain ⟨u, hu, hseq⟩ := trafficStopped_of_lines s
  obtain ⟨-, -, -, -, hfseq, -⟩ := trafficFlagged_kept s
  obtain ⟨hqueue, hact, -⟩ := trafficTests_seq u
  have hnone : (closeActivity .abortedReset false u).seq.act = none := by
    cases ha : u.seq.act with
    | none => rw [closeActivity_of_none ha, ha]
    | some a => exact (closeActivity_reset (by rw [ha]; rfl)).2.1
  rw [doTrafficReset_eq]
  exact idleStep_rested (by rw [hfseq, hu, hqueue]) (by rw [hfseq, hu, hact, hnone])

/-- The frame side and the power side (R41, R7, R36). -/
theorem doTrafficReset_frames (s : State) :
    (doTrafficReset s).stations = { s.stations with
        entries := s.stations.entries.map fun e => e.filter fun x => !x.isLearned }
      ∧ (doTrafficReset s).power = { s.power with wakeList := [] }
      ∧ (doTrafficReset s).pool = { s.pool with recs := [], free := 4096, armed := true }
      ∧ dropsCounted .flush ((indexes 24).map fun m => (m, (s.line m).refsHeld)) s (doTrafficReset s) := by
  have hrel := releaseAll_released s
  have hrest := doTrafficReset_rested s
  obtain ⟨hst, hpow, hpool, hcounts⟩ := trafficStopped_kept s
  obtain ⟨fst, fpow, fpool, fcounts, -⟩ := trafficFlagged_kept s
  refine ⟨?_, ?_, ?_, ?_⟩
  · rw [hrest.stations, fst, hst, trafficEmptied, State.modPower_stations, dropStations, State.modStations_stations,
      hrel.stations]
  · rw [hrest.power, fpow, hpow, trafficEmptied, State.modPower_power, dropStations_power, hrel.power]
  · rw [hrest.pool, fpool, hpool, trafficEmptied, State.modPower_pool, dropStations_pool, hrel.pool]
  · refine hrel.counted.congr (.refl s) ?_ fun _ => rfl
    have hempty : countsSame (releaseAll s) (trafficEmptied s) := .of_eq (by
      rw [trafficEmptied, State.modPower_counts, dropStations_counts])
    exact ((hempty.trans hcounts).trans fcounts).trans hrest.counts

/-- The management side, the upstream side and the reset causes (R82, R192, R204). -/
theorem doTrafficReset_beside (s : State) :
    (doTrafficReset s).mgmt = { s.mgmt with txList := [] } ∧ (doTrafficReset s).memory = s.memory
      ∧ (doTrafficReset s).counts.resetCause = s.counts.resetCause.set ResetFlag.traffic.idx true
      ∧ (doTrafficReset s).sched = { s.sched with
          effective := (doTrafficReset s).sched.effective, prioPtr := 0, bulkPtr := 0, sparePtr := 0
          prioPause := none, bulkPause := none, uplinkTx := none, craftTx := none }
      ∧ { (doTrafficReset s).shares with last := s.shares.last } = s.shares := by
  have hrel := releaseAll_released s
  have hstop : Moved (trafficEmptied s) (trafficStopped s) := trafficTests_moved (trafficLines_moved (.refl _))
  have hidle : Moved (trafficFlagged s) (doTrafficReset s) := by
    rw [doTrafficReset_eq]
    exact idleStep_moved (.refl _)
  obtain ⟨-, -, -, -, -, -, fmgmt, fmem⟩ := trafficFlagged_kept s
  obtain ⟨fup, fcause⟩ := trafficFlagged_upstream s
  obtain ⟨eup, -, -, -, emgmt, emem⟩ := hstop.beside
  obtain ⟨iup, -, -, -, imgmt, imem⟩ := hidle.beside
  have hempty : (trafficEmptied s).mgmt = (releaseAll s).mgmt ∧ (trafficEmptied s).memory = (releaseAll s).memory
      ∧ (trafficEmptied s).counts = (releaseAll s).counts ∧ (trafficEmptied s).sched = (releaseAll s).sched
      ∧ (trafficEmptied s).shares = (releaseAll s).shares := by
    unfold trafficEmptied
    generalize releaseAll s = u
    exact ⟨rfl, rfl, rfl, rfl, rfl⟩
  obtain ⟨hmgmt, hmem, hcounts, hsched, hshares⟩ := hempty
  have hup := fup.trans iup
  refine ⟨?_, ?_, ?_, ?_, ?_⟩
  · rw [imgmt, fmgmt, emgmt, hmgmt, hrel.mgmt]
  · rw [imem, fmem, emem, hmem, hrel.memory]
  · rw [hidle.resetCause, fcause, hstop.resetCause, hcounts, hrel.resetCause]
  · have h := hup.sched_eq
    rw [State.modSched_sched, eup.sched_eq, hsched, hrel.sched] at h
    generalize doTrafficReset s = t at h ⊢
    generalize trafficStopped s = u at h
    exact h
  · rw [hup.shares_eq, State.modSched_shares, eup.shares_eq, hshares, hrel.shares]

/-- The sequencer: nothing queued, and the running test closed in the log (R147). -/
theorem doTrafficReset_seq (s : State) :
    (doTrafficReset s).seq.queue = [] ∧ (doTrafficReset s).seq.act = none
      ∧ (doTrafficReset s).seq.programs = s.seq.programs
      ∧ (s.seq.act.isSome = true ∨ s.seq.marker = none → (doTrafficReset s).seq.marker = none)
      ∧ (s.seq.act.isSome = true →
          (doTrafficReset s).seq.log.getLast?.map TestRecord.outcome = some .abortedReset)
      ∧ (s.seq.act = none → (doTrafficReset s).seq.log = s.seq.log) := by
  have hrest := doTrafficReset_rested s
  obtain ⟨u, hu, hseq⟩ := trafficStopped_of_lines s
  obtain ⟨-, -, -, -, hfseq, -⟩ := trafficFlagged_kept s
  obtain ⟨hqueue, hact, hlog, hmarker⟩ := trafficTests_seq u
  rw [hrest.queue, hrest.act, hrest.programs, hrest.marker, hrest.log, hfseq, hu, hqueue, hact, hlog, hmarker,
    (trafficTests_testSide u).programs, ← hseq]
  cases ha : u.seq.act with
  | none => simp [closeActivity_of_none ha, ha]
  | some a =>
    obtain ⟨hlast, hnone, hcleared⟩ := closeActivity_reset (s := u) (by rw [ha]; rfl)
    simp [hlast, hnone, hcleared]

/-- The test bus, its relays and its sources (R111, R118). -/
theorem doTrafficReset_access (s : State) :
    (doTrafficReset s).access.matrix = .idle ∧ (doTrafficReset s).access.unit = .idle
      ∧ (doTrafficReset s).access.sourceOn = false ∧ (doTrafficReset s).access.toneOn = false := by
  obtain ⟨-, -, -, -, -, hfacc, -⟩ := trafficFlagged_kept s
  rw [(doTrafficReset_rested s).access, hfacc, trafficStopped]
  exact ⟨rfl, rfl, rfl, rfl⟩

/-- A line: DOWN unless it was DISABLED or BARRED, and empty (R87, R68). -/
theorem doTrafficReset_line (s : State) (n : LineNo) :
    ((doTrafficReset s).line n).st
        = (if (s.line n).st = .disabled ∨ (s.line n).st = .barred then (s.line n).st else .down)
      ∧ ((doTrafficReset s).line n).holdsNothing ∧ ((doTrafficReset s).line n).share = 0
      ∧ ((doTrafficReset s).line n).credit = 0 ∧ ((doTrafficReset s).line n).sense = false
      ∧ ((doTrafficReset s).line n).cfg = (s.line n).cfg ∧ ((doTrafficReset s).line n).grade = (s.line n).grade := by
  obtain ⟨l, ⟨hst, hcfg, hgrade⟩, hnothing, hapart, hshare, hcredit⟩ := trafficFlagged_line s n
  rw [State.line_of_lines (doTrafficReset_rested s).lines]
  generalize (trafficFlagged s).line n = a at hapart hshare hcredit ⊢
  have hholds : a.apart.holdsNothing := by
    rw [hapart]
    exact hnothing
  exact ⟨(congrArg Line.st hapart).trans hst, hholds, hshare, hcredit, congrArg Line.sense hapart,
    (congrArg Line.cfg hapart).trans hcfg, (congrArg Line.grade hapart).trans hgrade⟩

end

end Sys2Proof.Machine

namespace Sys2Proof
open Machine

/-- Settles O7, stage by stage as R192 orders them. -/
theorem trafficReset : Obligations.TrafficReset := by
  intro o s hs
  refine ⟨(doTrafficReset s).answered .ok [], exec_of_row hs rfl rfl, ?_⟩
  obtain ⟨hst, hpow, hpool, hcounted⟩ := doTrafficReset_frames s
  obtain ⟨hmgmt, hmem, hcause, hsched, hshares⟩ := doTrafficReset_beside s
  obtain ⟨hqueue, hact, hprog, hmarker, hlast, hlog⟩ := doTrafficReset_seq s
  obtain ⟨hmatrix, hunit, hsource, htone⟩ := doTrafficReset_access s
  have hline := doTrafficReset_line s
  generalize doTrafficReset s = t at *
  refine ⟨?_, hpow, hmem, hpool, hst, hcause, hsched, hqueue, hact, hprog, hmarker, hlast, hlog, hshares, hmatrix, hunit,
    hsource, htone, hcounted, hline⟩
  rw [State.answered, State.modMgmt_mgmt, hmgmt]

end Sys2Proof
end

