-- ==== Sys2Proof/Proofs/StartUp.lean ====
section
/-! PROOF. START_UP (O5): the image's station entries loaded one by one, the marker settled in the log, and the enabled
lines sent to DOWN, each with what it leaves of the state (R3, R87, R147, R188, R190). -/

namespace Sys2Proof.Machine

section
variable {s t : State}

/-! ## What leaves the log's overwrite counter -/

/-- The global counters, but for the dropped notices, are as they were. -/
def devKept (s t : State) : Prop := ∀ k : DevCount, k ≠ .noticesDropped →
  t.counts.dev.get k.idx = s.counts.dev.get k.idx

theorem devKept.refl (s : State) : devKept s s := fun _ _ => rfl
theorem devKept.trans {u : State} (h : devKept s t) (k : devKept t u) : devKept s u :=
  fun x hx => (k x hx).trans (h x hx)

theorem raise_devKept (u : Option LineNo) (d : Detail) (s : State) : devKept s (raise u d s) :=
  fun _ hk => raise_dev u d s hk

theorem dropRef_devKept (id : Nat) (s : State) : devKept s (dropRef id s) := by
  intro k hk
  unfold dropRef
  split
  · rfl
  · split
    · exact setFree_dev _ (s.modPool _) hk
    · rfl

theorem flush_devKept (n : LineNo) (x : Flush) (s : State) : devKept s (flush n x s) :=
  foldl_holds (devKept s) _
    (fun u id hu => hu.trans ((dropRef_devKept id u).trans fun k _ => by rw [countDrop_dev])) _ _ (.refl s)

theorem lineStateEvent_devKept (n : LineNo) (old new : LineState) (r : Reason) (s : State) :
    devKept s (lineStateEvent n old new r s) := by
  unfold lineStateEvent
  split
  · exact raise_devKept _ _ s
  · exact .refl s

theorem enterCore_devKept (n : LineNo) (new : LineState) (r : Reason) (s : State) : devKept s (enterCore n new r s) := by
  by_cases h : (s.line n).st = new
  · rw [enterCore_of_eq n new r s h]
    exact .refl s
  · obtain ⟨u, hu, -, hcounts, -⟩ := enterCore_eq n new r s h
    have hflush : devKept s u := fun k hk => by rw [hcounts]; exact flush_devKept n _ s k hk
    rw [hu]
    exact hflush.trans (lineStateEvent_devKept n _ new r u)

/-! ## The enabled lines -/

/-- A line after the enabled lines have entered DOWN (R87). -/
def Line.enabledFrom (before after : Line) : Prop :=
  if before.cfg.enabled then after.st = .down ∧ (before.st = .disabled → after.isDown) else after = before

theorem startedLine_iff (before after : Line) :
    startedLine before after ↔ Line.enabledFrom { before with command := some .off } after := Iff.rfl

/-- One line of the pass of step 6 of R190. -/
def enableLine (s : State) (n : LineNo) : State :=
  if (s.line n).cfg.enabled then enterCore n .down .enabled s else s

theorem enableLines_eq (s : State) : enableLines s = (indexes 24).foldl enableLine s := rfl

theorem enableLines_line (s : State) (n : LineNo) : Line.enabledFrom (s.line n) ((enableLines s).line n) := by
  rw [enableLines_eq]
  refine foldl_line_self (fun u m => ?_) (fun u m k hk => ?_) (List.nodup_finRange 24) (mem_indexes n) s
  · unfold enableLine Line.enabledFrom
    split
    · refine ⟨enterCore_st u m _ _, fun hdis => ?_⟩
      rw [enterCore_line_self m _ _ u (by simp [hdis])]
      exact Line.entered_down u _ _ (by decide)
    · rfl
  · unfold enableLine
    split
    · exact enterCore_line_other m _ _ u hk
    · rfl

/-- What the pass leaves, read off one entry. -/
theorem enableLines_keeps {β : Type} (g : State → β) (hg : ∀ u n, g (enterCore n .down .enabled u) = g u) (s : State) :
    g (enableLines s) = g s := by
  rw [enableLines_eq]
  refine foldl_keeps g _ (fun u n => ?_) _ s
  unfold enableLine
  split
  · exact hg u n
  · rfl

/-- What holds across each entry holds across the pass. -/
theorem enableLines_holds (p : State → Prop) (hp : ∀ u n, p u → p (enterCore n .down .enabled u)) (hs : p s) :
    p (enableLines s) := by
  rw [enableLines_eq]
  refine foldl_holds p _ (fun u n hu => ?_) _ s hs
  unfold enableLine
  split
  · exact hp u n hu
  · exact hu

/-- A table without LEARNED entries is left as it is (R7). -/
theorem enableLines_stations (hl : ∀ i x, s.stations.entries.get i = some x → x.isLearned = false) :
    (enableLines s).stations = s.stations := by
  refine enableLines_holds (fun u => u.stations = s.stations) (fun u n hu => ?_) rfl
  by_cases hdown : (u.line n).st = .down
  · rwa [enterCore_of_eq n _ _ u hdown]
  · rw [enterCore_stations _ _ _ _ hdown, if_pos (show losesLearned .down = true from rfl), ← hu]
    exact dropStations_of_none fun i x hx => by simp [hl i x (hu ▸ hx)]

/-! ## The marker -/

/-- What the settling of the marker leaves: all but the log, its counter, the marker and the counts (R147). -/
structure MarkerOnly (s t : State) : Prop where
  pending : t.pending = s.pending
  stations : t.stations = s.stations
  lines : t.lines = s.lines
  trainLimit : t.trainLimit = s.trainLimit
  wakeLimit : t.wakeLimit = s.wakeLimit
  shares : t.shares = s.shares
  access : t.access = s.access
  power : t.power = s.power
  mgmt : t.mgmt = s.mgmt
  memory : t.memory = s.memory
  seq : { t.seq with log := s.seq.log, counter := s.seq.counter, marker := s.seq.marker } = s.seq
  flags : flagsKept s t

theorem settleMarker_of_none (h : s.seq.marker = none) : settleMarker s = s := by simp [settleMarker, h]

theorem writeRecord_kept (r : TestRecord) (s : State) : (writeRecord r s).counts.flags = s.counts.flags
    ∧ { (writeRecord r s).seq with log := s.seq.log, counter := s.seq.counter, marker := s.seq.marker } = s.seq := by
  unfold writeRecord
  dsimp only
  split <;> exact ⟨rfl, rfl⟩

/-- A set marker becomes its record, with TEST_DONE (R147). -/
theorem settleMarker_of_some {m : Marker} (h : s.seq.marker = some m) : settleMarker s =
    (raise (some m.line) (.testDone (nextSequence s.seq.counter) .abortedReset .none)
      (writeRecord (markerRecord m s) s)).modSeq fun q => { q with marker := none } := by
  simp only [settleMarker, h]
  rfl

theorem settleMarker_only (s : State) : MarkerOnly s (settleMarker s) := by
  cases hm : s.seq.marker with
  | none =>
    rw [settleMarker_of_none hm]
    exact ⟨rfl, rfl, rfl, rfl, rfl, rfl, rfl, rfl, rfl, rfl, rfl, .refl s⟩
  | some m =>
    obtain ⟨hflags, hseq⟩ := writeRecord_kept (markerRecord m s) s
    rw [settleMarker_of_some hm]
    refine ⟨by simp, by simp, by simp, by simp, by simp, by simp, by simp, by simp, by simp, by simp, ?_, ?_⟩
    · rw [State.modSeq_seq, raise_seq]
      exact hseq
    · exact (flagsKept.of_eq hflags).trans (raise_flagsKept _ _ _)

theorem settleMarker_marker (s : State) : (settleMarker s).seq.marker = none := by
  cases hm : s.seq.marker with
  | none => rw [settleMarker_of_none hm, hm]
  | some m => rw [settleMarker_of_some hm, State.modSeq_seq]

/-- The record of a set marker is the last of the log, in the place of the oldest when it is full (R142, R147). -/
theorem settleMarker_recorded {m : Marker} (h : s.seq.marker = some m) :
    (settleMarker s).seq.log
        = s.seq.log.drop (if Config.logPlaces ≤ s.seq.log.length then 1 else 0) ++ [markerRecord m s]
      ∧ (settleMarker s).seq.counter = nextSequence s.seq.counter ∧ flagged (settleMarker s) .testDone
      ∧ (settleMarker s).counts.dev.get DevCount.logOverwrite.idx =
        (if Config.logPlaces ≤ s.seq.log.length then bump else id) (s.counts.dev.get DevCount.logOverwrite.idx) := by
  obtain ⟨hcounter, hlog⟩ := writeRecord_log s (markerRecord m s)
  have hdev : (writeRecord (markerRecord m s) s).counts.dev.get DevCount.logOverwrite.idx =
      (if Config.logPlaces ≤ s.seq.log.length then bump else id) (s.counts.dev.get DevCount.logOverwrite.idx) := by
    by_cases hfull : Config.logPlaces ≤ s.seq.log.length <;> simp [writeRecord, hfull]
  rw [settleMarker_of_some h]
  refine ⟨?_, by simp [hcounter], raise_flagged _ _ _, (raise_devKept _ _ _ .logOverwrite (by decide)).trans hdev⟩
  rw [State.modSeq_seq, raise_seq, hlog]
  split <;> rfl

/-! ## Steps 5 to 7 of R190 -/

/-- The start-up from its fifth step on. -/
def startLines (s : State) : State :=
  let u := enableLines (settleMarker s)
  (raise none (.resetCause u.counts.resetCause) u).modMgmt fun m => { m with phase := .started }

/-- What steps 5 to 7 leave of the state they begin in, and what they make of its lines (R190). -/
structure Started (s t : State) : Prop where
  stations : t.stations = { s.stations with entries := t.stations.entries }
  static : staticSame s t
  unlearned : (∀ i x, s.stations.entries.get i = some x → x.isLearned = false) → t.stations = s.stations
  line : ∀ n, Line.enabledFrom (s.line n) (t.line n)
  cfg : ∀ n, (t.line n).cfg = (s.line n).cfg
  trainLimit : t.trainLimit = s.trainLimit
  wakeLimit : t.wakeLimit = s.wakeLimit
  shares : t.shares = s.shares
  access : t.access = s.access
  power : { t.power with wakeList := s.power.wakeList } = s.power
  settings : t.counts.settings = s.counts.settings
  mgmt : t.mgmt = { s.mgmt with phase := .started }
  memory : t.memory = s.memory
  seq : { t.seq with log := s.seq.log, counter := s.seq.counter, marker := s.seq.marker } = s.seq
  marker : t.seq.marker = none
  flags : flagsKept s t
  raised : flagged t .resetCause

theorem startLines_started (s : State) : Started s (startLines s) := by
  have hm := settleMarker_only s
  have hkeep : ∀ {β : Type} (g : State → β), (∀ u n, g (enterCore n .down .enabled u) = g u) →
      g (enableLines (settleMarker s)) = g (settleMarker s) := fun g hg => enableLines_keeps g hg _
  have hmoved := fun d => raise_moved none d (enableLines_moved (settleMarker_moved (.refl s)))
  have hshares := (hkeep State.shares fun u n => enterCore_shares u n _ _).trans hm.shares
  have haccess := (hkeep State.access fun u n => enterCore_access u n _ _).trans hm.access
  have hseq := hkeep State.seq fun u n => enterCore_seq u n _ _
  have hflags := enableLines_holds (s := settleMarker s) (flagsKept s)
    (fun u n hu => hu.trans (enterCore_flagsKept n .down .enabled u)) hm.flags
  have hline := enableLines_line (settleMarker s)
  have hunlearned : (∀ i x, s.stations.entries.get i = some x → x.isLearned = false) →
      (enableLines (settleMarker s)).stations = s.stations := fun hl =>
    (enableLines_stations (by rwa [hm.stations])).trans hm.stations
  simp only [State.line_of_lines hm.lines] at hline
  rw [startLines]
  generalize enableLines (settleMarker s) = u at *
  obtain ⟨-, -, htrain, hwake, hmgmt, hmem⟩ := (hmoved (.resetCause u.counts.resetCause)).beside
  exact {
    stations := (hmoved _).stations
    static := (hmoved _).static
    unlearned := fun hl => (raise_stations u none _).trans (hunlearned hl)
    line := fun n => by rw [State.modMgmt_line, State.line_of_lines (raise_lines u none _)]; exact hline n
    cfg := (hmoved _).cfg
    trainLimit := htrain
    wakeLimit := hwake
    shares := (raise_shares u none _).trans hshares
    access := (raise_access u none _).trans haccess
    power := (hmoved _).power
    settings := (hmoved _).settings
    mgmt := by rw [State.modMgmt_mgmt, hmgmt]
    memory := hmem
    seq := by rw [State.modMgmt_seq, raise_seq, hseq]; exact hm.seq
    marker := by rw [State.modMgmt_seq, raise_seq, hseq]; exact settleMarker_marker s
    flags := hflags.trans (raise_flagsKept _ _ u)
    raised := raise_flagged u none _ }

/-- A set marker's record stands in the log, with TEST_DONE raised (R147, R142). -/
theorem startLines_recorded {m : Marker} (h : s.seq.marker = some m) :
    (startLines s).seq.log
        = s.seq.log.drop (if Config.logPlaces ≤ s.seq.log.length then 1 else 0) ++ [markerRecord m s]
      ∧ (startLines s).seq.counter = nextSequence s.seq.counter ∧ flagged (startLines s) .testDone
      ∧ (startLines s).counts.dev.get DevCount.logOverwrite.idx =
        (if Config.logPlaces ≤ s.seq.log.length then bump else id) (s.counts.dev.get DevCount.logOverwrite.idx) := by
  obtain ⟨hlog, hcounter, hflag, hdev⟩ := settleMarker_recorded h
  have hseq := enableLines_keeps State.seq (fun u n => enterCore_seq u n _ _) (settleMarker s)
  have hflags := enableLines_holds (s := settleMarker s) (flagsKept (settleMarker s))
    (fun u n hu => hu.trans (enterCore_flagsKept n .down .enabled u)) (.refl _)
  have hdevs := enableLines_holds (s := settleMarker s) (devKept (settleMarker s))
    (fun u n hu => hu.trans (enterCore_devKept n .down .enabled u)) (.refl _)
  rw [startLines]
  generalize enableLines (settleMarker s) = u at *
  rw [State.modMgmt_seq, raise_seq, hseq]
  exact ⟨hlog, hcounter, raise_flagsKept _ _ u _ (hflags _ hflag),
    ((hdevs.trans (raise_devKept none _ u)) .logOverwrite (by decide)).trans hdev⟩

/-- Without a marker the log is left (R147). -/
theorem startLines_unrecorded (h : s.seq.marker = none) :
    (startLines s).seq.log = s.seq.log ∧ (startLines s).seq.counter = s.seq.counter := by
  have hseq := enableLines_keeps State.seq (fun u n => enterCore_seq u n _ _) (settleMarker s)
  rw [settleMarker_of_none h] at hseq
  rw [startLines, settleMarker_of_none h]
  rw [State.modMgmt_seq, raise_seq, hseq]
  exact ⟨rfl, rfl⟩

end

end Sys2Proof.Machine
end

