-- ==== Sys2Proof/Proofs/Image.lean ====
section
/-! PROOF. The configuration image loaded at a start-up (R3, R188), and START_UP as a whole (O5). -/

namespace Sys2Proof.Machine

section
variable {s : State}

/-! ## The image's station entries -/

/-- The STATIC entry that an entry of the image becomes (R3). -/
def imageEntry (x : ImageEntry) : Option Entry := (lineOf x.line).map fun n =>
  { addr := x.addr, line := n, cls := x.cls, origin := .static }

/-- The entries of an image loaded in their order (R3). -/
def loadStations (xs : List ImageEntry) (s : State) : State := xs.foldl (fun s e => loadStation e s) s

theorem loadStations_concat (xs : List ImageEntry) (x : ImageEntry) (s : State) :
    loadStations (xs ++ [x]) s = loadStation x (loadStations xs s) := by simp [loadStations]

/-- The load of entries writes the table's entries alone. -/
theorem loadStation_eq (e : ImageEntry) (s : State) :
    loadStation e s = s.withEntries (loadStation e s).stations.entries := by
  unfold loadStation
  split
  · split <;> rfl
  · rfl

theorem loadStations_eq (xs : List ImageEntry) (s : State) :
    loadStations xs s = s.withEntries (loadStations xs s).stations.entries :=
  foldl_holds (fun u => u = s.withEntries u.stations.entries) _ (fun u e hu => by
    rw [loadStation_eq e u, hu]
    rfl) xs s rfl

theorem lineOf_eq_some {v : Nat} {n : LineNo} (h : lineOf v = some n) : n.val = v := by
  unfold lineOf at h
  split at h
  · cases h; rfl
  · cases h

theorem setStation_get (i j : Fin 96) (e : Option Entry) (s : State) :
    (setStation i e s).stations.entries.get j = if j = i then e else s.stations.entries.get j := by
  by_cases hj : j = i
  · subst hj; simp [setStation]
  · simp [setStation, Tab.get_set_other _ _ hj, hj]

/-- An entry of the image is loaded at the lowest invalid index, and otherwise skipped (R3). -/
theorem loadStation_cases (x : ImageEntry) (s : State) : loadStation x s = s ∨ ∃ i e, imageEntry x = some e
    ∧ lowestInvalid s = some i ∧ e.addr.isGroup = false ∧ loadStation x s = setStation i (some e) s := by
  unfold loadStation imageEntry
  split
  case h_1 n i hn hi =>
    split
    case isTrue => exact .inl rfl
    case isFalse hfree =>
      rw [Bool.or_eq_true, not_or, Bool.not_eq_true] at hfree
      exact .inr ⟨i, { addr := x.addr, line := n, cls := x.cls, origin := .static }, by rw [hn]; rfl, hi, hfree.1, rfl⟩
  case h_2 => exact .inl rfl

theorem loadStation_loaded {x : ImageEntry} {e : Entry} {i : Fin 96} (he : imageEntry x = some e)
    (hi : lowestInvalid s = some i) (hg : x.addr.isGroup = false) (hfree : lookupStation s x.addr = none) :
    loadStation x s = setStation i (some e) s := by
  obtain ⟨n, hn, hen⟩ := Option.map_eq_some_iff.mp he
  unfold loadStation
  rw [hn, hi]
  simp only [hg, hfree, hen, Option.isSome_none, Bool.or_self, Bool.false_eq_true, if_false]

/-- An entry that the image gives is STATIC and carries the image's address, line and class. -/
theorem imageEntry_some {x : ImageEntry} {e : Entry} (h : imageEntry x = some e) :
    e.isLearned = false ∧ e.addr = x.addr ∧ ({ addr := e.addr, line := e.line.val, cls := e.cls } : ImageEntry) = x := by
  obtain ⟨n, hn, rfl⟩ := Option.map_eq_some_iff.mp h
  exact ⟨rfl, rfl, by rw [lineOf_eq_some hn]⟩

theorem imageEntry_isSome {x : ImageEntry} (h : x.line < 24) : ∃ e, imageEntry x = some e := by
  simp [imageEntry, lineOf, h]

/-- Every entry loaded into an empty table is STATIC, has no group address and stands in the image (R3). -/
theorem loadStations_from {xs : List ImageEntry} (h0 : ∀ i, s.stations.entries.get i = none) {i : Fin 96} {e : Entry}
    (he : (loadStations xs s).stations.entries.get i = some e) : e.isLearned = false ∧ e.addr.isGroup = false
      ∧ ({ addr := e.addr, line := e.line.val, cls := e.cls } : ImageEntry) ∈ xs := by
  refine List.foldlRecOn (motive := fun u : State => ∀ i e, u.stations.entries.get i = some e → e.isLearned = false
    ∧ e.addr.isGroup = false ∧ ({ addr := e.addr, line := e.line.val, cls := e.cls } : ImageEntry) ∈ xs)
    xs (fun s e => loadStation e s) (fun i e hi => by simp [h0 i] at hi) (fun u hu x hx j e hj => ?_) i e he
  rcases loadStation_cases x u with hskip | ⟨k, y, hy, -, hg, hload⟩
  · exact hu j e (hskip ▸ hj)
  · rw [hload, setStation_get] at hj
    split at hj
    · cases hj
      obtain ⟨hstatic, -, himage⟩ := imageEntry_some hy
      exact ⟨hstatic, hg, himage ▸ hx⟩
    · exact hu j e hj

/-- The lowest invalid index of a table filled from its start (R1). -/
theorem lowestInvalid_of_filled {k : Nat} (hk : k < 96) (hnone : s.stations.entries.get ⟨k, hk⟩ = none)
    (hsome : ∀ i : Fin 96, i.val < k → s.stations.entries.get i ≠ none) : lowestInvalid s = some ⟨k, hk⟩ := by
  unfold lowestInvalid
  rw [List.find?_eq_some_iff_getElem]
  refine ⟨by rw [hnone]; rfl, k, by simpa [indexes] using hk, by simp [indexes], fun j hj => ?_⟩
  simpa [indexes] using Option.ne_none_iff_isSome.mp (hsome ⟨j, by omega⟩ hj)

/-- An image within the table's places, of addresses that differ and may stand in it, is loaded in its order (R3). -/
theorem loadStations_inOrder {xs : List ImageEntry} (h0 : ∀ i, s.stations.entries.get i = none) (hlen : xs.length ≤ 96)
    (hok : ∀ x ∈ xs, x.line < 24 ∧ x.addr.isGroup = false) (hnd : (xs.map ImageEntry.addr).Nodup) (i : Fin 96) :
    (loadStations xs s).stations.entries.get i = xs[i.val]?.bind imageEntry := by
  induction xs using List.reverseRecOn generalizing i with
  | nil => simpa [loadStations] using h0 i
  | append_singleton xs x ih =>
    simp only [List.map_append, List.length_append, List.length_singleton] at hlen hnd
    obtain ⟨hnd, -, hnew⟩ := List.nodup_append.mp hnd
    have hfilled := ih (by omega) (fun y hy => hok y (by simp [hy])) hnd
    obtain ⟨hline, hg⟩ := hok x (by simp)
    obtain ⟨e, he⟩ := imageEntry_isSome hline
    have hlow : lowestInvalid (loadStations xs s) = some ⟨xs.length, by omega⟩ := by
      refine lowestInvalid_of_filled (by omega) (by simp [hfilled]) fun j hj => ?_
      obtain ⟨y, hy⟩ := imageEntry_isSome (hok xs[j.val] (by simp)).1
      simp [hfilled, hj, hy]
    have hfree : lookupStation (loadStations xs s) x.addr = none := by
      cases hfound : lookupStation (loadStations xs s) x.addr with
      | none => rfl
      | some j =>
        obtain ⟨y, hy, haddr⟩ := lookupStation_some hfound
        obtain ⟨-, -, hmem⟩ := loadStations_from h0 hy
        exact absurd haddr (hnew _ (List.mem_map_of_mem hmem) _ (by simp))
    rw [loadStations_concat, loadStation_loaded he hlow hg hfree, setStation_get, hfilled]
    split
    case isTrue hi => simp [hi, he]
    case isFalse hi =>
      have hne : i.val ≠ xs.length := fun h => hi (Fin.ext h)
      rcases Nat.lt_or_ge i.val xs.length with hlt | hge
      · rw [List.getElem?_append_left hlt]
      · rw [List.getElem?_eq_none hge, List.getElem?_eq_none (by simp; omega)]

/-! ## What stands when the marker is settled -/

/-- The part with its identity read, and after a warm reset its image loaded or refused (R190, steps 1 to 4). -/
def identified (cold : Bool) (s : State) : State := if cold then readIdentity s else warmLoad (readIdentity s)

theorem runStartUp_eq (cold : Bool) (s : State) : runStartUp cold s = startLines (identified cold s) := by
  rw [startLines, identified]
  rfl

theorem readIdentity_line (s : State) (n : LineNo) :
    (readIdentity s).line n = { s.line n with command := some .off } := Tab.get_map _ _ _

theorem answers_of_passes {m : Memory} (h : imagePasses m = true) : m.answers = true := by
  simp [imagePasses] at h
  simp [h]

theorem warmLoad_of_passes (h : imagePasses s.memory = true) : warmLoad (readIdentity s) =
    (loadImage s.memory.image.body (readIdentity s)).modMgmt fun m =>
      { m with imageCheck := some .passed, locked := m.lockAtStart } :=
  if_pos h

theorem warmLoad_of_fails (h : imagePasses s.memory = false) : warmLoad (readIdentity s) =
    raise none (.configDefaulted (!s.memory.answers)) ((readIdentity s).modMgmt fun m =>
      { m with imageCheck := some (if s.memory.answers then .imageFailed else .noStore) }) := by
  have hcheck : (if !s.memory.answers then ImageCheck.noStore else .imageFailed)
      = if s.memory.answers then .imageFailed else .noStore := by cases s.memory.answers <;> rfl
  rw [← hcheck]
  exact if_neg (Bool.not_eq_true _ ▸ h)

/-- The image's items, loaded over what the identity block gave (R188). -/
theorem warmLoad_image (h : imagePasses s.memory = true) :
    imageLoaded s.memory.image.body s (warmLoad (readIdentity s)) := by
  have ha := answers_of_passes h
  rw [warmLoad_of_passes h]
  generalize s.memory.image.body = b
  have hfilled := loadStations_inOrder (xs := b.stations) (s := readIdentity s)
  have hfrom := @loadStations_from (readIdentity s) b.stations
  have hload := loadStations_eq b.stations (readIdentity s)
  generalize (loadStations b.stations (readIdentity s)).stations.entries = es at hload hfilled hfrom
  have hfold : b.stations.foldl (fun s e => loadStation e s) (readIdentity s) = (readIdentity s).withEntries es := hload
  have hstation : (readIdentity s).mgmt.station = identityAddress s.memory.identity := if_pos ha
  have hsource : (readIdentity s).mgmt.stationSource =
      if (identityAddress s.memory.identity).isSome then .identity else .unset := by simp [readIdentity, ha]
  unfold loadImage
  rw [hfold]
  refine ⟨rfl, fun h0 hlen hok hnd => hfilled h0 hlen hok hnd, fun h0 i e he => hfrom h0 he, rfl, rfl, rfl, rfl, rfl, rfl,
    rfl, fun p => Tab.get_map _ _ _, fun g => Tab.get_ofFn _ _, rfl, rfl, ?_, ?_, rfl, rfl, rfl, rfl, rfl⟩
  · exact congrArg (fun a => b.station.orElse fun _ => a) hstation
  · exact congrArg (fun a => if b.station.isSome then StationSource.image else a) hsource

/-- What the load of an image leaves of the log and of the time, and the line records that it writes (R188). -/
theorem loadImage_kept (b : ImageBody) (s : State) : (loadImage b s).seq.log = s.seq.log
    ∧ (loadImage b s).seq.counter = s.seq.counter ∧ (loadImage b s).seq.marker = s.seq.marker
    ∧ (loadImage b s).mgmt.time = s.mgmt.time ∧ (loadImage b s).counts.dev = s.counts.dev
    ∧ ∀ n, (loadImage b s).line n = { s.line n with cfg := (b.lines.get n).clamped } := by
  have hload := loadStations_eq b.stations s
  generalize (loadStations b.stations s).stations.entries = es at hload
  have hfold : b.stations.foldl (fun s e => loadStation e s) s = s.withEntries es := hload
  unfold loadImage
  rw [hfold]
  exact ⟨rfl, rfl, rfl, rfl, rfl, fun n => Tab.get_ofFn _ n⟩

/-- Neither the identity nor the image touches the log, its counter and the marker, or counts an overwrite. -/
theorem identified_log (cold : Bool) (s : State) : (identified cold s).seq.log = s.seq.log
    ∧ (identified cold s).seq.counter = s.seq.counter ∧ (identified cold s).seq.marker = s.seq.marker
    ∧ (identified cold s).mgmt.time = s.mgmt.time
    ∧ (identified cold s).counts.dev.get DevCount.logOverwrite.idx = s.counts.dev.get DevCount.logOverwrite.idx := by
  cases cold with
  | true => exact ⟨rfl, rfl, rfl, rfl, rfl⟩
  | false =>
    cases hp : imagePasses s.memory with
    | true =>
      obtain ⟨hlog, hcounter, hmarker, htime, hdev, -⟩ := loadImage_kept s.memory.image.body (readIdentity s)
      rw [identified, if_neg (by simp), warmLoad_of_passes hp]
      exact ⟨hlog, hcounter, hmarker, htime, congrArg (fun d => d.get DevCount.logOverwrite.idx) hdev⟩
    | false =>
      rw [identified, if_neg (by simp), warmLoad_of_fails hp]
      rw [raise_seq, raise_mgmt]
      exact ⟨rfl, rfl, rfl, rfl, raise_devKept _ _ _ .logOverwrite (by decide)⟩

/-! ## Settings that stand -/

/-- The sequencer beside its log, counter and marker. -/
theorem Started.seq_eq {u t : State} {β : Type} (h : Started u t) (g : Seq → β)
    (hg : ∀ q l c m, g { q with log := l, counter := c, marker := m } = g q) : g t.seq = g u.seq :=
  (hg _ _ _ _).symm.trans (congrArg g h.seq)

/-- Settings that stood when the marker was settled stand when the start-up is done. -/
theorem Started.settingsKept {u t : State} (h : Started u t) (hu : settingsKept s u) : settingsKept s t := by
  obtain ⟨hstatic, haging, hcfg, htrain, hwake, hshares, haccess, hprog, hgroups, hdrain, hsuspend, hdefer, hpower, hset,
    hmgmt⟩ := hu
  refine ⟨fun i e he => (h.static i e he).trans (hstatic i e he), ?_, fun n => (h.cfg n).trans (hcfg n),
    h.trainLimit.trans htrain, h.wakeLimit.trans hwake, h.shares.trans hshares, h.access.trans haccess,
    (h.seq_eq Seq.programs fun _ _ _ _ => rfl).trans hprog, (h.seq_eq Seq.groups fun _ _ _ _ => rfl).trans hgroups,
    (h.seq_eq Seq.drainLimit fun _ _ _ _ => rfl).trans hdrain,
    (h.seq_eq Seq.suspendLimit fun _ _ _ _ => rfl).trans hsuspend,
    (h.seq_eq Seq.deferralLimit fun _ _ _ _ => rfl).trans hdefer, ?_, h.settings.trans hset, ?_⟩
  · rw [h.stations]
    exact haging
  · rw [← hpower]
    exact congrArg (fun p : Power => { p with wakeList := s.power.wakeList }) h.power
  · rw [h.mgmt]
    exact hmgmt

theorem readIdentity_settingsKept (s : State) : settingsKept s (readIdentity s) :=
  ⟨fun _ _ _ => Iff.rfl, rfl, fun n => by rw [readIdentity_line], rfl, rfl, rfl, rfl, rfl, rfl, rfl, rfl, rfl, rfl, rfl,
    rfl, rfl, rfl, rfl, rfl⟩

/-- Steps 5 to 7 leave the items of the image as they were loaded. -/
theorem Started.imageLoaded {b : ImageBody} {u t : State} (h : Started u t) (hb : imageLoaded b s u) :
    imageLoaded b s t := by
  obtain ⟨haging, hfilled, hfrom, htrain, hwake, hshares, haccess, hdrain, hsuspend, hdefer, hprog, hgroups, hpower,
    hset, hmgmt⟩ := hb
  have hstations : (∀ i, s.stations.entries.get i = none) → t.stations = u.stations := fun h0 =>
    h.unlearned fun i x hx => (hfrom h0 i x hx).1
  refine ⟨?_, ?_, ?_, h.trainLimit.trans htrain, h.wakeLimit.trans hwake, h.shares.trans hshares,
    h.access.trans haccess, (h.seq_eq Seq.drainLimit fun _ _ _ _ => rfl).trans hdrain,
    (h.seq_eq Seq.suspendLimit fun _ _ _ _ => rfl).trans hsuspend,
    (h.seq_eq Seq.deferralLimit fun _ _ _ _ => rfl).trans hdefer, ?_, ?_, ?_, h.settings.trans hset, ?_⟩
  · rw [h.stations]
    exact haging
  · exact fun h0 hlen hok hnd i => by rw [hstations h0]; exact hfilled h0 hlen hok hnd i
  · exact fun h0 i e he => hfrom h0 i e (by rw [← hstations h0]; exact he)
  · rw [h.seq_eq Seq.programs fun _ _ _ _ => rfl]
    exact hprog
  · rw [h.seq_eq Seq.groups fun _ _ _ _ => rfl]
    exact hgroups
  · rw [← hpower]
    exact congrArg (fun p : Power => { p with wakeList := s.power.wakeList }) h.power
  · rw [h.mgmt]
    exact hmgmt

/-- A refused image leaves every setting (R190). -/
theorem warmLoad_settingsKept (h : imagePasses s.memory = false) : settingsKept s (warmLoad (readIdentity s)) := by
  rw [warmLoad_of_fails h]
  generalize hu : (readIdentity s).modMgmt _ = u
  have hkept : settingsKept s u := by
    rw [← hu]
    exact readIdentity_settingsKept s
  generalize Detail.configDefaulted _ = d
  have hset := (raise_moved none d (.refl u)).settings
  have hline := State.line_of_lines (raise_lines u none d)
  unfold settingsKept staticSame at *
  simpa [hset, hline] using hkept

/-! ## The three starts -/

theorem startUp_runs {cold : Bool} {s : State} (h : s.mgmt.phase = .held cold) :
    exec .startUp s = .next (startLines (identified cold s)) := by
  rw [← runStartUp_eq]
  simp [exec, execStartUp, h]

/-- A line once the identity has been read, dealt with (R190). -/
theorem Started.startedLine {u t : State} (h : Started u t) {l : Line} {n : LineNo}
    (hl : u.line n = { l with command := some .off }) : startedLine l (t.line n) := by
  rw [startedLine_iff, ← hl]
  exact h.line n

theorem coldStart (s : State) : Started (readIdentity s) (startLines (identified true s)) := startLines_started _
theorem warmStart (s : State) : Started (warmLoad (readIdentity s)) (startLines (identified false s)) :=
  startLines_started _

end

end Sys2Proof.Machine

namespace Sys2Proof
open Machine

/-- Settles O5: what is loaded or kept when the marker is settled stands at the end of the start-up, by
`startLines_started`. -/
theorem startUp : Obligations.StartUp := by
  intro s
  refine ⟨fun hp => ⟨_, startUp_runs hp, ?_⟩, fun hp himg => ⟨_, startUp_runs hp, ?_⟩,
    fun hp himg => ⟨_, startUp_runs hp, ?_⟩, fun cold m hp hm => ⟨_, startUp_runs hp, ?_⟩,
    fun cold hp hm => ⟨_, startUp_runs hp, ?_⟩⟩
  · have h := coldStart s
    generalize startLines (identified true s) = t at h ⊢
    refine ⟨by rw [h.mgmt], by rw [h.mgmt]; rfl, by rw [h.mgmt]; rfl, by rw [h.mgmt]; rfl,
      h.settingsKept (readIdentity_settingsKept s), h.raised, h.marker, by rw [h.mgmt]; rfl, h.memory,
      fun n => h.startedLine (readIdentity_line s n)⟩
  · have h := warmStart s
    have hloaded := h.imageLoaded (warmLoad_image himg)
    obtain ⟨-, -, -, -, -, hline⟩ := loadImage_kept s.memory.image.body (readIdentity s)
    generalize startLines (identified false s) = t at h hloaded ⊢
    obtain ⟨haging, -, -, -, -, hshares, -⟩ := id hloaded
    refine ⟨by rw [h.mgmt], ?_, ?_, h.raised, h.marker, haging, by rw [hshares], ?_, hloaded, fun n => h.startedLine ?_⟩
    · rw [h.mgmt, warmLoad_of_passes himg]; rfl
    · rw [h.mgmt, warmLoad_of_passes himg]; rfl
    · rw [h.mgmt, warmLoad_of_passes himg]; rfl
    · rw [warmLoad_of_passes himg, State.modMgmt_line, hline, readIdentity_line]
  · have h := warmStart s
    have hraised : flagged (warmLoad (readIdentity s)) .configDefaulted := by
      rw [warmLoad_of_fails himg]
      exact raise_flagged _ _ _
    generalize startLines (identified false s) = t at h ⊢
    refine ⟨by rw [h.mgmt], ?_, h.flags _ hraised, h.raised, ?_, ?_, h.settingsKept (warmLoad_settingsKept himg), ?_,
      fun n => h.startedLine ?_⟩
    · rw [h.mgmt, warmLoad_of_fails himg, raise_mgmt]; rfl
    · rw [h.shares, warmLoad_of_fails himg, raise_shares]; rfl
    · rw [h.mgmt, warmLoad_of_fails himg, raise_mgmt]; rfl
    · rw [h.mgmt, warmLoad_of_fails himg, raise_mgmt]; rfl
    · rw [warmLoad_of_fails himg, State.line_of_lines (raise_lines _ _ _), State.modMgmt_line, readIdentity_line]
  · obtain ⟨hlog, hcounter, hmarker, htime, hdev⟩ := identified_log cold s
    have hrec : markerRecord m (identified cold s) = markerRecord m s := by simp only [markerRecord, hcounter, htime]
    have h := startLines_recorded (hmarker.trans hm)
    rw [hlog, hcounter, hdev, hrec] at h
    obtain ⟨h1, h2, h3, h4⟩ := h
    exact ⟨h1, h2, h3, (startLines_started _).marker, h4⟩
  · obtain ⟨hlog, hcounter, hmarker, -⟩ := identified_log cold s
    obtain ⟨h1, h2⟩ := startLines_unrecorded (hmarker.trans hm)
    exact ⟨h1.trans hlog, h2.trans hcounter, (startLines_started _).marker⟩

end Sys2Proof
end

