-- ==== Sys2Proof/Proofs/Pool.lean ====
section
/-! PROOF. The cell pool's rules at the places where frames are stored and let go: the reference counts against the
numbers held (R34), the cells (R33) and the arming (R36). -/

namespace Sys2Proof.Machine

/-! ## Records by number -/

section
variable {recs : List (Nat × FrameRec)} {id j : Nat} {r : FrameRec}

theorem lookup_none_of_fresh (h : ∀ x ∈ recs, x.1 < id) : recs.lookup id = none :=
  List.lookup_eq_none_iff.mpr fun x hx => by simpa using (h x hx).ne'

theorem lookup_append_fresh (h : ∀ x ∈ recs, x.1 < id) (j : Nat) :
    (recs ++ [(id, r)]).lookup j = if j = id then some r else recs.lookup j := by
  rw [List.lookup_append]
  by_cases hj : j = id
  · simp [hj, lookup_none_of_fresh h, List.lookup]
  · have : (j == id) = false := by simpa using hj
    simp [hj, List.lookup, this]

theorem mem_of_lookup (h : recs.lookup id = some r) : (id, r) ∈ recs := by
  induction recs with
  | nil => cases h
  | cons x xs ih =>
    rw [List.lookup_cons] at h
    split at h
    next heq =>
      cases h
      rw [beq_iff_eq.mp heq]
      exact List.mem_cons_self
    next => exact List.mem_cons_of_mem _ (ih h)

theorem lookup_filter (j : Nat) :
    (recs.filter fun x => x.1 != id).lookup j = if j = id then none else recs.lookup j := by
  induction recs with
  | nil => simp
  | cons x xs ih =>
    by_cases hx : x.1 = id
    · rw [List.filter_cons_of_neg (by simp [hx]), ih, List.lookup_cons]
      by_cases hj : j = id
      · simp [hj]
      · have : (j == x.1) = false := by simpa [hx] using hj
        simp [hj, this]
    · rw [List.filter_cons_of_pos (by simpa using hx), List.lookup_cons, List.lookup_cons, ih]
      by_cases hj : j = id
      · have : (j == x.1) = false := by simpa [hj] using Ne.symm hx
        simp only [this, if_pos hj]
      · simp [hj]

theorem lookup_map_snd (f : Nat → FrameRec → FrameRec) (j : Nat) :
    (recs.map fun x => (x.1, f x.1 x.2)).lookup j = (recs.lookup j).map (f j) := by
  induction recs with
  | nil => rfl
  | cons x xs ih =>
    rw [List.map_cons, List.lookup_cons, List.lookup_cons, ih]
    split
    next heq => rw [beq_iff_eq.mp heq]; rfl
    next => rfl

/-- Taking out the record of a number, where each number is used once. -/
theorem perm_filter_of_lookup (hnd : (recs.map Prod.fst).Nodup) (h : recs.lookup id = some r) :
    recs.Perm ((id, r) :: recs.filter fun x => x.1 != id) := by
  induction recs with
  | nil => cases h
  | cons x xs ih =>
    obtain ⟨hx, hxs⟩ := List.nodup_cons.mp hnd
    rw [List.lookup_cons] at h
    split at h
    next heq =>
      have hid : x.1 = id := (beq_iff_eq.mp heq).symm
      have hall : (xs.filter fun y => y.1 != id) = xs := List.filter_eq_self.mpr fun y hy => by
        have : y.1 ≠ id := fun e => hx (hid.trans e.symm ▸ List.mem_map_of_mem hy)
        simpa using this
      rw [List.filter_cons_of_neg (by simp [hid]), hall]
      cases h
      rw [← hid]
    next heq =>
      have hid : x.1 ≠ id := fun e => by simp [e] at heq
      rw [List.filter_cons_of_pos (by simpa using hid)]
      exact ((ih hxs h).cons x).trans (.swap _ _ _)

end

/-- A record with one reference fewer, if it has the number. -/
def FrameRec.lowered (id k : Nat) (r : FrameRec) : FrameRec := if k == id then { r with refs := r.refs - 1 } else r

/-! ## Reference counts -/

/-- The reference count of a number: 0 for one that names no live record. -/
def Pool.refsOf (p : Pool) (id : Nat) : Nat := ((p.recs.lookup id).map FrameRec.refs).getD 0

/-- Each record numbered once, in the order made (R33). -/
def Pool.Numbered (p : Pool) : Prop := (p.recs.map Prod.fst).Nodup ∧ ∀ x ∈ p.recs, x.1 < p.nextId

/-- Every record's reference count is the number of times its number is held, at least once (R34). -/
def Pool.Counted (p : Pool) (held : List Nat) : Prop :=
  (∀ id, held.count id = p.refsOf id) ∧ (∀ x ∈ p.recs, 1 ≤ x.2.refs) ∧ p.Numbered

theorem refsCounted_iff {s : State} : RefsCounted s ↔ s.pool.Counted (holders s) := Iff.rfl

theorem Pool.Counted.perm {p : Pool} {xs ys : List Nat} (h : p.Counted xs) (hp : ys.Perm xs) : p.Counted ys :=
  ⟨fun id => (hp.count_eq id).trans (h.1 id), h.2⟩

/-- A state of the pool in which nothing is stored or held. -/
theorem Pool.Counted.empty {p : Pool} (h : p.recs = []) : p.Counted [] := by
  simp [Pool.Counted, Pool.Numbered, Pool.refsOf, h]

section
variable {s : State} {id : Nat} {r : FrameRec} {held : List Nat}

theorem setFree_pool (k : Nat) (s : State) : (setFree k s).pool = { s.pool with
    free := k, armed := if k < Config.poolLowMark then false else if Config.poolArmMark ≤ k then true else s.pool.armed } := by
  have hfields : (setFree k s).pool = Pool.mk (setFree k s).pool.recs (setFree k s).pool.nextId
    (setFree k s).pool.free (setFree k s).pool.armed := rfl
  rw [hfields, setFree_recs, setFree_nextId, setFree_free, setFree_armed]

/-- The pool after a letting go reads the pool alone (R34). -/
theorem dropRef_pool_congr {s t : State} (h : t.pool = s.pool) (id : Nat) :
    (dropRef id t).pool = (dropRef id s).pool := by
  have hset : ∀ (k : Nat) (f : Pool → Pool), (setFree k (t.modPool f)).pool = (setFree k (s.modPool f)).pool := by
    intro k f
    simp only [setFree_pool, State.modPool_pool, h]
  unfold dropRef
  simp only [State.record, h]
  split
  · exact h
  · split
    · exact hset _ _
    · simp [h]

/-- A holder lets go (R34). -/
theorem dropRef_counted (h : s.pool.Counted (id :: held)) : (dropRef id s).pool.Counted held := by
  obtain ⟨hcount, hpos, hnd, hlt⟩ := h
  have hid := hcount id
  rw [List.count_cons_self, Pool.refsOf] at hid
  cases hr : s.pool.recs.lookup id with
  | none => simp [hr] at hid
  | some r =>
    have hrefs : held.count id + 1 = r.refs := by simpa [hr] using hid
    by_cases hlast : r.refs ≤ 1
    · obtain ⟨-, hrecs⟩ := dropRef_last s id r hr hlast
      have hsub : ((s.pool.recs.filter fun x => x.1 != id)).Sublist s.pool.recs := List.filter_sublist
      refine ⟨fun k => ?_, fun x hx => hpos x ?_, ?_, fun x hx => ?_⟩
      · rw [Pool.refsOf, hrecs, lookup_filter]
        by_cases hk : k = id
        · rw [if_pos hk, hk]
          simp
          omega
        · have := hcount k
          rw [List.count_cons_of_ne (Ne.symm hk)] at this
          rw [if_neg hk, this]
          rfl
      · exact hsub.subset (hrecs ▸ hx)
      · rw [hrecs]
        exact (hsub.map _).nodup hnd
      · rw [dropRef_nextId]
        exact hlt x (hsub.subset (hrecs ▸ hx))
    · obtain ⟨-, hrecs⟩ := dropRef_other s id r hr (by omega)
      have hmap : (dropRef id s).pool.recs = s.pool.recs.map fun x => (x.1, FrameRec.lowered id x.1 x.2) := hrecs
      refine ⟨fun k => ?_, fun x hx => ?_, ?_, fun x hx => ?_⟩
      · rw [Pool.refsOf, hmap, lookup_map_snd]
        by_cases hk : k = id
        · simp [hk, hr, FrameRec.lowered]
          omega
        · have := hcount k
          rw [List.count_cons_of_ne (Ne.symm hk), Pool.refsOf] at this
          rw [this]
          cases s.pool.recs.lookup k <;> simp [FrameRec.lowered, hk]
      · rw [hrecs, List.mem_map] at hx
        obtain ⟨y, hy, rfl⟩ := hx
        by_cases hyid : y.1 = id
        · have hyr : y.2 = r := by
            have := perm_filter_of_lookup hnd hr
            rcases List.mem_cons.mp (this.mem_iff.mp hy) with e | hmem
            · exact congrArg Prod.snd e
            · simp [hyid] at hmem
          simp [hyid, hyr]
          omega
        · simpa [hyid] using hpos y hy
      · rw [hrecs, List.map_map]
        exact hnd
      · rw [hrecs, List.mem_map] at hx
        obtain ⟨y, hy, rfl⟩ := hx
        rw [dropRef_nextId]
        exact hlt y hy

/-- Holders let go one after the other (R34). -/
theorem dropRefs_counted {ids : List Nat} (h : s.pool.Counted (ids ++ held)) :
    (ids.foldl (fun s id => dropRef id s) s).pool.Counted held := by
  induction ids generalizing s with
  | nil => exact h
  | cons id ids ih => exact ih (dropRef_counted h)

theorem makeRecord_numbered (h : s.pool.Numbered) : (makeRecord r s).pool.Numbered := by
  obtain ⟨-, hrecs, hnext⟩ := makeRecord_pool s r
  obtain ⟨hnd, hlt⟩ := h
  rw [Pool.Numbered, hrecs, hnext]
  refine ⟨?_, fun x hx => ?_⟩
  · rw [List.map_append]
    refine hnd.append (by simp) ?_
    intro a ha hb
    obtain ⟨x, hx, rfl⟩ := List.mem_map.mp ha
    have := hlt x hx
    simp at hb
    omega
  · rcases List.mem_append.mp hx with hx | hx
    · exact Nat.lt_succ_of_lt (hlt x hx)
    · rw [List.mem_singleton.mp hx]
      exact Nat.lt_succ_self _

/-- A record made with as many references as it has new holders (R33, R34). -/
theorem makeRecord_counted (h : s.pool.Counted held) (hr : 1 ≤ r.refs) :
    (makeRecord r s).pool.Counted (List.replicate r.refs s.pool.nextId ++ held) := by
  obtain ⟨-, hrecs, -⟩ := makeRecord_pool s r
  obtain ⟨hcount, hpos, hnum⟩ := h
  refine ⟨fun id => ?_, fun x hx => ?_, makeRecord_numbered hnum⟩
  · rw [Pool.refsOf, hrecs, lookup_append_fresh hnum.2, List.count_append, hcount id, Pool.refsOf]
    by_cases hid : id = s.pool.nextId
    · simp [hid, lookup_none_of_fresh hnum.2]
    · simp [hid, List.count_replicate, Ne.symm hid]
  · rw [hrecs] at hx
    rcases List.mem_append.mp hx with hx | hx
    · exact hpos x hx
    · rw [List.mem_singleton.mp hx]
      exact hr

end

/-! ## Cells and arming -/

/-- What letting go does to the cells and the arming: nothing is taken from the free count, the cells stay accounted
for, and an armed pool stays armed (R33, R34, R36). -/
structure Freed (p q : Pool) : Prop where
  cells : p.Numbered → p.free + (p.recs.map fun x => x.2.cells).sum = Config.poolCells →
    q.Numbered ∧ q.free + (q.recs.map fun x => x.2.cells).sum = Config.poolCells
  free : min p.free Config.poolCells ≤ q.free
  armed : (p.free < 128 → p.armed = false) ∧ (256 ≤ p.free → p.armed = true) →
    ((q.free < 128 → q.armed = false) ∧ (256 ≤ q.free → q.armed = true)) ∧ (p.armed = true → q.armed = true)

theorem Freed.refl (p : Pool) : Freed p p := ⟨fun hn hc => ⟨hn, hc⟩, min_le_left _ _, fun h => ⟨h, id⟩⟩

theorem Freed.trans {p q r : Pool} (h : Freed p q) (k : Freed q r) : Freed p r where
  cells hn hc := by
    obtain ⟨hn', hc'⟩ := h.cells hn hc
    exact k.cells hn' hc'
  free := (le_min h.free (min_le_right _ _)).trans k.free
  armed ha := ⟨(k.armed (h.armed ha).1).1, (k.armed (h.armed ha).1).2 ∘ (h.armed ha).2⟩

section
variable {s : State} {id : Nat}

/-- The arming after a letting go: as it was, or armed where the record ended with 256 cells or more free (R36). -/
theorem dropRef_freed (id : Nat) (s : State) : Freed s.pool (dropRef id s).pool := by
  cases hr : s.record id with
  | none => rw [dropRef_none s id hr]; exact .refl _
  | some r =>
    by_cases hlast : r.refs ≤ 1
    · obtain ⟨hfree, hrecs⟩ := dropRef_last s id r hr hlast
      have harmed : (dropRef id s).pool.armed = if s.pool.free + r.cells < 128 then false
          else if 256 ≤ s.pool.free + r.cells then true else s.pool.armed := by
        simp only [dropRef, hr, hlast, if_true, setFree_armed]
        rfl
      have hsub : ((s.pool.recs.filter fun x => x.1 != id)).Sublist s.pool.recs := List.filter_sublist
      refine ⟨fun hn hc => ⟨⟨?_, fun x hx => ?_⟩, ?_⟩, ?_, fun ha => ⟨⟨fun hlt => ?_, fun hge => ?_⟩, fun hon => ?_⟩⟩
      · rw [hrecs]
        exact (hsub.map _).nodup hn.1
      · rw [dropRef_nextId]
        exact hn.2 x (hsub.subset (hrecs ▸ hx))
      · have hsum := ((perm_filter_of_lookup hn.1 hr).map fun x => x.2.cells).sum_eq
        rw [List.map_cons, List.sum_cons] at hsum
        rw [hfree, hrecs]
        dsimp only at hsum
        omega
      · rw [hfree]
        exact (min_le_left _ _).trans (Nat.le_add_right _ _)
      · rw [harmed, if_pos (hfree ▸ hlt)]
      · rw [hfree] at hge
        rw [harmed, if_neg (by omega), if_pos hge]
      · have : ¬ s.pool.free < 128 := fun hlt => by simp [ha.1 hlt] at hon
        rw [harmed, if_neg (by omega), hon, ite_self]
    · obtain ⟨hfree, hrecs⟩ := dropRef_other s id r hr (by omega)
      have harmed : (dropRef id s).pool.armed = s.pool.armed := by simp [dropRef, hr, hlast]
      refine ⟨fun hn hc => ⟨⟨?_, fun x hx => ?_⟩, ?_⟩, hfree ▸ min_le_left _ _, fun ha => ?_⟩
      · rw [hrecs, List.map_map]
        exact hn.1
      · rw [hrecs, List.mem_map] at hx
        obtain ⟨y, hy, rfl⟩ := hx
        rw [dropRef_nextId]
        exact hn.2 y hy
      · rw [hfree, hrecs, List.map_map, ← hc]
        congr 3
        funext x
        simp only [Function.comp_apply]
        split <;> rfl
      · rw [hfree, harmed]
        exact ⟨ha, fun h => h⟩

theorem dropRefs_freed (ids : List Nat) (s : State) :
    Freed s.pool (ids.foldl (fun s id => dropRef id s) s).pool := by
  induction ids generalizing s with
  | nil => exact .refl _
  | cons id ids ih => exact (dropRef_freed id s).trans (ih _)

end

end Sys2Proof.Machine
end

