-- ==== Sys2Proof/Proofs/Holders.lean ====
section
/-! PROOF. Who holds a frame (R34), and the operations that store none: what they do to the cell pool is that holders
let go, or that the pool is cleared. -/

namespace Sys2Proof.Machine

/-! ## The numbers held -/

/-- The numbers that a line holds. -/
def Line.held (l : Line) : List Nat := l.downQ ++ l.prioQ ++ l.bulkQ ++ l.wakeStore.toList ++ l.handOff.toList

/-- The numbers that the lines hold. -/
def heldLines (s : State) : List Nat := (indexes 24).flatMap fun n => (s.line n).held

/-- The numbers that the transmit list and the transmitters hold. -/
def heldPorts (s : State) : List Nat :=
  s.mgmt.txList.map TxEntry.recId ++ (s.sched.uplinkTx.map UplinkTx.recId).toList ++ s.sched.craftTx.toList

theorem holders_eq (s : State) : holders s = heldLines s ++ heldPorts s := by
  have : s.lines.items.flatMap Line.held = heldLines s := by rw [tab_items_eq_map, List.flatMap_map]; rfl
  rw [← this, heldPorts, ← List.append_assoc, ← List.append_assoc]
  rfl

/-- A list's images after one item's image has changed. -/
theorem flatMap_change {α β : Type} {f g : α → List β} {l : List α} {a : α} (hnd : l.Nodup) (ha : a ∈ l)
    (h : ∀ x, x ≠ a → f x = g x) : (l.flatMap f ++ g a).Perm (l.flatMap g ++ f a) := by
  obtain ⟨l₁, l₂, rfl⟩ := List.append_of_mem ha
  obtain ⟨-, h2, hdisj⟩ := List.nodup_append.mp hnd
  have h₁ : l₁.flatMap f = l₁.flatMap g := List.flatMap_congr fun x hx => h x (hdisj x hx a (by simp))
  have h₂ : l₂.flatMap f = l₂.flatMap g :=
    List.flatMap_congr fun x hx => h x fun e => (List.nodup_cons.mp h2).1 (e ▸ hx)
  classical
  rw [List.perm_iff_count]
  intro x
  simp only [List.flatMap_append, List.flatMap_cons, List.count_append, h₁, h₂]
  omega

section
variable {s t u : State}

theorem heldLines_congr (h : ∀ n, (t.line n).held = (s.line n).held) : heldLines t = heldLines s := by
  simp [heldLines, h]

/-- What the lines hold after one line has changed. -/
theorem heldLines_change (n : LineNo) (h : ∀ m, m ≠ n → t.line m = s.line m) :
    (heldLines t ++ (s.line n).held).Perm (heldLines s ++ (t.line n).held) :=
  flatMap_change (f := fun m => (t.line m).held) (g := fun m => (s.line m).held) (List.nodup_finRange 24)
    (mem_indexes n) fun m hm => by simp only [h m hm]

theorem heldPorts_congr (hm : t.mgmt = s.mgmt) (hs : t.sched = s.sched) : heldPorts t = heldPorts s := by
  simp [heldPorts, hm, hs]

/-- A line takes numbers and gives numbers. -/
theorem holders_exchange {n : LineNo} {xs ys : List Nat} (h : ∀ m, m ≠ n → t.line m = s.line m)
    (hl : (xs ++ (t.line n).held).Perm (ys ++ (s.line n).held)) (hp : heldPorts t = heldPorts s) :
    (xs ++ holders t).Perm (ys ++ holders s) := by
  rw [List.perm_iff_count] at hl ⊢
  intro id
  have h1 := (heldLines_change n h).count_eq id
  have h2 := hl id
  simp only [holders_eq, List.count_append, hp] at h1 h2 ⊢
  omega

/-- A flush empties what it lets go of (R39). -/
theorem flush_held (x : Flush) (l : Line) : (x.refs l ++ (x.empty l).held).Perm l.held := by
  rw [List.perm_iff_count]
  intro id
  simp only [Flush.refs, Flush.empty, Line.held, List.count_append]
  cases x.down <;> cases x.up <;> cases x.wake <;> cases x.hand <;> simp <;> omega

/-! ## Letting go of several -/

theorem dropRefs_pool_congr {ids : List Nat} (h : t.pool = s.pool) :
    (ids.foldl (fun s id => dropRef id s) t).pool = (ids.foldl (fun s id => dropRef id s) s).pool := by
  induction ids generalizing s t with
  | nil => exact h
  | cons id ids ih => exact ih (dropRef_pool_congr h id)

theorem dropAll_pool (n : LineNo) (c : LineCause) (ids : List Nat) (s : State) :
    (dropAll n c ids s).pool = (ids.foldl (fun s id => dropRef id s) s).pool := by
  induction ids generalizing s with
  | nil => rfl
  | cons id ids ih => exact (ih _).trans (dropRefs_pool_congr (countDrop_pool _ _ _))

/-! ## Operations that store no frame -/

/-- No frame is stored between two states: holders let go, or everything is cleared. -/
inductive Unloads : State → State → Prop
  /-- The numbers `ids` are let go, and the others are held as before, by whatever holder. -/
  | letGo {s t : State} (ids : List Nat) (hp : t.pool = (ids.foldl (fun s id => dropRef id s) s).pool)
      (hh : (ids ++ holders t).Perm (holders s)) : Unloads s t
  | cleared {s t : State} (hr : t.pool.recs = []) (hf : t.pool.free = Config.poolCells) (ha : t.pool.armed = true)
      (hh : holders t = []) : Unloads s t
  | trans {s t u : State} (h : Unloads s t) (k : Unloads t u) : Unloads s u

theorem Unloads.kept (hp : t.pool = s.pool) (hh : (holders t).Perm (holders s)) : Unloads s t := .letGo [] hp hh

theorem Unloads.refl (s : State) : Unloads s s := .kept rfl (.refl _)

/-- An operation that leaves what the lines hold, the transmit list and the transmitters. -/
theorem Unloads.andKept (h : Unloads s t) (hl : ∀ n, (u.line n).held = (t.line n).held) (hp : u.pool = t.pool)
    (hports : heldPorts u = heldPorts t) : Unloads s u :=
  h.trans (.kept hp (by rw [holders_eq, holders_eq, heldLines_congr hl, hports]))

/-- An operation that leaves the lines, the pool, the ports and the transmit list. -/
theorem Unloads.aside (h : Unloads s t)
    (hk : u.lines = t.lines ∧ u.pool = t.pool ∧ u.sched = t.sched ∧ u.mgmt = t.mgmt) : Unloads s u := by
  obtain ⟨hl, hp, hs, hm⟩ := hk
  exact h.andKept (fun n => by rw [State.line_of_lines hl]) hp (heldPorts_congr hm hs)

/-- The cells, the reference counts and the arming where no frame is stored (R33, R34, R36). -/
theorem Unloads.freed (h : Unloads s t) : Freed s.pool t.pool := by
  induction h with
  | letGo ids hp _ => rw [hp]; exact dropRefs_freed _ _
  | cleared hr hf ha _ =>
    refine ⟨fun _ _ => ⟨⟨by simp [hr], by simp [hr]⟩, by simp [hr, hf]⟩, hf ▸ min_le_right _ _,
      fun _ => ⟨⟨fun hlt => ?_, fun _ => ha⟩, fun _ => ha⟩⟩
    simp [hf, Config.poolCells] at hlt
  | trans _ _ ih ik => exact ih.trans ik

theorem Unloads.counted (h : Unloads s t) (hs : RefsCounted s) : RefsCounted t := by
  induction h with
  | letGo ids hp hh =>
    rw [refsCounted_iff, hp]
    exact dropRefs_counted ((refsCounted_iff.mp hs).perm hh)
  | cleared hr _ _ hh =>
    rw [refsCounted_iff, hh]
    exact .empty hr
  | trans _ _ ih ik => exact ik (ih hs)

/-! ## Lines -/

theorem flush_unloads (n : LineNo) (x : Flush) (h : Unloads s t) : Unloads s (flush n x t) := by
  refine h.trans (.letGo (x.refs (t.line n)) ?_ ?_)
  · exact (dropAll_pool _ _ _ _).trans (dropRefs_pool_congr rfl)
  · exact holders_exchange (ys := []) (fun m hm => flush_line_other n t x hm)
      (by rw [flush_line_self]; exact flush_held x _) (heldPorts_congr (by simp) (by simp))

/-- One line written, but for what it holds. -/
theorem modLine_unloads (n : LineNo) (f : Line → Line) (hf : ∀ l, (f l).held = l.held) (h : Unloads s t) :
    Unloads s (t.modLine n f) := by
  refine h.andKept (fun m => ?_) rfl rfl
  by_cases hm : m = n
  · subst hm
    rw [State.modLine_line_self]
    exact hf _
  · rw [State.modLine_line_other _ _ hm]

theorem refreshIdle_unloads (n : LineNo) (h : Unloads s t) : Unloads s (refreshIdle n t) :=
  modLine_unloads n _ (fun _ => rfl) h

theorem held_of_apart {a b : Line} (h : a.apart = b.apart) : a.held = b.held :=
  (congrArg Line.held h : a.apart.held = b.apart.held)

theorem recompute_unloads (h : Unloads s t) : Unloads s (recompute t) :=
  h.andKept (fun n => held_of_apart (recompute_apart t n)) rfl rfl

theorem recomputeIf_unloads (n : LineNo) (before : Line) (h : Unloads s t) : Unloads s (recomputeIf n before t) := by
  unfold recomputeIf
  split
  · exact recompute_unloads h
  · exact h

theorem leaveState_held (l : Line) : (leaveState l).held = l.held := by simp [Line.held]

theorem enterState_held (s : State) (new : LineState) (l : Line) : (enterState s new l).held = l.held := by
  unfold enterState
  dsimp only
  cases new <;> dsimp only [Line.held]
  split <;> rfl

theorem enterCore_unloads (n : LineNo) (new : LineState) (r : Reason) (h : Unloads s t) :
    Unloads s (enterCore n new r t) := by
  unfold enterCore
  dsimp only
  split
  · exact h
  · have hf := flush_unloads n (entryFlush (t.line n).st new r) h
    have hw : ∀ {u : State}, Unloads s u → Unloads s (if asleepState (t.line n).st then removeWake n u else u) := by
      intro u hu
      split
      · exact hu.aside (by simp)
      · exact hu
    have he : ∀ {u : State}, Unloads s u → Unloads s (u.modLine n fun l => enterState u new (leaveState l)) :=
      fun hu => modLine_unloads n _ (fun l => (enterState_held _ _ _).trans (leaveState_held l)) hu
    have hl : ∀ {u : State}, Unloads s u → Unloads s (if losesLearned new then removeLearned n u else u) := by
      intro u hu
      split
      · exact hu.aside (by simp)
      · exact hu
    exact (refreshIdle_unloads n (hl (he (hw hf)))).aside (by simp)

theorem grantOne_unloads (e : WakeEntry) (h : Unloads s t) : Unloads s (grantOne e t) := by
  unfold grantOne
  dsimp only
  split
  · exact recomputeIf_unloads _ _ (enterCore_unloads _ _ _ (h.aside (by simp)))
  · exact h.aside (by simp)

theorem grants_unloads (k : Nat) (h : Unloads s t) : Unloads s (grants k t) := by
  induction k generalizing t with
  | zero => exact h
  | succ k ih =>
    unfold grants
    split
    · exact h
    · split
      · exact ih (grantOne_unloads _ h)
      · exact h

theorem grantAll_unloads (h : Unloads s t) : Unloads s (grantAll t) := grants_unloads _ h

theorem wakeRequest_unloads (n : LineNo) (c : WakeCause) (h : Unloads s t) : Unloads s (wakeRequest n c t) := by
  unfold wakeRequest
  split
  · exact h
  · exact grantAll_unloads (h.aside (by simp))

theorem enter_unloads (n : LineNo) (new : LineState) (r : Reason) (h : Unloads s t) : Unloads s (enter n new r t) := by
  unfold enter
  dsimp only
  have hc := recomputeIf_unloads n (t.line n) (enterCore_unloads n new r h)
  split
  · exact grantAll_unloads hc
  · exact hc

theorem rederiveQuiet_unloads (n : LineNo) (h : Unloads s t) : Unloads s (rederiveQuiet n t) := by
  unfold rederiveQuiet
  split
  · exact enter_unloads n _ _ h
  · exact h

theorem rederiveAll_unloads (h : Unloads s t) : Unloads s (rederiveAll t) :=
  foldl_holds (Unloads s) _ (fun _ n hu => rederiveQuiet_unloads n hu) _ t h

theorem rederiveDormant_unloads (n : LineNo) (h : Unloads s t) : Unloads s (rederiveDormant n t) := by
  unfold rederiveDormant
  dsimp only
  split
  · split
    · exact enter_unloads n _ _ h
    · exact h
  · exact h

theorem takeLine_unloads (n : LineNo) (h : Unloads s t) : Unloads s (takeLine n t) := by
  unfold takeLine
  dsimp only
  split
  · exact enter_unloads n _ _ (modLine_unloads n _ (fun _ => rfl) h)
  · exact h

theorem returnLine_unloads (n : LineNo) (g : Option Grade) (h : Unloads s t) : Unloads s (returnLine n g t) := by
  unfold returnLine
  dsimp only
  split
  · exact enter_unloads n _ _ h
  · exact enter_unloads n _ _ h
  · split
    · exact enter_unloads n _ _ h
    · exact h
  · exact h

theorem takeRates_unloads (n : LineNo) (down up : Nat) (h : Unloads s t) : Unloads s (takeRates n down up t) :=
  recomputeIf_unloads n _ (modLine_unloads n _ (fun _ => rfl) h)

/-! ## Tests -/

theorem writeGrade_unloads (n : LineNo) (g : Grade) (h : Unloads s t) : Unloads s (writeGrade n g t) := by
  unfold writeGrade
  dsimp only
  have hl := modLine_unloads n (fun l => { l with grade := g }) (fun _ => rfl) h
  split
  · exact recompute_unloads hl
  · exact hl

theorem closeActivity_unloads (o : Outcome) (askReturn : Bool) (h : Unloads s t) :
    Unloads s (closeActivity o askReturn t) := by
  unfold closeActivity
  split
  · exact h
  next a _ =>
    dsimp only
    have hgraded : ∀ (g : Grade) (k : Nat) {u : State}, Unloads s u → Unloads s (if o = .completed then
        (writeGrade a.line g u).modLine a.line (fun l => { l with lastTest := some k }) else u) := by
      intro g k u hu
      split
      · exact modLine_unloads _ _ (fun _ => rfl) (writeGrade_unloads _ _ hu)
      · exact hu
    have hreturned : ∀ (g : Option Grade) {u : State}, Unloads s u →
        Unloads s (if askReturn = true then returnLine a.line g u else u) := by
      intro g u hu
      split
      · exact returnLine_unloads _ _ hu
      · exact hu
    have hraised : ∀ (d : Detail) (f : Seq → Seq) {u : State}, Unloads s u →
        Unloads s ((raise (some a.line) d u).modSeq f) := fun _ _ _ hu => hu.aside (by simp)
    exact hraised _ _ (hreturned _ (hgraded _ _ (h.aside (by simp))))

theorem drainReport_unloads (n : LineNo) (h : Unloads s t) : Unloads s (drainReport n t) := by
  unfold drainReport
  split
  · exact (enter_unloads n .held .drained h).aside (by simp)
  · exact h

theorem askForLine_unloads (n : LineNo) (h : Unloads s t) : Unloads s (askForLine n t) := by
  unfold askForLine
  dsimp only
  split
  · exact (takeLine_unloads n h).aside (by simp)
  · exact drainReport_unloads n (takeLine_unloads n h)

theorem startRequest_unloads (r : TestRequest) (h : Unloads s t) : Unloads s (startRequest r t) := by
  unfold startRequest
  exact askForLine_unloads _ (h.aside (by simp))

theorem selectWalk_unloads (k : Nat) (h : Unloads s t) : Unloads s (selectWalk k t) := by
  induction k generalizing t with
  | zero => exact h
  | succ k ih =>
    unfold selectWalk
    split
    · exact h
    · split
      · exact ih (h.aside (by simp))
      · exact startRequest_unloads _ h

theorem boundary_unloads (k : State → State) (hk : Unloads s (k t)) (h : Unloads s t) : Unloads s (boundary k t) := by
  unfold boundary
  split
  · exact h.aside (by simp)
  · exact hk

theorem idleStep_unloads (h : Unloads s t) : Unloads s (idleStep t) := by
  unfold idleStep
  split
  · exact boundary_unloads _ (selectWalk_unloads _ h) h
  · exact h

theorem joining_unloads (offer : State → State) (ho : Unloads s (offer t)) : Unloads s (joining offer t) := by
  unfold joining
  dsimp only
  split
  · exact idleStep_unloads ho
  · exact ho

theorem placesFreed_unloads (h : Unloads s t) : Unloads s (placesFreed t) :=
  idleStep_unloads (foldl_holds (Unloads s) _ (fun u _ hu => foldl_holds (Unloads s) _
    (fun _ _ hv => joining_unloads _ (hv.aside (by simp))) _ u hu) _ t h)

theorem enterIdle_unloads (h : Unloads s t) : Unloads s (enterIdle t) := idleStep_unloads (h.aside (by simp))

theorem afterExternal_unloads (h : Unloads s t) : Unloads s (afterExternal t) := by
  unfold afterExternal
  split
  · exact h.aside (by simp)
  · exact enterIdle_unloads h

theorem releasedReport_unloads (h : Unloads s t) : Unloads s (releasedReport t) := by
  unfold releasedReport
  split
  · exact enterIdle_unloads h
  · split
    · exact afterExternal_unloads (closeActivity_unloads _ _ h)
    · exact enterIdle_unloads (closeActivity_unloads _ _ h)

theorem abortTestNow_unloads (o : Outcome) (h : Unloads s t) : Unloads s (abortTestNow o t) := by
  unfold abortTestNow
  split
  · exact enterIdle_unloads (closeActivity_unloads _ _ h)
  · exact h.aside (by simp)
  · exact h.aside (by simp)
  · exact h.aside (by simp)
  · exact closeActivity_unloads _ _ h
  all_goals exact h

theorem shedReport_unloads (n : LineNo) (h : Unloads s t) : Unloads s (shedReport n t) := by
  unfold shedReport
  split
  · exact h
  · split
    · dsimp only
      split
      · exact (closeActivity_unloads .abortedPower false h).aside (by simp)
      · exact (closeActivity_unloads .abortedPower false h).aside (by simp)
    · exact h

theorem endExternal_unloads (h : Unloads s t) : Unloads s (endExternal t) := by
  unfold endExternal
  split
  · exact afterExternal_unloads (closeActivity_unloads _ _ h)
  · exact h.aside (by simp)
  · exact h.aside (by simp)
  · exact h

theorem restrainTest_unloads (p : PowerState) (h : Unloads s t) : Unloads s (restrainTest p t) := by
  unfold restrainTest
  split
  · exact h
  · split
    · exact h
    · split
      · exact h
      · exact h
      · split
        · exact h
        · exact abortTestNow_unloads _ h
      · exact abortTestNow_unloads _ h

/-! ## Power -/

theorem shedLine_unloads (n : LineNo) (h : Unloads s t) : Unloads s (shedLine n t) := by
  unfold shedLine
  dsimp only
  split
  · split
    · exact shedReport_unloads n (enterCore_unloads n _ _ h)
    · exact enterCore_unloads n _ _ h
  · exact h

theorem shedToBudget_unloads (h : Unloads s t) : Unloads s (shedToBudget t) := by
  unfold shedToBudget
  dsimp only
  have hf := foldl_holds (Unloads s) _ (fun u n hu => shedLine_unloads n (t := u) hu) (shedLines t) t h
  split
  · exact recompute_unloads hf
  · exact hf

theorem prune_unloads (h : Unloads s t) : Unloads s (prune t) :=
  foldl_holds (Unloads s) _ (fun _ e hu => refreshIdle_unloads _ (flush_unloads e.line _ hu)) _ _ (h.aside (by simp))

theorem changePower_unloads (l p : PowerState) (c : PowerCause) (h : Unloads s t) : Unloads s (changePower l p c t) := by
  unfold changePower
  dsimp only
  have hshed := shedToBudget_unloads (h.aside (u := setPowerState p t) (by simp))
  have hpruned := grantAll_unloads (prune_unloads hshed)
  have htest := idleStep_unloads (restrainTest_unloads p (recompute_unloads (rederiveAll_unloads hpruned)))
  exact htest.aside (by simp)

end

end Sys2Proof.Machine
end

