-- ==== Sys2Proof/Proofs/Unloading.lean ====
section
/-! PROOF. The events and commands that store no frame: each lets go of what it flushes, hands on what another holder
takes over, or clears the pool (R34, R39, R41). -/

namespace Sys2Proof.Machine

section
variable {s t : State}

/-! ## Resets and the start-up -/

theorem reset_holders {s : State} (hl : s.lines = State.reset.lines) (hm : s.mgmt.txList = [])
    (hu : s.sched.uplinkTx = none) (hc : s.sched.craftTx = none) : holders s = [] := by
  have hline : ∀ n, (s.line n).held = [] := fun n => by
    rw [State.line_of_lines (s := State.reset) hl n]
    simp [State.line, State.reset, Line.reset, Line.held]
  simp [holders_eq, heldLines, heldPorts, hline, hm, hu, hc]

theorem coldState_unloads (s : State) : Unloads s (coldState s) := .cleared rfl rfl rfl (reset_holders rfl rfl rfl rfl)

/-- What stood before a reset plays no part. -/
theorem warmReset_unloads (f : ResetFlag) (s t : State) : Unloads s (warmReset f t) :=
  .cleared rfl rfl rfl (reset_holders rfl rfl rfl rfl)

theorem loadStation_unloads (e : ImageEntry) (h : Unloads s t) : Unloads s (loadStation e t) := by
  unfold loadStation
  split
  · split
    · exact h
    · exact h.aside (by simp)
  · exact h

theorem loadImage_unloads (b : ImageBody) (h : Unloads s t) : Unloads s (loadImage b t) := by
  have hst := foldl_holds (Unloads s) (fun u e => loadStation e u) (fun _ e hu => loadStation_unloads e hu) b.stations t h
  refine hst.andKept (fun n => ?_) rfl rfl
  simp [loadImage, State.line, Line.held]

theorem warmLoad_unloads (h : Unloads s t) : Unloads s (warmLoad t) := by
  unfold warmLoad
  split
  · exact (loadImage_unloads _ h).andKept (fun _ => rfl) rfl rfl
  · have hm : ∀ c (d : Detail), Unloads s (raise none d (t.modMgmt fun m => { m with imageCheck := c })) := fun c _ =>
      (h.andKept (u := t.modMgmt fun m => { m with imageCheck := c }) (fun _ => rfl) rfl rfl).aside (by simp)
    exact hm _ _

theorem settleMarker_unloads (h : Unloads s t) : Unloads s (settleMarker t) := by
  unfold settleMarker
  split
  · exact h
  · exact h.aside (by simp)

theorem enableLines_unloads (h : Unloads s t) : Unloads s (enableLines t) := by
  refine foldl_holds (Unloads s) _ (fun u n hu => ?_) _ t h
  split
  · exact enterCore_unloads n _ _ hu
  · exact hu

theorem runStartUp_unloads (cold : Bool) (h : Unloads s t) : Unloads s (runStartUp cold t) := by
  have hid : Unloads s (readIdentity t) :=
    h.andKept (fun n => by simp [readIdentity, State.line, Line.held]) rfl rfl
  have hload : Unloads s (if cold then readIdentity t else warmLoad (readIdentity t)) := by
    split
    · exact hid
    · exact warmLoad_unloads hid
  have hraise : ∀ (d : Detail) {u : State}, Unloads s u →
      Unloads s ((raise none d u).modMgmt fun m => { m with phase := .started }) :=
    fun d _ hu => (hu.aside (u := raise none d _) (by simp)).andKept (fun _ => rfl) rfl rfl
  exact hraise _ (enableLines_unloads (settleMarker_unloads hload))

theorem completeStartUp_unloads (mv : Nat) (h : Unloads s t) : Unloads s (completeStartUp mv t) := by
  rw [completeStartUp_eq]
  have hrec : ∀ (p : PowerState) (f : Power → Power), Unloads s (recompute (setPowerState p (t.modPower f))) :=
    fun _ _ => recompute_unloads (h.aside (by simp))
  exact enterIdle_unloads ((hrec _ _).andKept (fun _ => rfl) rfl rfl)

theorem holdsNothing_held {l : Line} (h : l.holdsNothing) : l.held = [] := by
  obtain ⟨h1, h2, h3, h4, h5⟩ := h
  simp [Line.held, h1, h2, h3, h4, h5]

theorem doTrafficReset_unloads (s : State) : Unloads s (doTrafficReset s) := by
  obtain ⟨-, -, hpool, -⟩ := doTrafficReset_frames s
  obtain ⟨hmgmt, -, -, hsched, -⟩ := doTrafficReset_beside s
  have hline : ∀ n, ((doTrafficReset s).line n).held = [] := fun n =>
    holdsNothing_held (doTrafficReset_line s n).2.1
  refine .cleared (by rw [hpool]) (by rw [hpool]; rfl) (by rw [hpool]) ?_
  rw [holders_eq, heldPorts, hmgmt, hsched]
  simp [heldLines, hline]

/-! ## Transmissions -/

/-- Holders that change hands outside the lines. -/
theorem ports_exchange {xs : List Nat} (hl : t.lines = s.lines) (hp : (xs ++ heldPorts t).Perm (heldPorts s)) :
    (xs ++ holders t).Perm (holders s) := by
  have hlines : heldLines t = heldLines s := heldLines_congr fun n => by rw [State.line_of_lines hl]
  rw [holders_eq, holders_eq, hlines]
  rw [List.perm_iff_count] at hp ⊢
  intro id
  have := hp id
  simp only [List.count_append] at this ⊢
  omega

/-- An entry of the transmit list handed to the uplink transmitter (R71). -/
theorem uplinkEntry_unloads {e : TxEntry} {b : Bool} (he : e ∈ s.mgmt.txList) (hu : s.sched.uplinkTx = none) :
    Unloads s ((s.modMgmt fun m => { m with txList := m.txList.erase e }).modSched fun x =>
      { x with uplinkTx := some { recId := e.recId, spare := b } }) := by
  have hperm := (List.perm_cons_erase he).map TxEntry.recId
  refine .kept rfl (ports_exchange (xs := []) rfl ?_)
  simp only [heldPorts, List.nil_append, State.modSched_mgmt, State.modMgmt_mgmt, State.modSched_sched,
    State.modMgmt_sched, hu]
  rw [List.perm_iff_count] at hperm ⊢
  intro id
  have := hperm id
  simp only [List.map_cons, List.count_cons, List.count_append, Option.map_some, Option.map_none, Option.toList_some,
    Option.toList_none, List.count_nil] at this ⊢
  omega

/-- An entry of the transmit list handed to the craft transmitter (R81). -/
theorem craftEntry_unloads {e : TxEntry} (he : e ∈ s.mgmt.txList) (hc : s.sched.craftTx = none) :
    Unloads s ((s.modMgmt fun m => { m with txList := m.txList.erase e }).modSched fun x =>
      { x with craftTx := some e.recId }) := by
  have hperm := (List.perm_cons_erase he).map TxEntry.recId
  refine .kept rfl (ports_exchange (xs := []) rfl ?_)
  simp only [heldPorts, List.nil_append, State.modSched_mgmt, State.modMgmt_mgmt, State.modSched_sched,
    State.modMgmt_sched, hc]
  rw [List.perm_iff_count] at hperm ⊢
  intro id
  have := hperm id
  simp only [List.map_cons, List.count_cons, List.count_append, Option.toList_some,
    Option.toList_none, List.count_nil] at this ⊢
  omega

/-- The head of a line's queue handed to the uplink transmitter (R75). -/
theorem takeHead_unloads (n : LineNo) (c : Cls) (b : Bool) (hu : t.sched.uplinkTx = none) (h : Unloads s t) :
    Unloads s (takeHead n c b t) := by
  unfold takeHead
  split
  · exact h
  next id rest hq =>
    refine refreshIdle_unloads n (h.trans (.kept rfl ?_))
    have hlines := heldLines_change (s := t) (t := t.modLine n fun l => l.setQueue (.ofCls c) rest) n
      fun m hm => State.modLine_line_other t _ hm
    rw [State.modLine_line_self, List.perm_iff_count] at hlines
    rw [List.perm_iff_count]
    intro k
    have hk := hlines k
    have hline : (t.line n).held.count k = ((t.line n).setQueue (.ofCls c) rest).held.count k + [id].count k := by
      cases c <;> simp only [Line.upQueue, Line.queue, QueueKind.ofCls] at hq <;>
        simp [Line.held, Line.setQueue, QueueKind.ofCls, hq, List.count_append, List.count_cons] <;> omega
    simp only [holders_eq, heldPorts, List.count_append, State.modSched_sched, State.modLine_sched, State.modSched_mgmt,
      State.modLine_mgmt, hu, Option.map_some, Option.map_none, Option.toList_some, Option.toList_none,
      List.count_nil] at hk ⊢
    have : heldLines ((t.modLine n fun l => l.setQueue (.ofCls c) rest).modSched fun x =>
        { x with uplinkTx := some { recId := id, spare := b } })
      = heldLines (t.modLine n fun l => l.setQueue (.ofCls c) rest) := rfl
    rw [this]
    omega

theorem chargeHead_unloads (n : LineNo) (c : Cls) (h : Unloads s t) : Unloads s (chargeHead n c t) := by
  unfold chargeHead
  split
  · exact h
  · exact modLine_unloads n _ (fun _ => rfl) h

theorem chargeHead_sched (n : LineNo) (c : Cls) (s : State) : (chargeHead n c s).sched = s.sched := by
  unfold chargeHead
  split <;> rfl

/-- The management pass names an entry of the transmit list (R71). -/
theorem choose_management {e : TxEntry} (h : choose s = some (.management e)) : e ∈ s.mgmt.txList := by
  have hcred : ∀ c, creditedPass c s ≠ some (.management e) := fun c => by
    unfold creditedPass
    split <;> simp
  have hspare : sparePass s ≠ some (.management e) := by
    unfold sparePass
    split <;> simp
  have hman : managementPass s = some (.management e) := by
    unfold choose at h
    cases hm : managementPass s with
    | some x => simpa [hm] using h
    | none =>
      cases hp : creditedPass .prio s with
      | some x => exact absurd (hp.trans (by simpa [hm, hp] using h)) (hcred _)
      | none =>
        cases hb : creditedPass .bulk s with
        | some x => exact absurd (hb.trans (by simpa [hm, hp, hb] using h)) (hcred _)
        | none => exact absurd (by simpa [hm, hp, hb] using h) hspare
  unfold managementPass at hman
  split at hman
  · cases hman
  · obtain ⟨x, hx, hxe⟩ := Option.map_eq_some_iff.mp hman
    cases hxe
    exact List.mem_of_find?_eq_some hx

theorem makeChoice_unloads (s : State) : Unloads s (makeChoice s) := by
  unfold makeChoice
  split
  case isFalse => exact .refl s
  case isTrue hmay =>
    have hu : s.sched.uplinkTx = none := by
      simp only [mayChoose, Bool.and_eq_true, Option.isNone_iff_eq_none] at hmay
      exact hmay.2
    cases hc : choose s with
    | none => exact .refl s
    | some p =>
      cases p with
      | management e => exact uplinkEntry_unloads (choose_management hc) hu
      | credited n c =>
        have htake := takeHead_unloads n c false (by rw [chargeHead_sched]; exact hu) (chargeHead_unloads n c (.refl s))
        refine htake.andKept (fun _ => rfl) rfl ?_
        cases c <;> rfl
      | spare n c => exact (takeHead_unloads n c true hu (.refl s)).andKept (fun _ => rfl) rfl rfl

/-- A transmission of record `id` that is over, its reference let go. -/
theorem dropSent_unloads {id : Nat} (hl : t.lines = s.lines) (hp : t.pool = s.pool)
    (hh : (id :: heldPorts t).Perm (heldPorts s)) : Unloads s (dropRef id t) := by
  refine .letGo [id] (dropRef_pool_congr hp id) (ports_exchange (by simp [hl]) ?_)
  rw [heldPorts_congr (s := t) (by simp) (by simp)]
  exact hh

theorem countTransmission_unloads (r : FrameRec) (b : Bool) (h : Unloads s t) :
    Unloads s (countTransmission r b t) := by
  unfold countTransmission
  split
  · exact h.aside (by simp)
  · exact h
  · exact h

/-- The completion of a transmission whose number the transmitter has just given up (R76, R193). -/
theorem completeTransmission_unloads {id : Nat} (b : Bool) (hl : t.lines = s.lines) (hp : t.pool = s.pool)
    (hh : (id :: heldPorts t).Perm (heldPorts s)) : Unloads s (completeTransmission id b t) := by
  have hdrop := dropSent_unloads hl hp hh
  unfold completeTransmission
  split
  · exact warmReset_unloads _ s _
  · split
    next hr => rwa [dropRef_none t id hr] at hdrop
    next => exact countTransmission_unloads _ _ hdrop

/-- Numbers let go by the transmit list. -/
theorem dropCraftEntries_unloads (h : Unloads s t) : Unloads s (dropCraftEntries t) := by
  refine h.trans (.letGo _ (dropRefs_pool_congr rfl) (ports_exchange ?_ ?_))
  · exact (dropRefs_letGo _ _).lines
  · have hkept : heldPorts (dropCraftEntries t)
        = heldPorts (t.modMgmt fun m => { m with txList := m.txList.filter fun e => e.port != .craft }) :=
      heldPorts_congr (foldl_keeps State.mgmt _ (fun u id => dropRef_mgmt u id) _ _)
        (foldl_keeps State.sched _ (fun u id => dropRef_sched u id) _ _)
    have hsplit := (List.filter_append_perm (fun e : TxEntry => e.port == .craft) t.mgmt.txList).map TxEntry.recId
    rw [hkept]
    simp only [heldPorts, State.modMgmt_mgmt, State.modMgmt_sched]
    rw [List.perm_iff_count] at hsplit ⊢
    intro id
    have hid := hsplit id
    have hne : (fun e : TxEntry => e.port != .craft) = fun e => !(e.port == .craft) := rfl
    simp only [List.map_append, List.count_append, hne] at hid ⊢
    omega

/-! ## Line and test events -/

theorem whenRunning_unloads (f : State → State) (hf : Unloads s (f t)) (h : Unloads s t) :
    Unloads s (whenRunning f t) := by
  unfold whenRunning
  split
  · exact hf
  · exact h

theorem failTraining_unloads (n : LineNo) (r : Reason) (h : Unloads s t) : Unloads s (failTraining n r t) :=
  enter_unloads n _ _ (modLine_unloads n _ (fun _ => rfl) h)

theorem takeReady_unloads (n : LineNo) (h : Unloads s t) : Unloads s (takeReady n t) := by
  unfold takeReady
  split
  · exact modLine_unloads n _ (fun _ => rfl) h
  · exact h

theorem takeActivity_unloads (n : LineNo) (h : Unloads s t) : Unloads s (takeActivity n t) := by
  unfold takeActivity
  split
  · exact wakeRequest_unloads n _ h
  · split
    · exact wakeRequest_unloads n _ h
    · exact h
  · exact h

theorem takeLinkUp_unloads (n : LineNo) (down up : Nat) (h : Unloads s t) : Unloads s (takeLinkUp n down up t) := by
  unfold takeLinkUp
  split
  · exact enter_unloads n _ _ (modLine_unloads n _ (fun _ => rfl) h)
  · exact takeRates_unloads n _ _ h
  · exact takeRates_unloads n _ _ h
  · exact takeRates_unloads n _ _ h
  · exact h

theorem takeRatesReport_unloads (n : LineNo) (down up : Nat) (h : Unloads s t) :
    Unloads s (takeRatesReport n down up t) := by
  unfold takeRatesReport
  split
  · exact takeRates_unloads n _ _ h
  · exact takeRates_unloads n _ _ h
  · exact takeRates_unloads n _ _ h
  · exact h

theorem takeLinkDown_unloads (n : LineNo) (h : Unloads s t) : Unloads s (takeLinkDown n t) := by
  unfold takeLinkDown
  split
  · exact failTraining_unloads n _ h
  · exact enter_unloads n _ _ h
  · exact enter_unloads n _ _ h
  · exact (enter_unloads n .held .linkDown h).aside (by simp)
  · exact h

theorem takeAwake_unloads (n : LineNo) (h : Unloads s t) : Unloads s (takeAwake n t) := by
  unfold takeAwake
  split
  · exact modLine_unloads n _ (fun _ => rfl) h
  · exact h

theorem takeSense_unloads (n : LineNo) (b : Bool) (h : Unloads s t) : Unloads s (takeSense n b t) := by
  unfold takeSense
  split
  · have hs : ∀ (d : Detail), Unloads s (raise (some n) d (t.modLine n fun l => { l with sense := true })) := fun _ =>
      (modLine_unloads n (fun l => { l with sense := true }) (fun _ => rfl) h).aside (by simp)
    dsimp only
    split
    · exact wakeRequest_unloads n _ (hs _)
    · split
      · exact wakeRequest_unloads n _ (hs _)
      · exact hs _
    · split
      · exact wakeRequest_unloads n _ (hs _)
      · exact hs _
    · exact hs _
  · exact h

theorem handed_held {l : Line} (h : l.handOff = none) : l.handed.held.Perm l.held := by
  rw [List.perm_iff_count]
  intro id
  cases hw : l.wakeStore with
  | some w => simp [Line.held, Line.handed, Line.nextDown, h, hw]
  | none =>
    cases hq : l.downQ <;> simp [Line.held, Line.handed, Line.nextDown, h, hw, hq, List.count_cons]
    omega

theorem handOffStart_unloads (n : LineNo) (h : (s.line n).handOff = none) :
    Unloads s (refreshIdle n (s.modLine n Line.handed)) := by
  refine refreshIdle_unloads n (.kept rfl ?_)
  have := holders_exchange (xs := []) (ys := []) (s := s) (t := s.modLine n Line.handed) (n := n)
    (fun m hm => State.modLine_line_other s _ hm) (by rw [State.modLine_line_self]; exact handed_held h) rfl
  exact this

theorem handOffComplete_unloads {n : LineNo} {id : Nat} (h : (s.line n).handOff = some id) (len : Nat) :
    Unloads s (countDelivered n len
      (refreshIdle n (dropRef id (s.modLine n fun l => { l with handOff := none })))) := by
  have hdrop : Unloads s (dropRef id (s.modLine n fun l => { l with handOff := none })) := by
    refine .letGo [id] (dropRef_pool_congr (State.modLine_pool s n _) id)
      (holders_exchange (ys := []) (n := n) (fun m hm => ?_) ?_ ?_)
    · rw [State.line_of_lines (dropRef_lines _ _), State.modLine_line_other s _ hm]
    · rw [State.line_of_lines (dropRef_lines _ _), State.modLine_line_self, List.perm_iff_count]
      intro k
      simp [Line.held, h, List.count_cons]
      omega
    · exact heldPorts_congr (by simp) (by simp)
  exact (refreshIdle_unloads n hdrop).aside (by simp)

theorem settledReport_unloads (h : Unloads s t) : Unloads s (settledReport t) := by
  unfold settledReport
  split
  · exact h
  · split
    · split
      · exact h.aside (by simp)
      · exact boundary_unloads _ (h.aside (by simp)) h
    · exact h

theorem settleEnds_unloads (h : Unloads s t) : Unloads s (settleEnds t) := by
  unfold settleEnds
  have ha : ∀ f, Unloads s (t.modAccess f) := fun _ => h.aside (by simp)
  split
  · exact settledReport_unloads (ha _)
  · dsimp only
    split
    · exact releasedReport_unloads (ha _)
    · exact ha _
  · exact h
  · exact h

theorem completeMeasurement_unloads (r : Result) (h : Unloads s t) : Unloads s (completeMeasurement r t) := by
  unfold completeMeasurement
  exact h.aside (by simp)

theorem windowEnds_unloads (xs : List Sample) (h : Unloads s t) : Unloads s (windowEnds xs t) := by
  unfold windowEnds
  split
  · exact h
  · split
    · exact h
    · split
      · exact completeMeasurement_unloads _ h
      · exact h

theorem captureEnds_unloads (k : Nat) (b : Bool) (h : Unloads s t) : Unloads s (captureEnds k b t) := by
  unfold captureEnds
  split
  · exact completeMeasurement_unloads _ h
  · exact h

theorem toneEnds_unloads (h : Unloads s t) : Unloads s (toneEnds t) := by
  unfold toneEnds
  split
  · exact completeMeasurement_unloads _ h
  · exact h

theorem dischargeEnds_unloads (h : Unloads s t) : Unloads s (dischargeEnds t) := by
  unfold dischargeEnds
  split
  · have hg : ∀ f, Unloads s (guardCheck (t.modAccess f)) := fun _ => h.aside (by simp)
    have hr : ∀ f, Unloads s (releaseStep (guardCheck (t.modAccess f))) := fun _ => h.aside (by simp)
    have hn : ∀ f, Unloads s (nextStep (guardCheck (t.modAccess f))) := fun _ => h.aside (by simp)
    dsimp only
    split
    · exact hr _
    · split
      · exact boundary_unloads _ (hn _) (hg _)
      · exact hg _
  · exact h

theorem resumeTest_unloads (a : Activity) (h : Unloads s t) : Unloads s (resumeTest a t) := by
  unfold resumeTest
  dsimp only
  split
  · split
    · exact h.aside (by simp)
    · exact h.aside (by simp)
  · exact h.aside (by simp)

theorem reclaimBus_unloads (h : Unloads s t) : Unloads s (reclaimBus t) := by
  unfold reclaimBus
  dsimp only
  have hr : Unloads s (raise t.lineUnderTest (.external false) t) := (h.aside (by simp))
  have hq : ∀ f, Unloads s ((raise t.lineUnderTest (.external false) t).modSeq f) := fun _ => h.aside (by simp)
  split
  · split
    · exact endExternal_unloads hr
    · exact resumeTest_unloads _ (hq _)
  · split
    · exact (hq id).aside (by simp)
    · exact (hq id).aside (by simp)
    · exact enterIdle_unloads (hq _)
    · exact hq _

theorem tickRequests_unloads (g : Fin 4) (half : Bool) (h : Unloads s t) : Unloads s (tickRequests g half t) := by
  have hq : ∀ f, Unloads s (t.modSeq f) := fun _ => h.aside (by simp)
  refine foldl_holds (Unloads s) _ (fun u n hu => joining_unloads _ (hu.aside (by simp))) _ _ ?_
  split
  · exact idleStep_unloads (hq _)
  · exact hq _

/-! ## Power events -/

theorem takeSample_unloads (mv : Nat) (h : Unloads s t) : Unloads s (takeSample mv t) := by
  unfold takeSample
  dsimp only
  have hp : ∀ f, Unloads s (t.modPower f) := fun _ => h.aside (by simp)
  split
  · exact hp _
  · split
    · exact hp _
    · exact changePower_unloads _ _ _ (hp _)

theorem loseMains_unloads (h : Unloads s t) : Unloads s (loseMains t) := by
  unfold loseMains
  dsimp only
  have hp : ∀ f, Unloads s (t.modPower f) := fun _ => h.aside (by simp)
  split
  · exact hp _
  · exact changePower_unloads _ _ _ (hp _)
  · exact h.aside (by simp)

theorem gainMains_unloads (h : Unloads s t) : Unloads s (gainMains t) := by
  unfold gainMains
  dsimp only
  split
  · exact h.aside (by simp)
  · exact h.aside (by simp)
  · exact h.aside (by simp)

theorem mainsStable_unloads (h : Unloads s t) : Unloads s (mainsStable t) := by
  unfold mainsStable
  have hp : ∀ f, Unloads s (t.modPower f) := fun _ => h.aside (by simp)
  split
  · exact changePower_unloads _ _ _ (hp _)
  · exact h

/-! ## Commands -/

theorem afterLineWrite_unloads (n : LineNo) (f : LineFields) (old : LineConfig) (h : Unloads s t) :
    Unloads s (afterLineWrite n f old t) := by
  have hx : Unloads s (sharesWritten old n t) := by
    unfold sharesWritten
    split
    · exact recompute_unloads h
    · exact h
  have hq : Unloads s (if f.quietDelay.isSome then rederiveQuiet n (sharesWritten old n t)
      else sharesWritten old n t) := by
    split
    · exact rederiveQuiet_unloads n hx
    · exact hx
  rw [afterLineWrite_eq]
  dsimp only
  split
  · exact rederiveDormant_unloads n hq
  · exact hq

theorem afterPolicyWrite_unloads (b : Bool) (h : Unloads s t) : Unloads s (afterPolicyWrite b t) := by
  have hi := idleStep_unloads (grantAll_unloads (shedToBudget_unloads h))
  unfold afterPolicyWrite
  dsimp only
  split
  · exact rederiveAll_unloads hi
  · exact hi

theorem makeExternal_unloads (n : LineNo) (h : Unloads s t) : Unloads s (makeExternal n t) := by
  unfold makeExternal
  dsimp only
  have hq : ∀ f, Unloads s (t.modSeq f) := fun _ => h.aside (by simp)
  have hp : ∀ f, Unloads s (placeFreed (t.modSeq f)) := fun _ => h.aside (by simp)
  refine askForLine_unloads n ?_
  split
  · exact hp _
  · exact hq _

/-- A command row stores no frame: the rows below the named ones write neither a queue nor a record. -/
theorem runRow_unloads (c : Instr) (s : State) : Unloads s (runRow c s).1 := by
  have hs := Unloads.refl s
  have hcfg : ∀ (n : LineNo) (f : LineConfig → LineConfig), Unloads s (s.modLine n fun l => { l with cfg := f l.cfg }) :=
    fun n _ => modLine_unloads n _ (fun _ => rfl) hs
  have hseq : ∀ f, Unloads s (s.modSeq f) := fun _ => hs.aside (by simp)
  cases c with
  | writeLine o line f =>
    simp only [runRow, cmdWriteLine]
    split
    · exact hs
    · split
      · exact hs
      · split
        · exact hs
        · exact afterLineWrite_unloads _ _ _ (modLine_unloads _ _ (fun _ => rfl) hs)
  | enableLine o line =>
    simp only [runRow, cmdEnableLine]
    split
    · exact hs
    · split
      · exact hs
      · split
        · exact enter_unloads _ _ _ (hcfg _ fun c => { c with enabled := true })
        · exact hs
  | disableLine o line =>
    simp only [runRow, cmdDisableLine]
    split
    · exact hs
    · split
      · exact hs
      · split
        · exact hs
        · exact enter_unloads _ _ _ (hcfg _ fun c => { c with enabled := false })
  | clearBar o line =>
    simp only [runRow, cmdClearBar]
    split
    · exact hs
    · split
      · exact hs
      · split
        · exact enter_unloads _ _ _ hs
        · exact hs
  | clearSense o m =>
    simp only [runRow, cmdClearSense]
    split
    · exact hs
    · exact hs.andKept (fun n => by simp [answer, State.line, Line.held]) rfl rfl
  | setUplink o f =>
    simp only [runRow, cmdSetUplink]
    split
    · exact hs
    · split
      · exact hs
      · exact recompute_unloads (hs.aside (u := s.modShares _) (by simp))
  | requestTest o line p v =>
    simp only [runRow, cmdRequestTest]
    split
    · split
      · exact hs
      · split
        · exact idleStep_unloads (hseq _)
        · exact hs
    · exact hs
  | abortTest o line =>
    simp only [runRow, cmdAbortTest, answer]
    split
    · exact hs
    · split
      · dsimp only
        exact placesFreed_unloads (hseq _)
      · split
        · exact hs
        · split
          · split
            · exact hs
            · exact abortTestNow_unloads _ hs
          · exact hs
  | stopRoutineGroup o g =>
    simp only [runRow, cmdStopRoutineGroup]
    split
    · exact hs
    · dsimp only [answer]
      split
      · exact .kept rfl (.refl _)
      · exact placesFreed_unloads (.kept rfl (.refl _))
  | setTestLimits o f =>
    simp only [runRow, cmdSetTestLimits]
    split
    · exact hs
    · have hg : ∀ f g, Unloads s (guardCheck ((s.modAccess f).modSeq g)) := fun _ _ => hs.aside (by simp)
      exact hg _ _
  | connectExternal o line =>
    simp only [runRow, cmdConnectExternal]
    split
    · exact hs
    · split
      · exact hs
      · split
        · exact hs
        · split
          · exact hs
          · split
            · exact hs
            · exact makeExternal_unloads _ hs
  | disconnectExternal o =>
    simp only [runRow, cmdDisconnectExternal]
    split
    · exact hs
    · split
      · exact endExternal_unloads hs
      · exact hs
  | writePowerPolicy o v f =>
    have hpol : ∀ g, Unloads s (s.modPower g) := fun _ => hs.aside (by simp)
    simp only [runRow, cmdWritePowerPolicy]
    split
    · exact hs
    · split
      · exact hs
      · split
        · exact hs
        · refine recompute_unloads ?_
          split
          · exact afterPolicyWrite_unloads _ (hpol _)
          · exact hpol _
  | trafficReset o =>
    simp only [runRow, cmdTrafficReset, answer]
    exact doTrafficReset_unloads s
  | _ =>
    simp only [runRow, cmdWriteStation, placeStation, cmdRemoveStation, cmdFlushLearned, cmdWriteStationTableForm,
      cmdReadStation, cmdReadLine, cmdEnableLineSettings, cmdReadUplink, cmdWriteProgram, cmdReadProgram, cmdReadTestQueue, cmdReadTestRecord, cmdSetRoutineGroup, cmdStartRoutineGroup,
      cmdSetBatteryThresholds, cmdReadPower, cmdReadCounters, cmdReadGlobalCounters, cmdClearEvents, cmdSetNotices,
      cmdClearResetCause, cmdReadStatus, cmdSetManagement, cmdSetTime, cmdLock, cmdSaveConfiguration, cmdDeviceReset,
      cmdUnknown]
    (repeat' split) <;> exact hs.andKept (fun _ => rfl) rfl rfl

theorem runElement_unloads (o : Origin) (i : Nat) (b : List Byte) (s : State) : Unloads s (runElement o i b s).1 := by
  unfold runElement runCommand
  split
  · exact .refl s
  · dsimp only
    split
    · exact .refl s
    · exact runRow_unloads _ s

theorem runElements_unloads (o : Origin) (es : List Element) (s : State) : Unloads s (runElements o es s).1 := by
  induction es generalizing s with
  | nil => exact .refl s
  | cons e es ih =>
    cases e with
    | truncated i => exact .refl s
    | whole i b => exact (runElement_unloads o i b s).trans (ih _)

theorem carryOut_unloads (c : Instr) (s : State) : Unloads s (setResult (runCommand (runRow c) s)) := by
  have hrow : Unloads s (runCommand (runRow c) s).1 := by
    unfold runCommand
    split
    · exact .refl s
    · exact runRow_unloads c s
  exact hrow.andKept (fun _ => rfl) rfl rfl

end

end Sys2Proof.Machine
end

