-- ==== Sys2Proof/Proofs/Storing.lean ====
section
/-! PROOF. The operations that store a frame (R33, R35, R180, R202) and the pool's rules across every step: the cells
make up the pool (R33), each reference count is the number of holders (R34), and the arming follows its two levels with
POOL_LOW at a disarming (R36). -/

namespace Sys2Proof.Machine

section
variable {s t u : State}

/-! ## One step's obligations -/

/-- What a step does for the pool: the cells, the reference counts, the arming, and POOL_LOW where it disarms. -/
structure PoolStep (s t : State) : Prop where
  cells : PoolConserved s → PoolConserved t
  refs : RefsCounted s → RefsCounted t
  armed : PoolArmed s → PoolArmed t ∧ (s.pool.armed = true → t.pool.armed = false → flagged t .poolLow)

theorem Unloads.poolStep (h : Unloads s t) : PoolStep s t where
  cells hc := by
    obtain ⟨hsum, hnum⟩ := hc
    obtain ⟨hnum', hsum'⟩ := h.freed.cells hnum hsum
    exact ⟨hsum', hnum'⟩
  refs := h.counted
  armed ha := by
    obtain ⟨ha', hkept⟩ := h.freed.armed ha
    exact ⟨ha', fun hon hoff => absurd (hkept hon) (by simp [hoff])⟩

theorem PoolStep.refl (s : State) : PoolStep s s := (Unloads.refl s).poolStep

/-- An operation that leaves the lines, the pool, the ports and the transmit list. -/
theorem PoolStep.aside (hk : t.lines = s.lines ∧ t.pool = s.pool ∧ t.sched = s.sched ∧ t.mgmt = s.mgmt) :
    PoolStep s t :=
  ((Unloads.refl s).aside hk).poolStep

/-- What lets go before a step of the pool. -/
theorem Unloads.thenStep (h : Unloads s u) (k : PoolStep u t) : PoolStep s t where
  cells hc := k.cells (h.poolStep.cells hc)
  refs hr := k.refs (h.counted hr)
  armed ha := by
    obtain ⟨hu, hkept⟩ := h.freed.armed ha
    exact ⟨(k.armed hu).1, fun hon => (k.armed hu).2 (hkept hon)⟩

/-- What lets go after a step of the pool, without clearing its flag. -/
theorem PoolStep.thenUnloads (h : PoolStep s u) (k : Unloads u t) (hf : flagsKept u t) : PoolStep s t where
  cells hc := k.poolStep.cells (h.cells hc)
  refs hr := k.counted (h.refs hr)
  armed ha := by
    obtain ⟨hu, hlow⟩ := h.armed ha
    obtain ⟨ht, hkept⟩ := k.freed.armed hu
    refine ⟨ht, fun hon hoff => hf _ (hlow hon ?_)⟩
    by_contra hne
    simp [hkept (by simpa using hne)] at hoff

/-! ## A record made -/

theorem makeRecord_armed (r : FrameRec) (s : State) : (makeRecord r s).pool.armed =
    if s.pool.free - r.cells < 128 then false else if 256 ≤ s.pool.free - r.cells then true else s.pool.armed :=
  setFree_armed _ _

/-- The making that leaves fewer than 128 cells free in an armed pool raises POOL_LOW (R36). -/
theorem makeRecord_flagged (r : FrameRec) (s : State) (hlow : s.pool.free - r.cells < 128) (ha : s.pool.armed = true) :
    flagged (makeRecord r s) .poolLow := by
  have hlow' : s.pool.free - r.cells < Config.poolLowMark := hlow
  simp only [makeRecord, setFree, hlow', if_true, State.modPool_pool, ha]
  exact raise_flagged _ _ _

/-- A frame stored with as many references as it has new holders, within the free cells (R33). -/
theorem PoolStep.stored {r : FrameRec} (hc : r.cells ≤ s.pool.free) (hr : 1 ≤ r.refs)
    (hp : t.pool = (makeRecord r s).pool) (hf : flagsKept (makeRecord r s) t)
    (hh : (holders t).Perm (List.replicate r.refs s.pool.nextId ++ holders s)) : PoolStep s t where
  cells h := by
    obtain ⟨hsum, hnum⟩ := h
    obtain ⟨hfree, hrecs, -⟩ := makeRecord_pool s r
    refine ⟨?_, ?_⟩
    · rw [hp, hfree, hrecs, List.map_append, List.sum_append, List.map_singleton, List.sum_singleton]
      dsimp only
      omega
    · rw [hp]
      exact makeRecord_numbered hnum
  refs h := by
    rw [refsCounted_iff, hp]
    exact (makeRecord_counted h hr).perm hh
  armed h := by
    obtain ⟨hlow, hhigh⟩ := h
    obtain ⟨hfree, -, -⟩ := makeRecord_pool s r
    have harm := makeRecord_armed r s
    refine ⟨⟨fun hlt => ?_, fun hge => ?_⟩, fun hon hoff => hf _ ?_⟩
    · rw [hp, harm]
      rw [hp, hfree] at hlt
      exact if_pos hlt
    · rw [hp, harm]
      rw [hp, hfree] at hge
      rw [if_neg (by omega), if_pos hge]
    · rw [hp, harm] at hoff
      refine makeRecord_flagged r s ?_ hon
      by_contra hge
      rw [if_neg hge, hon] at hoff
      simp at hoff

theorem makeRecord_heldPorts (r : FrameRec) (s : State) : heldPorts (makeRecord r s) = heldPorts s :=
  heldPorts_congr (by simp) (by simp)

theorem pushQueue_held (n : LineNo) (k : QueueKind) (id : Nat) (s : State) :
    ((pushQueue n k id s).line n).held.Perm (id :: (s.line n).held) := by
  rw [pushQueue_line_self, List.perm_iff_count]
  intro j
  cases k <;> simp [Line.held, Line.setQueue, Line.queue, List.count_cons, List.count_append] <;> omega

/-- A number joins a queue (R37). -/
theorem pushQueue_holders (n : LineNo) (k : QueueKind) (id : Nat) (s : State) :
    (holders (pushQueue n k id s)).Perm (id :: holders s) :=
  holders_exchange (xs := []) (ys := [id]) (n := n) (fun _ hm => pushQueue_line_other n k s id hm)
    (pushQueue_held n k id s) rfl

theorem pushQueue_pool (n : LineNo) (k : QueueKind) (id : Nat) (s : State) : (pushQueue n k id s).pool = s.pool := rfl

theorem pushQueue_flagsKept (n : LineNo) (k : QueueKind) (id : Nat) (s : State) : flagsKept s (pushQueue n k id s) :=
  .of_eq rfl

theorem makeRecord_holders (r : FrameRec) (s : State) : holders (makeRecord r s) = holders s := by
  rw [holders_eq, holders_eq, heldLines_congr (s := s) (fun n => by rw [makeRecord_line]), makeRecord_heldPorts]

/-! ## The frame path -/

theorem poolCheck_cells {k : Nat} (h : poolCheck s k = true) : k ≤ s.pool.free := by
  simp only [poolCheck, decide_eq_true_eq] at h
  omega

theorem queueFrame_poolStep (n : LineNo) (k : QueueKind) (c d : LineCause) (r : FrameRec) (s : State) (hr : r.refs = 1) :
    PoolStep s (queueFrame n k c d r s) := by
  unfold queueFrame
  split
  · exact .aside (by simp)
  · split
    · exact .aside (by simp)
    next hpool _ =>
      refine .stored (r := r) (poolCheck_cells (by simpa using hpool)) hr.ge rfl (pushQueue_flagsKept _ _ _ _) ?_
      rw [hr, ← makeRecord_holders r s]
      exact pushQueue_holders n k _ _

theorem grantOne_flagsKept (e : WakeEntry) (s : State) : flagsKept s (grantOne e s) := by
  unfold grantOne
  dsimp only
  split
  · exact (enterCore_flagsKept e.line _ .wakeGranted (s.modPower _)).trans (.of_eq (by rw [recomputeIf_counts]))
  · exact .of_eq rfl

theorem grants_flagsKept (k : Nat) (s : State) : flagsKept s (grants k s) := by
  induction k generalizing s with
  | zero => exact .refl s
  | succ k ih =>
    unfold grants
    split
    · exact .refl s
    · split
      · exact (grantOne_flagsKept _ s).trans (ih _)
      · exact .refl s

theorem wakeRequest_flagsKept (n : LineNo) (c : WakeCause) (s : State) : flagsKept s (wakeRequest n c s) := by
  unfold wakeRequest
  split
  · exact .refl s
  · exact grants_flagsKept _ (s.modPower _)

theorem PoolStep.thenWake (n : LineNo) (c : WakeCause) (h : PoolStep s t) : PoolStep s (wakeRequest n c t) :=
  h.thenUnloads (wakeRequest_unloads n c (.refl t)) (wakeRequest_flagsKept n c t)

theorem toWakeStore_poolStep (n : LineNo) (f : List Byte) (s : State) : PoolStep s (toWakeStore n f s) := by
  unfold toWakeStore
  dsimp only
  split
  · exact .aside (by simp)
  · split
    · exact .aside (by simp)
    · split
      · exact .aside (by simp)
      next hstore hpool =>
        refine .thenWake n _ (.stored (r := downRecord f 1) (poolCheck_cells (by simpa using hpool)) le_rfl rfl
          (.refl _) ?_)
        rw [← makeRecord_holders (downRecord f 1) s]
        refine holders_exchange (xs := []) (ys := [s.pool.nextId]) (n := n)
          (fun m hm => State.modLine_line_other _ _ hm) ?_ rfl
        have hnone : (s.line n).wakeStore = none := by simpa using hstore
        rw [State.modLine_line_self, makeRecord_line, List.perm_iff_count]
        intro k
        simp [Line.held, hnone, List.count_cons, List.count_append]
        omega

theorem decideUnicast_poolStep (n : LineNo) (f : List Byte) (s : State) : PoolStep s (decideUnicast n f s) := by
  have hq := queueFrame_poolStep n .down .downPoolFull .downQueueFull (downRecord f 1) s rfl
  unfold decideUnicast
  dsimp only
  split
  · exact hq
  · split
    · exact hq.thenWake n _
    · exact hq
  · exact toWakeStore_poolStep n f s
  all_goals exact .aside (by simp)

theorem unicast_poolStep (f : List Byte) (s : State) : PoolStep s (unicast f s) := by
  unfold unicast
  split
  · exact .aside (by simp)
  · split
    · exact decideUnicast_poolStep _ f s
    · exact .aside (by simp)

/-- A number joins the queue of each of several lines (R30). -/
theorem pushQueues_holders (k : QueueKind) (id : Nat) (ns : List LineNo) (s : State) :
    (holders (ns.foldl (fun s n => pushQueue n k id s) s)).Perm (List.replicate ns.length id ++ holders s)
      ∧ (ns.foldl (fun s n => pushQueue n k id s) s).pool = s.pool
      ∧ (ns.foldl (fun s n => pushQueue n k id s) s).counts = s.counts := by
  refine ⟨?_, foldl_keeps State.pool _ (fun u n => pushQueue_pool n k id u) ns s,
    foldl_keeps State.counts (fun u n => pushQueue n k id u) (fun _ _ => rfl) ns s⟩
  induction ns generalizing s with
  | nil => exact .refl _
  | cons n ns ih =>
    refine (ih (pushQueue n k id s)).trans (((pushQueue_holders n k id s).append_left _).trans ?_)
    rw [List.length_cons, List.replicate_succ']
    simp

theorem replicate_poolStep (f : List Byte) (s : State) : PoolStep s (replicate f s) := by
  unfold replicate
  dsimp only
  split
  · exact .aside (by simp)
  · split
    · exact .aside (by simp)
    next hpool =>
      generalize (recipients s f).filter (fun n => queueRoom s n .down (cellsFor f.length)) = yes
      have hfold : ∀ ns : List LineNo, Unloads s (ns.foldl (fun u n => countDrop n .downQueueFull u) s)
          ∧ (ns.foldl (fun u n => countDrop n .downQueueFull u) s).pool = s.pool := fun ns =>
        ⟨foldl_holds (Unloads s) _ (fun _ _ hu => (hu.aside (by simp))) ns s (.refl s),
          foldl_keeps State.pool _ (fun _ _ => countDrop_pool _ _ _) ns s⟩
      obtain ⟨hcounted, hfree⟩ := hfold ((recipients s f).filter fun n => !queueRoom s n .down (cellsFor f.length))
      generalize ((recipients s f).filter fun n => !queueRoom s n .down (cellsFor f.length)).foldl
        (fun u n => countDrop n .downQueueFull u) s = dropped at hcounted hfree ⊢
      split
      · exact hcounted.poolStep
      next hyes =>
        refine hcounted.thenStep (.stored (r := downRecord f yes.length) ?_ ?_ ?_ (.of_eq ?_) ?_)
        · rw [hfree]
          exact poolCheck_cells (k := cellsFor f.length) (by simpa using hpool)
        · exact List.length_pos_iff.mpr (by simpa using hyes)
        · exact (pushQueues_holders _ _ _ _).2.1
        · rw [(pushQueues_holders _ _ _ _).2.2]
        · have hpush := (pushQueues_holders .down (dropped.pool.nextId) yes (makeRecord (downRecord f yes.length) dropped)).1
          rwa [makeRecord_holders] at hpush

theorem sortDownstream_poolStep (f : List Byte) (s : State) : PoolStep s (sortDownstream f s) := by
  unfold sortDownstream
  split
  · exact .aside (by simp)
  · split
    · exact .aside (by simp)
    · split
      · exact replicate_poolStep f s
      · exact unicast_poolStep f s

theorem takeAdvisory_unloads (v : Nat) (s : State) : Unloads s (takeAdvisory v s) := by
  have hs := Unloads.refl s
  have hadv : ∀ f g, Unloads s (((countDev .advisories s).modShares f).modShares g) := fun _ _ => hs.aside (by simp)
  have hrest : ∀ f g d, Unloads s ((raise none d ((countDev .advisories s).modShares f)).modShares g) :=
    fun _ _ _ => hs.aside (by simp)
  unfold takeAdvisory
  dsimp only
  split
  · exact recompute_unloads (hrest _ _ _)
  · exact recompute_unloads (hadv _ _)

theorem takePause_unloads (m : Byte) (d : Nat) (s : State) : Unloads s (takePause m d s) :=
  ((Unloads.refl s).aside (u := countDev .classPauses s) (by simp)).andKept (fun _ => rfl) rfl rfl

theorem queueControl_unloads (p : Port) (f : List Byte) (s : State) : Unloads s (queueControl p f s) := by
  unfold queueControl
  split
  · exact (Unloads.refl s).andKept (fun _ => rfl) rfl rfl
  · exact (Unloads.refl s).aside (by simp)

theorem recogniseUplink_poolStep (f : List Byte) (s : State) : PoolStep s (recogniseUplink f s) := by
  unfold recogniseUplink backhaulFrame
  split
  · dsimp only
    split
    · exact (takeAdvisory_unloads _ s).poolStep
    · split
      · exact (takePause_unloads _ _ s).poolStep
      · exact .aside (by simp)
  · split
    · split
      · exact .aside (by simp)
      · exact (queueControl_unloads _ f s).poolStep
    · exact sortDownstream_poolStep f s

theorem recogniseCraft_unloads (b : Bool) (f : List Byte) (s : State) : Unloads s (recogniseCraft b f s) := by
  unfold recogniseCraft
  split
  · exact (Unloads.refl s).aside (by simp)
  · split
    · exact queueControl_unloads _ f s
    · exact (Unloads.refl s).aside (by simp)

theorem sourceCheck_unloads (n : LineNo) (a : Addr) (s : State) : Unloads s (sourceCheck n a s).2 := by
  rcases sourceCheck_cases n a s with ⟨d, h⟩ | ⟨c, es, h⟩ | ⟨c, es, h⟩ <;> rw [h] <;>
    exact (Unloads.refl s).andKept (fun m => by simp [State.withEntries, State.line])
      (by simp [State.withEntries]) (heldPorts_congr (by simp [State.withEntries]) (by simp [State.withEntries]))

theorem upstream_poolStep (n : LineNo) (f : List Byte) (s : State) : PoolStep s (upstream n f s) := by
  unfold upstream
  split
  · exact .aside (by simp)
  · split
    · exact .aside (by simp)
    · split
      · exact .aside (by simp)
      · have hc := sourceCheck_unloads n (frameSrc f) s
        split
        next h =>
          rw [h] at hc
          exact hc.thenStep (queueFrame_poolStep _ _ _ _ _ _ rfl)
        next h =>
          rw [h] at hc
          exact hc.poolStep
      · exact .aside (by simp)

theorem receive_poolStep (k : Nat) (f : List Byte) (pass : State → State) (hp : PoolStep s (pass s)) :
    PoolStep s (receive k f pass s) := by
  unfold receive
  split
  · exact .aside (by simp)
  · split
    · exact hp
    · exact .aside (by simp)

/-! ## Frames built by the part -/

theorem packElements_length (k : Nat) (rs : List (Nat × CmdResult)) (h : 5 * rs.length ≤ k) :
    (packElements k rs).length ≤ k := by
  induction rs generalizing k with
  | nil => exact Nat.zero_le _
  | cons x rest ih =>
    obtain ⟨i, r⟩ := x
    have helem : ∀ (st : Status) (b : Bool) (body : List Byte), (elementBytes i st b body).length = 5 + body.length := by
      intro st b body
      simp [elementBytes, beBytes_length]
      omega
    have homitted : ∀ xs : List (Nat × CmdResult),
        (xs.flatMap fun x => elementBytes x.1 x.2.status true []).length = 5 * xs.length := by
      intro xs
      induction xs with
      | nil => rfl
      | cons y ys ih =>
        rw [List.flatMap_cons, List.length_append, ih]
        simp [elementBytes, beBytes_length]
        omega
    unfold packElements
    dsimp only
    split
    next hfit =>
      have := ih (k - (5 + (encodeItems r.items).length)) (by omega)
      rw [List.length_append, helem]
      omega
    next =>
      rw [homitted]
      exact h

theorem withCheck_length (b : List Byte) : (withCheck b).length = b.length + 4 := by
  simp [withCheck, leBytes, beBytes_length]

/-- A reply is no longer than the largest frame, so it fills at most twelve cells (R178, R180). -/
theorem replyFrame_cells {f : List Byte} {rs : List (Nat × CmdResult)} (h : rs.length ≤ 16) (s : State) :
    cellsFor (replyFrame f rs s).length ≤ 12 := by
  have hpack := packElements_length replySpace rs (by simp [replySpace, Config.greatestFrame]; omega)
  have hlen : (replyFrame f rs s).length ≤ 1522 := by
    simp only [replyFrame, finishFrame, withCheck_length, List.length_append, List.length_replicate, beBytes_length,
      List.length_take]
    simp only [replySpace, Config.greatestFrame] at hpack ⊢
    omega
  simp only [cellsFor, Config.cellBytes]
  omega

theorem readElements_length (k : Nat) (b : List Byte) :
    (readElements k b).length ≤ k ∧ (1 ≤ k → 1 ≤ (readElements k b).length) := by
  induction k generalizing b with
  | zero => exact ⟨le_rfl, by simp⟩
  | succ k ih =>
    cases b with
    | nil => simp [readElements]
    | cons i rest =>
      unfold readElements
      dsimp only
      split
      · simp
      · simpa using (ih _).1

theorem runElements_length (o : Origin) (es : List Element) (s : State) :
    (runElements o es s).2.length ≤ es.length ∧ (1 ≤ es.length → 1 ≤ (runElements o es s).2.length) := by
  induction es generalizing s with
  | nil => simp [runElements]
  | cons e es ih =>
    cases e with
    | truncated i => simp [runElements]
    | whole i b => simpa [runElements] using (ih _).1

/-- The reply of a frame carries one element for each that was carried out, one to sixteen (R179, R180). -/
theorem frameElements_length {f : List Byte} (h : headerRefused (frameBody f) = false) (o : Origin) (s : State) :
    1 ≤ (runElements o (readElements (wireField (frameBody f) 22 1) ((frameBody f).drop 24)) s).2.length
      ∧ (runElements o (readElements (wireField (frameBody f) 22 1) ((frameBody f).drop 24)) s).2.length ≤ 16 := by
  have hcount : wireField (frameBody f) 22 1 ≠ 0 ∧ wireField (frameBody f) 22 1 ≤ 16 := by
    simp only [headerRefused, Bool.or_eq_false_iff, decide_eq_false_iff_not, beq_eq_false_iff_ne, not_lt,
      Config.commandsPerFrame] at h
    exact ⟨h.1.2, not_lt.mp (of_decide_eq_false h.2)⟩
  obtain ⟨hle, hpos⟩ := readElements_length (wireField (frameBody f) 22 1) ((frameBody f).drop 24)
  obtain ⟨rle, rpos⟩ := runElements_length o
    (readElements (wireField (frameBody f) 22 1) ((frameBody f).drop 24)) s
  exact ⟨rpos (hpos (by omega)), by omega⟩

theorem runFrame_length (o : Origin) (f : List Byte) (s : State) : (runFrame o f s).2.length ≤ 16 := by
  unfold runFrame
  dsimp only
  split
  · simp
  next h => exact (frameElements_length (by simpa using h) o s).2

theorem runFrame_unloads (o : Origin) (f : List Byte) (s : State) : Unloads s (runFrame o f s).1 := by
  unfold runFrame
  dsimp only
  split
  · exact .refl s
  · exact runElements_unloads o _ s

theorem insertTx_perm (e : TxEntry) (l : List TxEntry) : (insertTx e l).Perm (e :: l) := by
  have hsplit := List.filter_append_perm (fun x : TxEntry => decide (x.part.rank ≤ e.part.rank)) l
  unfold insertTx
  rw [List.append_assoc]
  refine List.perm_middle.trans (.cons e ?_)
  exact hsplit

/-- A frame built by the part, with its entry in the transmit list (R33, R180, R202). -/
theorem buildEntry_poolStep {b : List Byte} (p : Port) (q : TxPart) (h : cellsFor b.length ≤ s.pool.free) :
    PoolStep s (buildEntry b p q s) := by
  refine .stored (r := { bytes := b, cls := none, origin := .part, refs := 1 }) h le_rfl rfl (.of_eq rfl) ?_
  have hperm := (insertTx_perm { recId := s.pool.nextId, port := p, part := q } s.mgmt.txList).map TxEntry.recId
  rw [← makeRecord_holders { bytes := b, cls := none, origin := .part, refs := 1 } s, holders_eq, holders_eq]
  have hlines : heldLines (buildEntry b p q s)
      = heldLines (makeRecord { bytes := b, cls := none, origin := .part, refs := 1 } s) := rfl
  have hports : heldPorts (buildEntry b p q s)
      = (insertTx { recId := s.pool.nextId, port := p, part := q } s.mgmt.txList).map TxEntry.recId
        ++ (s.sched.uplinkTx.map UplinkTx.recId).toList ++ s.sched.craftTx.toList := by
    simp [heldPorts, buildEntry]
  rw [hlines, hports, makeRecord_heldPorts, heldPorts, List.perm_iff_count]
  intro k
  have hk := hperm.count_eq k
  simp only [List.map_cons, List.count_append, List.count_cons, List.replicate_one, List.count_nil] at hk ⊢
  omega

theorem dropCraftEntries_flagsKept (s : State) : flagsKept s (dropCraftEntries s) := by
  refine foldl_holds (flagsKept s) _ (fun u id hu => hu.trans (dropRef_flagsKept id u)) _ _ (.of_eq rfl)

theorem placeReply_poolStep {b : List Byte} (p : Port) (h : cellsFor b.length ≤ s.pool.free) :
    PoolStep s (placeReply b p s) := by
  have hreply : ∀ f : Option DevReset → Option DevReset, PoolStep s ((buildEntry b p .reply s).modMgmt fun m =>
      { m with devReset := f m.devReset }) := fun f =>
    (buildEntry_poolStep p .reply h).thenUnloads ((Unloads.refl _).andKept (fun _ => rfl) rfl rfl) (.of_eq rfl)
  unfold placeReply
  dsimp only
  split
  · exact (hreply _).thenUnloads (dropCraftEntries_unloads (.refl _)) (dropCraftEntries_flagsKept _)
  · exact hreply _

/-- A control frame is taken with twelve cells free, and its commands take none (R178). -/
theorem takeFrame_poolStep {p : Port} {f : List Byte} (b : Bool) (h : 12 ≤ s.pool.free) :
    PoolStep s (takeFrame b p f s) := by
  have hcounted : Unloads s (countDev .framesTaken (s.modMgmt fun m =>
      { m with controlQ := m.controlQ.drop 1, service := b })) :=
    (Unloads.refl s).andKept (fun _ => rfl) rfl rfl
  unfold takeFrame
  dsimp only
  have hrun := hcounted.trans (runFrame_unloads (originOf p b) f _)
  refine hrun.thenStep (placeReply_poolStep p ((replyFrame_cells (runFrame_length _ _ _) _).trans ?_))
  exact (le_min h (by decide)).trans hrun.freed.free

end

end Sys2Proof.Machine
end

