-- ==== Sys2Proof/Proofs/PoolKept.lean ====
section
/-! PROOF. The cells, the reference counts and the arming of the pool across every step (O58): each occurrence stores a
frame, or lets holders go, or touches none. -/

namespace Sys2Proof.Machine

section
variable {s t u : State}

/-! ## The part's own steps -/

theorem noticeReady_cells {f : List Byte} (h : noticeReady s = some f) : cellsFor f.length ≤ s.pool.free := by
  unfold noticeReady at h
  split at h
  · cases h
  · dsimp only at h
    split at h
    next hc =>
      cases h
      exact hc.2.2
    · cases h

theorem buildNotice_poolStep {f : List Byte} (h : cellsFor f.length ≤ s.pool.free) : PoolStep s (buildNotice f s) := by
  have hnumbered : ∀ xs k, Unloads s ((s.modCounts fun c => { c with notices := dropBuilt xs c.notices }).modMgmt fun m =>
      { m with noticeNumber := m.noticeNumber + k }) := fun _ _ => (Unloads.refl s).andKept (fun _ => rfl) rfl rfl
  exact (hnumbered (nextNotices s) 1).thenStep (buildEntry_poolStep .uplink _ h)

theorem noticeFrameBuild_poolStep (s : State) : PoolStep s ((noticeReady s).elim s fun f => buildNotice f s) := by
  cases h : noticeReady s with
  | none => exact .refl s
  | some f => exact buildNotice_poolStep (noticeReady_cells h)

theorem endSave_unloads (good : Bool) (s : State) : Unloads s (endSave good s) := by
  unfold endSave
  split
  · exact .refl s
  · exact (Unloads.refl s).andKept (fun n => by rw [State.line_of_lines (s := s) (by simp)]) (by simp)
      (by simp [heldPorts])

/-- A transmission that the uplink transmitter gives up (R34, R76, R79). -/
theorem uplinkHeld {f : Sched → Sched} {x : UplinkTx} (hx : s.sched.uplinkTx = some x)
    (hu : (f s.sched).uplinkTx = none) (hc : (f s.sched).craftTx = s.sched.craftTx) :
    (x.recId :: heldPorts (s.modSched f)).Perm (heldPorts s) := by
  simpa [heldPorts, hx, hu, hc] using List.perm_middle.symm

/-- A transmission that the craft transmitter gives up (R34, R81). -/
theorem craftHeld {f : Sched → Sched} {id : Nat} (hx : s.sched.craftTx = some id) (hc : (f s.sched).craftTx = none)
    (hu : (f s.sched).uplinkTx = s.sched.uplinkTx) : (id :: heldPorts (s.modSched f)).Perm (heldPorts s) := by
  simpa [heldPorts, hx, hu, hc] using (List.perm_append_singleton id (_ ++ _)).symm

theorem modSched_unloads (f : Sched → Sched) (hu : (f s.sched).uplinkTx = s.sched.uplinkTx)
    (hc : (f s.sched).craftTx = s.sched.craftTx) : Unloads s (s.modSched f) :=
  (Unloads.refl s).andKept (fun _ => rfl) rfl (by simp [heldPorts, hu, hc])

/-- A loss of the uplink link (R79). -/
theorem uplinkDown_unloads (h : exec .uplinkLinkDown s = .next t) : Unloads s t := by
  simp only [exec, execUplinkLinkDown, Host.Outcome.next.injEq] at h
  subst h
  split
  next hx => exact modSched_unloads _ hx.symm rfl
  next x hx =>
    have hsent := dropSent_unloads (s := s) (t := s.modSched fun x =>
      { x with uplinkUp := false, uplinkTx := none, prioPause := none, bulkPause := none }) rfl rfl
      (uplinkHeld hx rfl rfl)
    exact hsent.aside (by simp)

/-- A loss of the craft port's link (R81). -/
theorem craftDown_unloads (h : exec .craftLinkDown s = .next t) : Unloads s t := by
  simp only [exec, execCraftLinkDown, Host.Outcome.next.injEq] at h
  subst h
  refine dropCraftEntries_unloads ?_
  split
  next hx => exact modSched_unloads _ rfl hx.symm
  next id hx =>
    have hsent := dropSent_unloads (s := s) (t := s.modSched fun x => { x with craftUp := false, craftTx := none }) rfl rfl
      (craftHeld hx rfl rfl)
    exact hsent.aside (by simp)

/-! ## Every step -/

theorem PoolStep.ite {p : Prop} [Decidable p] {a b : State} (ha : PoolStep s a) (hb : PoolStep s b) :
    PoolStep s (if p then a else b) := by
  split
  · exact ha
  · exact hb

theorem Unloads.ite {p : Prop} [Decidable p] {a b : State} (ha : Unloads s a) (hb : Unloads s b) :
    Unloads s (if p then a else b) := by
  split
  · exact ha
  · exact hb

/-- The pool across an occurrence, a command row apart. -/
theorem exec_event_poolStep {c : Instr} (hc : isCommand c = false) (h : exec c s = .next t) : PoolStep s t := by
  have key : ∀ u, exec c s = .next u → PoolStep s u → PoolStep s t := by
    rintro u hu hstep
    rw [hu] at h
    cases h
    exact hstep
  have emptied : ∀ u, exec c s = .next u → Unloads s u → PoolStep s t := fun u hu hk => key u hu hk.poolStep
  have rf := Unloads.refl s
  cases c with
  | coldReset => exact emptied _ rfl (coldState_unloads s)
  | pinReset => exact emptied _ rfl (warmReset_unloads _ s s)
  | supplyReset => exact emptied _ rfl (warmReset_unloads _ s s)
  | startUp =>
    refine emptied _ rfl ?_
    split
    · exact runStartUp_unloads _ rf
    · exact rf
    · exact rf
  | startUpComplete v =>
    refine emptied _ rfl ?_
    split
    · exact completeStartUp_unloads v rf
    · exact rf
    · exact rf
  | uplinkFrameReceived f => exact key _ rfl (receive_poolStep _ f _ (recogniseUplink_poolStep f s))
  | capacityAdvisory v => exact emptied _ rfl (.ite (takeAdvisory_unloads v s) (rf.aside (by simp)))
  | classPause m d => exact emptied _ rfl (.ite (takePause_unloads m d s) (rf.aside (by simp)))
  | craftFrameReceived b f =>
    have hservice : Unloads s (s.modMgmt fun m => { m with service := b }) := rf.andKept (fun _ => rfl) rfl rfl
    exact key _ rfl (hservice.thenStep (receive_poolStep _ f _ (recogniseCraft_unloads b f _).poolStep))
  | lineLinkFrameReceived n f => exact key _ rfl (receive_poolStep _ f _ (upstream_poolStep n f s))
  | ready n => exact emptied _ rfl (whenRunning_unloads _ (takeReady_unloads n rf) rf)
  | activity n => exact emptied _ rfl (whenRunning_unloads _ (takeActivity_unloads n rf) rf)
  | linkUp n d u => exact emptied _ rfl (whenRunning_unloads _ (takeLinkUp_unloads n d u rf) rf)
  | rates n d u => exact emptied _ rfl (whenRunning_unloads _ (takeRatesReport_unloads n d u rf) rf)
  | linkFail n =>
    refine emptied _ rfl (whenRunning_unloads _ ?_ rf)
    split
    · exact failTraining_unloads n _ rf
    · exact rf
  | linkDown n => exact emptied _ rfl (whenRunning_unloads _ (takeLinkDown_unloads n rf) rf)
  | awake n => exact emptied _ rfl (whenRunning_unloads _ (takeAwake_unloads n rf) rf)
  | senseEdge n b => exact emptied _ rfl (whenRunning_unloads _ (takeSense_unloads n b rf) rf)
  | wakeGrant => exact emptied _ rfl (grants_unloads 1 rf)
  | agingSweep =>
    refine emptied _ rfl ?_
    split
    · exact rf
    · exact rf.aside ⟨rfl, rfl, rfl, rfl⟩
  | holdTimerExpiry =>
    refine emptied _ rfl ?_
    split
    · exact rf
    · exact recompute_unloads (rf.aside (by simp))
  | refill =>
    refine emptied _ rfl ?_
    split
    · exact rf
    · exact rf.andKept (fun n => by simp [State.line, Line.refilled, Line.held]) rfl rfl
  | pauseTimerExpiry c =>
    refine emptied _ rfl ?_
    cases c
    · exact modSched_unloads _ rfl rfl
    · exact modSched_unloads _ rfl rfl
  | upstreamChoice => exact emptied _ rfl (makeChoice_unloads s)
  | transmissionComplete =>
    refine emptied _ rfl ?_
    split
    · exact rf
    next x hx => exact completeTransmission_unloads _ rfl rfl (uplinkHeld hx rfl rfl)
  | handOffStart n =>
    refine emptied _ rfl ?_
    split
    next hcan => exact handOffStart_unloads n (by simp_all [Line.canHandOff])
    · exact rf
  | handOffComplete n =>
    refine emptied _ rfl ?_
    split
    · exact rf
    next id hid => exact handOffComplete_unloads hid _
  | drainComplete n => exact emptied _ rfl (drainReport_unloads n rf)
  | uplinkLinkDown => exact (uplinkDown_unloads h).poolStep
  | uplinkLinkUp => exact emptied _ rfl ((modSched_unloads _ rfl rfl).trans (makeChoice_unloads _))
  | craftTransmissionStart =>
    refine emptied _ rfl ?_
    split
    next hmay =>
      have hfree : s.sched.craftTx = none := by simp_all [mayCraft]
      split
      · exact rf
      next e he => exact craftEntry_unloads (List.mem_of_find?_eq_some he) hfree
    · exact rf
  | craftTransmissionComplete =>
    refine emptied _ rfl ?_
    split
    · exact rf
    next id hid => exact completeTransmission_unloads _ rfl rfl (craftHeld hid rfl rfl)
  | craftLinkDown => exact (craftDown_unloads h).poolStep
  | trainingTimerExpiry n => exact emptied _ rfl (.ite (failTraining_unloads n _ rf) rf)
  | wakeTimerExpiry n => exact emptied _ rfl (.ite (enter_unloads n _ _ rf) rf)
  | idleTimerExpiry n => exact emptied _ rfl (.ite (enter_unloads n _ _ rf) rf)
  | dormantTimerExpiry n => exact emptied _ rfl (.ite (enter_unloads n _ _ rf) rf)
  | drainTimerExpiry n => exact emptied _ rfl (.ite ((enter_unloads n .held .drainLimit rf).aside (by simp)) rf)
  | settleTimerExpiry => exact emptied _ rfl (settleEnds_unloads rf)
  | windowEnd xs => exact emptied _ rfl (windowEnds_unloads xs rf)
  | captureTargetReached v => exact emptied _ rfl (.ite (captureEnds_unloads v _ rf) rf)
  | captureTimeout => exact emptied _ rfl (captureEnds_unloads _ _ rf)
  | toneDurationElapsed => exact emptied _ rfl (toneEnds_unloads rf)
  | dischargeWaitExpiry => exact emptied _ rfl (dischargeEnds_unloads rf)
  | guardTrip v =>
    refine emptied _ rfl ?_
    split
    · exact rf
    · exact rf.aside (by simp)
  | extreqAsserted => exact emptied _ rfl (idleStep_unloads (rf.aside (by simp)))
  | extreqReleased => exact emptied _ rfl (.ite (reclaimBus_unloads (rf.aside (by simp))) (rf.aside (by simp)))
  | suspendTimerExpiry => exact emptied _ rfl (.ite (abortTestNow_unloads _ rf) rf)
  | halfTick g => exact emptied _ rfl (.ite (tickRequests_unloads g _ (rf.aside (by simp))) (rf.aside (by simp)))
  | fullTick g => exact emptied _ rfl (.ite (tickRequests_unloads g _ (rf.aside (by simp))) (rf.aside (by simp)))
  | batterySample v => exact emptied _ rfl (.ite (takeSample_unloads v rf) rf)
  | mainsOkDeasserted => exact emptied _ rfl (loseMains_unloads rf)
  | mainsOkAsserted => exact emptied _ rfl (gainMains_unloads rf)
  | mainsStableTimerExpiry => exact emptied _ rfl (mainsStable_unloads rf)
  | controlFrameTaken b =>
    refine key _ rfl ?_
    split
    · exact .refl s
    · split
      next hmay =>
        refine takeFrame_poolStep b ?_
        simp only [mayTake, Bool.and_eq_true, decide_eq_true_eq] at hmay
        exact hmay.2
      · exact .refl s
  | noticeFrameBuild => exact key _ rfl (noticeFrameBuild_poolStep s)
  | saveDone b => exact emptied _ rfl (endSave_unloads b s)
  | deviceResetTimerExpiry => exact emptied _ rfl (.ite (warmReset_unloads _ s s) rf)
  | craftLinkUp => exact emptied _ rfl (modSched_unloads _ rfl rfl)
  | _ => cases hc

theorem exec_poolStep (c : Instr) (h : exec c s = .next t) : PoolStep s t := by
  by_cases hc : isCommand c = true
  · rw [exec_of_isCommand hc] at h
    cases h
    exact (carryOut_unloads c s).poolStep
  · exact exec_event_poolStep (by simpa using hc) h

theorem passMs_unloads (s : State) : Unloads s (passMs s) := by
  have hheld : ∀ n, ((s.lines.map Line.passMs).get n).held = (s.line n).held := by
    simp [State.line, Line.passMs, Line.held]
  unfold passMs
  split
  · exact .refl s
  · exact (Unloads.refl s).andKept hheld rfl rfl
  · exact (Unloads.refl s).andKept hheld rfl rfl

theorem step_poolStep (h : step s = .next t) : PoolStep s t := by
  unfold step idle at h
  split at h
  next rest _ =>
    have hrest : Unloads s { s with pending := rest } := (Unloads.refl s).andKept (fun _ => rfl) rfl rfl
    exact hrest.thenStep (exec_poolStep _ h)
  · split at h
    · exact exec_poolStep _ h
    · cases h
      exact (passMs_unloads s).poolStep

end

end Sys2Proof.Machine

namespace Sys2Proof
open Machine

/-- Settles O58: each occurrence lets holders go or stores one frame, and both keep the pool's rules. -/
theorem poolIsConserved : Obligations.PoolIsConserved :=
  ⟨fun _ _ hs h => (step_poolStep h).cells hs, fun _ _ hs h => (step_poolStep h).refs hs,
    fun _ _ hs h => (step_poolStep h).armed hs⟩

end Sys2Proof
end

