-- ==== Sys2Proof/Proofs/Reception.lean ====
section
/-! PROOF. The reception of a frame at the three kinds of port (R22, R24, R25, R31), the warm resets, READY and AWAKE, the
messages of a backhaul frame, and the frames of the uplink that cannot be stored (R26 to R28). -/

namespace Sys2Proof.Machine

section
variable {s : State} {f : List Byte} {k : Nat} {pass : State → State}

/-! ## Reception -/

theorem receive_badCheck (h : checkGood f = false) : receive k f pass s = countDev .badCheck s := by
  simp [receive, receptionDrop, h]

theorem receive_undersize (h : checkGood f = true) (hl : f.length < 64) :
    receive k f pass s = countDev .undersize s := by
  simp [receive, receptionDrop, h, Config.leastFrame, hl]

theorem receive_oversize (h : checkGood f = true) (hk : 64 ≤ k) (hl : k < f.length) :
    receive k f pass s = countDev .oversize s := by
  simp [receive, receptionDrop, h, Config.leastFrame, hl, show ¬ f.length < 64 by omega]

theorem receive_beforeService (h : checkGood f = true) (hlow : 64 ≤ f.length) (hhigh : f.length ≤ k)
    (hr : s.running = false) : receive k f pass s = countDeviceDrop .lineNotReady s := by
  simp [receive, receptionDrop, h, Config.leastFrame, not_lt.mpr hlow, not_lt.mpr hhigh, hr]

theorem receive_passes (h : passesReception k f s) : receive k f pass s = pass s := by
  obtain ⟨hdrop, hrun⟩ := h
  simp [receive, hdrop, hrun]

/-- The checks of one port and the drop before service (R22, R25, R31). -/
theorem receive_checks {c : Instr} {t : State} (hk : 64 ≤ k) (hc : exec c t = .next (receive k f pass s)) :
    (checkGood f = false → exec c t = .next (countDev .badCheck s))
      ∧ (checkGood f = true → f.length < 64 → exec c t = .next (countDev .undersize s))
      ∧ (checkGood f = true → k < f.length → exec c t = .next (countDev .oversize s))
      ∧ (checkGood f = true → 64 ≤ f.length → f.length ≤ k → s.running = false →
          exec c t = .next (countDeviceDrop .lineNotReady s)) :=
  ⟨fun h => by rw [hc, receive_badCheck h], fun h hl => by rw [hc, receive_undersize h hl],
    fun h hl => by rw [hc, receive_oversize h hk hl], fun h hlow hhigh hr => by
      rw [hc, receive_beforeService h hlow hhigh hr]⟩

theorem exec_uplinkFrame (h : passesReception 1522 f s) :
    exec (.uplinkFrameReceived f) s = .next (recogniseUplink f s) :=
  congrArg Host.Outcome.next (receive_passes h)

theorem exec_craftFrame (b : Bool) (h : passesReception 1522 f s) : exec (.craftFrameReceived b f) s =
    .next (recogniseCraft b f (s.modMgmt fun m => { m with service := b })) :=
  congrArg Host.Outcome.next (receive_passes h)

/-- A frame to sort goes to its line or to its group (R26). -/
theorem exec_traffic (h : isTraffic f s) : exec (.uplinkFrameReceived f) s =
    .next (if (frameDst f).isGroup then replicate f s else unicast f s) := by
  obtain ⟨hpass, hback, hctl, htag, hlen⟩ := h
  rw [exec_uplinkFrame hpass, recogniseUplink]
  simp [hback, hctl, sortDownstream, htag, not_lt.mpr hlen]

theorem exec_backhaul (h : passesReception 1522 f s) (hb : isBackhaul s f = true) :
    exec (.uplinkFrameReceived f) s = .next (backhaulFrame f s) := by
  rw [exec_uplinkFrame h, recogniseUplink, if_pos hb]

/-- A frame for the line of the entry of its destination, with the line's VLAN (R27). -/
theorem exec_unicast {e : Entry} (h : isTraffic f s) (hg : (frameDst f).isGroup = false)
    (he : entryFor s (frameDst f) = some e) (hv : (s.line e.line).cfg.vlan = frameVlan f) :
    exec (.uplinkFrameReceived f) s = .next (decideUnicast e.line f s) := by
  rw [exec_traffic h]
  simp [hg, unicast, he, hv]

theorem exec_ready (n : LineNo) :
    exec (.ready n) s = .next (if s.running = true ∧ awakeState (s.line n).st = true then
      s.modLine n fun l => { l with ready := true } else s) := by
  by_cases hr : s.running = true <;> simp [exec, execReady, whenRunning, takeReady, hr]

theorem exec_awake (n : LineNo) :
    exec (.awake n) s = .next (if s.running = true ∧ (s.line n).st = .up ∧ (s.line n).wakePending = true then
      s.modLine n fun l => { l with wakeTimer := none, wakePending := false } else s) := by
  by_cases hr : s.running = true <;> simp [exec, execAwake, whenRunning, takeAwake, hr]

theorem awakeState_iff (st : LineState) : awakeState st = true ↔ st = .training ∨ st = .up ∨ st = .draining := by
  cases st <;> simp [awakeState]

end

end Sys2Proof.Machine

namespace Sys2Proof
open Machine

/-- Settles O4: the three warm resets are one operation, each with its own flag. -/
theorem warmResets : Obligations.WarmResets := by
  intro s
  refine ⟨⟨_, rfl, rfl⟩, ⟨_, rfl, rfl⟩, fun h => ⟨warmReset .device s, ?_, rfl⟩⟩
  simp [exec, execDeviceResetTimerExpiry, h]

/-- Settles O9: the three ports share one reception, with their own greatest lengths. -/
theorem receptionChecks : Obligations.ReceptionChecks := by
  rintro f n service c greatest s u (⟨rfl, rfl, rfl⟩ | ⟨rfl, rfl, rfl⟩ | ⟨rfl, rfl, rfl⟩)
  · exact receive_checks (by decide) rfl
  · exact receive_checks (by decide) rfl
  · exact receive_checks (by decide) rfl

/-- Settles O12: a frame that cannot be stored changes its count alone. -/
theorem unicastDropped : Obligations.UnicastDropped := by
  intro f e s
  refine ⟨fun hpass hback hctl => ⟨fun htag => ?_, fun htag hlen => ?_⟩, fun h hg => ⟨fun hnone => ?_, fun he => ?_⟩⟩
  · simp [exec_uplinkFrame hpass, recogniseUplink, hback, hctl, sortDownstream, htag]
  · simp [exec_uplinkFrame hpass, recogniseUplink, hback, hctl, sortDownstream, htag, Config.leastTaggedFrame, hlen]
  · simp [exec_traffic h, hg, unicast, hnone]
  · refine ⟨fun hv => by simp [exec_traffic h, hg, unicast, he, hv], fun hv => ?_⟩
    rw [exec_unicast h hg he hv, decideUnicast]
    refine ⟨?_, ?_⟩
    · rintro (hst | hst) <;> simp [hst]
    · rintro (hst | hst | hst | hst) <;> simp [hst]

/-- Settles O14: an uplink control frame by its source and the queue, a craft frame by SERVICE and its header. -/
theorem controlFramesQueued : Obligations.ControlFramesQueued := by
  intro f s h
  refine ⟨fun hback hctl hman => ?_, fun hback hctl hman => ?_, ?_, ?_⟩
  · simp [exec_uplinkFrame h, recogniseUplink, hback, hctl, hman]
  · rw [exec_uplinkFrame h, recogniseUplink, if_neg (by simp [hback]), if_pos hctl, if_neg (by simp [hman])]
    rfl
  · simp [exec_craftFrame _ h, recogniseCraft]
  · rw [exec_craftFrame _ h]
    have hctl : isCraftControl (s.modMgmt fun m => { m with service := true }) f = isCraftControl s f := rfl
    by_cases hf : isCraftControl s f = true
    · rw [recogniseCraft, if_neg (by simp), if_pos (by rw [hctl, hf]), if_neg (by simp [hf])]
      rfl
    · simp [recogniseCraft, hctl, hf]

/-- Settles O16: the message of a class pause, as a row or in a backhaul frame. -/
theorem classPause : Obligations.ClassPause := by
  intro mask d f s
  refine ⟨fun h hb => ⟨fun hlen hkind => ?_, fun hadv hpause => ?_⟩, fun hrun => ?_, fun hrun => ?_⟩
  · rw [exec_backhaul h hb]
    simp [backhaulFrame, hkind, hlen, exec, execClassPause, h.2]
  · rw [exec_backhaul h hb]
    have hnoAdv : ¬(contentAt f + 5 ≤ (frameBody f).length ∧ wireField (frameBody f) (contentAt f) 1 = 1) :=
      fun ⟨hl, hk⟩ => absurd (hadv hk) (by omega)
    have hnoPause : ¬(contentAt f + 4 ≤ (frameBody f).length ∧ wireField (frameBody f) (contentAt f) 1 = 2) :=
      fun ⟨hl, hk⟩ => absurd (hpause hk) (by omega)
    simp [backhaulFrame, hnoAdv, hnoPause]
  · simp only [exec, execClassPause, hrun, if_true]
    rfl
  · simp [exec, execClassPause, hrun]

/-- Settles O19: READY and AWAKE by the line's state. -/
theorem readyAndAwake : Obligations.ReadyAndAwake := by
  intro n s
  rw [exec_ready, exec_awake]
  simp only [awakeState_iff, and_self]

end Sys2Proof
end

