-- ==== Sys2Proof/Proofs/Ports.lean ====
section
/-! PROOF. References let go and the counts of the frame path (R34, R36, R43, R76), the two transmitters (R79, R81), the
hand-offs (R42, R43), and the source of the capacity (R48 to R50). -/

namespace Sys2Proof.Machine

section
variable {s t : State}

/-! ## A reference let go -/

/-- Events change the flags, the notices and the count of dropped notices alone (R199, R201). -/
def countersKept (s t : State) : Prop :=
  t.counts = { s.counts with flags := t.counts.flags, notices := t.counts.notices, dev := t.counts.dev }

theorem countersKept.refl (s : State) : countersKept s s := rfl

theorem countersKept.trans {u : State} (h : countersKept s t) (k : countersKept t u) : countersKept s u := by
  unfold countersKept at *
  rw [k, h]

theorem offerNotice_countersKept (u : Option LineNo) (d : Detail) (s : State) : countersKept s (offerNotice u d s) := by
  unfold offerNotice
  split
  · rfl
  · split <;> rfl

theorem raise_countersKept (u : Option LineNo) (d : Detail) (s : State) : countersKept s (raise u d s) := by
  unfold raise
  dsimp only
  split
  · have hflag : ∀ f : Tab 12 Bool → Tab 12 Bool, countersKept s (s.modCounts fun k => { k with flags := f k.flags }) :=
      fun _ => rfl
    exact (hflag (·.set d.kind.idx true)).trans (offerNotice_countersKept _ _ _)
  · rfl

theorem setFree_countersKept (k : Nat) (s : State) : countersKept s (setFree k s) := by
  unfold setFree
  dsimp only
  split
  · split
    · exact raise_countersKept _ _ ((s.modPool _).modPool _)
    · rfl
  · split <;> rfl

theorem dropRef_countersKept (id : Nat) (s : State) : countersKept s (dropRef id s) := by
  unfold dropRef
  split
  · rfl
  · split
    · exact setFree_countersKept _ (s.modPool _)
    · rfl

theorem dropRef_free {id : Nat} {r : FrameRec} (h : s.record id = some r) :
    (dropRef id s).pool.free = if r.refs ≤ 1 then s.pool.free + r.cells else s.pool.free := by
  split
  next hr => exact (dropRef_last s id r h hr).1
  next hr => exact (dropRef_other s id r h (by omega)).1

/-- Cells that return arm the pool at 256 free, and raise nothing from 128 on (R36). -/
theorem dropRef_armed {id : Nat} {r : FrameRec} (h : s.record id = some r) (hc : 128 ≤ s.pool.free + r.cells) :
    (dropRef id s).pool.armed = (if r.refs ≤ 1 ∧ 256 ≤ s.pool.free + r.cells then true else s.pool.armed)
      ∧ (dropRef id s).counts = s.counts := by
  have hlow : ¬ s.pool.free + r.cells < Config.poolLowMark := not_lt.mpr hc
  by_cases hr : r.refs ≤ 1
  · by_cases hhigh : 256 ≤ s.pool.free + r.cells
    · simp [dropRef, h, hr, setFree, hlow, Config.poolArmMark, hhigh]
    · simp [dropRef, h, hr, setFree, hlow, Config.poolArmMark, hhigh]
  · simp [dropRef, h, hr]

/-! ## Counts of the frame path -/

theorem countFor_total (n : LineNo) (f : CounterSet → CounterSet) (s : State) :
    (countFor n f s).counts.total = f s.counts.total := by
  unfold countFor
  dsimp only
  split <;> rfl

theorem countFor_set (n : LineNo) (f : CounterSet → CounterSet) (s : State) (j : Fin 16) :
    (countFor n f s).counts.sets.get j
      = if (s.line n).cfg.counterSet = some j then f (s.counts.sets.get j) else s.counts.sets.get j := by
  unfold countFor
  dsimp only
  rw [State.modCounts_line]
  cases hset : (s.line n).cfg.counterSet with
  | none => simp
  | some k =>
    by_cases hj : j = k
    · subst hj; simp
    · simp [Tab.get_modify_other _ _ hj, Ne.symm hj]

theorem countFor_hists (n : LineNo) (f : CounterSet → CounterSet) (s : State) :
    (countFor n f s).counts.upHist = s.counts.upHist ∧ (countFor n f s).counts.downHist = s.counts.downHist
      ∧ (countFor n f s).counts.flags = s.counts.flags ∧ (countFor n f s).counts.notices = s.counts.notices := by
  unfold countFor
  dsimp only
  split <;> exact ⟨rfl, rfl, rfl, rfl⟩

/-- A delivery counted, device-wide and in the line's set (R43, R195, R196). -/
theorem countDelivered_counts (n : LineNo) (len : Nat) (s : State) :
    (countDelivered n len s).counts.total = { s.counts.total with
        downFrames := bump s.counts.total.downFrames, downBytes := bumpBytes s.counts.total.downBytes len }
      ∧ (∀ j, (countDelivered n len s).counts.sets.get j = if (s.line n).cfg.counterSet = some j then
          { s.counts.sets.get j with
            downFrames := bump (s.counts.sets.get j).downFrames
            downBytes := bumpBytes (s.counts.sets.get j).downBytes len }
        else s.counts.sets.get j)
      ∧ (countDelivered n len s).counts.downHist = s.counts.downHist.modify (bin len) bump
      ∧ (countDelivered n len s).counts.flags = s.counts.flags
      ∧ (countDelivered n len s).counts.notices = s.counts.notices := by
  obtain ⟨-, hdown, hflags, hnotices⟩ := countFor_hists n
    (fun k => { k with downFrames := bump k.downFrames, downBytes := bumpBytes k.downBytes len }) s
  simp only [countDelivered, State.modCounts_counts]
  exact ⟨countFor_total n _ s, countFor_set n _ s, by rw [hdown], hflags, hnotices⟩

/-! ## The transmitters -/

theorem completeTransmission_reset {id : Nat} {b : Bool} (h : startsReset s id = true) :
    completeTransmission id b s = warmReset .device s := by
  simp [completeTransmission, h]

theorem completeTransmission_counted {id : Nat} {b : Bool} {r : FrameRec} (h : startsReset s id = false)
    (hr : s.record id = some r) : completeTransmission id b s = countTransmission r b (dropRef id s) := by
  simp [completeTransmission, h, hr]

/-- What a completed transmission leaves, whoever sent it (R34, R76). -/
theorem completed_kept {id : Nat} {b : Bool} {r : FrameRec} (h : startsReset s id = false) (hr : s.record id = some r) :
    (completeTransmission id b s).sched = s.sched ∧ (completeTransmission id b s).lines = s.lines
      ∧ plantKept s (completeTransmission id b s) ∧ (completeTransmission id b s).mgmt = s.mgmt
      ∧ (completeTransmission id b s).pool.free = (if r.refs ≤ 1 then s.pool.free + r.cells else s.pool.free)
      ∧ (r.origin = .part → (completeTransmission id b s).counts.total = s.counts.total
          ∧ (completeTransmission id b s).counts.upHist = s.counts.upHist) := by
  rw [completeTransmission_counted h hr, ← dropRef_free hr]
  have hkept := dropRef_countersKept id s
  unfold countTransmission plantKept testsKept
  split
  next n ho => simp [countSent, ho]
  next ho => simp [ho]
  next ho =>
    refine ⟨by simp, by simp, by simp, by simp, rfl, fun _ => ?_⟩
    rw [hkept]
    exact ⟨rfl, rfl⟩

theorem startsReset_congr {id : Nat} (h : t.mgmt = s.mgmt) : startsReset t id = startsReset s id := by
  simp [startsReset, h]

theorem dropCraftEntries_letGo (s : State) : LetGo s (dropCraftEntries s) := (modMgmt_letGo _ s).trans (dropRefs_letGo _ _)

theorem dropCraftEntries_mgmt (s : State) : (dropCraftEntries s).mgmt =
    { s.mgmt with txList := s.mgmt.txList.filter fun e => e.port != .craft } :=
  foldl_keeps State.mgmt _ (fun u id => dropRef_mgmt u id) _ _

theorem dropCraftEntries_sched (s : State) : (dropCraftEntries s).sched = s.sched :=
  foldl_keeps State.sched _ (fun u id => dropRef_sched u id) _ _

theorem dropCraftEntries_devKept (s : State) : devKept s (dropCraftEntries s) :=
  foldl_holds (devKept s) _ (fun u id hu => hu.trans (dropRef_devKept id u)) _ _ (fun _ _ => rfl)

/-! ## Hand-offs -/

theorem Line.idleHolds_iff (l : Line) : l.idleHolds = true ↔ l.st = .up ∧ l.holdsNothing := by
  simp [Line.idleHolds, Line.holdsNothing, and_assoc]

/-- The idle timer of a line where it stands, runs or stops by what the line holds (R45). -/
theorem refreshIdle_idleAfter {n : LineNo} {l : Line} (h : (s.line n).idle = l.idle) :
    l.idleAfter ((refreshIdle n s).line n) := by
  have hst : ((refreshIdle n s).line n).st = (s.line n).st := by rw [refreshIdle_line]
  have hold : ((refreshIdle n s).line n).holdsNothing ↔ (s.line n).holdsNothing := by rw [refreshIdle_line]; rfl
  have hidle : ((refreshIdle n s).line n).idle
      = if (s.line n).idleHolds then some (l.idle.getD 0) else none := by rw [refreshIdle_line, ← h]
  unfold Line.idleAfter
  rw [hst, hold, hidle]
  refine ⟨fun hup hn => if_pos ((Line.idleHolds_iff _).mpr ⟨hup, hn⟩), fun hne => if_neg fun hi => ?_⟩
  obtain ⟨hup, hn⟩ := (Line.idleHolds_iff _).mp hi
  exact hne.elim (· hup) (· hn)

theorem lines_only {f : Line → Line} (n : LineNo) : s.modLine n f = { s with lines := (s.modLine n f).lines } := rfl

/-- The head of what waits for a ready line goes to the hand-off (R42). -/
theorem handOffStart_exec {n : LineNo} {id : Nat} (hst : (s.line n).st = .up ∨ (s.line n).st = .draining)
    (hready : (s.line n).ready = true) (hoff : (s.line n).handOff = none) (hnext : (s.line n).nextDown = some id) :
    ∃ t, exec (.handOffStart n) s = .next t
      ∧ t.line n = { s.line n with
          handOff := some id, ready := false, idle := none
          wakeStore := none, downQ := if (s.line n).wakeStore.isSome then (s.line n).downQ else (s.line n).downQ.drop 1 }
      ∧ t = { s with lines := t.lines } ∧ ∀ m, m ≠ n → t.line m = s.line m := by
  have hcan : (s.line n).canHandOff = true := by
    rcases hst with hst | hst <;> simp [Line.canHandOff, hst, hready, hoff, hnext, eligibleState]
  refine ⟨refreshIdle n (s.modLine n Line.handed), by simp [exec, execHandOffStart, hcan], ?_, rfl, fun m hm => ?_⟩
  · rw [refreshIdle_line, State.modLine_line_self]
    simp [Line.handed, hnext, Line.idleHolds]
  · rw [refreshIdle_line_other _ _ hm, State.modLine_line_other s _ hm]

end

end Sys2Proof.Machine

namespace Sys2Proof
open Machine

/-- Settles O60: no record, no holder and no entry, and the rest by evaluation. -/
theorem invariantsAtReset : Obligations.InvariantsAtReset := by
  have hlists : ListsBounded State.reset ∧ DriveSafe State.reset ∧ BudgetKept State.reset
      ∧ PoolConserved State.reset := by
    unfold ListsBounded DriveSafe testsAtRest BudgetKept PoolConserved
    decide
  have harmed : PoolArmed State.reset ∧ WakesListed State.reset := by
    unfold PoolArmed WakesListed
    decide
  have hcredit : CreditKept State.reset := by
    unfold CreditKept
    decide
  have htables : TablesSafe State.reset := .of_empty fun i => Tab.get_fill _ i
  have hrefs : RefsCounted State.reset := by
    rw [refsCounted_iff, reset_holders rfl rfl rfl rfl]
    exact .empty rfl
  obtain ⟨hbounded, hdrive, hbudget, hpool⟩ := hlists
  exact ⟨hdrive, htables, hbudget, hpool, hbounded, hrefs, hcredit, harmed.1, harmed.2⟩

/-- Settles O29: the reference is let go, and the origin of the record says what is counted. -/
theorem transmissionComplete : Obligations.TransmissionComplete := by
  intro x r s hx
  have hexec : exec .transmissionComplete s
      = .next (completeTransmission x.recId x.spare (s.modSched fun c => { c with uplinkTx := none })) := by
    simp [exec, execTransmissionComplete, hx]
  refine ⟨fun hreset => ⟨_, hexec, ?_⟩, fun hreset hr => ⟨_, hexec, ?_⟩⟩
  · rw [completeTransmission_reset (by rwa [startsReset_congr rfl])]
    rfl
  · obtain ⟨hsched, hlines, hplant, hmgmt, hfree, hpart⟩ := completed_kept (b := x.spare)
      (s := s.modSched fun c => { c with uplinkTx := none }) hreset hr
    refine ⟨hsched, hlines, hplant, hmgmt, hfree, hpart, fun n ho => ?_⟩
    rw [completeTransmission_counted (s := s.modSched fun c => { c with uplinkTx := none }) hreset hr]
    have hkept := dropRef_countersKept x.recId (s.modSched fun c => { c with uplinkTx := none })
    have hline : (dropRef x.recId (s.modSched fun c => { c with uplinkTx := none })).line n = s.line n :=
      State.line_of_lines (dropRef_lines _ _) n
    generalize dropRef x.recId (s.modSched fun c => { c with uplinkTx := none }) = u at hkept hline ⊢
    obtain ⟨hup, -⟩ := countFor_hists n (fun k => { k with
      upFrames := bump k.upFrames, upBytes := bumpBytes k.upBytes (r.length - 4)
      spareFrames := if x.spare then bump k.spareFrames else k.spareFrames }) u
    simp only [countTransmission, ho, countSent, State.modCounts_counts]
    refine ⟨?_, ?_, fun k => ?_⟩
    · rw [countFor_total, hkept]
      rfl
    · rw [hup, hkept]
      rfl
    · rw [countFor_set, hline, hkept]
      rfl

/-- Settles O31: the start, the completion and the loss of the craft port's link. -/
theorem craftTransmitter : Obligations.CraftTransmitter := by
  intro e id r s
  have hexec : s.sched.craftTx = some id → exec .craftTransmissionComplete s
      = .next (completeTransmission id false (s.modSched fun c => { c with craftTx := none })) := fun hid => by
    simp [exec, execCraftTransmissionComplete, hid]
  refine ⟨rfl, fun hup htx he => ?_, fun hid hr ho hreset => ⟨_, hexec hid, ?_⟩, fun hid hreset => ⟨_, hexec hid, ?_⟩, ?_⟩
  · have hhead : craftHead s = some e := he
    simp [exec, execCraftTransmissionStart, mayCraft, hup, htx, hhead]
  · obtain ⟨hsched, hlines, hplant, hmgmt, hfree, hpart⟩ := completed_kept (b := false)
      (s := s.modSched fun c => { c with craftTx := none }) hreset hr
    exact ⟨hsched, hlines, hplant, hmgmt, (hpart ho).1, hfree⟩
  · rw [completeTransmission_reset (by rwa [startsReset_congr rfl])]
    rfl
  · have key : ∀ u : State, LetGo s u → u.mgmt = s.mgmt →
        (dropCraftEntries u).sched = u.sched
          ∧ (dropCraftEntries u).mgmt = { s.mgmt with txList := s.mgmt.txList.filter fun x => x.port != .craft }
          ∧ (dropCraftEntries u).lines = s.lines ∧ plantKept s (dropCraftEntries u)
          ∧ (dropCraftEntries u).counts.dev.get DevCount.transmitAborted.idx
            = u.counts.dev.get DevCount.transmitAborted.idx := fun u hu hm => by
      have hgone := hu.trans (dropCraftEntries_letGo u)
      exact ⟨dropCraftEntries_sched u, by rw [dropCraftEntries_mgmt, hm], hgone.lines, ⟨⟨hgone.access, hgone.seq⟩, hgone.power⟩,
        dropCraftEntries_devKept u _ (by decide)⟩
    cases htx : s.sched.craftTx with
    | none =>
      have hdown : exec .craftLinkDown s = .next (dropCraftEntries
          (s.modSched fun x => { x with craftUp := false, craftTx := none })) := by simp [exec, execCraftLinkDown, htx]
      refine ⟨_, hdown, ?_⟩
      obtain ⟨hsched, hmgmt, hlines, hplant, hdev⟩ :=
        key (s.modSched fun x => { x with craftUp := false, craftTx := none }) (modSched_letGo _ s) rfl
      exact ⟨hsched, hmgmt, hlines, hplant, hdev⟩
    | some id =>
      have hdown : exec .craftLinkDown s = .next (dropCraftEntries (countDev .transmitAborted
          (dropRef id (s.modSched fun x => { x with craftUp := false, craftTx := none })))) := by
        simp [exec, execCraftLinkDown, htx]
      refine ⟨_, hdown, ?_⟩
      have hsent := (modSched_letGo (fun x => { x with craftUp := false, craftTx := none }) s).trans
        ((dropRef_letGo id _).trans (countDev_letGo .transmitAborted _))
      obtain ⟨hsched, hmgmt, hlines, hplant, hdev⟩ := key _ hsent (by simp)
      refine ⟨by rw [hsched]; simp, hmgmt, hlines, hplant, ?_⟩
      rw [hdev, countDev_dev, dropRef_devKept id _ .transmitAborted (by decide)]
      rfl

/-- Settles O30: the head that is handed, and the delivery counted with the length handed. -/
theorem handOffs : Obligations.HandOffs := by
  intro n id rest r s
  refine ⟨fun hst hready hoff => ⟨fun hw => ?_, fun hw hq => ?_⟩, fun hid hr => ?_⟩
  · obtain ⟨t, ht, hline, hrest⟩ := handOffStart_exec hst hready hoff (id := id) (by simp [Line.nextDown, hw])
    exact ⟨t, ht, by simpa [hw] using hline, hrest⟩
  · obtain ⟨t, ht, hline, hrest⟩ := handOffStart_exec hst hready hoff (id := id) (by simp [Line.nextDown, hw, hq])
    exact ⟨t, ht, by simpa [hw, hq] using hline, hrest⟩
  · have hexec : exec (.handOffComplete n) s = .next (countDelivered n (removeTag r.bytes).length
        (refreshIdle n (dropRef id (s.modLine n fun l => { l with handOff := none })))) := by
      simp [exec, execHandOffComplete, hid, State.handedBytes, hr]
    refine ⟨_, hexec, ?_⟩
    have hr' : (s.modLine n fun l => { l with handOff := none }).record id = some r := hr
    have hkept := dropRef_countersKept id (s.modLine n fun l => { l with handOff := none })
    have hfree := dropRef_free hr'
    have harmed := dropRef_armed hr'
    have hline : (dropRef id (s.modLine n fun l => { l with handOff := none })).line n
        = { s.line n with handOff := none } := by
      rw [State.line_of_lines (dropRef_lines _ _), State.modLine_line_self]
    have hgone := dropRef_letGo id (s.modLine n fun l => { l with handOff := none })
    have hbeside : besideKept s (dropRef id (s.modLine n fun l => { l with handOff := none })) :=
      (dropRef_moved id (modLine_moved n (fun l => { l with handOff := none }) (fun _ => ⟨rfl, rfl⟩) (.refl s))).beside
    generalize dropRef id (s.modLine n fun l => { l with handOff := none }) = u at *
    generalize (removeTag r.bytes).length = len at *
    obtain ⟨htotal, hsets, hhist, hflags, hnotices⟩ := countDelivered_counts n len (refreshIdle n u)
    have hlines : ∀ m, (countDelivered n len (refreshIdle n u)).line m = (refreshIdle n u).line m :=
      State.line_of_lines (by simp [countDelivered])
    have hpool : (countDelivered n len (refreshIdle n u)).pool = u.pool := by simp [countDelivered]
    refine ⟨?_, ?_, fun m hm => ?_, ?_, ?_, ?_, ?_, fun hc => ?_, fun j => ?_, ?_, ?_⟩
    · rw [hlines, refreshIdle_line, hline]
    · rw [hlines]
      exact refreshIdle_idleAfter (by rw [hline])
    · rw [hlines, refreshIdle_line_other _ _ hm, State.line_of_lines hgone.lines, State.modLine_line_other s _ hm]
    · simp [plantKept, testsKept, countDelivered, hgone.access, hgone.seq, hgone.power]
    · simpa [countDelivered, besideKept, upstreamKept] using hbeside
    · simp [countDelivered, hgone.stations]
    · rw [hpool, hfree]
      rfl
    · obtain ⟨ha, hc'⟩ := harmed hc
      refine ⟨by rw [hpool, ha]; rfl, ?_, ?_⟩
      · rw [hflags, refreshIdle_counts, hc', State.modLine_counts]
      · rw [hnotices, refreshIdle_counts, hc', State.modLine_counts]
    · rw [hsets, refreshIdle_counts, refreshIdle_line, hline, hkept]
      rfl
    · rw [htotal, refreshIdle_counts, hkept]
      rfl
    · rw [hhist, refreshIdle_counts, hkept]
      rfl

end Sys2Proof
end

