-- ==== Sys2Proof/Proofs/UpstreamChoice.lean ====
section
/-! PROOF. The source of the capacity (R48 to R50), and the choice of the uplink transmitter: its passes in their order,
the line each pass takes from its pointer, and the frame that leaves (R70 to R75). -/

namespace Sys2Proof.Machine

section
variable {s t : State}

/-! ## The source of the capacity -/

theorem recompute_shares (s : State) : (recompute s).shares = { s.shares with last := (recompute s).shares.last } := rfl

theorem recompute_sched (s : State) :
    (recompute s).sched = { s.sched with effective := (recompute s).sched.effective } := rfl

theorem recompute_capacity (s : State) : (recompute s).shares.last.capacity = capacityInUse s.shares := rfl

/-- A recompute over a state that keeps the lines and the plant keeps them (R58). -/
theorem recompute_linesKept (h : t.lines = s.lines) : linesKept s (recompute t) := fun m => by
  rw [recompute_apart, State.line_of_lines h]

/-- What an advisory leaves of the part (R48). -/
theorem takeAdvisory_kept (v : Nat) (s : State) :
    linesKept s (takeAdvisory v s) ∧ (takeAdvisory v s).sched = { s.sched with effective := (takeAdvisory v s).sched.effective }
      ∧ plantKept s (takeAdvisory v s) ∧ (takeAdvisory v s).stations = s.stations ∧ (takeAdvisory v s).pool = s.pool
      ∧ (takeAdvisory v s).mgmt = s.mgmt := by
  unfold takeAdvisory
  dsimp only
  split
  · exact ⟨recompute_linesKept (by simp), by rw [recompute_sched]; simp, by simp [plantKept, testsKept], by simp, by simp,
      by simp⟩
  · exact ⟨recompute_linesKept (by simp), by rw [recompute_sched]; simp, by simp [plantKept, testsKept], by simp, by simp,
      by simp⟩

/-- What an advisory stores (R48). -/
theorem takeAdvisory_shares (v : Nat) (s : State) : (takeAdvisory v s).shares = { s.shares with
    advised := some (min 1000000 v), lastAdvisory := some s.mgmt.time
    holdTimer := some (s.shares.hold * 1000), source := .advised, last := (takeAdvisory v s).shares.last
    clampedAdvisories := if 1000000 < v then min 4294967295 (s.shares.clampedAdvisories + 1)
      else s.shares.clampedAdvisories } := by
  unfold takeAdvisory
  dsimp only
  split
  · rw [recompute_shares, State.modShares_shares, raise_shares]
    rfl
  · rfl

theorem takeAdvisory_capacity (v : Nat) (s : State) : (takeAdvisory v s).shares.last.capacity = min 1000000 v := by
  unfold takeAdvisory
  dsimp only
  split
  · rw [recompute_capacity, State.modShares_shares, raise_shares]
    rfl
  · rfl

/-- The count of advisories, and the event of a source that was lost (R48, R50). -/
theorem takeAdvisory_counts (v : Nat) (s : State) :
    (takeAdvisory v s).counts.dev.get DevCount.advisories.idx = bump (s.counts.dev.get DevCount.advisories.idx)
      ∧ (s.shares.source = .lost → flagged (takeAdvisory v s) .advisoryRestored)
      ∧ (s.shares.source ≠ .lost → (takeAdvisory v s).counts.flags = s.counts.flags) := by
  unfold takeAdvisory
  dsimp only
  split
  next hlost =>
    refine ⟨?_, fun _ => ?_, fun hne => absurd (by simpa using hlost) hne⟩
    · rw [recompute_counts, State.modShares_counts, raise_dev _ _ _ (by decide), State.modShares_counts, countDev_dev]
    · unfold flagged
      rw [recompute_counts, State.modShares_counts]
      exact raise_flagged _ none (.advisoryRestored _)
  next hne =>
    refine ⟨?_, fun hlost => absurd (by simp [hlost]) hne, fun _ => ?_⟩
    · rw [recompute_counts, State.modShares_counts, State.modShares_counts, countDev_dev]
    · rfl

/-! ## The line a pass takes -/

/-- The first line from the pointer that qualifies. -/
theorem find_roundRobin {p n : LineNo} {q : LineNo → Bool} (hn : q n = true)
    (hb : ∀ k : LineNo, k < n - p → q (p + k) = false) : (roundRobin p).find? q = some n := by
  rw [roundRobin, List.find?_map, Option.map_eq_some_iff]
  refine ⟨n - p, ?_, add_sub_cancel p n⟩
  rw [List.find?_eq_some_iff_getElem]
  refine ⟨by simpa using hn, (n - p).val, by simp [indexes], by simp [indexes], fun j hj => ?_⟩
  have hlt : (⟨j, by omega⟩ : LineNo) < n - p := hj
  simpa [indexes] using hb _ hlt

theorem roundRobin_find_some {p n : LineNo} {q : LineNo → Bool} (h : (roundRobin p).find? q = some n) : q n = true :=
  List.find?_some h

section
variable {n : LineNo} {c : Cls} {id : Nat} {rest : List Nat}

theorem creditedPass_eq (he : 0 < s.sched.effective) (hp : s.sched.paused c = false)
    (hq : (s.line n).upQueue c ≠ []) (hc : 0 < (s.line n).credit)
    (hb : ∀ k : LineNo, k < n - s.sched.pointer c →
      (s.line (s.sched.pointer c + k)).upQueue c = [] ∨ (s.line (s.sched.pointer c + k)).credit ≤ 0) :
    creditedPass c s = some (.credited n c) := by
  rw [creditedPass, if_neg (by simp [hp]; omega), find_roundRobin (n := n) (by simp [hq, hc])]
  · rfl
  · intro k hk
    rcases hb k hk with hempty | hcredit
    · simp [hempty]
    · simp [not_lt.mpr hcredit]

theorem sparePass_eq (he : 0 < s.sched.effective) (hspare : s.shares.spare = true)
    (ho : offers s n .prio = true ∨ offers s n .bulk = true)
    (hb : ∀ k : LineNo, k < n - s.sched.sparePtr → ∀ d, offers s (s.sched.sparePtr + k) d = false) :
    sparePass s = some (.spare n (if offers s n .prio then .prio else .bulk)) := by
  rw [sparePass, if_neg (by simp [hspare]; omega), find_roundRobin (n := n) (by simpa using ho)]
  · rfl
  · intro k hk
    simp [hb k hk]

/-! ## The frame that leaves -/

/-- What a line and the transmitter are left with when a frame of class `c` leaves (R71 to R75). -/
structure Departs (n : LineNo) (c : Cls) (rest : List Nat) (s t : State) : Prop where
  queue : (t.line n).upQueue c = rest
  other : ∀ d, d ≠ c → (t.line n).upQueue d = (s.line n).upQueue d
  idle : (s.line n).idleAfter (t.line n)
  lines : ∀ m, m ≠ n → t.line m = s.line m
  pool : t.pool = s.pool
  counts : t.counts = s.counts
  mgmt : t.mgmt = s.mgmt

theorem setQueue_upQueue (c d : Cls) (q : List Nat) (l : Line) :
    (l.setQueue (.ofCls c) q).upQueue d = if d = c then q else l.upQueue d := by
  cases c <;> cases d <;> rfl

theorem takeHead_departs (b : Bool) (hq : (s.line n).upQueue c = id :: rest) :
    Departs n c rest s (takeHead n c b s)
      ∧ ((takeHead n c b s).line n).credit = (s.line n).credit
      ∧ (takeHead n c b s).sched = { s.sched with uplinkTx := some { recId := id, spare := b } } := by
  have hset : ((s.line n).setQueue (.ofCls c) rest).idle = (s.line n).idle
      ∧ ((s.line n).setQueue (.ofCls c) rest).credit = (s.line n).credit := by cases c <;> exact ⟨rfl, rfl⟩
  unfold takeHead
  rw [hq]
  dsimp only
  have hline : ((s.modLine n fun l => l.setQueue (.ofCls c) rest).modSched fun x =>
      { x with uplinkTx := some { recId := id, spare := b } }).line n = (s.line n).setQueue (.ofCls c) rest := by simp
  refine ⟨⟨?_, fun d hd => ?_, ?_, fun m hm => ?_, rfl, rfl, rfl⟩, ?_, rfl⟩
  · rw [refreshIdle_line, hline]
    exact (setQueue_upQueue c c rest _).trans (if_pos rfl)
  · rw [refreshIdle_line, hline]
    exact (setQueue_upQueue c d rest _).trans (if_neg hd)
  · exact refreshIdle_idleAfter (by rw [hline, hset.1])
  · rw [refreshIdle_line_other _ _ hm]
    exact State.modLine_line_other s _ hm
  · rw [refreshIdle_line, hline]
    exact hset.2

theorem chargeHead_eq {r : FrameRec} (hq : (s.line n).upQueue c = id :: rest) (hr : s.record id = some r) :
    chargeHead n c s = s.modLine n fun l => { l with credit := l.credit - 8 * (r.bytes.length : Int) } := by
  simp [chargeHead, hq, chargeOf, hr, FrameRec.length]

/-- A frame that leaves on credit is charged 8 bits a byte (R72 to R74). -/
theorem startCredited_departs {r : FrameRec} (hq : (s.line n).upQueue c = id :: rest) (hr : s.record id = some r) :
    Departs n c rest s (startChoice (.credited n c) s)
      ∧ ((startChoice (.credited n c) s).line n).credit = (s.line n).credit - 8 * (r.bytes.length : Int)
      ∧ (startChoice (.credited n c) s).sched = match c with
        | .prio => { s.sched with prioPtr := n + 1, uplinkTx := some { recId := id, spare := false } }
        | .bulk => { s.sched with bulkPtr := n + 1, uplinkTx := some { recId := id, spare := false } } := by
  have hcharge := chargeHead_eq hq hr
  have hq' : ((chargeHead n c s).line n).upQueue c = id :: rest := by
    rw [hcharge, State.modLine_line_self]
    cases c <;> exact hq
  obtain ⟨hd, hcredit, hsched⟩ := takeHead_departs false hq'
  have hline : (chargeHead n c s).line n = { s.line n with credit := (s.line n).credit - 8 * (r.bytes.length : Int) } := by
    rw [hcharge, State.modLine_line_self]
  rw [hline] at hcredit
  refine ⟨⟨hd.queue, fun d hne => ?_, ?_, fun m hm => ?_, ?_, ?_, ?_⟩, hcredit, ?_⟩
  · refine (hd.other d hne).trans ?_
    rw [hline]
    cases d <;> rfl
  · have hidle := hd.idle
    rw [hline] at hidle
    exact hidle
  · refine (hd.lines m hm).trans ?_
    rw [hcharge, State.modLine_line_other s _ hm]
  · exact hd.pool.trans (by rw [hcharge]; rfl)
  · exact hd.counts.trans (by rw [hcharge]; rfl)
  · exact hd.mgmt.trans (by rw [hcharge]; rfl)
  · rw [chargeHead_sched] at hsched
    cases c <;> simp [startChoice, hsched, nextLine]

/-- A frame that leaves in the spare pass is not charged (R74). -/
theorem startSpare_departs (hq : (s.line n).upQueue c = id :: rest) :
    Departs n c rest s (startChoice (.spare n c) s)
      ∧ ((startChoice (.spare n c) s).line n).credit = (s.line n).credit
      ∧ (startChoice (.spare n c) s).sched
        = { s.sched with sparePtr := n + 1, uplinkTx := some { recId := id, spare := true } } := by
  obtain ⟨hd, hcredit, hsched⟩ := takeHead_departs true hq
  refine ⟨⟨hd.queue, hd.other, hd.idle, hd.lines, hd.pool, hd.counts, hd.mgmt⟩, hcredit, ?_⟩
  simp [startChoice, hsched, nextLine]

end

/-! ## The choice -/

theorem makeChoice_none (h : mayChoose s = false ∨ choose s = none) : makeChoice s = s := by
  unfold makeChoice
  split
  next hmay =>
    rcases h with h | h
    · simp [h] at hmay
    · rw [h]
      rfl
  · rfl

theorem makeChoice_some {p : Choice} (hr : s.running = true) (hu : s.sched.uplinkUp = true)
    (ht : s.sched.uplinkTx = none) (hc : choose s = some p) : makeChoice s = startChoice p s := by
  simp [makeChoice, mayChoose, hr, hu, ht, hc]

theorem managementPass_eq {e : TxEntry} (hp : s.sched.prioPause = none)
    (he : (s.mgmt.txList.find? fun x => x.port == .uplink) = some e) : managementPass s = some (.management e) := by
  simp [managementPass, Sched.paused, hp, he]

theorem managementPass_none (h : ∀ x ∈ s.mgmt.txList, x.port ≠ .uplink) : managementPass s = none := by
  unfold managementPass
  split
  · rfl
  · rw [Option.map_eq_none_iff, List.find?_eq_none]
    exact fun x hx => by simpa using h x hx

/-- The pass whose turn it is makes the choice (R71 to R74). -/
theorem choose_management_eq {p : Choice} (h : managementPass s = some p) : choose s = some p := by simp [choose, h]

theorem choose_prio {p : Choice} (hm : managementPass s = none) (h : creditedPass .prio s = some p) :
    choose s = some p := by simp [choose, hm, h]

theorem choose_bulk {p : Choice} (hm : managementPass s = none) (hp : creditedPass .prio s = none)
    (h : creditedPass .bulk s = some p) : choose s = some p := by simp [choose, hm, hp, h]

theorem choose_spare {p : Choice} (hm : managementPass s = none) (hp : creditedPass .prio s = none)
    (hb : creditedPass .bulk s = none) (h : sparePass s = some p) : choose s = some p := by simp [choose, hm, hp, hb, h]

theorem choose_cases {p : Choice} (h : choose s = some p) : managementPass s = some p ∨ creditedPass .prio s = some p
    ∨ creditedPass .bulk s = some p ∨ sparePass s = some p := by
  cases hm : managementPass s with
  | some q => exact .inl (by rw [← h, choose, hm]; rfl)
  | none =>
    cases hp : creditedPass .prio s with
    | some q => exact .inr (.inl (by rw [← h, choose, hm, hp]; rfl))
    | none =>
      cases hb : creditedPass .bulk s with
      | some q => exact .inr (.inr (.inl (by rw [← h, choose, hm, hp, hb]; rfl)))
      | none => exact .inr (.inr (.inr (by rw [← h, choose, hm, hp, hb]; rfl)))

theorem offers_iff (s : State) (n : LineNo) (c : Cls) :
    offers s n c = true ↔ (s.line n).upQueue c ≠ [] ∧ s.sched.paused c = false := by
  simp [offers]

section
variable {n : LineNo} {id : Nat} {rest : List Nat}

theorem exec_choice {p : Choice} (hr : s.running = true) (hu : s.sched.uplinkUp = true) (ht : s.sched.uplinkTx = none)
    (hc : choose s = some p) : exec .upstreamChoice s = .next (startChoice p s) :=
  congrArg Host.Outcome.next (makeChoice_some hr hu ht hc)

/-- A spare frame, the PRIO one of its line first (R74). -/
theorem exec_spare (c : Cls) (hr : s.running = true) (hu : s.sched.uplinkUp = true) (ht : s.sched.uplinkTx = none)
    (hnone : managementPass s = none ∧ creditedPass .prio s = none ∧ creditedPass .bulk s = none)
    (hspare : s.shares.spare = true ∧ 0 < s.sched.effective)
    (hb : ∀ k : LineNo, k < n - s.sched.sparePtr → ∀ d, offers s (s.sched.sparePtr + k) d = false)
    (hp : s.sched.paused c = false) (hfirst : c = .bulk → offers s n .prio = false)
    (hq : (s.line n).upQueue c = id :: rest) :
    ∃ t, exec .upstreamChoice s = .next t ∧ Departs n c rest s t ∧ (t.line n).credit = (s.line n).credit
      ∧ t.sched = { s.sched with sparePtr := n + 1, uplinkTx := some { recId := id, spare := true } } := by
  obtain ⟨hm, hprio, hbulk⟩ := hnone
  have ho : offers s n c = true := (offers_iff s n c).mpr ⟨by simp [hq], hp⟩
  have hpass : sparePass s = some (.spare n c) := by
    cases c with
    | prio => rw [sparePass_eq hspare.2 hspare.1 (.inl ho) hb, if_pos ho]
    | bulk => rw [sparePass_eq hspare.2 hspare.1 (.inr ho) hb, if_neg (by simp [hfirst rfl])]
  exact ⟨_, exec_choice hr hu ht (choose_spare hm hprio hbulk hpass), startSpare_departs hq⟩

end

theorem takeHead_transmits {n : LineNo} {c : Cls} (b : Bool) (h : (s.line n).upQueue c ≠ []) :
    (takeHead n c b s).sched.uplinkTx ≠ none := by
  obtain ⟨id, rest, hq⟩ := List.exists_cons_of_ne_nil h
  rw [(takeHead_departs b hq).2.2]
  simp

theorem creditedPass_queue {c : Cls} {p : Choice} (h : creditedPass c s = some p) :
    ∃ n, p = .credited n c ∧ (s.line n).upQueue c ≠ [] := by
  unfold creditedPass at h
  split at h
  · cases h
  · obtain ⟨n, hn, rfl⟩ := Option.map_eq_some_iff.mp h
    have := roundRobin_find_some hn
    exact ⟨n, rfl, by simp_all⟩

theorem sparePass_queue {p : Choice} (h : sparePass s = some p) :
    ∃ n c, p = .spare n c ∧ (s.line n).upQueue c ≠ [] := by
  unfold sparePass at h
  split at h
  · cases h
  · obtain ⟨n, hn, rfl⟩ := Option.map_eq_some_iff.mp h
    refine ⟨n, _, rfl, ?_⟩
    split
    next hp => exact ((offers_iff s n .prio).mp hp).1
    next hp =>
      have hb : offers s n .bulk = true := by simpa [hp] using roundRobin_find_some hn
      exact ((offers_iff s n .bulk).mp hb).1

theorem startCredited_transmits {n : LineNo} {c : Cls} (h : (s.line n).upQueue c ≠ []) :
    (startChoice (.credited n c) s).sched.uplinkTx ≠ none := by
  have hq : ((chargeHead n c s).line n).upQueue c ≠ [] := by
    unfold chargeHead
    split
    · exact h
    · rw [State.modLine_line_self]
      cases c <;> exact h
  have htx := takeHead_transmits false hq
  cases c <;> exact htx

/-- A choice made starts a transmission (R71). -/
theorem startChoice_transmits {p : Choice} (h : choose s = some p) : (startChoice p s).sched.uplinkTx ≠ none := by
  rcases choose_cases h with hm | hp | hb | hs
  · unfold managementPass at hm
    split at hm
    · cases hm
    · obtain ⟨e, -, rfl⟩ := Option.map_eq_some_iff.mp hm
      simp [startChoice]
  · obtain ⟨n, rfl, hq⟩ := creditedPass_queue hp
    exact startCredited_transmits hq
  · obtain ⟨n, rfl, hq⟩ := creditedPass_queue hb
    exact startCredited_transmits hq
  · obtain ⟨n, c, rfl, hq⟩ := sparePass_queue hs
    exact takeHead_transmits true hq

/-- A choice moves queue heads, pointers and the transmitter alone (R71 to R75). -/
def choiceKept (s t : State) : Prop :=
  t.sched.uplinkUp = s.sched.uplinkUp ∧ t.pool = s.pool ∧ t.counts = s.counts ∧ plantKept s t
    ∧ t.stations = s.stations ∧ t.shares = s.shares

theorem choiceKept.trans {u : State} (h : choiceKept s t) (k : choiceKept t u) : choiceKept s u := by
  obtain ⟨hup, hp, hc, ⟨⟨ha, hq⟩, hw⟩, hst, hs⟩ := h
  obtain ⟨kup, kp, kc, ⟨⟨ka, kq⟩, kw⟩, kst, ks⟩ := k
  exact ⟨kup.trans hup, kp.trans hp, kc.trans hc, ⟨⟨ka.trans ha, kq.trans hq⟩, kw.trans hw⟩, kst.trans hst, ks.trans hs⟩

theorem choiceKept.refl (s : State) : choiceKept s s := ⟨rfl, rfl, rfl, ⟨⟨rfl, rfl⟩, rfl⟩, rfl, rfl⟩

theorem takeHead_kept (n : LineNo) (c : Cls) (b : Bool) (s : State) : choiceKept s (takeHead n c b s) := by
  unfold takeHead
  split
  · exact .refl _
  · exact ⟨rfl, rfl, rfl, ⟨⟨rfl, rfl⟩, rfl⟩, rfl, rfl⟩

theorem chargeHead_kept (n : LineNo) (c : Cls) (s : State) : choiceKept s (chargeHead n c s) := by
  unfold chargeHead
  split
  · exact .refl _
  · exact ⟨rfl, rfl, rfl, ⟨⟨rfl, rfl⟩, rfl⟩, rfl, rfl⟩

theorem startChoice_kept (p : Choice) (s : State) : choiceKept s (startChoice p s) := by
  cases p with
  | management e => exact ⟨rfl, rfl, rfl, ⟨⟨rfl, rfl⟩, rfl⟩, rfl, rfl⟩
  | credited n c =>
    have h := (chargeHead_kept n c s).trans (takeHead_kept n c false _)
    cases c <;> exact h
  | spare n c => exact takeHead_kept n c true s

theorem makeChoice_kept (s : State) : choiceKept s (makeChoice s) := by
  unfold makeChoice
  split
  · cases choose s with
    | none => exact .refl _
    | some p => exact startChoice_kept p s
  · exact .refl _

theorem makeChoice_transmits (hr : s.running = true) (hu : s.sched.uplinkUp = true) (ht : s.sched.uplinkTx = none) :
    (makeChoice s).sched.uplinkTx = none ↔ choose s = none := by
  cases hc : choose s with
  | none => simp [makeChoice_none (.inr hc), ht]
  | some p => simpa [makeChoice_some hr hu ht hc] using startChoice_transmits hc

end

end Sys2Proof.Machine

namespace Sys2Proof
open Machine

/-- Settles O15: an advisory as a row or in a backhaul frame, and the hold expiry. -/
theorem capacitySource : Obligations.CapacitySource := by
  intro v h f s
  refine ⟨fun hpass hb hlen hkind => ?_, fun hrun => ?_, fun hh => ?_⟩
  · rw [exec_backhaul hpass hb]
    simp [backhaulFrame, hlen, hkind, exec, execCapacityAdvisory, hpass.2]
  · obtain ⟨hdev, hlost, hkept⟩ := takeAdvisory_counts v s
    exact ⟨takeAdvisory v s, by simp [exec, execCapacityAdvisory, hrun], takeAdvisory_shares v s,
      takeAdvisory_capacity v s, hdev, hlost, hkept, takeAdvisory_kept v s⟩
  · have hexec : exec .holdTimerExpiry s = .next (recompute (raise none (.advisoryLost s.shares.advised)
        (s.modShares fun x => { x with source := .lost, holdTimer := none }))) := by
      simp [exec, execHoldTimerExpiry, hh]
    refine ⟨_, hexec, ?_, ?_, ?_, recompute_linesKept (by simp), ?_, by simp [plantKept, testsKept], by simp, by simp, by simp⟩
    · rw [recompute_shares, raise_shares]
      rfl
    · rw [recompute_capacity, raise_shares]
      rfl
    · unfold flagged
      rw [recompute_counts]
      exact raise_flagged _ none (.advisoryLost _)
    · rw [recompute_sched]
      simp

/-- Settles O27: each pass takes the first line from its pointer that qualifies. -/
theorem upstreamChoice : Obligations.UpstreamChoice := by
  intro e n id rest r s
  refine ⟨fun h => ?_, fun hr hu ht => ⟨fun hp he => ?_, fun hp hnone heff hq hc hrec hb => ?_,
    fun hm hprio hp heff hq hc hrec hb => ?_, fun hm hprio hbulk hspare heff hb => ⟨fun hp hq => ?_, fun ho hp hq => ?_⟩,
    fun hm hprio hbulk hspare heff hbp hpp hempty hq hb => ?_⟩⟩
  · have hmay : mayChoose s = false := by
      rcases h with h | h | h
      · simp [mayChoose, h]
      · simp [mayChoose, Option.isNone_eq_false_iff.mpr h]
      · simp [mayChoose, h]
    exact congrArg Host.Outcome.next (makeChoice_none (.inl hmay))
  · exact exec_choice hr hu ht (choose_management_eq (managementPass_eq hp he))
  · have hq' : (s.line n).upQueue .prio = id :: rest := hq
    have hpass := creditedPass_eq (c := .prio) heff (by simp [Sched.paused, hp]) (by simp [hq']) hc hb
    obtain ⟨hd, hcredit, hsched⟩ := startCredited_departs hq' hrec
    exact ⟨_, exec_choice hr hu ht (choose_prio (managementPass_none hnone) hpass), hd.queue, hcredit, hd.idle,
      hd.lines, hd.pool, hd.counts, hd.mgmt, hsched⟩
  · have hq' : (s.line n).upQueue .bulk = id :: rest := hq
    have hpass := creditedPass_eq (c := .bulk) heff (by simp [Sched.paused, hp]) (by simp [hq']) hc hb
    obtain ⟨hd, hcredit, hsched⟩ := startCredited_departs hq' hrec
    exact ⟨_, exec_choice hr hu ht (choose_bulk hm hprio hpass), hd.queue, hcredit, hd.idle,
      hd.other .prio (by decide), hd.lines, hd.pool, hd.counts, hd.mgmt, hsched⟩
  · obtain ⟨t, hexec, hd, hcredit, hsched⟩ := exec_spare .prio hr hu ht ⟨hm, hprio, hbulk⟩ ⟨hspare, heff⟩ hb
      (by simp [Sched.paused, hp]) (by simp) hq
    exact ⟨t, hexec, hd.queue, hd.other .bulk (by decide), hcredit, hd.idle, hd.lines, hd.pool, hd.counts, hd.mgmt, hsched⟩
  · obtain ⟨t, hexec, hd, hcredit, hsched⟩ := exec_spare .bulk hr hu ht ⟨hm, hprio, hbulk⟩ ⟨hspare, heff⟩ hb
      (by simp [Sched.paused, hp]) (fun _ => ho) hq
    exact ⟨t, hexec, hd.queue, hd.other .prio (by decide), hcredit, hd.idle, hd.lines, hd.pool, hd.counts, hd.mgmt, hsched⟩
  · have hno : ∀ m d, (s.line m).prioQ = [] → (s.line m).bulkQ = [] → offers s m d = false := fun m d h₁ h₂ => by
      cases d
      · simp [offers, Line.upQueue, QueueKind.ofCls, Line.queue, h₁]
      · simp [offers, Line.upQueue, QueueKind.ofCls, Line.queue, h₂]
    have hprioNo : offers s n .prio = false := by simp [offers, Line.upQueue, QueueKind.ofCls, Line.queue, hempty]
    obtain ⟨t, hexec, hd, hcredit, hsched⟩ := exec_spare .bulk hr hu ht ⟨hm, hprio, hbulk⟩ ⟨hspare, heff⟩
      (fun k hk d => hno _ d (hb k hk).1 (hb k hk).2) (by simp [Sched.paused, hbp]) (fun _ => hprioNo) hq
    exact ⟨t, hexec, hd.queue, hcredit, hd.lines, hd.idle, hd.pool, hd.counts, hd.mgmt, hsched⟩

/-- Settles O28: the return of the link makes the choice, and its loss abandons the transmission. -/
theorem uplinkLink : Obligations.UplinkLink := by
  intro x e s
  refine ⟨rfl, ⟨_, rfl, ?_⟩, fun h => ?_, fun hr ht hp he => ?_, fun ht => ?_, fun ht => ?_⟩
  · obtain ⟨hup, hp, hc, hplant, hst, hs⟩ := makeChoice_kept (s.modSched fun c => { c with uplinkUp := true })
    refine ⟨hup, fun htx => ?_, fun htx hr => ?_, hp, hc, hplant, hst, hs⟩
    · have hbusy : mayChoose (s.modSched fun c => { c with uplinkUp := true }) = false := by
        simp [mayChoose, Option.isNone_eq_false_iff.mpr htx]
      rw [makeChoice_none (.inl hbusy)]
      rfl
    · exact makeChoice_transmits hr rfl htx
  · have hnone : mayChoose (s.modSched fun c => { c with uplinkUp := true }) = false
        ∨ choose (s.modSched fun c => { c with uplinkUp := true }) = none := by
      rcases h with h | h | h
      · have hrun : (s.modSched fun c => { c with uplinkUp := true }).running = false := h
        exact .inl (by simp [mayChoose, hrun])
      · exact .inl (by simp [mayChoose, Option.isNone_eq_false_iff.mpr h])
      · exact .inr h
    exact congrArg Host.Outcome.next (makeChoice_none hnone)
  · have hman : choose (s.modSched fun c => { c with uplinkUp := true }) = some (.management e) :=
      choose_management_eq (managementPass_eq hp he)
    exact congrArg Host.Outcome.next
      (makeChoice_some (s := s.modSched fun c => { c with uplinkUp := true }) hr rfl ht hman)
  · simp [exec, execUplinkLinkDown, ht, State.modSched]
  · have hdown : exec .uplinkLinkDown s = .next (countDev .transmitAborted (dropRef x.recId (s.modSched fun c =>
        { c with uplinkUp := false, uplinkTx := none, prioPause := none, bulkPause := none }))) := by
      simp [exec, execUplinkLinkDown, ht]
    refine ⟨_, hdown, ?_, ?_, ?_, ?_, ?_, ?_, fun hr => ?_, fun r hr => ?_⟩
    · simp
    · rw [countDev_dev, dropRef_devKept _ _ .transmitAborted (by decide)]
      rfl
    · exact (dropRef_countsSame _ _).1
    · simp
    · simp [plantKept, testsKept]
    · simp
    · rw [countDev_pool, dropRef_none (s.modSched _) _ hr]
      rfl
    · rw [countDev_pool, dropRef_free (s := s.modSched _) hr]
      rfl

end Sys2Proof
end

