-- ==== Sys2Proof/Proofs/Admission.lean ====
section
/-! PROOF. The admission of frames from the uplink to the lines (R28 to R30, R35 to R37), and the wake requests that they
make (R95, R168 to R170). -/

namespace Sys2Proof.Machine

section
variable {s t u : State}

/-! ## A grant, whatever else is listed -/

/-- The grant of an asleep line takes every entry of the line off the list (R169). -/
theorem enterCore_grant_removeWake {n : LineNo} {st : LineState} (hst : (s.line n).st = st) (ha : asleepState st = true) :
    enterCore n (grantState st) .wakeGranted (removeWake n s) = enterCore n (grantState st) .wakeGranted s := by
  subst hst
  have hflush : ∀ v : State, flush n { down := false, up := false, wake := false, hand := false, cause := .flush } v
      = v.modLine n (Flush.empty { down := false, up := false, wake := false, hand := false, cause := .flush }) :=
    fun _ => rfl
  have htwice : ∀ f, removeWake n ((removeWake n s).modLine n f) = removeWake n (s.modLine n f) := fun f => by
    simp [removeWake, State.modPower, State.modLine, List.filter_filter]
  unfold enterCore
  simp only [removeWake_line, grantState_ne _ ha, if_false, entryFlush_grant, ha, if_true, hflush, htwice]

theorem grantOne_granted_filter {e : WakeEntry} {rest : List WakeEntry} (hl : s.power.wakeList = e :: rest)
    (ha : asleepState (s.line e.line).st = true) :
    Granted e (rest.filter fun w => w.line != e.line) s (grantOne e s) := by
  have hsame : grantOne e s
      = grantOne e (s.modPower fun p => { p with wakeList := e :: rest.filter fun w => w.line != e.line }) := by
    unfold grantOne
    simp only [State.modPower_line, ha, if_true]
    rw [← enterCore_grant_removeWake (s := s.modPower fun p => { p with wakeList := p.wakeList.drop 1 }) (n := e.line)
      (st := (s.line e.line).st) rfl ha]
    simp [removeWake, State.modPower, hl]
  have g := grantOne_granted (s := s.modPower fun p => { p with wakeList := e :: rest.filter fun w => w.line != e.line })
    rfl ha (fun w hw => by simpa using (List.mem_filter.mp hw).2)
  rw [hsame]
  exact ⟨g.woken, g.awake, g.others, g.power, g.pool, g.counts, g.flags, g.raised⟩

/-- A grant leaves the lines and the entries of the others (R170). -/
theorem grantOne_other {e : WakeEntry} {rest : List WakeEntry} (hl : s.power.wakeList = e :: rest) :
    (∀ m, m ≠ e.line → ((grantOne e s).line m).apart = (s.line m).apart)
      ∧ ∀ w ∈ (grantOne e s).power.wakeList, w ∈ rest := by
  by_cases ha : asleepState (s.line e.line).st = true
  · have g := grantOne_granted_filter hl ha
    refine ⟨g.others, fun w hw => ?_⟩
    rw [g.power] at hw
    exact (List.mem_filter.mp hw).1
  · simp [grantOne, ha, hl]

theorem grants_other (k : Nat) (s : State) {m : LineNo} (h : ∀ w ∈ s.power.wakeList, w.line ≠ m) :
    ((grants k s).line m).apart = (s.line m).apart := by
  induction k generalizing s with
  | zero => rfl
  | succ k ih =>
    unfold grants
    split
    · rfl
    next e rest hl =>
      split
      · obtain ⟨hline, hsub⟩ := grantOne_other hl
        have hrest : ∀ w ∈ (grantOne e s).power.wakeList, w.line ≠ m := fun w hw => h w (by simp [hl, hsub w hw])
        rw [ih _ hrest, hline m (h e (by simp [hl])).symm]
      · rfl

theorem grantOne_kept (e : WakeEntry) (s : State) :
    testsKept s (grantOne e s) ∧ besideKept s (grantOne e s) ∧ (grantOne e s).stations = s.stations :=
  ⟨by simp [testsKept], (grantOne_moved e (.refl s)).beside, grantOne_stations s e⟩

/-- The count of awake lines after a grant (R167, R170). -/
theorem Granted.awakeCount {e : WakeEntry} {rest : List WakeEntry} (g : Granted e rest s t)
    (ha : asleepState (s.line e.line).st = true) : Machine.awakeCount t = Machine.awakeCount s + 1 := by
  have hch := awakeCount_change (s := s) (t := t) e.line fun m hm => apart_st (g.others m hm)
  rw [g.awake, asleep_not_awake ha] at hch
  simpa using hch

theorem grants_full (k : Nat) (h : awakeBudget s ≤ awakeCount s) : grants k s = s := by
  cases k with
  | zero => rfl
  | succ k =>
    unfold grants
    split
    · rfl
    · rw [if_neg (by omega)]

theorem grants_empty (k : Nat) (h : s.power.wakeList = []) : grants k s = s := by
  cases k with
  | zero => rfl
  | succ k => simp [grants, h]

theorem grants_step {e : WakeEntry} {rest : List WakeEntry} (k : Nat) (hl : s.power.wakeList = e :: rest)
    (h : awakeCount s < awakeBudget s) : grants (k + 1) s = grants k (grantOne e s) := by
  rw [grants, hl]
  exact if_pos h

/-! ## A wake request -/

/-- A request of a line that waits for none joins the list (R169). -/
def askedWake (n : LineNo) (c : WakeCause) (s : State) : State :=
  s.modPower fun p => { p with wakeList := p.wakeList ++ [{ line := n, cause := c, time := s.mgmt.time }] }

theorem wakeRequest_listed {n : LineNo} (c : WakeCause) (h : ∃ w ∈ s.power.wakeList, w.line = n) :
    wakeRequest n c s = s := by
  obtain ⟨w, hw, rfl⟩ := h
  rw [wakeRequest, if_pos (List.any_eq_true.mpr ⟨w, hw, by simp⟩)]

theorem wakeRequest_asked {n : LineNo} (c : WakeCause) (h : ∀ w ∈ s.power.wakeList, w.line ≠ n) :
    wakeRequest n c s = grantAll (askedWake n c s) := by
  rw [wakeRequest, if_neg (by simpa using h)]
  rfl

theorem askedWake_counts (n : LineNo) (c : WakeCause) (s : State) :
    awakeCount (askedWake n c s) = awakeCount s ∧ awakeBudget (askedWake n c s) = awakeBudget s :=
  ⟨awakeCount_congr fun _ => rfl, awakeBudget_congr rfl⟩

/-- A wake request: listed already, listed without room, or granted with the oldest in the room there is (R168 to R170). -/
theorem wakeRequest_taken (n : LineNo) (c : WakeCause) (u : State) : wakeTaken n c u (wakeRequest n c u) := by
  refine ⟨fun h => wakeRequest_listed c h, fun h => ?_⟩
  obtain ⟨hcount, hbudget⟩ := askedWake_counts n c u
  rw [wakeRequest_asked c h, grantAll]
  refine ⟨fun hfull => ?_, fun hroom hempty ha => ?_, fun w rest hl ha => ⟨fun hroom => ?_, fun hlast => ?_⟩⟩
  · exact grants_full _ (by rw [hcount, hbudget]; exact hfull)
  · have hl : (askedWake n c u).power.wakeList = [{ line := n, cause := c, time := u.mgmt.time }] := by
      simp [askedWake, hempty]
    have g := grantOne_granted_filter hl ha
    obtain ⟨htests, hbeside, hstations⟩ := grantOne_kept { line := n, cause := c, time := u.mgmt.time } (askedWake n c u)
    rw [hl, List.length_singleton, grants_step 0 hl (by rw [hcount, hbudget]; exact hroom), grants]
    refine ⟨g.woken, g.others, ?_, htests, hbeside, g.pool, hstations, (g.awakeCount ha).trans (by rw [hcount]), g.raised⟩
    rw [g.power]
    change { u.power with wakeList := [] } = u.power
    rw [← hempty]
  · have hl' : (askedWake n c u).power.wakeList = w :: (rest ++ [{ line := n, cause := c, time := u.mgmt.time }]) := by
      simp [askedWake, hl]
    have g := grantOne_granted_filter hl' ha
    rw [hl', List.length_cons, grants_step _ hl' (by rw [hcount, hbudget]; exact hroom)]
    have hgone : ∀ x ∈ (grantOne w (askedWake n c u)).power.wakeList, x.line ≠ w.line := by
      rw [g.power]
      exact fun x hx => by simpa using (List.mem_filter.mp hx).2
    exact Line.wokenFrom_congr rfl (grants_other _ _ hgone).symm rfl rfl g.woken
  · have hl' : (askedWake n c u).power.wakeList = w :: (rest ++ [{ line := n, cause := c, time := u.mgmt.time }]) := by
      simp [askedWake, hl]
    have g := grantOne_granted_filter hl' ha
    obtain ⟨htests, hbeside, hstations⟩ := grantOne_kept w (askedWake n c u)
    have hnow : awakeBudget (grantOne w (askedWake n c u)) ≤ awakeCount (grantOne w (askedWake n c u)) := by
      rw [g.awakeCount ha, awakeBudget_congr (s := u) (by rw [g.power]; rfl), hcount]
      omega
    rw [hl', List.length_cons, grants_step _ hl' (by rw [hcount, hbudget]; omega), grants_full _ hnow]
    refine ⟨g.others, htests, hbeside, g.pool, hstations, ?_⟩
    have hne : n ≠ w.line := (h w (by simp [hl])).symm
    rw [g.power]
    simp [askedWake, List.filter_append, hne]

theorem wakeOnDownAllowed_congr {n : LineNo} (hp : t.power = s.power) (hc : (t.line n).cfg = (s.line n).cfg) :
    wakeOnDownAllowed t n = wakeOnDownAllowed s n := by
  simp [wakeOnDownAllowed, currentPolicy, hp, hc]

/-! ## Frames admitted -/

section
variable {f : List Byte} {n : LineNo}

/-- A record made, but for the flags and the notices of POOL_LOW (R33, R36). -/
theorem makeRecord_kept (r : FrameRec) (s : State) :
    plantKept s (makeRecord r s) ∧ besideKept s (makeRecord r s) ∧ (makeRecord r s).stations = s.stations :=
  ⟨by simp [plantKept, testsKept], (makeRecord_moved r (.refl s)).beside, by simp⟩

theorem pushQueue_kept (n : LineNo) (k : QueueKind) (id : Nat) (s : State) :
    plantKept s (pushQueue n k id s) ∧ besideKept s (pushQueue n k id s) ∧ (pushQueue n k id s).stations = s.stations :=
  ⟨⟨⟨rfl, rfl⟩, rfl⟩, (pushQueue_moved n k id (.refl s)).beside, rfl⟩

theorem plantKept.trans (h : plantKept s t) (k : plantKept t u) : plantKept s u := by
  obtain ⟨⟨ha, hq⟩, hw⟩ := h
  obtain ⟨⟨ka, kq⟩, kw⟩ := k
  exact ⟨⟨ka.trans ha, kq.trans hq⟩, kw.trans hw⟩

/-- A frame from the uplink at the tail of a line's downstream queue (R37). -/
theorem pushed_down (n : LineNo) (f : List Byte) (s : State) :
    let t := pushQueue n .down s.pool.nextId (makeRecord (downRecord f 1) s)
    t.line n = { s.line n with downQ := (s.line n).downQ ++ [s.pool.nextId], idle := none }
      ∧ (∀ m, m ≠ n → t.line m = s.line m) ∧ plantKept s t ∧ besideKept s t ∧ t.stations = s.stations
      ∧ t.pool.recs = s.pool.recs ++ [(s.pool.nextId, { bytes := f, cls := none, origin := .uplink, refs := 1 })]
      ∧ t.pool.free = s.pool.free - cellsFor f.length := by
  obtain ⟨hplant, hbeside, hst⟩ := makeRecord_kept (downRecord f 1) s
  obtain ⟨kplant, kbeside, kst⟩ := pushQueue_kept n .down s.pool.nextId (makeRecord (downRecord f 1) s)
  obtain ⟨hfree, hrecs, -⟩ := makeRecord_pool s (downRecord f 1)
  refine ⟨?_, fun m hm => ?_, hplant.trans kplant, hbeside.trans kbeside, kst.trans hst, hrecs, hfree⟩
  · rw [pushQueue_line_self, makeRecord_line]
    rfl
  · rw [pushQueue_line_other _ _ _ _ hm, makeRecord_line]

/-- A frame from the uplink in the wake store of a DORMANT line (R29). -/
theorem stored_wake (n : LineNo) (f : List Byte) (s : State) :
    let t := (makeRecord (downRecord f 1) s).modLine n fun l => { l with wakeStore := some s.pool.nextId }
    t.line n = { s.line n with wakeStore := some s.pool.nextId }
      ∧ (∀ m, m ≠ n → t.line m = s.line m) ∧ plantKept s t ∧ besideKept s t ∧ t.stations = s.stations
      ∧ t.pool.recs = s.pool.recs ++ [(s.pool.nextId, { bytes := f, cls := none, origin := .uplink, refs := 1 })]
      ∧ t.pool.free = s.pool.free - cellsFor f.length := by
  obtain ⟨hplant, hbeside, hst⟩ := makeRecord_kept (downRecord f 1) s
  obtain ⟨hfree, hrecs, -⟩ := makeRecord_pool s (downRecord f 1)
  refine ⟨?_, fun m hm => ?_, hplant, hbeside, hst, hrecs, hfree⟩
  · rw [State.modLine_line_self, makeRecord_line]
  · rw [State.modLine_line_other _ _ hm, makeRecord_line]

theorem toWakeStore_stored (hwake : wakeOnDownAllowed s n = true) (hw : (s.line n).wakeStore = none)
    (hp : poolCheck s (cellsFor f.length) = true) : toWakeStore n f s = wakeRequest n .downstream
      ((makeRecord (downRecord f 1) s).modLine n fun l => { l with wakeStore := some s.pool.nextId }) := by
  have hp' : poolCheck s (downRecord f 1).cells = true := hp
  simp [toWakeStore, hwake, hw, hp']

/-- A frame queued for a QUIET line makes its request where wake on downstream is allowed (R28, R95). -/
theorem decideUnicast_quiet (hst : (s.line n).st = .quiet) (hp : poolCheck s (cellsFor f.length) = true)
    (hq : queueRoom s n .down (cellsFor f.length) = true) : decideUnicast n f s =
      if wakeOnDownAllowed s n = true then
        wakeRequest n .downstream (pushQueue n .down s.pool.nextId (makeRecord (downRecord f 1) s))
      else pushQueue n .down s.pool.nextId (makeRecord (downRecord f 1) s) := by
  have hp' : poolCheck s (downRecord f 1).cells = true := hp
  have hq' : queueRoom s n .down (downRecord f 1).cells = true := hq
  obtain ⟨hline, -, hplant, -⟩ := pushed_down n f s
  have hallowed := wakeOnDownAllowed_congr (n := n) hplant.2 (by rw [hline])
  rw [decideUnicast, hst]
  simp only [accepts, hp', hq', Bool.and_self, Bool.true_and, queueFrame_admitted n .down .downPoolFull .downQueueFull _ s hp' hq',
    hallowed]

theorem offerNotice_noticed (x : Option LineNo) (d : Detail) (h : s.counts.notices.length < Config.noticePlaces) :
    ∃ y ∈ (offerNotice x d s).counts.notices, y.subject = x ∧ y.detail = d := by
  unfold offerNotice
  split
  next hany =>
    obtain ⟨y, hy, hof⟩ := List.any_eq_true.mp hany
    refine ⟨y.coalesce x d s.mgmt.time, List.mem_map_of_mem hy, ?_⟩
    rw [Notice.coalesce, if_pos hof]
    simp only [Notice.isOf, Bool.and_eq_true, beq_iff_eq] at hof
    exact ⟨hof.1, rfl⟩
  · exact ⟨_, List.mem_append_right _ (List.mem_singleton_self _), rfl, rfl⟩

/-- An event with its notice enabled and a place free leaves a notice with its details (R199, R201). -/
theorem raise_noticed {x : Option LineNo} {d : Detail} (hon : (s.counts.settings.get d.kind.idx).enabled = true)
    (hman : s.mgmt.manager.isSome = true) (hroom : s.counts.notices.length < Config.noticePlaces) :
    ∃ y ∈ (raise x d s).counts.notices, y.subject = x ∧ y.detail = d := by
  unfold raise
  dsimp only
  rw [if_pos (by simp [hon, hman])]
  exact offerNotice_noticed x d hroom

/-- The recipients that refuse are counted, and nothing else changes (R30). -/
theorem refusals_kept (no : List LineNo) (s : State) :
    let t := no.foldl (fun u n => countDrop n .downQueueFull u) s
    t.pool = s.pool ∧ t.lines = s.lines ∧ plantKept s t ∧ besideKept s t ∧ t.stations = s.stations := by
  refine ⟨foldl_keeps State.pool _ (fun _ _ => countDrop_pool _ _ _) no s,
    foldl_keeps State.lines _ (fun _ _ => countDrop_lines _ _ _) no s,
    ⟨⟨foldl_keeps State.access _ (fun _ _ => countDrop_access _ _ _) no s,
      foldl_keeps State.seq _ (fun _ _ => countDrop_seq _ _ _) no s⟩,
      foldl_keeps State.power _ (fun _ _ => countDrop_power _ _ _) no s⟩,
    (foldl_holds (Moved s) _ (fun _ _ hu => countDrop_moved _ _ hu) no s (.refl s)).beside,
    foldl_keeps State.stations _ (fun _ _ => countDrop_stations _ _ _) no s⟩

/-- One number at the tail of the downstream queue of each recipient that accepts (R30). -/
theorem pushQueues_kept {yes : List LineNo} (id : Nat) (hnd : yes.Nodup) (s : State) :
    let t := yes.foldl (fun u n => pushQueue n .down id u) s
    (∀ n ∈ yes, t.line n = { s.line n with downQ := (s.line n).downQ ++ [id], idle := none })
      ∧ (∀ n, n ∉ yes → t.line n = s.line n)
      ∧ t.pool = s.pool ∧ t.counts = s.counts ∧ plantKept s t ∧ besideKept s t ∧ t.stations = s.stations := by
  obtain ⟨-, hpool, hcounts⟩ := pushQueues_holders .down id yes s
  exact ⟨fun n hn => foldl_line_self (f := fun u n => pushQueue n .down id u)
      (R := fun a b => b = { a with downQ := a.downQ ++ [id], idle := none })
      (fun u n => pushQueue_line_self n .down u id) (fun u n m hm => pushQueue_line_other n .down u id hm) hnd hn s,
    fun n hn => foldl_line_other (f := fun u n => pushQueue n .down id u)
      (fun u n m hm => pushQueue_line_other n .down u id hm) hn s,
    hpool, hcounts,
    foldl_holds (plantKept s) _ (fun u n hu => hu.trans (pushQueue_kept n .down id u).1) yes s ⟨⟨rfl, rfl⟩, rfl⟩,
    (foldl_holds (Moved s) _ (fun u n hu => pushQueue_moved n .down id hu) yes s (.refl s)).beside,
    foldl_keeps State.stations (fun u n => pushQueue n .down id u) (fun _ _ => rfl) yes s⟩

/-- POOL_LOW is raised with its notice where the making leaves fewer than 128 cells free in an armed pool (R36). -/
theorem makeRecord_poolLow {r : FrameRec} (hlow : s.pool.free - r.cells < 128) (ha : s.pool.armed = true) :
    (makeRecord r s).pool.armed = false ∧ flagged (makeRecord r s) .poolLow
      ∧ ((s.counts.settings.get EventKind.poolLow.idx).enabled = true → s.mgmt.manager.isSome = true →
        s.counts.notices.length < 32 →
        ∃ x ∈ (makeRecord r s).counts.notices, x.subject = none ∧ x.detail = .poolLow (s.pool.free - r.cells)) := by
  refine ⟨by rw [makeRecord_armed, if_pos hlow], makeRecord_flagged r s hlow ha, fun hon hman hroom => ?_⟩
  have hlow' : s.pool.free - r.cells < Config.poolLowMark := hlow
  simp only [makeRecord, setFree, hlow', if_true, State.modPool_pool, ha]
  exact raise_noticed hon hman hroom

/-- A making that leaves 128 cells free, or an unarmed pool, raises nothing (R36). -/
theorem makeRecord_quiet {r : FrameRec} (h : 128 ≤ s.pool.free - r.cells ∨ s.pool.armed = false) :
    (makeRecord r s).counts = s.counts
      ∧ (makeRecord r s).pool.armed = (if 256 ≤ s.pool.free - r.cells then true else s.pool.armed) := by
  have hcounts : (makeRecord r s).counts = s.counts := by
    by_cases hlow : s.pool.free - r.cells < Config.poolLowMark
    · have ha : s.pool.armed = false := h.resolve_left (not_le.mpr hlow)
      simp [makeRecord, setFree, hlow, ha]
    · simp only [makeRecord, setFree, hlow, if_false]
      split <;> rfl
  refine ⟨hcounts, ?_⟩
  rw [makeRecord_armed]
  split
  next hlow => rw [h.resolve_left (not_le.mpr hlow), if_neg (by omega)]
  · rfl

end

end

end Sys2Proof.Machine

namespace Sys2Proof
open Machine

/-- Settles O10: the record at the tail of the queue, and POOL_LOW by the cells it leaves free. -/
theorem unicastToUpLine : Obligations.UnicastToUpLine := by
  intro f e s h hg he hv hup
  have hexec : exec (.uplinkFrameReceived f) s
      = .next (queueFrame e.line .down .downPoolFull .downQueueFull (downRecord f 1) s) := by
    rw [exec_unicast h hg he hv, decideUnicast, hup]
  refine ⟨fun hp hq => ?_, fun hp => ?_, fun hp hq => ?_⟩
  · obtain ⟨hline, hothers, hplant, hbeside, hst, hrecs, hfree⟩ := pushed_down e.line f s
    refine ⟨_, by rw [hexec, queueFrame_admitted _ _ _ _ _ _ hp hq], hline, hothers, hrecs, hfree, hst, hplant, hbeside,
      fun hlow ha => ?_, fun hquiet => ?_⟩
    · rw [hfree] at hlow ⊢
      exact makeRecord_poolLow hlow ha
    · rw [hfree] at hquiet ⊢
      exact makeRecord_quiet hquiet
  · rw [hexec, queueFrame_poolFull _ _ _ _ _ _ hp]
  · rw [hexec, queueFrame_queueFull _ _ _ _ _ _ hp hq]

/-- Settles O11: the wake store or the queue takes the frame, and the request is `wakeRequest_taken`. -/
theorem unicastToDormantLine : Obligations.UnicastToDormantLine := by
  intro f e u s h hg he hv
  have hexec := exec_unicast h hg he hv
  refine ⟨fun hst hno => ?_, fun hst hwake => ⟨fun hw hp hfull hlist => ?_, fun hw => ?_, fun hw hp => ?_, fun hw hp hu => ?_⟩,
    fun hst => ⟨fun hp => ?_, fun hp hq => ?_, fun hp hq hu => ⟨fun hno => ?_, fun hwake => ?_, ?_⟩⟩⟩
  · simp [hexec, decideUnicast, hst, toWakeStore, hno]
  · obtain ⟨hline, hothers, hplant, hbeside, hsta, hrecs, hfree⟩ := stored_wake e.line f s
    obtain ⟨-, hasked⟩ := wakeRequest_taken e.line .downstream
      ((makeRecord (downRecord f 1) s).modLine e.line fun l => { l with wakeStore := some s.pool.nextId })
    have hexec' : exec (.uplinkFrameReceived f) s = .next (wakeRequest e.line .downstream
        ((makeRecord (downRecord f 1) s).modLine e.line fun l => { l with wakeStore := some s.pool.nextId })) := by
      rw [hexec, decideUnicast, hst]
      exact congrArg Host.Outcome.next (toWakeStore_stored hwake hw hp)
    generalize (makeRecord (downRecord f 1) s).modLine e.line (fun l => { l with wakeStore := some s.pool.nextId }) = v at *
    have hcount : awakeCount v = awakeCount s := awakeCount_congr fun m => by
      by_cases hm : m = e.line
      · rw [hm, hline]
      · rw [hothers m hm]
    obtain ⟨hlisted, -⟩ := hasked (by rwa [hplant.2])
    have hbudget : awakeBudget v = awakeBudget s := awakeBudget_congr (by rw [hplant.2])
    have ht := hlisted (by rwa [hcount, hbudget])
    obtain ⟨-, -, -, -, hmgmt, -⟩ := hbeside
    rw [ht, hplant.2, hmgmt] at hexec'
    exact ⟨_, hexec', hline, hothers, rfl, hfree, hrecs⟩
  · simp [hexec, decideUnicast, hst, toWakeStore, hwake, hw]
  · have hp' : poolCheck s (downRecord f 1).cells = false := hp
    simp [hexec, decideUnicast, hst, toWakeStore, hwake, hw, hp']
  · subst hu
    obtain ⟨hline, hothers, hplant, hbeside, hsta, hrecs, -⟩ := stored_wake e.line f s
    refine ⟨⟨_, ?_, wakeRequest_taken _ _ _⟩, hline, hothers, hplant, hbeside, hsta, hrecs⟩
    rw [hexec, decideUnicast, hst]
    exact congrArg Host.Outcome.next (toWakeStore_stored hwake hw hp)
  · have hp' : poolCheck s (downRecord f 1).cells = false := hp
    simp [hexec, decideUnicast, hst, accepts, hp', queueFrame]
  · have hp' : poolCheck s (downRecord f 1).cells = true := hp
    have hq' : queueRoom s e.line .down (downRecord f 1).cells = false := hq
    simp [hexec, decideUnicast, hst, accepts, hp', hq', queueFrame]
  · rw [hexec, decideUnicast_quiet hst hp hq, if_neg (by simp [hno]), hu]
  · exact ⟨_, by rw [hexec, decideUnicast_quiet hst hp hq, if_pos hwake, ← hu], wakeRequest_taken _ _ _⟩
  · rw [hu]
    exact pushed_down e.line f s

/-- Settles O13: one record, a reference for each recipient that accepts, and a count for each that refuses. -/
theorem broadcastReplicated : Obligations.BroadcastReplicated := by
  intro f rs yes s h hg hrs hyes
  have hrs' : recipients s f = rs := by
    rw [hrs, recipients]
    congr 1
  have hexec : exec (.uplinkFrameReceived f) s = .next (replicate f s) := by rw [exec_traffic h, if_pos hg]
  refine ⟨fun hnone => ?_, fun hsome hp => ?_, fun hsome hempty hp => ?_, fun hne hp => ?_⟩
  · simp [hexec, replicate, hrs', hnone]
  · simp [hexec, replicate, hrs', hsome, hp]
  · have hno : rs.filter (fun n => !queueRoom s n .down (cellsFor f.length)) = rs := by
      rw [hyes, List.filter_eq_nil_iff] at hempty
      exact List.filter_eq_self.mpr fun n hn => by simpa using hempty n hn
    rw [hexec, replicate, hrs', hno, ← hyes, hempty]
    simp [hsome, hp]
  · have hrefuse : rs.filter (fun n => !yes.contains n) = rs.filter fun n => !queueRoom s n .down (cellsFor f.length) :=
      List.filter_congr fun n hn => by simp [hyes, hn]
    have hsome : rs ≠ [] := by
      rintro rfl
      simp [hyes] at hne
    have hnodup : yes.Nodup := by
      rw [hyes, hrs]
      exact ((List.nodup_finRange 24).filter _).filter _
    rw [hrefuse]
    have hexec' : exec (.uplinkFrameReceived f) s = .next (yes.foldl
        (fun u n => pushQueue n .down ((rs.filter fun n => !queueRoom s n .down (cellsFor f.length)).foldl
          (fun u n => countDrop n .downQueueFull u) s).pool.nextId u)
        (makeRecord (downRecord f yes.length) ((rs.filter fun n => !queueRoom s n .down (cellsFor f.length)).foldl
          (fun u n => countDrop n .downQueueFull u) s))) := by
      rw [hexec, replicate, hrs']
      simp [← hyes, hsome, hne, hp]
    obtain ⟨hpool, hlines, hplant, hbeside, hst⟩ :=
      refusals_kept (rs.filter fun n => !queueRoom s n .down (cellsFor f.length)) s
    refine ⟨_, hexec', ?_⟩
    generalize (rs.filter fun n => !queueRoom s n .down (cellsFor f.length)).foldl
      (fun u n => countDrop n .downQueueFull u) s = v at *
    obtain ⟨mplant, mbeside, mst⟩ := makeRecord_kept (downRecord f yes.length) v
    obtain ⟨mfree, mrecs, -⟩ := makeRecord_pool v (downRecord f yes.length)
    obtain ⟨pin, pout, ppool, pcounts, pplant, pbeside, pst⟩ :=
      pushQueues_kept v.pool.nextId hnodup (makeRecord (downRecord f yes.length) v)
    obtain ⟨htotal, hsets⟩ : countsSame v (makeRecord (downRecord f yes.length) v) := setFree_countsSame _ (v.modPool _)
    have hline : ∀ n, (makeRecord (downRecord f yes.length) v).line n = s.line n := fun n => by
      rw [makeRecord_line, State.line_of_lines hlines]
    refine ⟨fun w hw => ?_, ?_, ?_, fun n hn => ?_, fun n hn => ?_, ?_, (hplant.trans mplant).trans pplant,
      (hbeside.trans mbeside).trans pbeside⟩
    · rw [hw, pcounts]
      exact ⟨htotal, hsets⟩
    · rw [ppool, mrecs, hpool]
      rfl
    · rw [ppool, mfree, hpool]
      rfl
    · rw [pin n hn, hline, hpool]
    · rw [pout n hn, hline]
    · rw [pst, mst, hst]

end Sys2Proof

end

