-- ==== Sys2Proof/Proofs/TimersAndDrains.lean ====
section
/-! PROOF. The idle and the dormant timer (R93, R94), and the events that end a drain (R98, R99, R138). -/

namespace Sys2Proof.Machine

section
variable {s t : State} {n : LineNo}

/-- Grants store no frame and let none go (R39). -/
theorem grantOne_pool (e : WakeEntry) (s : State) : (grantOne e s).pool = s.pool := by
  unfold grantOne
  dsimp only
  split
  next ha =>
    have hne := grantState_ne _ ha
    obtain ⟨u, hu, -, -, hpool⟩ := enterCore_eq e.line (grantState (s.line e.line).st) .wakeGranted
      (s.modPower fun p => { p with wakeList := p.wakeList.drop 1 }) hne
    rw [recomputeIf_pool, hu, lineStateEvent_pool, hpool]
    rw [show ((s.modPower fun p => { p with wakeList := p.wakeList.drop 1 }).line e.line).st = (s.line e.line).st from rfl,
      entryFlush_grant]
    rfl
  · rfl

theorem grants_pool (k : Nat) (s : State) : (grants k s).pool = s.pool := by
  induction k generalizing s with
  | zero => rfl
  | succ k ih =>
    unfold grants
    split
    · rfl
    · split
      · rw [ih, grantOne_pool]
      · rfl

/-- An entry that flushes nothing keeps the pool (R39). -/
theorem enter_pool {new : LineState} {r : Reason} (h : (entryFlush (s.line n).st new r).refs (s.line n) = []) :
    (enter n new r s).pool = s.pool := by
  have hcore : (enterCore n new r s).pool = s.pool := by
    by_cases hne : (s.line n).st = new
    · rw [enterCore_of_eq n new r s hne]
    · obtain ⟨u, hu, -, -, hpool⟩ := enterCore_eq n new r s hne
      rw [hu, lineStateEvent_pool, hpool, flush, h]
      rfl
  unfold enter
  dsimp only
  split
  · rw [grantAll, grants_pool, recomputeIf_pool, hcore]
  · rw [recomputeIf_pool, hcore]

theorem enter_testsKept (n : LineNo) (new : LineState) (r : Reason) (s : State) : testsKept s (enter n new r s) := by
  simp [testsKept]

theorem Line.entered_quiet {s : State} {l : Line} (h : l.st = .up) : l.entered s .quiet .idle =
    { l with
      st := .quiet, ready := false, quietFor := some 0, command := some .lowPower, idle := none
      wakeTimer := none, wakePending := false, takenFrom := none } := by
  simp [Line.entered, h, entryFlush, Flush.empty, leaveState, enterState, entryCommand, Line.idleHolds]

theorem Line.entered_dormant {s : State} {l : Line} (h : l.st = .quiet) : l.entered s .dormant .dormantDelay =
    { l with
      st := .dormant, ready := false, downRate := 0, upRate := 0, quietFor := none, command := some .off
      downQ := [], idle := none, takenFrom := none } := by
  simp [Line.entered, h, entryFlush, Flush.empty, leaveState, enterState, entryCommand, Line.idleHolds]

theorem exec_idleTimer (hst : (s.line n).st = .up) (hi : (s.line n).idle.isSome = true) (hq : (s.line n).cfg.quietDelay ≠ 0) :
    exec (.idleTimerExpiry n) s = .next (enter n .quiet .idle s) := by
  have hquiet : (effectiveQuiet (currentPolicy s) (s.line n)).isSome = true := by
    rw [effectiveQuiet, if_neg hq]
    split <;> rfl
  simp [exec, execIdleTimerExpiry, hst, hi, hquiet]

/-! ## The end of a drain -/

/-- The held report of a line whose test waits for it (R138, R151). -/
theorem heldReport_of_test {a : Activity} (hact : s.seq.act = some a) (ho : a.origin ≠ .external)
    (hst : s.seq.st = .drainingWait) :
    heldReport s = if s.seq.extreq = true then suspendSeq s else connectStep a.line s := by
  simp [heldReport, hact, ho, hst, boundary]

theorem suspendSeq_seq {a : Activity} (hact : s.seq.act = some a) : (suspendSeq s).seq = { s.seq with
    st := .suspended, extack := true, suspended := true
    suspendTimer := some (s.seq.suspendLimit * 1000), act := some { a with interrupted := true } } := by
  simp [suspendSeq, hact]

theorem suspendSeq_counts (s : State) :
    countsSame s (suspendSeq s) ∧ flagsKept s (suspendSeq s) ∧ flagged (suspendSeq s) .external := by
  have hc := raise_countsSame s.lineUnderTest (.external true) s
  have hk := raise_flagsKept s.lineUnderTest (.external true) s
  have hf := raise_flagged s s.lineUnderTest (.external true)
  unfold suspendSeq
  dsimp only
  split
  · exact ⟨hc, hk, hf⟩
  · exact ⟨hc, hk, hf⟩

theorem boundary_counts {k : State → State} (h : countsSame s (k s) ∧ flagsKept s (k s)) :
    countsSame s (boundary k s) ∧ flagsKept s (boundary k s) := by
  unfold boundary
  split
  · obtain ⟨hc, hk, -⟩ := suspendSeq_counts s
    exact ⟨hc, hk⟩
  · exact h

theorem heldReport_counts (s : State) : countsSame s (heldReport s) ∧ flagsKept s (heldReport s) := by
  have hconnect : ∀ m, countsSame s (connectStep m s) ∧ flagsKept s (connectStep m s) := fun m =>
    ⟨.of_eq (by simp), .of_eq (by simp)⟩
  unfold heldReport
  split
  · exact ⟨.refl s, .refl s⟩
  · split
    · split
      · exact hconnect _
      · exact boundary_counts (hconnect _)
    · exact ⟨.refl s, .refl s⟩

theorem Line.entered_held {s : State} {l : Line} {r : Reason} (h : l.st = .draining) (hr : r ≠ .shed) :
    l.entered s .held r = { l with
      st := .held, downRate := 0, upRate := 0, ready := false, command := some .off, drainTimer := none
      downQ := [], prioQ := [], bulkQ := [], handOff := none, idle := none } := by
  simp [Line.entered, h, hr, entryFlush, Flush.empty, leaveState, enterState, entryCommand, Line.idleHolds]

/-- A line that ends its drain, with the report that follows (R44, R99). -/
theorem drained_held {r : Reason} (hw : WakesListed s) (hst : (s.line n).st = .draining) (hr : r ≠ .shed) :
    let t := heldReport (enter n .held r s)
    (t.line n).apart = { (s.line n).apart with
        st := .held, downRate := 0, upRate := 0, ready := false, command := some .off, drainTimer := none
        downQ := [], prioQ := [], bulkQ := [], handOff := none, idle := none }
      ∧ t.stations = s.stations ∧ roomTaken n s t ∧ besideKept s t ∧ (s.running = true → flagged t .lineState)
      ∧ dropsCounted .flush [(n, (s.line n).downQ.length + (s.line n).prioQ.length + (s.line n).bulkQ.length
          + (s.line n).handOff.toList.length)] s t := by
  have hne : (s.line n).st ≠ .held := by rw [hst]; decide
  have E := enter_entered (r := r) hw hne rfl
  have hflush : entryFlush (s.line n).st .held r =
      { down := true, up := true, wake := false, hand := true, cause := .flush } := by simp [hst, hr, entryFlush]
  have hcounted := E.counted
  rw [hflush] at hcounted
  have hlen : (Flush.refs { down := true, up := true, wake := false, hand := true, cause := .flush } (s.line n)).length
      = (s.line n).downQ.length + (s.line n).prioQ.length + (s.line n).bulkQ.length
        + (s.line n).handOff.toList.length := by simp [Flush.refs, Nat.add_assoc]
  rw [hlen] at hcounted
  obtain ⟨hsame, hflags⟩ := heldReport_counts (enter n .held r s)
  have hline : ∀ m, (heldReport (enter n .held r s)).line m = (enter n .held r s).line m :=
    State.line_of_lines (heldReport_lines _)
  refine ⟨?_, ?_, ?_, (heldReport_moved (enter_moved n _ _ (.refl s))).beside, fun hrun => hflags _ (E.raised hrun),
    hcounted.congr (.refl s) hsame fun _ => rfl⟩
  · rw [hline, E.line, Line.entered_held hst hr]
    rfl
  · rw [heldReport_stations, enter_stations, enterCore_stations n _ _ s hne]
    rfl
  · have hroom := E.room
    unfold roomTaken at hroom ⊢
    simpa [hline] using hroom

end

end Sys2Proof.Machine

namespace Sys2Proof
open Machine

/-- Settles O24: an entry to QUIET that flushes nothing, and one to DORMANT that flushes the downstream queue. -/
theorem idleAndDormantTimers : Obligations.IdleAndDormantTimers := by
  intro n s hrun hw
  refine ⟨fun hst hi hq => ?_, fun hq => ?_, fun hst hd => ?_, fun hd => ?_⟩
  · have hne : (s.line n).st ≠ .quiet := by rw [hst]; decide
    have E := enter_entered (r := .idle) hw hne rfl
    obtain ⟨-, -, -, -, -, hraised, hroom, hstations, hcounted⟩ :=
      quiet_entered (x := s) hw (fun _ _ => rfl) hst hst rfl ⟨rfl, rfl⟩ rfl
    refine ⟨_, exec_idleTimer hst hi hq, ?_, hraised hrun, hroom, enter_testsKept n _ _ s,
      (enter_moved n _ _ (.refl s)).beside, enter_pool (by rw [hst]; rfl), hstations, hcounted⟩
    rw [E.line, Line.entered_quiet hst]
    rfl
  · simp [exec, execIdleTimerExpiry, effectiveQuiet, hq]
  · have hne : (s.line n).st ≠ .dormant := by rw [hst]; decide
    have E := enter_entered (r := .dormantDelay) hw hne rfl
    obtain ⟨-, -, -, -, hraised, hroom, hstations, hcounted⟩ :=
      dormant_entered (x := s) hw (fun _ _ => rfl) hst hst rfl ⟨rfl, rfl⟩ rfl
    refine ⟨enter n .dormant .dormantDelay s, by simp [exec, execDormantTimerExpiry, hst, hd], ?_, hraised hrun, hroom,
      enter_testsKept n _ _ s, (enter_moved n _ _ (.refl s)).beside, hstations, hcounted⟩
    rw [E.line, Line.entered_dormant hst]
    rfl
  · simp [exec, execDormantTimerExpiry, hd]

/-- Settles O23: each event is the entry to HELD with the held report of the test. -/
theorem drainEnds : Obligations.DrainEnds := by
  intro n c a s hrun hw hc hact hline ho hseq hmatrix
  have hst : (s.line n).st = .draining := by
    rcases hc with ⟨-, hd⟩ | ⟨-, hst⟩
    · simp only [Line.drained, Bool.and_eq_true, beq_iff_eq] at hd
      exact hd.1.1.1.1
    · exact hst
  have hevent : ∃ r, r ≠ .shed ∧ exec c s = .next (heldReport (enter n .held r s)) := by
    rcases hc with ⟨rfl, hd⟩ | ⟨rfl | rfl, -⟩
    · exact ⟨.drained, by decide, congrArg Host.Outcome.next (drainReport_held s n hd)⟩
    · exact ⟨.drainLimit, by decide, by simp [exec, execDrainTimerExpiry, hst]⟩
    · exact ⟨.linkDown, by decide, by simp [exec, execLinkDown, whenRunning, hrun, takeLinkDown, hst]⟩
  obtain ⟨r, hr, hexec⟩ := hevent
  obtain ⟨happ, hstations, hroom, hbeside, hraised, hcounted⟩ := drained_held (n := n) hw hst hr
  obtain ⟨-, hseqkept⟩ := enter_testsKept n .held r s
  have hreport := heldReport_of_test (s := enter n .held r s) (by rw [hseqkept]; exact hact) ho (by rw [hseqkept]; exact hseq)
  refine ⟨_, hexec, ?_, ?_, ?_, ?_, ?_, ?_, hstations, hroom, hbeside, hraised hrun, hcounted, ?_⟩
  · exact ⟨congrArg Line.st happ, congrArg Line.downRate happ, congrArg Line.upRate happ, congrArg Line.ready happ,
      congrArg Line.command happ, congrArg Line.drainTimer happ⟩
  · exact congrArg Line.downQ happ
  · exact congrArg Line.prioQ happ
  · exact congrArg Line.bulkQ happ
  · exact congrArg Line.handOff happ
  · exact (congrArg Line.takenFrom happ : _)
  · rw [hreport, hseqkept]
    split
    · obtain ⟨-, -, hflag⟩ := suspendSeq_counts (enter n .held r s)
      refine ⟨?_, by simp, hflag⟩
      rw [suspendSeq_seq (a := a) (by rw [hseqkept]; exact hact), hseqkept]
    · simp [connectStep, hline, connectPair, hmatrix]

end Sys2Proof
end

