-- ==== Sys2Proof/Proofs/ControlFrames.lean ====
section
/-! PROOF. The taking of a control frame whose header is refused, with the craft port's link down (R81, R179, R181): the
reply is put in its place in the transmit list and dropped again with the port's entries, which brings a list that stood
out of its order into it. -/

namespace Sys2Proof.Machine

section
variable {s : State}

/-- The transmit list after a reply to the craft port whose link is down (R81, R181). -/
theorem placeReply_craftDown (b : List Byte) (h : s.sched.craftUp = false) : (placeReply b .craft s).mgmt.txList =
    (insertTx { recId := s.pool.nextId, port := .craft, part := .reply } s.mgmt.txList).filter
      fun e => e.port != .craft := by
  have hdown : (buildEntry b .craft .reply s).sched.craftUp = false := by simpa [buildEntry] using h
  unfold placeReply
  dsimp only
  rw [if_pos ⟨rfl, hdown⟩, dropCraftEntries_mgmt]
  simp [buildEntry]

/-- A header that is refused whole carries out no element (R179). -/
theorem takeFrame_refused {f : List Byte} (service : Bool) (p : Port) (h : headerRefused (frameBody f) = true) :
    ∃ b, takeFrame service p f s = placeReply b p (countDev .framesTaken
      (s.modMgmt fun m => { m with controlQ := m.controlQ.drop 1, service := service })) := by
  refine ⟨replyFrame f [(0, { status := .badFormat, items := [] })] (countDev .framesTaken
    (s.modMgmt fun m => { m with controlQ := m.controlQ.drop 1, service := service })), ?_⟩
  simp [takeFrame, runFrame, h]

theorem exec_controlFrame {f : List Byte} {p : Port} {rest : List (Port × List Byte)} (service : Bool)
    (hq : s.mgmt.controlQ = (p, f) :: rest) (hm : mayTake s = true) :
    exec (.controlFrameTaken service) s = .next (takeFrame service p f s) := by
  simp [exec, execControlFrameTaken, hq, hm]

/-- A running part with an empty craft frame in its control queue, the craft port's link down, and a transmit list that
holds a routine notice before a reply, against the order of R181. -/
def unorderedList : State :=
  (State.reset.modSched fun x => { x with craftUp := false }).modMgmt fun m =>
    { m with
      phase := .running
      controlQ := [(.craft, [])]
      txList := [{ recId := 0, port := .uplink, part := .routine }, { recId := 1, port := .uplink, part := .reply }] }

theorem unorderedList_taken (t : State) (h : exec (.controlFrameTaken false) unorderedList = .next t) :
    t.mgmt.txList
      = [{ recId := 1, port := .uplink, part := .reply }, { recId := 0, port := .uplink, part := .routine }] := by
  obtain ⟨b, hb⟩ := takeFrame_refused (s := unorderedList) (f := []) false .craft (by decide)
  rw [exec_controlFrame (rest := []) false rfl (by decide), hb] at h
  cases h
  rw [placeReply_craftDown b rfl]
  decide

end

end Sys2Proof.Machine

namespace Sys2Proof
open Machine

/-- Refutes O42: a refused frame of the craft port with its link down leaves the entries of the other ports, but in the
order of R181, which a transmit list of an arbitrary state need not have. -/
theorem not_controlAndNoticeFrames : ¬ Obligations.ControlAndNoticeFrames := by
  intro h
  obtain ⟨-, -, -, hdown, -⟩ := h false .craft [] [] 0 unorderedList
  obtain ⟨t, ht, hmgmt, -⟩ := hdown rfl (by decide) (by decide) rfl
  have hlist := congrArg Mgmt.txList hmgmt
  rw [unorderedList_taken t ht] at hlist
  exact absurd hlist (by decide)

end Sys2Proof
end

