-- ==== Sys2Proof/Proofs/LineAsked.lean ====
section
/-! PROOF. A line asked for by the sequencer: UP it drains, and with nothing left to drain, or from DOWN, it is HELD at
once and its pair connected (R44, R98, R99, R138). -/

namespace Sys2Proof.Machine

section
variable {s t u : State} {n : LineNo}

/-! ## Places offered -/

/-- What an offer of free places changes: the groups, and the queue by requests for lines not under test (R133). -/
def offersOnly (s t : State) : Prop :=
  t = { s with seq := { s.seq with queue := t.seq.queue, groups := t.seq.groups } }
    ∧ ∀ r ∈ t.seq.queue, r ∈ s.seq.queue ∨ s.lineUnderTest ≠ some r.line

theorem offersOnly.refl (s : State) : offersOnly s s := ⟨rfl, fun _ h => .inl h⟩

theorem offersOnly.trans (h : offersOnly s t) (k : offersOnly t u) : offersOnly s u := by
  obtain ⟨ht, hq⟩ := h
  obtain ⟨hu, hr⟩ := k
  have hline : t.lineUnderTest = s.lineUnderTest := by rw [ht]; rfl
  refine ⟨by rw [hu, ht], fun r hru => ?_⟩
  rcases hr r hru with hrt | hrt
  · exact hq r hrt
  · exact .inr (hline ▸ hrt)

theorem setDue_offersOnly (g : Fin 4) (m : LineNo) (b : Bool) (s : State) : offersOnly s (setDue g m b s) :=
  ⟨rfl, fun _ h => .inl h⟩

theorem offerRoutine_offersOnly (g : Fin 4) (m : LineNo) (s : State) : offersOnly s (offerRoutine g m s) := by
  unfold offerRoutine
  dsimp only
  split
  · exact setDue_offersOnly g m false s
  next hnot =>
    split
    · split
      · exact .refl s
      · exact ⟨rfl, fun _ h => .inl h⟩
    · refine ⟨rfl, fun r hr => ?_⟩
      rcases List.mem_append.mp hr with hr | hr
      · exact .inl hr
      · rw [List.mem_singleton.mp hr]
        simp only [Bool.or_eq_true, not_or] at hnot
        exact .inr (by simpa [TestRequest.line] using hnot.1)

theorem offerDue_offersOnly (g : Fin 4) (m : LineNo) (s : State) : offersOnly s (offerDue g m s) := by
  unfold offerDue
  split
  · split
    · exact offerRoutine_offersOnly g m s
    · exact setDue_offersOnly g m false s
  · exact .refl s

theorem placeFreed_offersOnly (s : State) : offersOnly s (placeFreed s) :=
  foldl_holds (offersOnly s) _ (fun u g hu => foldl_holds (offersOnly s) _
    (fun v m hv => hv.trans (offerDue_offersOnly g m v)) _ u hu) _ s (.refl s)

/-! ## An UP line that drains -/

theorem enter_to_awake {new : LineState} {r : Reason} (h : awakeState new = true) :
    enter n new r s = recomputeIf n (s.line n) (enterCore n new r s) := by simp [enter, h]

/-- An UP line as the sequencer drains it (R98). -/
def drainingLine (s : State) (l : Line) : Line :=
  { l with
    st := .draining, takenFrom := some .up, drainTimer := some s.seq.drainLimit, command := some .holdUpstream
    idle := none, wakeTimer := none, wakePending := false }

/-- The state in which an UP line drains. -/
def drainFrom (n : LineNo) (s : State) : State :=
  enter n .draining .taken (s.modLine n fun l => { l with takenFrom := some .up })

theorem drainFrom_kept (h : (s.line n).st = .up) :
    ((drainFrom n s).line n).apart = (drainingLine s (s.line n)).apart ∧ othersKept n s (drainFrom n s)
      ∧ (drainFrom n s).power = s.power ∧ testsKept s (drainFrom n s) ∧ (drainFrom n s).mgmt = s.mgmt
      ∧ (drainFrom n s).wakeLimit = s.wakeLimit ∧ (drainFrom n s).trainLimit = s.trainLimit := by
  have hself : (s.modLine n fun l => { l with takenFrom := some .up }).line n = { s.line n with takenFrom := some .up } :=
    State.modLine_line_self s n _
  have hne : ((s.modLine n fun l => { l with takenFrom := some .up }).line n).st ≠ .draining := by rw [hself]; simp [h]
  refine ⟨?_, fun m hm => ?_, ?_, ?_, by simp [drainFrom], by simp [drainFrom], by simp [drainFrom]⟩
  · rw [drainFrom, enter_to_awake rfl, recomputeIf_apart, enterCore_line_self _ _ _ _ hne, hself]
    simp [Line.entered, h, entryFlush, Flush.empty, leaveState, enterState, entryCommand, Line.idleHolds, drainingLine]
  · rw [drainFrom, enter_to_awake rfl, recomputeIf_apart, enterCore_line_other _ _ _ _ hm, State.modLine_line_other s _ hm]
  · rw [drainFrom, enter_to_awake rfl, recomputeIf_power, enterCore_power _ _ _ _ hne, hself, h]
    rfl
  · simp [drainFrom, testsKept]

theorem askForLine_up (h : (s.line n).st = .up) : askForLine n s = drainReport n (drainFrom n s) := by
  simp [askForLine, takeLine, h, takeState, heldAtOnce, drainFrom]

theorem drainFrom_drained (h : (s.line n).st = .up) :
    ((drainFrom n s).line n).drained = true ↔ Line.nothingQueued (s.line n) := by
  obtain ⟨happ, -⟩ := drainFrom_kept h
  have hd : ((drainFrom n s).line n).drained = (drainingLine s (s.line n)).drained := by
    have := congrArg Line.drained happ
    exact this
  rw [hd]
  simp [Line.drained, drainingLine, Line.nothingQueued, and_assoc]

theorem askForLine_drains (h : (s.line n).st = .up) (hq : ¬ Line.nothingQueued (s.line n)) :
    askForLine n s = drainFrom n s := by
  rw [askForLine_up h, drainReport_waits _ _ (Bool.eq_false_iff.mpr (mt (drainFrom_drained h).mp hq))]

/-- The room a line makes is the same from a state in which it is awake as before (R170). -/
theorem roomTaken.of_awake {s' : State} (hw : WakesListed s) (hl : othersKept n s s')
    (hst : awakeState (s'.line n).st = awakeState (s.line n).st) (hp : s'.power = s.power)
    (hlim : s'.wakeLimit = s.wakeLimit ∧ s'.trainLimit = s.trainLimit) (h : roomTaken n s' t) : roomTaken n s t := by
  have hcount : awakeCount s' = awakeCount s := by
    have hch := awakeCount_change (s := s) (t := s') n fun m hm => apart_st (hl m hm)
    rw [hst] at hch
    omega
  have hbudget : awakeBudget s' = awakeBudget s := awakeBudget_congr (by rw [hp])
  unfold roomTaken at *
  rw [hst, hp, hbudget, hcount] at h
  obtain ⟨hwoken, hothers, hpow⟩ := h
  refine ⟨fun w hwm => ?_, fun m hm hnot => (hothers m hm hnot).trans (hl m hm), hpow⟩
  have hne : w.line ≠ n := by
    split at hwm
    next ha => exact hw.not_listed (awake_not_asleep ha) w (List.mem_of_mem_take hwm)
    · simp at hwm
  exact Line.wokenFrom_congr (hl _ hne) rfl hlim.1 hlim.2 (hwoken w hwm)

/-- An UP line with nothing left to drain is HELD at once (R44, R99). -/
theorem askForLine_heldUp (hw : WakesListed s) (h : (s.line n).st = .up) (hq : Line.nothingQueued (s.line n)) :
    ∃ v, askForLine n s = heldReport v ∧ (v.line n).isHeld ∧ (v.line n).takenFrom = some .up ∧ roomTaken n s v
      ∧ testsKept s v := by
  obtain ⟨happ, hothers, hpow, htests, -, hlim⟩ := drainFrom_kept h
  have hdst : ((drainFrom n s).line n).st = .draining := (apart_st happ).trans rfl
  have hw' : WakesListed (drainFrom n s) := hw.sublist (fun w hwm => by
    refine apart_st (hothers _ (hw.not_listed (by rw [h]; rfl) w ?_))
    rwa [hpow] at hwm) (by rw [hpow])
  have E := enter_entered (r := .drained) hw' (new := .held) (by rw [hdst]; decide) rfl
  have hline := E.line
  rw [Line.entered_held hdst (by decide)] at hline
  refine ⟨enter n .held .drained (drainFrom n s), ?_, ?_, ?_, ?_, ?_⟩
  · rw [askForLine_up h, drainReport_held _ _ ((drainFrom_drained h).mpr hq)]
  · exact ⟨congrArg Line.st hline, congrArg Line.downRate hline, congrArg Line.upRate hline, congrArg Line.ready hline,
      congrArg Line.command hline, congrArg Line.drainTimer hline⟩
  · exact (congrArg Line.takenFrom hline : _).trans (congrArg Line.takenFrom happ : _)
  · exact E.room.of_awake hw hothers (by rw [hdst, h]; rfl) hpow hlim
  · obtain ⟨ha, hs⟩ := htests
    obtain ⟨ka, ks⟩ := enter_testsKept n .held .drained (drainFrom n s)
    exact ⟨ka.trans ha, ks.trans hs⟩

/-- A DOWN line is HELD at once (R98). -/
theorem askForLine_heldDown (hw : WakesListed s) (h : (s.line n).st = .down) :
    ∃ v, askForLine n s = heldReport v ∧ (v.line n).st = .held ∧ (v.line n).takenFrom = some .down
      ∧ (v.line n).command = some .off ∧ roomTaken n s v ∧ testsKept s v := by
  have hself : (s.modLine n fun l => { l with takenFrom := some .down }).line n = { s.line n with takenFrom := some .down } :=
    State.modLine_line_self s n _
  have hst : ((s.modLine n fun l => { l with takenFrom := some .down }).line n).st = (s.line n).st := by rw [hself]
  have hothers : othersKept n s (s.modLine n fun l => { l with takenFrom := some .down }) := modLine_othersKept _
  have hw' : WakesListed (s.modLine n fun l => { l with takenFrom := some .down }) := hw.congr (fun m => by
    by_cases hm : m = n
    · rw [hm, hst]
    · exact apart_st (hothers m hm)) rfl
  have E := enter_entered (r := .taken) hw' (new := .held) (by rw [hst, h]; decide) rfl
  have hline := E.line
  rw [hself] at hline
  have hentered : ∀ x : State, (Line.entered x .held .taken { s.line n with takenFrom := some .down }).st = .held
      ∧ (Line.entered x .held .taken { s.line n with takenFrom := some .down }).takenFrom = some .down
      ∧ (Line.entered x .held .taken { s.line n with takenFrom := some .down }).command = some .off := fun x => by
    simp [Line.entered, h, entryFlush, Flush.empty, leaveState, enterState, entryCommand]
  obtain ⟨hheld, htaken, hcommand⟩ := hentered (s.modLine n fun l => { l with takenFrom := some .down })
  refine ⟨enter n .held .taken (s.modLine n fun l => { l with takenFrom := some .down }), ?_,
    (congrArg Line.st hline : _).trans hheld, (congrArg Line.takenFrom hline : _).trans htaken,
    (congrArg Line.command hline : _).trans hcommand, E.room.of_agree hw hothers hst rfl ⟨rfl, rfl⟩,
    enter_testsKept n .held .taken _⟩
  simp [askForLine, takeLine, h, takeState, heldAtOnce]

/-! ## The report of the line -/

/-- A pair connected from a free matrix (R109, R138). -/
theorem connectStep_idle (h : s.access.matrix = .idle) :
    (connectStep n s).seq = { s.seq with st := .settling }
      ∧ (connectStep n s).access = { s.access with
          matrix := .settlingIn n, settleTimer := some s.access.settleTime, legMv := 0 } := by
  simp [connectStep, connectPair, h]

theorem heldReport_of_external {a : Activity} (hact : s.seq.act = some a) (ho : a.origin = .external)
    (hst : s.seq.st = .drainingWait) : heldReport s = connectStep a.line s := by
  simp [heldReport, hact, ho, hst]

/-- The room a line makes reads the lines and the wake list of the state after. -/
theorem roomTaken.congr_after {t' : State} (h : roomTaken n s t) (hl : t'.lines = t.lines) (hp : t'.power = t.power) :
    roomTaken n s t' := by
  unfold roomTaken at h ⊢
  simpa [State.line, hl, hp] using h

end

end Sys2Proof.Machine
end

