-- ==== Sys2Proof/Proofs/TestRequests.lean ====
section
/-! PROOF. REQUEST TEST, ABORT TEST and STOP ROUTINE GROUP (R132 to R136, R145, R150), and the external connections
(R152, R153). -/

namespace Sys2Proof.Machine

section
variable {s : State} {n : LineNo} {p : Fin 8} {o : Origin}

/-! ## The rows -/

theorem row_requestTest_empty (h : s.seq.programs.get p = []) :
    runRow (.requestTest o n.val p.val none) s = answer .notFound [] s := by
  simp [runRow, cmdRequestTest, lineOf, programOf, boolOf, h, refuse_eq]

theorem row_requestTest (h : s.seq.programs.get p ≠ []) : runRow (.requestTest o n.val p.val none) s =
    if (placeDemand n p false s).1 = .accepted then
      answer .accepted [.count 1 ((placeDemand n p false s).2.countP TestRequest.isDemand)]
        (idleStep (s.modSeq fun q => { q with queue := (placeDemand n p false s).2 }))
    else answer (placeDemand n p false s).1 [] s := by
  simp [runRow, cmdRequestTest, lineOf, programOf, boolOf, h, refuse_eq]

/-! ## The place of a DEMAND request -/

theorem demands_any_iff (n : LineNo) (q : List TestRequest) :
    q.any (TestRequest.demands n) = true ↔ ∃ r ∈ q, r.isDemand = true ∧ r.line = n := by
  simp [TestRequest.demands]

theorem placeDemand_busy (h : s.lineUnderTest = some n) : placeDemand n p false s = (.busy, s.seq.queue) := by
  simp [placeDemand, State.underTest, h]

theorem placeDemand_duplicate (h : s.lineUnderTest ≠ some n) (hd : ∃ r ∈ s.seq.queue, r.isDemand = true ∧ r.line = n) :
    placeDemand n p false s = (.duplicate, s.seq.queue) := by
  simp only [placeDemand]
  rw [if_neg (by simp [State.underTest, h]), if_pos ((demands_any_iff n _).mpr hd)]

theorem placeDemand_full (h : s.lineUnderTest ≠ some n) (hn : ∀ r ∈ s.seq.queue, r.line ≠ n)
    (hfull : 8 ≤ s.seq.queue.length) : placeDemand n p false s = (.queueFull, s.seq.queue) := by
  have hd : ¬ s.seq.queue.any (TestRequest.demands n) = true := by
    rw [demands_any_iff]
    rintro ⟨r, hr, -, hline⟩
    exact hn r hr hline
  simp only [placeDemand]
  rw [if_neg (by simp [State.underTest, h]), if_neg hd, if_neg (by simpa using hn),
    if_pos (show Config.testPlaces ≤ _ from hfull)]

/-- A request accepted stands last of the DEMAND requests, and a ROUTINE request for its line is gone (R133). -/
theorem placeDemand_accepted (h : s.lineUnderTest ≠ some n) (hd : ∀ r ∈ s.seq.queue, r.isDemand = true → r.line ≠ n)
    (hroom : s.seq.queue.length < 8 ∨ ∃ r ∈ s.seq.queue, r.line = n) : placeDemand n p false s =
      (.accepted, s.seq.queue.filter TestRequest.isDemand ++ [.demand n p false]
        ++ s.seq.queue.filter fun r => !r.isDemand && r.line != n) := by
  have hany : ¬ s.seq.queue.any (TestRequest.demands n) = true := by
    rw [demands_any_iff]
    rintro ⟨r, hr, hdem, hline⟩
    exact hd r hr hdem hline
  have hdemands : (s.seq.queue.filter fun r => r.line != n).filter TestRequest.isDemand
      = s.seq.queue.filter TestRequest.isDemand := by
    rw [List.filter_filter]
    refine List.filter_congr fun r hr => ?_
    by_cases hdem : r.isDemand = true
    · simp [hdem, hd r hr hdem]
    · simp [hdem]
  simp only [placeDemand]
  rw [if_neg (by simp [State.underTest, h]), if_neg hany]
  split
  · rw [insertDemand, hdemands, List.filter_filter]
  next hno =>
    have hnone : ∀ r ∈ s.seq.queue, r.line ≠ n := by simpa using hno
    have hlen : s.seq.queue.length < 8 := hroom.resolve_right fun ⟨r, hr, hline⟩ => hnone r hr hline
    rw [if_neg (show ¬ Config.testPlaces ≤ _ from not_le.mpr hlen), insertDemand]
    congr 2
    exact List.filter_congr fun r hr => by simp [hnone r hr]

theorem countP_placed (q : List TestRequest) (n : LineNo) (p : Fin 8) :
    (q.filter TestRequest.isDemand ++ [TestRequest.demand n p false]
        ++ q.filter fun r : TestRequest => !r.isDemand && r.line != n).countP TestRequest.isDemand
      = q.countP TestRequest.isDemand + 1 := by
  have hrest : (q.filter fun r => !r.isDemand && r.line != n).countP TestRequest.isDemand = 0 := by
    rw [List.countP_eq_zero]
    intro r hr
    have := (List.mem_filter.mp hr).2
    simp_all
  have hdem : (q.filter TestRequest.isDemand).countP TestRequest.isDemand = q.countP TestRequest.isDemand := by
    rw [List.countP_filter]
    congr 1
    funext r
    simp
  rw [List.countP_append, List.countP_append, hrest, hdem]
  rfl

theorem idleStep_busy (h : s.seq.st ≠ .idle) : idleStep s = s := by simp [idleStep, h]

/-! ## The start of an activity -/

/-- The sequencer with activity `a` before it asks for the line (R138, R147, R152). -/
structure Begun (a : Activity) (s w : State) : Prop where
  apart : w = { s with seq := w.seq }
  seq : w.seq = { s.seq with
    st := .drainingWait, act := some a, queue := w.seq.queue, groups := w.seq.groups
    marker := some { line := a.line, program := a.program, origin := a.origin, start := a.start } }

theorem Begun.offered {a : Activity} {w u : State} (h : Begun a s w) (k : offersOnly w u) : Begun a s u := by
  obtain ⟨hu, -⟩ := k
  refine ⟨?_, ?_⟩
  · rw [hu, h.apart]
  · rw [hu, h.seq]

theorem Begun.listed {a : Activity} {w : State} (h : Begun a s w) (hw : WakesListed s) : WakesListed w := by
  rw [h.apart]
  exact hw

theorem Begun.line_eq {a : Activity} {w : State} (h : Begun a s w) (m : LineNo) : w.line m = s.line m := by
  rw [h.apart]
  rfl

theorem Begun.room {a : Activity} {w v : State} (h : Begun a s w) (hw : WakesListed s) (hr : roomTaken n w v) :
    roomTaken n s v :=
  hr.of_agree hw (fun m _ => by rw [h.line_eq]) (by rw [h.line_eq]) (by rw [h.apart]) ⟨by rw [h.apart], by rw [h.apart]⟩

/-- A DEMAND test of a line, as it starts (R138). -/
def demandTest (n : LineNo) (p : Fin 8) (s : State) : Activity :=
  { line := n, program := some p, origin := .demand, override := false, start := s.mgmt.time
    specs := s.seq.programs.get p, next := 0, results := [], pending := none, interrupted := false
    guardTripped := false }

/-- An external connection of a line, as it starts (R152). -/
def externalSession (n : LineNo) (s : State) : Activity :=
  { line := n, program := none, origin := .external, override := false, start := s.mgmt.time, specs := []
    next := 0, results := [], pending := none, interrupted := false, guardTripped := false }

theorem startRequest_demand (u : State) : startRequest (.demand n p false) u =
    askForLine n (placeFreed (u.modSeq fun q => { q with
      queue := q.queue.filter fun x => x != .demand n p false
      st := .drainingWait
      act := some (demandTest n p u)
      marker := some { line := n, program := some p, origin := .demand, start := u.mgmt.time } })) := by
  unfold startRequest
  rfl

/-- With mains or the battery an IDLE sequencer starts the request it holds (R136, R138). -/
theorem idleStep_starts (hst : s.seq.st = .idle) (hrun : s.running = true) (hx : s.seq.extreq = false)
    (hpow : s.power.state = some .mains ∨ s.power.state = some .battery) :
    ∃ w, idleStep (s.modSeq fun q => { q with queue := [.demand n p false] }) = askForLine n w
      ∧ Begun (demandTest n p s) s w := by
  have hperm : permitted s.power.state (.demand n p false) = true := by
    rcases hpow with h | h <;> rw [h] <;> rfl
  have hidle : idleStep (s.modSeq fun q => { q with queue := [.demand n p false] })
      = startRequest (.demand n p false) (s.modSeq fun q => { q with queue := [.demand n p false] }) := by
    have hrun' : (s.modSeq fun q => { q with queue := [.demand n p false] }).running = true := hrun
    rw [idleStep, if_pos ⟨hst, hrun'⟩, boundary, if_neg (by simp [hx]), show 128 = 127 + 1 from rfl, selectWalk]
    simp [hperm, TestRequest.deferred, inUse, TestRequest.isDemand]
  rw [hidle, startRequest_demand]
  exact ⟨_, rfl, Begun.offered ⟨rfl, rfl⟩ (placeFreed_offersOnly _)⟩

theorem Begun.tests {a : Activity} {w v : State} (h : Begun a s w) (k : testsKept w v) :
    v.seq.act = some a ∧ v.seq.st = .drainingWait ∧ v.seq.extreq = s.seq.extreq ∧ v.seq.extack = s.seq.extack
      ∧ v.seq.queue = w.seq.queue ∧ v.access = s.access
      ∧ v.seq.marker = some { line := a.line, program := a.program, origin := a.origin, start := a.start } := by
  obtain ⟨ha, hq⟩ := k
  have haccess : w.access = s.access := by rw [h.apart]
  refine ⟨?_, ?_, ?_, ?_, ?_, ha.trans haccess, ?_⟩
  all_goals rw [hq, h.seq]

/-- The held report of an activity begun while EXTREQ asks for nothing, or of an external connection (R138, R152). -/
theorem Begun.reported {a : Activity} {w v : State} (h : Begun a s w) (k : testsKept w v)
    (hx : a.origin = .external ∨ s.seq.extreq = false) (hm : s.access.matrix = .idle) :
    (heldReport v).seq = { v.seq with st := .settling }
      ∧ (heldReport v).access = { s.access with
          matrix := .settlingIn a.line, settleTimer := some s.access.settleTime, legMv := 0 }
      ∧ (heldReport v).lines = v.lines ∧ (heldReport v).power = v.power := by
  obtain ⟨hact, hst, hreq, -, -, hacc, -⟩ := h.tests k
  have hconnect : heldReport v = connectStep a.line v := by
    by_cases ho : a.origin = .external
    · exact heldReport_of_external hact ho hst
    · rw [heldReport_of_test hact ho hst, if_neg (by simp [hreq, hx.resolve_left ho])]
  obtain ⟨hseq, haccess⟩ := connectStep_idle (n := a.line) (s := v) (by rw [hacc]; exact hm)
  rw [hconnect]
  exact ⟨hseq, by rw [haccess, hacc], by simp, by simp⟩

/-- An external connection asks for its line once its requests have left the queue (R133, R152). -/
theorem makeExternal_begun (n : LineNo) (s : State) : ∃ w, makeExternal n s = askForLine n w
    ∧ Begun (externalSession n s) s w ∧ ∀ r ∈ w.seq.queue, r.line ≠ n := by
  generalize hx : s.modSeq (fun q => { q with
    queue := q.queue.filter fun r => r.line != n
    st := .drainingWait
    act := some (externalSession n s)
    marker := some { line := n, program := none, origin := .external, start := s.mgmt.time } }) = x
  have hbegun : Begun (externalSession n s) s x := by
    rw [← hx]
    exact ⟨rfl, rfl⟩
  have hqueue : ∀ r ∈ x.seq.queue, r.line ≠ n := by
    rw [← hx]
    exact fun r hr => by simpa using (List.mem_filter.mp hr).2
  have hunder : x.lineUnderTest = some n := by
    rw [← hx]
    rfl
  refine ⟨if s.seq.queue.any fun r => r.line == n then placeFreed x else x, by rw [← hx]; rfl, ?_⟩
  split
  · have k := placeFreed_offersOnly x
    refine ⟨hbegun.offered k, fun r hr => ?_⟩
    rcases k.2 r hr with hrx | hrx
    · exact hqueue r hrx
    · rw [hunder] at hrx
      exact fun h => hrx (by rw [h])
  · exact ⟨hbegun, hqueue⟩

/-! ## Aborts -/

theorem row_abortTest_queued (h : ∃ r ∈ s.seq.queue, r.line = n) : runRow (.abortTest o n.val) s =
    answer .ok [.code 1 0] (placesFreed (s.modSeq fun q => { q with queue := q.queue.filter fun r => r.line != n })) := by
  obtain ⟨r, hr, hline⟩ := h
  have hany : (s.seq.queue.any fun r => r.line == n) = true := List.any_eq_true.mpr ⟨r, hr, by simp [hline]⟩
  simp [runRow, cmdAbortTest, hany]

theorem row_abortTest_running {a : Activity} (h : ∀ r ∈ s.seq.queue, r.line ≠ n) (hact : s.seq.act = some a)
    (hline : a.line = n) (ho : a.origin ≠ .external) (hst : s.seq.st ≠ .releasing) :
    runRow (.abortTest o n.val) s = answer .ok [.code 1 1] (abortTestNow .abortedCmd s) := by
  simp only [runRow, cmdAbortTest, lineOf_val, hact]
  rw [if_neg (by simpa using h), if_pos hline, if_neg (by simp [ho, hst])]

/-- A test in SETTLING that is aborted releases its pair (R109, R121, R144). -/
theorem abortTestNow_settling {a : Activity} {x : Outcome} (hst : s.seq.st = .settling) (hact : s.seq.act = some a)
    (hm : s.access.matrix = .settlingIn n) : abortTestNow x s = (s.modAccess fun k => { k with
      matrix := .settlingOut, settleTimer := some k.settleTime, tripped := false, legMv := 0 }).modSeq fun q =>
        { q with st := .releasing, act := some { a with pending := some x } } := by
  simp [abortTestNow, hst, setPending, modAct, releaseStep, releasePair, hm, hact, State.modSeq, State.modAccess]

/-! ## Offers of free places -/

/-- With no line due nothing is offered, and a sequencer that is not IDLE selects nothing (R133, R136). -/
theorem placesFreed_of_notDue (hst : s.seq.st ≠ .idle) (hdue : ∀ h m, (s.seq.groups.get h).due.get m = false) :
    placesFreed s = s := by
  have hjoin : ∀ g m, joining (offerDue g m) s = s := fun g m => by
    have hsame : offerDue g m s = s := by simp [offerDue, hdue]
    rw [joining_same _ _ (by rw [hsame]), hsame]
  have hinner : ∀ g (ms : List LineNo), ms.foldl (fun u m => joining (offerDue g m) u) s = s := fun g ms => by
    induction ms with
    | nil => rfl
    | cons m ms ih => rw [List.foldl_cons, hjoin, ih]
  have houter : ∀ gs : List (Fin 4),
      gs.foldl (fun u g => (indexes 24).foldl (fun u m => joining (offerDue g m) u) u) s = s := fun gs => by
    induction gs with
    | nil => rfl
    | cons g gs ih => rw [List.foldl_cons, hinner, ih]
  rw [placesFreed, houter, idleStep_busy hst]

/-- A group stopped where no other group has a line due (R133, R150). -/
theorem row_stopRoutineGroup {g : Fin 4} (hst : s.seq.st ≠ .idle)
    (hdue : ∀ h m, h ≠ g → (s.seq.groups.get h).due.get m = false) : runRow (.stopRoutineGroup o g.val) s =
      answer .ok [.count 1 (s.seq.queue.countP fun r => r.group == some g)] (s.modSeq fun q => { q with
        groups := q.groups.modify g fun x => { x with enabled := false, due := .fill 24 false, halfDue := false }
        queue := q.queue.filter fun r => r.group != some g }) := by
  have hnone : ∀ h m, ((s.seq.groups.modify g fun x =>
      { x with enabled := false, due := .fill 24 false, halfDue := false }).get h).due.get m = false := fun h m => by
    by_cases hg : h = g
    · rw [hg, Tab.get_modify_self]
      exact Tab.get_fill _ _
    · rw [Tab.get_modify_other _ _ hg]
      exact hdue h m hg
  have hfreed := placesFreed_of_notDue (s := s.modSeq fun q => { q with
    groups := q.groups.modify g fun x => { x with enabled := false, due := .fill 24 false, halfDue := false }
    queue := q.queue.filter fun r => r.group != some g }) hst hnone
  have hrow : runRow (.stopRoutineGroup o g.val) s = cmdStopRoutineGroup g.val s := rfl
  have hgroup : groupOf g.val = some g := by simp [groupOf]
  rw [hrow, cmdStopRoutineGroup, hgroup]
  refine (congrArg (answer .ok _) (ite_eq_left_iff.mpr fun _ => hfreed)).trans ?_
  rfl

theorem lineUnderTest_eq {a : Activity} (h : s.seq.act = some a) : s.lineUnderTest = some a.line := by
  simp [State.lineUnderTest, h]

end

end Sys2Proof.Machine

namespace Sys2Proof
open Machine

/-- Settles O52: the place of a request, the start of the line's test, and what an abort or a stop leaves. -/
theorem testRequests : Obligations.TestRequests := by
  intro o n p g a s hs
  have start : s.seq.programs.get p ≠ [] → s.lineUnderTest ≠ some n → s.seq.queue = [] → ∀ w,
      idleStep (s.modSeq fun q => { q with queue := [.demand n p false] }) = w →
      exec (.requestTest o n.val p.val none) s = .next (w.answered .accepted [.count 1 1]) := by
    rintro hp hfree hq w rfl
    refine exec_of_row hs rfl ?_
    rw [row_requestTest hp, placeDemand_accepted hfree (by simp [hq]) (by simp [hq]), if_pos rfl, countP_placed, hq]
    rfl
  refine ⟨fun hp => exec_of_row hs rfl (row_requestTest_empty hp), fun hp => ⟨fun hbusy => ?_, fun hfree => ⟨fun hdup => ?_,
    fun hn hfull => ?_, fun hd hroom hst => ?_, fun hq hst hrun hx hpow hup => ⟨fun hnone hw hm => ?_, fun hsome => ?_⟩⟩⟩,
    fun hqueued hst hdue => ?_, fun hn hact hline ho hst hmx => ?_, fun hn hnot => ?_, fun hst hdue => ?_⟩
  · exact exec_of_row hs rfl (by simp [row_requestTest hp, placeDemand_busy hbusy])
  · exact exec_of_row hs rfl (by simp [row_requestTest hp, placeDemand_duplicate hfree hdup])
  · exact exec_of_row hs rfl (by simp [row_requestTest hp, placeDemand_full hfree hn hfull])
  · refine exec_of_row hs rfl ?_
    rw [row_requestTest hp, placeDemand_accepted hfree hd hroom, if_pos rfl, countP_placed, idleStep_busy]
    · rfl
    · exact hst
  · obtain ⟨w, hidle, hw'⟩ := idleStep_starts (n := n) (p := p) hst hrun hx hpow
    obtain ⟨v, hask, hheld, htaken, hroom, htests⟩ := askForLine_heldUp (n := n) (hw'.listed hw)
      (by rw [hw'.line_eq]; exact hup) (by rw [hw'.line_eq]; exact hnone)
    obtain ⟨hseq, haccess, hlines, hpower⟩ := hw'.reported htests (.inr hx) hm
    obtain ⟨hact, -, -, -, -, -, hmarker⟩ := hw'.tests htests
    have hexec := start hp hfree hq _ hidle
    rw [hask] at hexec
    have hline : ∀ m, (heldReport v).line m = v.line m := State.line_of_lines hlines
    refine ⟨_, hexec, ?_, ?_, ?_, ?_, ?_, ?_, ?_, ?_⟩
    · exact congrArg Seq.st hseq
    · exact hline n ▸ hheld
    · exact (congrArg Line.takenFrom (hline n)).trans htaken
    · exact (hw'.room hw hroom).congr_after hlines hpower
    · exact congrArg Access.matrix haccess
    · exact congrArg Access.settleTimer haccess
    · exact (congrArg Seq.act hseq).trans hact
    · exact (congrArg Seq.marker hseq).trans hmarker
  · obtain ⟨w, hidle, hw'⟩ := idleStep_starts (n := n) (p := p) hst hrun hx hpow
    have hup' : (w.line n).st = .up := by rw [hw'.line_eq]; exact hup
    obtain ⟨happ, hothers, -, htests, -⟩ := drainFrom_kept hup'
    rw [hw'.line_eq] at happ
    obtain ⟨hact, hwait, -, -, -, -, hmarker⟩ := hw'.tests htests
    have hexec := start hp hfree hq _ hidle
    rw [askForLine_drains hup' (by rw [hw'.line_eq]; exact hsome)] at hexec
    have hlimit : w.seq.drainLimit = s.seq.drainLimit := by rw [hw'.seq]
    refine ⟨_, hexec, hwait, congrArg Line.st happ, (congrArg Line.takenFrom happ : _),
      (congrArg Line.drainTimer happ : _).trans (congrArg some hlimit), congrArg Line.command happ,
      (congrArg Line.downQ happ : _), fun m hm => (hothers m hm).trans (by rw [hw'.line_eq]), hact, hmarker⟩
  · refine exec_of_row hs rfl ?_
    rw [row_abortTest_queued hqueued, placesFreed_of_notDue
      (s := s.modSeq fun q => { q with queue := q.queue.filter fun r => r.line != n }) hst hdue]
  · refine exec_of_row hs rfl ?_
    rw [row_abortTest_running hn hact hline ho (by rw [hst]; decide), abortTestNow_settling hst hact hmx]
  · refine exec_of_row hs rfl ?_
    simp only [runRow, cmdAbortTest, lineOf_val]
    rw [if_neg (by simpa using hn)]
    cases hact : s.seq.act with
    | none => rfl
    | some b =>
      have hne : b.line ≠ n := fun hb => hnot (by rw [lineUnderTest_eq hact, hb])
      simp [hne, refuse_eq]
  · exact exec_of_row hs rfl (row_stopRoutineGroup hst hdue)

/-- Settles O53: the refusals in their order, and the line asked for as an external connection. -/
theorem externalConnections : Obligations.ExternalConnections := by
  intro o n a s hs
  refine ⟨fun ho => ⟨?_, ?_⟩, fun hbusy => ?_, fun hfree => ⟨fun hpow => ?_, fun hpow => ⟨fun hdup => ?_, fun hd hm hst hw => ?_⟩⟩,
    fun hact => ?_, fun hact ho hst hmx => ?_⟩
  · exact exec_of_row hs rfl (by simp [runRow, cmdConnectExternal, ho, refuse_eq])
  · exact exec_of_row hs rfl (by simp [runRow, cmdDisconnectExternal, ho, refuse_eq])
  · exact exec_of_row hs rfl (by simp [runRow, cmdConnectExternal, hbusy, refuse_eq])
  · exact exec_of_row hs rfl (by simp [runRow, cmdConnectExternal, hfree, hpow, refuse_eq])
  · have hany := (demands_any_iff n _).mpr hdup
    exact exec_of_row hs rfl (by simp [runRow, cmdConnectExternal, hfree, hpow, hany, refuse_eq])
  · obtain ⟨w, hmake, hw', hqueue⟩ := makeExternal_begun n s
    have hexec : exec (.connectExternal .craftService n.val) s = .next ((askForLine n w).answered .ok []) := by
      have hany : ¬ s.seq.queue.any (TestRequest.demands n) = true := by
        rw [demands_any_iff]
        rintro ⟨r, hr, hdem, hline⟩
        exact hd r hr hdem hline
      refine exec_of_row hs rfl ?_
      simp [runRow, cmdConnectExternal, hfree, hpow, hany, hmake]
    have hack : s.seq.extack = true := by
      simp only [busFree, Bool.and_eq_true] at hfree
      exact hfree.1.1.1
    have hleft : ∀ v : State, v.seq.queue = w.seq.queue → ∀ r ∈ v.seq.queue, r.line ≠ n := fun v hv r hr =>
      hqueue r (hv ▸ hr)
    rcases hst with hdown | hup
    · obtain ⟨v, hask, hheld, htaken, hcommand, hroom, htests⟩ := askForLine_heldDown (n := n) (hw'.listed hw)
        (by rw [hw'.line_eq]; exact hdown)
      obtain ⟨hseq, haccess, hlines, hpower⟩ := hw'.reported htests (.inl rfl) hm
      obtain ⟨hact, -, -, hextack, hq, -, hmarker⟩ := hw'.tests htests
      rw [hask] at hexec
      have hline : (heldReport v).line n = v.line n := State.line_of_lines hlines n
      exact ⟨_, hexec, (congrArg Seq.act hseq).trans hact, (congrArg Seq.marker hseq).trans hmarker,
        (congrArg Seq.extack hseq).trans (hextack.trans hack), hleft _ ((congrArg Seq.queue hseq).trans hq),
        fun _ => (hw'.room hw hroom).congr_after hlines hpower,
        fun _ => ⟨(congrArg Line.st hline).trans hheld, (congrArg Line.takenFrom hline).trans htaken,
          (congrArg Line.command hline).trans hcommand, congrArg Seq.st hseq, congrArg Access.matrix haccess,
          congrArg Access.settleTimer haccess⟩,
        fun h => by simp [hdown] at h, fun h => by simp [hdown] at h⟩
    have hup' : (w.line n).st = .up := by rw [hw'.line_eq]; exact hup
    by_cases hnone : Line.nothingQueued (s.line n)
    · obtain ⟨v, hask, hheld, htaken, hroom, htests⟩ := askForLine_heldUp (n := n) (hw'.listed hw) hup'
        (by rw [hw'.line_eq]; exact hnone)
      obtain ⟨hseq, haccess, hlines, hpower⟩ := hw'.reported htests (.inl rfl) hm
      obtain ⟨hact, -, -, hextack, hq, -, hmarker⟩ := hw'.tests htests
      rw [hask] at hexec
      have hline : (heldReport v).line n = v.line n := State.line_of_lines hlines n
      exact ⟨_, hexec, (congrArg Seq.act hseq).trans hact, (congrArg Seq.marker hseq).trans hmarker,
        (congrArg Seq.extack hseq).trans (hextack.trans hack), hleft _ ((congrArg Seq.queue hseq).trans hq),
        fun _ => (hw'.room hw hroom).congr_after hlines hpower, fun h => by simp [hup] at h, fun _ h => absurd hnone h,
        fun _ _ => ⟨hline ▸ hheld, (congrArg Line.takenFrom hline).trans htaken, congrArg Seq.st hseq,
          congrArg Access.matrix haccess, congrArg Access.settleTimer haccess⟩⟩
    · obtain ⟨happ, hothers, hpower, htests, -⟩ := drainFrom_kept hup'
      obtain ⟨hact, hwait, -, hextack, hq, hacc, hmarker⟩ := hw'.tests htests
      rw [askForLine_drains hup' (by rw [hw'.line_eq]; exact hnone)] at hexec
      exact ⟨_, hexec, hact, hmarker, hextack.trans hack, hleft _ hq,
        fun h => (h.elim (fun hdown => by simp [hup] at hdown) fun hq => absurd hq hnone), fun h => by simp [hup] at h,
        fun _ _ => ⟨congrArg Line.st happ, hwait, hacc, fun m hm => (hothers m hm).trans (by rw [hw'.line_eq]),
          hpower.trans (by rw [hw'.apart])⟩, fun _ h => absurd h hnone⟩
  · exact exec_of_row hs rfl (by simp [runRow, cmdDisconnectExternal, hact, refuse_eq])
  · refine exec_of_row hs rfl ?_
    simp [runRow, cmdDisconnectExternal, hact, ho, endExternal, hst, releaseStep, releasePair, hmx, State.modAccess]

end Sys2Proof
end

