-- ==== Sys2Proof/Proofs/Followed.lean ====
section
/-! PROOF. What the operations that follow a change of power state keep of it: the budget, the wakes permitted, and the
scale in the results of the shares. -/

namespace Sys2Proof.Machine

/-- The results of the last recompute are those of the power state in force (R58). -/
def sharesInForce (s : State) : Prop :=
  s.shares.last.power = s.power.state ∧ s.shares.last.scale = (currentPolicy s).scale

/-- What an operation keeps of the power state in force: no line is woken beyond the budget (R167), no wake is listed,
and the results of the shares stay current. -/
structure Follows (s t : State) : Prop where
  power : { t.power with wakeList := s.power.wakeList } = s.power
  wakes : t.power.wakeList.Sublist s.power.wakeList
  budget : awakeCount s ≤ awakeBudget s → awakeCount t ≤ awakeBudget t
  shares : sharesInForce s → sharesInForce t

section
variable {s t u : State}

theorem Follows.refl (s : State) : Follows s s := ⟨rfl, .refl _, id, id⟩

theorem Follows.trans (h : Follows s t) (k : Follows t u) : Follows s u where
  power := calc { u.power with wakeList := s.power.wakeList }
      = { { u.power with wakeList := t.power.wakeList } with wakeList := s.power.wakeList } := rfl
    _ = s.power := by rw [k.power]; exact h.power
  wakes := k.wakes.trans h.wakes
  budget := k.budget ∘ h.budget
  shares := k.shares ∘ h.shares

theorem currentPolicy_congr (h : { t.power with wakeList := s.power.wakeList } = s.power) :
    currentPolicy t = currentPolicy s := by
  have hst : t.power.state = s.power.state := by rw [← h]
  have hpol : t.power.policies = s.power.policies := by rw [← h]
  simp [currentPolicy, hst, hpol]

theorem sharesInForce.congr (h : sharesInForce s) (hp : { t.power with wakeList := s.power.wakeList } = s.power)
    (hs : t.shares = s.shares) : sharesInForce t := by
  have hst : t.power.state = s.power.state := by rw [← hp]
  rwa [sharesInForce, hs, currentPolicy_congr hp, hst]

/-- An operation that wakes no line, lists no wake and leaves the upstream settings and results. -/
theorem Follows.quiet (h : Follows s t) (hl : ∀ m, (u.line m).st = (t.line m).st)
    (hk : u.power = t.power ∧ u.shares = t.shares) : Follows s u := by
  obtain ⟨hp, hs⟩ := hk
  have hpw : { u.power with wakeList := t.power.wakeList } = t.power := by rw [hp]
  exact h.trans ⟨hpw, by rw [hp], fun hb => by rwa [awakeCount_congr hl, awakeBudget_congr hpw],
    fun hc => hc.congr hpw hs⟩

/-- An operation on other blocks than the lines. -/
theorem Follows.beside (h : Follows s t) (hk : u.lines = t.lines ∧ u.power = t.power ∧ u.shares = t.shares) :
    Follows s u :=
  h.quiet (fun m => by rw [State.line_of_lines hk.1]) hk.2

theorem modLine_follows (n : LineNo) (f : Line → Line) (hf : ∀ l, (f l).st = l.st) (h : Follows s t) :
    Follows s (t.modLine n f) := by
  refine h.quiet (fun m => ?_) ⟨rfl, rfl⟩
  by_cases hm : m = n
  · rw [hm, State.modLine_line_self, hf]
  · rw [State.modLine_line_other t f hm]

/-- A recompute makes the results those of the power state in force (R58). -/
theorem recompute_sharesInForce (s : State) : sharesInForce (recompute s) := ⟨rfl, rfl⟩

theorem recompute_follows (h : Follows s t) : Follows s (recompute t) :=
  h.trans ⟨rfl, .refl _, fun hb => (awakeCount_congr fun m => apart_st (recompute_apart t m)).trans_le hb,
    fun _ => recompute_sharesInForce t⟩

theorem recomputeIf_follows (n : LineNo) (before : Line) (h : Follows s t) : Follows s (recomputeIf n before t) := by
  unfold recomputeIf
  split
  · exact recompute_follows h
  · exact h

/-! ## Entries and grants -/

theorem enterCore_wakes_sublist (n : LineNo) (new : LineState) (r : Reason) (s : State) :
    (enterCore n new r s).power.wakeList.Sublist s.power.wakeList := by
  by_cases h : (s.line n).st = new
  · rw [enterCore_of_eq n new r s h]
  · rw [enterCore_power n new r s h]
    split
    · exact List.filter_sublist
    · exact .refl _

/-- The awake count after an entry (R158). -/
theorem enterCore_awakeCount (n : LineNo) (new : LineState) (r : Reason) (s : State) :
    awakeCount (enterCore n new r s) + (if awakeState (s.line n).st then 1 else 0)
      = awakeCount s + (if awakeState new then 1 else 0) := by
  have h := awakeCount_change (s := s) (t := enterCore n new r s) n fun m hm => by
    rw [enterCore_line_other n new r s hm]
  rwa [enterCore_st] at h

/-- An entry that the budget has room for, or that wakes no line. -/
theorem enterCore_follows (n : LineNo) (new : LineState) (r : Reason)
    (hroom : awakeState new = true → awakeState (t.line n).st = false → awakeCount t < awakeBudget t)
    (h : Follows s t) : Follows s (enterCore n new r t) := by
  have hp := (enterCore_moved n new r (.refl t)).power
  refine h.trans ⟨hp, enterCore_wakes_sublist n new r t, fun hb => ?_,
    fun hc => hc.congr hp (by simp)⟩
  have hcount := enterCore_awakeCount n new r t
  rw [awakeBudget_congr hp]
  cases hnew : awakeState new <;> cases hold : awakeState (t.line n).st <;>
    simp only [hnew, hold, Bool.false_eq_true, if_true, if_false, Nat.add_zero] at hcount
  case true.false => exact hcount ▸ hroom hnew hold
  all_goals omega

theorem grantOne_follows (e : WakeEntry) (hroom : awakeCount t < awakeBudget t) (h : Follows s t) :
    Follows s (grantOne e t) := by
  have hd : Follows s (t.modPower fun p => { p with wakeList := p.wakeList.drop 1 }) :=
    h.trans ⟨rfl, List.drop_sublist 1 _, id, id⟩
  unfold grantOne
  dsimp only
  split
  · exact recomputeIf_follows _ _ (enterCore_follows _ _ _ (fun _ _ => hroom) hd)
  · exact hd

theorem grants_follows (k : Nat) (h : Follows s t) : Follows s (grants k t) := by
  induction k generalizing t with
  | zero => exact h
  | succ k ih =>
    unfold grants
    split
    · exact h
    · split
      next hroom => exact ih (grantOne_follows _ hroom h)
      · exact h

/-- An entry that wakes no line, with the grants that follow it. -/
theorem enter_follows (n : LineNo) (new : LineState) (r : Reason)
    (hnew : awakeState new = true → awakeState (t.line n).st = true) (h : Follows s t) :
    Follows s (enter n new r t) := by
  have hc := recomputeIf_follows n (t.line n) (enterCore_follows n new r (fun hn ho => by simp [hnew hn] at ho) h)
  unfold enter
  dsimp only
  split
  · exact grants_follows _ hc
  · exact hc

theorem rederiveQuiet_follows (n : LineNo) (h : Follows s t) : Follows s (rederiveQuiet n t) := by
  unfold rederiveQuiet
  split
  · exact enter_follows n .quiet .idle (by simp [awakeState]) h
  · exact h

theorem takeState_awake {st new : LineState} (h : takeState st = some new) (hn : awakeState new = true) :
    awakeState st = true := by
  cases st <;> simp_all [takeState, awakeState]
  all_goals simp [← h] at hn

theorem takeLine_follows (n : LineNo) (h : Follows s t) : Follows s (takeLine n t) := by
  unfold takeLine
  dsimp only
  split
  next new hst =>
    refine enter_follows n new .taken (fun hn => ?_) (modLine_follows n _ (fun _ => rfl) h)
    rw [State.modLine_line_self]
    exact takeState_awake hst hn
  · exact h

/-! ## Lines returned and tests -/

theorem returnLine_follows (n : LineNo) (g : Option Grade) (h : Follows s t) : Follows s (returnLine n g t) := by
  have hreturn : ∀ l : Line, awakeState (returnState l g) = false := fun l => by
    unfold returnState
    split
    · rfl
    · split <;> rfl
  unfold returnLine
  dsimp only
  split
  · exact enter_follows n _ .returned (fun hn => by simp [hreturn] at hn) h
  next hst => exact enter_follows n .up .returned (fun _ => by rw [hst]; rfl) h
  · split
    · exact enter_follows n .down .returned (by simp [awakeState]) h
    · exact h
  · exact h

theorem writeGrade_follows (n : LineNo) (g : Grade) (h : Follows s t) : Follows s (writeGrade n g t) := by
  unfold writeGrade
  dsimp only
  have hl := modLine_follows n (fun l => { l with grade := g }) (fun _ => rfl) h
  split
  · exact recompute_follows hl
  · exact hl

theorem closeActivity_follows (o : Outcome) (askReturn : Bool) (h : Follows s t) :
    Follows s (closeActivity o askReturn t) := by
  unfold closeActivity
  split
  · exact h
  next a _ =>
    dsimp only
    have hgraded : ∀ (g : Grade) (k : Nat) {u : State}, Follows s u → Follows s (if o = .completed then
        (writeGrade a.line g u).modLine a.line (fun l => { l with lastTest := some k }) else u) := by
      intro g k u hu
      split
      · exact modLine_follows _ _ (fun _ => rfl) (writeGrade_follows _ _ hu)
      · exact hu
    have hreturned : ∀ (g : Option Grade) {u : State}, Follows s u →
        Follows s (if askReturn = true then returnLine a.line g u else u) := by
      intro g u hu
      split
      · exact returnLine_follows _ _ hu
      · exact hu
    have hraised : ∀ (d : Detail) (f : Seq → Seq) {u : State}, Follows s u →
        Follows s ((raise (some a.line) d u).modSeq f) := fun _ _ _ hu => hu.beside (by simp)
    exact hraised _ _ (hreturned _ (hgraded _ _ (h.beside (by simp))))

theorem drainReport_follows (n : LineNo) (h : Follows s t) : Follows s (drainReport n t) := by
  unfold drainReport
  split
  · exact (enter_follows n .held .drained (by simp [awakeState]) h).beside (by simp)
  · exact h

theorem askForLine_follows (n : LineNo) (h : Follows s t) : Follows s (askForLine n t) := by
  unfold askForLine
  dsimp only
  split
  · exact (takeLine_follows n h).beside (by simp)
  · exact drainReport_follows n (takeLine_follows n h)

theorem startRequest_follows (r : TestRequest) (h : Follows s t) : Follows s (startRequest r t) := by
  unfold startRequest
  exact askForLine_follows _ (h.beside (by simp))

theorem selectWalk_follows (k : Nat) (h : Follows s t) : Follows s (selectWalk k t) := by
  induction k generalizing t with
  | zero => exact h
  | succ k ih =>
    unfold selectWalk
    split
    · exact h
    · split
      · exact ih (h.beside (by simp))
      · exact startRequest_follows _ h

theorem boundary_follows (k : State → State) (hk : Follows s (k t)) (h : Follows s t) : Follows s (boundary k t) := by
  unfold boundary
  split
  · exact h.beside (by simp)
  · exact hk

theorem idleStep_follows (h : Follows s t) : Follows s (idleStep t) := by
  unfold idleStep
  split
  · exact boundary_follows _ (selectWalk_follows _ h) h
  · exact h

theorem enterIdle_follows (h : Follows s t) : Follows s (enterIdle t) := idleStep_follows (h.beside (by simp))

theorem abortTestNow_follows (o : Outcome) (h : Follows s t) : Follows s (abortTestNow o t) := by
  unfold abortTestNow
  split
  · exact enterIdle_follows (closeActivity_follows _ _ h)
  · exact h.beside (by simp)
  · exact h.beside (by simp)
  · exact h.beside (by simp)
  · exact closeActivity_follows _ _ h
  all_goals exact h

theorem restrainTest_follows (p : PowerState) (h : Follows s t) : Follows s (restrainTest p t) := by
  unfold restrainTest
  split
  · exact h
  · split
    · exact h
    · split
      · exact h
      · exact h
      · split
        · exact h
        · exact abortTestNow_follows _ h
      · exact abortTestNow_follows _ h

end

end Sys2Proof.Machine
end

