-- ==== Sys2Proof/Proofs/Shedding.lean ====
section
/-! PROOF. The order in which lines are shed (R171), and what the shedding to a budget leaves of the state. -/

namespace Sys2Proof.Machine

section
variable {s t : State}

/-! ## The order of shedding -/

theorem shedBefore_iff {a b : LineNo} : shedBefore s a b = true ↔ shedsFirst s a b := by
  unfold shedBefore shedsFirst
  dsimp only
  by_cases ha : (s.line a).st = .draining <;> by_cases hb : (s.line b).st = .draining <;> simp [ha, hb]
  all_goals
    simp only [Fin.lt_def]
    split
    · split <;> simp <;> omega
    · omega

theorem shedsFirst.trans {a b c : LineNo} (h : shedsFirst s a b) (k : shedsFirst s b c) : shedsFirst s a c := by
  unfold shedsFirst at *
  by_cases ha : (s.line a).st = .draining <;> by_cases hb : (s.line b).st = .draining <;>
    by_cases hc : (s.line c).st = .draining <;> simp [ha, hb, hc, Fin.lt_def, -Fin.val_fin_lt] at h k ⊢ <;> omega

theorem shedsFirst.irrefl (a : LineNo) : ¬ shedsFirst s a a := by simp [shedsFirst]

/-- Two lines are shed one before the other. -/
theorem shedsFirst.total {a b : LineNo} (hne : a ≠ b) (h : ¬ shedsFirst s a b) : shedsFirst s b a := by
  have hval : a.val ≠ b.val := fun e => hne (Fin.ext e)
  unfold shedsFirst at *
  by_cases ha : (s.line a).st = .draining <;> by_cases hb : (s.line b).st = .draining <;>
    simp [ha, hb, Fin.lt_def, -Fin.val_fin_lt] at h ⊢ <;> omega

theorem shedInsert_perm (n : LineNo) (l : List LineNo) : (shedInsert s n l).Perm (n :: l) := by
  induction l with
  | nil => exact .refl _
  | cons m ms ih =>
    unfold shedInsert
    split
    · exact .refl _
    · exact (ih.cons m).trans (.swap n m ms)

theorem shedInsert_sorted {n : LineNo} {l : List LineNo} (hn : n ∉ l) (h : l.Pairwise (shedsFirst s)) :
    (shedInsert s n l).Pairwise (shedsFirst s) := by
  induction l with
  | nil => simp [shedInsert]
  | cons m ms ih =>
    obtain ⟨hfirst, hrest⟩ := List.pairwise_cons.mp h
    obtain ⟨hne, hnot⟩ := not_or.mp (mt List.mem_cons.mpr hn)
    unfold shedInsert
    split
    case isTrue hb =>
      rw [shedBefore_iff] at hb
      refine List.pairwise_cons.mpr ⟨fun x hx => ?_, h⟩
      rcases List.mem_cons.mp hx with rfl | hx
      · exact hb
      · exact hb.trans (hfirst x hx)
    case isFalse hb =>
      rw [shedBefore_iff] at hb
      refine List.pairwise_cons.mpr ⟨fun x hx => ?_, ih hnot hrest⟩
      rcases List.mem_cons.mp ((shedInsert_perm n ms).mem_iff.mp hx) with rfl | hx
      · exact shedsFirst.total hne hb
      · exact hfirst x hx

/-- The order of shedding lists each awake line once, the first to be shed first (R171). -/
theorem shedOrder_sorted (s : State) :
    (shedOrder s).Perm ((indexes 24).filter fun n => awakeState (s.line n).st)
      ∧ (shedOrder s).Pairwise (shedsFirst s) := by
  have hsort : ∀ l : List LineNo, l.Nodup →
      (l.foldr (shedInsert s) []).Perm l ∧ (l.foldr (shedInsert s) []).Pairwise (shedsFirst s) := by
    intro l hl
    induction l with
    | nil => exact ⟨.refl _, .nil⟩
    | cons n l ih =>
      obtain ⟨hn, hl⟩ := List.nodup_cons.mp hl
      obtain ⟨hp, hs⟩ := ih hl
      exact ⟨(shedInsert_perm n _).trans (hp.cons n), shedInsert_sorted (mt hp.mem_iff.mp hn) hs⟩
  exact hsort _ ((List.nodup_finRange 24).filter _)

theorem shedOrder_length (s : State) : (shedOrder s).length = awakeCount s := by
  rw [(shedOrder_sorted s).1.length_eq, awakeCount_eq, List.countP_eq_length_filter]

theorem shedLines_nodup (s : State) : (shedLines s).Nodup :=
  ((shedOrder_sorted s).1.nodup_iff.mpr ((List.nodup_finRange 24).filter _)).sublist (List.take_sublist _ _)

theorem shedLines_awake {n : LineNo} (h : n ∈ shedLines s) : awakeState (s.line n).st = true := by
  have hm := (shedOrder_sorted s).1.mem_iff.mp (List.mem_of_mem_take h)
  simpa using (List.mem_filter.mp hm).2

theorem shedLines_length (s : State) : (shedLines s).length = awakeCount s - awakeBudget s := by
  rw [shedLines, List.length_take, shedOrder_length]
  omega

/-- A line shed sooner than a line that is shed is shed too (R171). -/
theorem shedLines_first {x y : LineNo} (hx : awakeState (s.line x).st = true) (h : shedsFirst s x y)
    (hy : y ∈ shedLines s) : x ∈ shedLines s := by
  obtain ⟨hperm, hsorted⟩ := shedOrder_sorted s
  have hmem : x ∈ shedOrder s := hperm.mem_iff.mpr (List.mem_filter.mpr ⟨mem_indexes x, hx⟩)
  unfold shedLines at *
  generalize awakeCount s - awakeBudget s = k at *
  rw [← List.take_append_drop k (shedOrder s)] at hmem hsorted
  rcases List.mem_append.mp hmem with hin | hlater
  · exact hin
  · exact absurd (h.trans ((List.pairwise_append.mp hsorted).2.2 y hy x hlater)) (shedsFirst.irrefl x)

/-! ## One line shed -/

/-- A test that ends as its line is shed changes no line and no power setting (R166). -/
theorem shedReport_aside (n : LineNo) (s : State) : (shedReport n s).lines = s.lines ∧ (shedReport n s).power = s.power
    ∧ (shedReport n s).shares = s.shares := by
  have hclose : ∀ t : State, (closeActivity .abortedPower false t).lines = t.lines
      ∧ (closeActivity .abortedPower false t).power = t.power
      ∧ (closeActivity .abortedPower false t).shares = t.shares := by
    intro t
    unfold closeActivity
    split
    · exact ⟨rfl, rfl, rfl⟩
    · simp
  unfold shedReport
  split
  · exact ⟨rfl, rfl, rfl⟩
  · split
    · dsimp only
      split <;> exact hclose s
    · exact ⟨rfl, rfl, rfl⟩

theorem shedReport_of_none (n : LineNo) (h : s.seq.act = none) : shedReport n s = s := by simp [shedReport, h]

theorem shedState_asleep (mode : SleepMode) (st : LineState) : asleepState (shedState mode st) = true := by
  cases mode
  · cases st <;> rfl
  · rfl

theorem awake_ne_asleep {a b : LineState} (ha : awakeState a = true) (hb : asleepState b = true) : a ≠ b := by
  rintro rfl
  simp [asleep_not_awake hb] at ha

/-- What the shedding of one awake line leaves of the lines, the power side and the results of the shares. -/
theorem shedLine_shed {n : LineNo} (h : awakeState (s.line n).st = true) :
    (shedLine n s).lines = (enterCore n (shedState (currentPolicy s).sleep (s.line n).st) .shed s).lines
      ∧ (shedLine n s).power = s.power ∧ (shedLine n s).shares = s.shares := by
  have hne := awake_ne_asleep h (shedState_asleep (currentPolicy s).sleep (s.line n).st)
  have hpow := enterCore_power n _ .shed s hne
  rw [awake_not_asleep h] at hpow
  unfold shedLine
  simp only [h, if_true]
  split
  · obtain ⟨hl, hp, hsh⟩ := shedReport_aside n (enterCore n (shedState (currentPolicy s).sleep (s.line n).st) .shed s)
    exact ⟨hl, hp.trans hpow, hsh.trans (by simp)⟩
  · exact ⟨rfl, hpow, by simp⟩

theorem shedLine_st {n : LineNo} (h : awakeState (s.line n).st = true) :
    ((shedLine n s).line n).st = shedState (currentPolicy s).sleep (s.line n).st := by
  rw [State.line_of_lines (shedLine_shed h).1, enterCore_st]

theorem shedLine_line_other {n m : LineNo} (hm : m ≠ n) : (shedLine n s).line m = s.line m := by
  by_cases h : awakeState (s.line n).st = true
  · rw [State.line_of_lines (shedLine_shed h).1, enterCore_line_other n _ .shed s hm]
  · simp [shedLine, h]

/-- A shed line's references are counted as shed, and nothing else is (R39, R171). -/
theorem shedLine_counted {n : LineNo} (hact : s.seq.act = none) (h : awakeState (s.line n).st = true) :
    dropsCounted .shed [(n, (s.line n).refsHeld)] s (shedLine n s) ∧ (shedLine n s).seq = s.seq := by
  have hne := awake_ne_asleep h (shedState_asleep (currentPolicy s).sleep (s.line n).st)
  have hcount := enterCore_counted n _ .shed s hne
  have hflush : ∀ new, entryFlush (s.line n).st new .shed
      = { down := true, up := true, wake := true, hand := true, cause := .shed } := fun _ => rfl
  rw [hflush, refs_all] at hcount
  unfold shedLine
  simp only [h, if_true]
  split
  · rw [shedReport_of_none n (by simpa using hact)]
    exact ⟨hcount, by simp⟩
  · exact ⟨hcount, by simp⟩

/-! ## The shedding -/

/-- What the shedding of the lines `ns` leaves of the state. -/
structure Shed (ns : List LineNo) (s t : State) : Prop where
  st : ∀ m, (t.line m).st = if m ∈ ns then shedState (currentPolicy s).sleep (s.line m).st else (s.line m).st
  others : ∀ m, m ∉ ns → (t.line m).apart = (s.line m).apart
  power : t.power = s.power
  count : awakeCount t + ns.length = awakeCount s
  counted : s.seq.act = none → dropsCounted .shed (ns.map fun n => (n, (s.line n).refsHeld)) s t ∧ t.seq = s.seq

theorem shedFold_shed {ns : List LineNo} (hnd : ns.Nodup) (hawake : ∀ n ∈ ns, awakeState (s.line n).st = true) :
    Shed ns s (ns.foldl (fun s n => shedLine n s) s) := by
  induction ns generalizing s with
  | nil => exact ⟨by simp, fun _ _ => rfl, rfl, rfl, fun _ => ⟨dropsCounted_nil (.refl s), rfl⟩⟩
  | cons n ns ih =>
    obtain ⟨hnot, hnd⟩ := List.nodup_cons.mp hnd
    have hn : awakeState (s.line n).st = true := hawake n (by simp)
    obtain ⟨-, hpow, -⟩ := shedLine_shed hn
    have hpol : currentPolicy (shedLine n s) = currentPolicy s := currentPolicy_congr (by rw [hpow])
    have hother : ∀ m, m ≠ n → (shedLine n s).line m = s.line m := fun m hm => shedLine_line_other hm
    have hline : ∀ m ∈ ns, (shedLine n s).line m = s.line m := fun m hm => hother m fun e => hnot (e ▸ hm)
    have hrest := ih hnd fun m hm => by rw [hline m hm]; exact hawake m (by simp [hm])
    have hone : awakeCount (shedLine n s) + 1 = awakeCount s := by
      have hc := awakeCount_change (s := s) (t := shedLine n s) n fun m hm => by rw [hother m hm]
      rw [shedLine_st hn, hn, asleep_not_awake (shedState_asleep _ _)] at hc
      simpa using hc
    refine ⟨fun m => ?_, fun m hm => ?_, hrest.power.trans hpow, ?_, fun hact => ?_⟩
    · rw [List.foldl_cons, hrest.st m, hpol]
      by_cases hm : m = n
      · subst hm
        simp [hnot, shedLine_st hn]
      · simp [hm, hother m hm]
    · obtain ⟨hne, hout⟩ := not_or.mp (mt List.mem_cons.mpr hm)
      rw [List.foldl_cons, hrest.others m hout, hother m hne]
    · have hc := hrest.count
      rw [List.length_cons, List.foldl_cons]
      omega
    · obtain ⟨hfirst, hseq⟩ := shedLine_counted hact hn
      obtain ⟨hlater, hseq'⟩ := hrest.counted (by rw [hseq]; exact hact)
      have hmap : (ns.map fun m => (m, ((shedLine n s).line m).refsHeld)) = ns.map fun m => (m, (s.line m).refsHeld) :=
        List.map_congr_left fun m hm => by rw [hline m hm]
      rw [hmap] at hlater
      exact ⟨hfirst.append (fun m => by rw [(shedLine_moved n (.refl s)).cfg]) hlater, hseq'.trans hseq⟩

/-- The lines over the budget are shed in their order (R171). -/
theorem shedToBudget_shed (s : State) : Shed (shedLines s) s (shedToBudget s) := by
  have h := shedFold_shed (shedLines_nodup s) fun n hn => shedLines_awake hn
  unfold shedToBudget
  dsimp only
  split
  · exact {
      st := fun m => by rw [apart_st (recompute_apart _ m), h.st m]
      others := fun m hm => by rw [recompute_apart, h.others m hm]
      power := h.power
      count := by rw [awakeCount_congr fun m => apart_st (recompute_apart _ m), h.count]
      counted := h.counted }
  · exact h

/-- The lines that stay awake are as many as the budget allows (R171). -/
theorem shedToBudget_awakeCount (s : State) : awakeCount (shedToBudget s) = min (awakeCount s) (awakeBudget s) := by
  have h := (shedToBudget_shed s).count
  rw [shedLines_length] at h
  omega

end

end Sys2Proof.Machine
end

