-- ==== Sys2Proof/Proofs/Pruning.lean ====
section
/-! PROOF. The removal from the wake list of the entries that the policy in force does not permit (R172), and the counts
that it makes. -/

namespace Sys2Proof.Machine

section
variable {s t : State}

/-! ## The entries kept and removed -/

/-- The entries of the wake list that the policy in force does not permit (R172). -/
def prunedWakes (s : State) : List WakeEntry := s.power.wakeList.filter fun e => (prunedEntry s e).isNone

/-- An entry kept is one that its policy permits, of the same line (R172). -/
theorem prunedEntry_permitted {e w : WakeEntry} (h : prunedEntry s e = some w) : w.line = e.line
    ∧ (w.cause = .sense → (currentPolicy s).wakeSense = true)
    ∧ (w.cause = .downstream → (currentPolicy s).wakeDown = true) := by
  unfold prunedEntry at h
  dsimp only at h
  split at h
  next hc =>
    obtain rfl := Option.some.inj h
    simp [hc]
  next hc =>
    obtain ⟨hd, rfl⟩ := Option.ite_none_right_eq_some.mp h |>.imp_right Option.some.inj
    simp [hc, hd]
  next hc =>
    split at h
    next hsense =>
      obtain rfl := Option.some.inj h
      simp [hc, hsense]
    · obtain ⟨⟨-, -, hdown⟩, rfl⟩ := Option.ite_none_right_eq_some.mp h |>.imp_right Option.some.inj
      simp only [wakeOnDownAllowed, Bool.and_eq_true] at hdown
      simp [hdown]

/-- A wake asked for by START is not removed (R172). -/
theorem prunedEntry_start {e : WakeEntry} (h : e.cause = .start) : prunedEntry s e = some e := by simp [prunedEntry, h]

/-- What becomes of an entry is the same where the power side and the entry's line are. -/
theorem prunedEntry_congr {e : WakeEntry} (hp : t.power = s.power)
    (hl : (t.line e.line).apart = (s.line e.line).apart) : prunedEntry t e = prunedEntry s e := by
  have hpol : currentPolicy t = currentPolicy s := currentPolicy_congr (by rw [hp])
  have hw : (t.line e.line).wakeStore = (s.line e.line).wakeStore :=
    (congrArg Line.wakeStore hl : (t.line e.line).apart.wakeStore = (s.line e.line).apart.wakeStore)
  simp [prunedEntry, hpol, apart_st hl, hw, wakeOnDownAllowed_congr hp (apart_cfg hl)]

/-- The lines of the entries kept stand in the order they stood in. -/
theorem keptWakes_sublist (s : State) (l : List WakeEntry) :
    ((l.filterMap (prunedEntry s)).map WakeEntry.line).Sublist (l.map WakeEntry.line) := by
  induction l with
  | nil => exact .refl _
  | cons e l ih =>
    rw [List.filterMap_cons]
    split
    · exact ih.cons _
    next w hw =>
      simp only [List.map_cons, (prunedEntry_permitted hw).1]
      exact ih.cons_cons _

/-! ## The removals -/

theorem pruneRemove_line_self (e : WakeEntry) (s : State) : ((pruneRemove e s).line e.line).st = (s.line e.line).st
    ∧ ((s.line e.line).st = .dormant → ((pruneRemove e s).line e.line).wakeStore = none)
    ∧ ((s.line e.line).st = .quiet → e.cause = .downstream → ((pruneRemove e s).line e.line).downQ = []) := by
  unfold pruneRemove
  rw [refreshIdle_line, flush_line_self]
  refine ⟨rfl, fun hst => ?_, fun hst hc => ?_⟩
  · simp [Flush.empty, pruneFlush, hst]
  · simp [Flush.empty, pruneFlush, hst, hc]

theorem pruneRemove_line_other (e : WakeEntry) {m : LineNo} (hm : m ≠ e.line) (s : State) :
    (pruneRemove e s).line m = s.line m := by
  unfold pruneRemove
  rw [refreshIdle_line_other _ _ hm, flush_line_other _ _ _ hm]

theorem pruneRemove_counted (e : WakeEntry) (s : State) : dropsCounted .shed [prunedRefs s e] s (pruneRemove e s) := by
  have h := (flush_counted e.line (pruneFlush e (s.line e.line).st) s).congr (.refl s)
    (t' := pruneRemove e s) (.of_eq (by simp [pruneRemove])) fun _ => rfl
  have hlen : ((pruneFlush e (s.line e.line).st).refs (s.line e.line)).length = (prunedRefs s e).2 := by
    unfold prunedRefs pruneFlush Flush.refs
    cases hst : (s.line e.line).st <;> cases hc : e.cause <;> simp
  rwa [hlen] at h

/-- What the removal of the entries `es` leaves of the lines and the counts. -/
structure Pruned (es : List WakeEntry) (s t : State) : Prop where
  st : ∀ m, (t.line m).st = (s.line m).st
  others : ∀ m, (∀ e ∈ es, e.line ≠ m) → t.line m = s.line m
  counted : (es.map WakeEntry.line).Nodup → dropsCounted .shed (es.map (prunedRefs s)) s t
  emptied : (es.map WakeEntry.line).Nodup → ∀ e ∈ es, ((s.line e.line).st = .dormant → (t.line e.line).wakeStore = none)
    ∧ ((s.line e.line).st = .quiet → e.cause = .downstream → (t.line e.line).downQ = [])

theorem removals_pruned (es : List WakeEntry) (s : State) :
    Pruned es s (es.foldl (fun s e => pruneRemove e s) s) := by
  induction es generalizing s with
  | nil => exact ⟨fun _ => rfl, fun _ _ => rfl, fun _ => dropsCounted_nil (.refl s), by simp⟩
  | cons e es ih =>
    obtain ⟨hst, hstore, hqueue⟩ := pruneRemove_line_self e s
    have hother : ∀ m, m ≠ e.line → (pruneRemove e s).line m = s.line m := fun m hm => pruneRemove_line_other e hm s
    have h := ih (pruneRemove e s)
    have hfree : ((e :: es).map WakeEntry.line).Nodup → (∀ x ∈ es, x.line ≠ e.line) ∧ (es.map WakeEntry.line).Nodup :=
      fun hnd => by
        obtain ⟨hnot, hnd⟩ := List.nodup_cons.mp hnd
        exact ⟨fun x hx he => hnot (he ▸ List.mem_map_of_mem hx), hnd⟩
    refine ⟨fun m => (h.st m).trans ?_, fun m hm => ?_, fun hnd => ?_, fun hnd x hx => ?_⟩
    · by_cases hm : m = e.line
      · rw [hm, hst]
      · rw [hother m hm]
    · exact (h.others m fun x hx => hm x (by simp [hx])).trans (hother m fun he => hm e (by simp) he.symm)
    · obtain ⟨hne, hnd⟩ := hfree hnd
      have hmap : es.map (prunedRefs (pruneRemove e s)) = es.map (prunedRefs s) :=
        List.map_congr_left fun x hx => by simp [prunedRefs, hother _ (hne x hx)]
      exact (pruneRemove_counted e s).append (fun m => by rw [(pruneRemove_moved e (.refl s)).cfg])
        (hmap ▸ h.counted hnd)
    · obtain ⟨hne, hnd⟩ := hfree hnd
      rcases List.mem_cons.mp hx with rfl | hx
      · rw [List.foldl_cons, h.others x.line hne]
        exact ⟨hstore, hqueue⟩
      · rw [List.foldl_cons, ← hother _ (hne x hx)]
        exact h.emptied hnd x hx

/-- What the removals leave (R172). -/
theorem prune_pruned (s : State) : Pruned (prunedWakes s) s (prune s) :=
  have h := removals_pruned (prunedWakes s)
    (s.modPower fun p => { p with wakeList := s.power.wakeList.filterMap (prunedEntry s) })
  ⟨h.st, h.others, h.counted, h.emptied⟩

theorem prune_power (s : State) :
    (prune s).power = { s.power with wakeList := s.power.wakeList.filterMap (prunedEntry s) } := by
  unfold prune
  dsimp only
  rw [foldl_keeps State.power _ fun _ _ => pruneRemove_power ..]
  rfl

theorem prunedWakes_nodup (hw : WakesListed s) : ((prunedWakes s).map WakeEntry.line).Nodup :=
  hw.2.sublist (List.filter_sublist.map _)

/-- The lines listed stay listed once each, and asleep (R168, R169). -/
theorem prune_listed (hw : WakesListed s) : WakesListed (prune s) := by
  obtain ⟨hasleep, hnd⟩ := hw
  have hsub := keptWakes_sublist s s.power.wakeList
  rw [WakesListed, prune_power]
  refine ⟨fun w hwm => ?_, hnd.sublist hsub⟩
  obtain ⟨e, he, hkept⟩ := List.mem_filterMap.mp hwm
  rw [(prune_pruned s).st, (prunedEntry_permitted hkept).1]
  exact hasleep e he

/-- An entry kept and an entry removed are of different lines. -/
theorem kept_ne_pruned (hw : WakesListed s) {w e : WakeEntry} (hk : w ∈ s.power.wakeList.filterMap (prunedEntry s))
    (he : e ∈ prunedWakes s) : e.line ≠ w.line := by
  intro heq
  obtain ⟨x, hx, hkept⟩ := List.mem_filterMap.mp hk
  obtain ⟨hem, hnone⟩ := List.mem_filter.mp he
  rw [(prunedEntry_permitted hkept).1] at heq
  obtain rfl := List.inj_on_of_nodup_map hw.2 hem hx heq
  simp [hkept] at hnone

end

end Sys2Proof.Machine
end

