-- ==== Sys2Proof/Proofs/BudgetTaken.lean ====
section
/-! PROOF. What a budget makes of the lines: the lines shed, the wakes removed and the wakes granted, as one step from
the state before to the state after (R97, R170 to R172). -/

namespace Sys2Proof.Machine

section
variable {s t u : State}

/-! ## Counts that do not depend on an order -/

/-- The drops counted do not depend on the order of the lines. -/
theorem dropsCounted.perm {c : LineCause} {xs ys : List (LineNo × Nat)} (h : dropsCounted c xs s t) (hp : ys.Perm xs) :
    dropsCounted c ys s t := by
  rw [dropsCounted_iff] at *
  obtain ⟨htotal, hsets⟩ := h
  have hset : ∀ j, refsOfSet s ys j = refsOfSet s xs j := fun j => ((hp.filter _).map _).sum_eq
  exact ⟨by rw [htotal, (hp.map Prod.snd).sum_eq], fun j => by rw [hsets, hset]⟩

/-! ## The three steps together -/

/-- What the policy in force makes of the lines and of the wake list (R97, R170 to R172), with the counts. -/
def budgetSettled (s t : State) : Prop :=
  budgetTaken (awakeBudget s) (currentPolicy s).sleep (s.power.wakeList.filterMap (prunedEntry s)) s t
    ∧ (∀ e ∈ prunedWakes s, e.cause ≠ .start
        ∧ ((s.line e.line).st = .dormant → (t.line e.line).wakeStore = none)
        ∧ ((s.line e.line).st = .quiet → e.cause = .downstream → (t.line e.line).downQ = []))
    ∧ dropsCounted .shed (shedRefs s t ++ (prunedWakes s).map (prunedRefs s)) s t

/-- An operation that leaves the lines, but for what a recompute writes, the wake list and the counters. -/
theorem budgetSettled.congr (h : budgetSettled s t) (hl : ∀ m, (u.line m).apart = (t.line m).apart)
    (hw : u.power.wakeList = t.power.wakeList) (hc : countsSame t u) : budgetSettled s u := by
  obtain ⟨⟨hcount, hlist, hwoken, hfirst, hrest⟩, hpruned, hcounted⟩ := h
  have hst : ∀ m, (u.line m).st = (t.line m).st := fun m => apart_st (hl m)
  have hrefs : shedRefs s u = shedRefs s t := by simp [shedRefs, hst]
  refine ⟨⟨by rw [awakeCount_congr hst, hcount], by rw [hw, hlist], fun w hwm => ?_, ?_, ?_⟩, fun e he => ?_, ?_⟩
  · exact Line.wokenFrom_congr rfl (hl _).symm rfl rfl (hwoken w hwm)
  · simpa only [hst] using hfirst
  · simpa only [hst] using hrest
  · obtain ⟨hcause, hstore, hqueue⟩ := hpruned e he
    have hs : (u.line e.line).wakeStore = (t.line e.line).wakeStore :=
      (congrArg Line.wakeStore (hl e.line) : (u.line e.line).apart.wakeStore = (t.line e.line).apart.wakeStore)
    have hq : (u.line e.line).downQ = (t.line e.line).downQ :=
      (congrArg Line.downQ (hl e.line) : (u.line e.line).apart.downQ = (t.line e.line).apart.downQ)
    rw [hs, hq]
    exact ⟨hcause, hstore, hqueue⟩
  · rw [hrefs]
    exact hcounted.congr (.refl s) hc fun _ => rfl

/-- Where each line stands after the shedding and the grants: the lines shed are the awake ones that are not awake
afterwards. -/
theorem mem_shedLines_iff {woken : List WakeEntry} (hasleep : ∀ w ∈ woken, asleepState (s.line w.line).st = true)
    (hst : ∀ m, (∀ w ∈ woken, w.line ≠ m) → (t.line m).st =
      if m ∈ shedLines s then shedState (currentPolicy s).sleep (s.line m).st else (s.line m).st) (n : LineNo) :
    n ∈ shedLines s ↔ awakeState (s.line n).st = true ∧ awakeState (t.line n).st = false := by
  have hnot : awakeState (s.line n).st = true → ∀ w ∈ woken, w.line ≠ n := by
    rintro ha w hw rfl
    simp [asleep_not_awake (hasleep w hw)] at ha
  constructor
  · intro hn
    have ha := shedLines_awake hn
    rw [hst n (hnot ha), if_pos hn]
    exact ⟨ha, asleep_not_awake (shedState_asleep _ _)⟩
  · rintro ⟨ha, ht⟩
    by_contra hn
    rw [hst n (hnot ha), if_neg hn, ha] at ht
    simp at ht

theorem shedState_eq (mode : SleepMode) (st : LineState) :
    shedState mode st = if mode = .dormant then .dormant else if st = .training then .down else .quiet := by
  cases mode <;> cases st <;> rfl

/-- What the shedding and the removals leave of the state, with no test running (R171, R172). -/
structure ShedPruned (s t : State) : Prop where
  listed : WakesListed t
  power : t.power = { s.power with wakeList := s.power.wakeList.filterMap (prunedEntry s) }
  limits : t.wakeLimit = s.wakeLimit ∧ t.trainLimit = s.trainLimit
  st : ∀ m, (t.line m).st = if m ∈ shedLines s then shedState (currentPolicy s).sleep (s.line m).st else (s.line m).st
  kept : ∀ w ∈ s.power.wakeList.filterMap (prunedEntry s), (t.line w.line).apart = (s.line w.line).apart
  emptied : ∀ e ∈ prunedWakes s, ((s.line e.line).st = .dormant → (t.line e.line).wakeStore = none)
    ∧ ((s.line e.line).st = .quiet → e.cause = .downstream → (t.line e.line).downQ = [])
  counted : dropsCounted .shed
    ((shedLines s).map (fun n => (n, (s.line n).refsHeld)) ++ (prunedWakes s).map (prunedRefs s)) s t

theorem prunedRefs_congr {e : WakeEntry} (h : (t.line e.line).apart = (s.line e.line).apart) :
    prunedRefs t e = prunedRefs s e := by
  have hs : (t.line e.line).wakeStore = (s.line e.line).wakeStore :=
    (congrArg Line.wakeStore h : (t.line e.line).apart.wakeStore = (s.line e.line).apart.wakeStore)
  have hq : (t.line e.line).downQ = (s.line e.line).downQ :=
    (congrArg Line.downQ h : (t.line e.line).apart.downQ = (s.line e.line).apart.downQ)
  simp [prunedRefs, apart_st h, hs, hq]

theorem prune_shedToBudget (hw : WakesListed s) (hact : s.seq.act = none) : ShedPruned s (prune (shedToBudget s)) := by
  have hshed := shedToBudget_shed s
  have hlimits : (shedToBudget s).wakeLimit = s.wakeLimit ∧ (shedToBudget s).trainLimit = s.trainLimit := by simp
  have hcfg := (shedToBudget_moved (.refl s)).cfg
  generalize shedToBudget s = v at hshed hlimits hcfg
  have hline : ∀ e ∈ s.power.wakeList, (v.line e.line).apart = (s.line e.line).apart := fun e he =>
    hshed.others _ fun hn => by simpa [shedLines_awake hn] using asleep_not_awake (hw.1 e he)
  have hentry : ∀ e ∈ s.power.wakeList, prunedEntry v e = prunedEntry s e := fun e he =>
    prunedEntry_congr hshed.power (hline e he)
  have hkept : v.power.wakeList.filterMap (prunedEntry v) = s.power.wakeList.filterMap (prunedEntry s) := by
    rw [hshed.power]
    exact List.filterMap_congr hentry
  have hremoved : prunedWakes v = prunedWakes s := by
    unfold prunedWakes
    rw [hshed.power]
    exact List.filter_congr fun e he => by rw [hentry e he]
  have hlisted : WakesListed v := hw.sublist
    (fun e he => apart_st (hline e (by rwa [hshed.power] at he))) (by rw [hshed.power])
  have hp := prune_pruned v
  have hin : ∀ e ∈ prunedWakes s, e ∈ s.power.wakeList := fun e he => (List.mem_filter.mp he).1
  exact {
    listed := prune_listed hlisted
    power := by rw [prune_power, hkept, hshed.power]
    limits := by simpa using hlimits
    st := fun m => by rw [hp.st, hshed.st]
    kept := fun w hwm => by
      obtain ⟨e, he, hsome⟩ := List.mem_filterMap.mp hwm
      rw [hp.others w.line fun x hx => kept_ne_pruned hlisted (hkept ▸ hwm) hx,
        (prunedEntry_permitted hsome).1, hline e he]
    emptied := fun e he => by
      rw [← apart_st (hline e (hin e he))]
      exact hp.emptied (prunedWakes_nodup hlisted) e (hremoved ▸ he)
    counted := by
      have hmap : (prunedWakes v).map (prunedRefs v) = (prunedWakes s).map (prunedRefs s) := by
        rw [hremoved]
        exact List.map_congr_left fun e he => prunedRefs_congr (hline e (hin e he))
      have hsecond := hp.counted (prunedWakes_nodup hlisted)
      rw [hmap] at hsecond
      exact (hshed.counted hact).1.append (fun m => by rw [hcfg]) hsecond }

/-- The lines over the budget shed, the wakes removed and the rest granted, with no test running (R170 to R172). -/
theorem grantAll_prune_shedToBudget (hw : WakesListed s) (hact : s.seq.act = none) :
    budgetSettled s (grantAll (prune (shedToBudget s))) := by
  have hp := prune_shedToBudget hw hact
  have hcount : awakeCount (prune (shedToBudget s)) = min (awakeCount s) (awakeBudget s) := by
    rw [awakeCount_congr (prune_pruned _).st, shedToBudget_awakeCount]
  generalize prune (shedToBudget s) = v at hp hcount
  have hlist : v.power.wakeList = s.power.wakeList.filterMap (prunedEntry s) := by rw [hp.power]
  have hg := grantAll_grants hp.listed
  have hbudget : awakeBudget v = awakeBudget s := awakeBudget_congr (by rw [hp.power])
  have hroom : awakeBudget s - min (awakeCount s) (awakeBudget s) = awakeBudget s - awakeCount s := by omega
  rw [hbudget, hcount, hroom, hlist] at hg
  generalize grantAll v = t at hg
  have hasleep : ∀ w ∈ s.power.wakeList.filterMap (prunedEntry s), asleepState (s.line w.line).st = true := by
    intro w hwm
    obtain ⟨e, he, hsome⟩ := List.mem_filterMap.mp hwm
    rw [(prunedEntry_permitted hsome).1]
    exact hw.1 e he
  have hpruned : ∀ e ∈ prunedWakes s, ∀ w ∈ s.power.wakeList.filterMap (prunedEntry s), w.line ≠ e.line :=
    fun e he w hwm => (kept_ne_pruned hw hwm he).symm
  have hkept := hp.kept
  unfold budgetSettled budgetTaken
  generalize s.power.wakeList.filterMap (prunedEntry s) = wakes at *
  have hwoken : ∀ w ∈ wakes.take (awakeBudget s - awakeCount s), w ∈ wakes := fun w hwm => List.mem_of_mem_take hwm
  have hst : ∀ m, (∀ w ∈ wakes.take (awakeBudget s - awakeCount s), w.line ≠ m) → (t.line m).st =
      if m ∈ shedLines s then shedState (currentPolicy s).sleep (s.line m).st else (s.line m).st := fun m hm => by
    rw [apart_st (hg.others m hm), hp.st]
  have hmem := mem_shedLines_iff (fun w hwm => hasleep w (hwoken w hwm)) hst
  refine ⟨⟨?_, ?_, fun w hwm => ?_, fun x y hx hy hxy hax => ?_, fun n hn => ?_⟩, fun e he => ?_, ?_⟩
  · rw [hg.count, hcount, List.length_take]
    omega
  · rw [hg.power]
    exact congrArg (List.drop _) hlist
  · exact Line.wokenFrom_congr (hkept w (hwoken w hwm)) rfl hp.limits.1 hp.limits.2 (hg.each w hwm)
  · by_contra hay
    have hyn := (hmem y).mpr ⟨hy, by simpa using hay⟩
    simp [((hmem x).mp (shedLines_first hx hxy hyn)).2] at hax
  · refine (hst n hn).trans ?_
    rw [shedState_eq]
    simp only [hmem]
  · have hline := hg.others e.line fun w hwm => hpruned e he w (hwoken w hwm)
    have hs : (t.line e.line).wakeStore = (v.line e.line).wakeStore :=
      (congrArg Line.wakeStore hline : (t.line e.line).apart.wakeStore = (v.line e.line).apart.wakeStore)
    have hq : (t.line e.line).downQ = (v.line e.line).downQ :=
      (congrArg Line.downQ hline : (t.line e.line).apart.downQ = (v.line e.line).apart.downQ)
    rw [hs, hq]
    refine ⟨fun hc => ?_, hp.emptied e he⟩
    have hnone := (List.mem_filter.mp he).2
    simp [prunedEntry_start hc] at hnone
  · refine (hp.counted.congr (.refl s) hg.counts fun _ => rfl).perm (.append_right _ (.map _ ?_))
    refine (List.perm_ext_iff_of_nodup ((List.nodup_finRange 24).filter _) (shedLines_nodup s)).mpr fun n => ?_
    simp [hmem]

end

end Sys2Proof.Machine
end

