-- ==== Sys2Proof/Proofs/PowerStates.lean ====
section
/-! PROOF. A change of cabinet power state (R160 to R162, R165, R166, R171, R172). -/

namespace Sys2Proof.Machine

section
variable {s t : State}

/-! ## What every change of power state does -/

/-- What follows the removals keeps the budget and the results of the shares (R58, R167). -/
theorem changePower_follows (left p : PowerState) (cause : PowerCause) (s : State) :
    Follows (prune (shedToBudget (setPowerState p s))) (changePower left p cause s)
      ∧ sharesInForce (changePower left p cause s) ∧ flagged (changePower left p cause s) .powerState := by
  have hafter : ∀ {u v : State}, Follows u v → Follows u (idleStep (restrainTest p v)) := fun h =>
    idleStep_follows (restrainTest_follows p h)
  unfold changePower
  dsimp only
  generalize prune (shedToBudget (setPowerState p s)) = v
  have hderived : Follows v (rederiveAll (grantAll v)) :=
    foldl_holds (Follows v) _ (fun _ n hu => rederiveQuiet_follows n hu) _ _ (grants_follows _ (.refl v))
  have hshares := (hafter (.refl (recompute (rederiveAll (grantAll v))))).shares (recompute_sharesInForce _)
  exact ⟨(hafter (recompute_follows hderived)).beside (by simp),
    hshares.congr (by simp) (by simp), raise_flagged _ _ _⟩

/-- The power side after a change of power state: its state, and nothing listed or woken that its policy does not permit
(R165, R167, R172). -/
theorem changePower_power (left p : PowerState) (cause : PowerCause) (s : State) :
    { (changePower left p cause s).power with wakeList := s.power.wakeList } = (setPowerState p s).power
      ∧ awakeCount (changePower left p cause s) ≤ (s.power.policies.get (PowerState.idx p)).budget
      ∧ (∀ e ∈ (changePower left p cause s).power.wakeList, e.cause = .sense →
          (s.power.policies.get (PowerState.idx p)).wakeSense = true)
      ∧ (∀ e ∈ (changePower left p cause s).power.wakeList, e.cause = .downstream →
          (s.power.policies.get (PowerState.idx p)).wakeDown = true)
      ∧ (changePower left p cause s).shares.last.power = some p
      ∧ (changePower left p cause s).shares.last.scale = (s.power.policies.get (PowerState.idx p)).scale := by
  obtain ⟨hf, ⟨hlast, hscale⟩, -⟩ := changePower_follows left p cause s
  have hshed := (shedToBudget_shed (setPowerState p s)).power
  have hcount := shedToBudget_awakeCount (setPowerState p s)
  generalize shedToBudget (setPowerState p s) = v at *
  generalize changePower left p cause s = t at *
  have hpow : { t.power with wakeList := s.power.wakeList } = (setPowerState p s).power := by
    have h := hf.power
    rw [prune_power, hshed] at h
    exact congrArg (fun x : Power => { x with wakeList := s.power.wakeList }) h
  have hstate : t.power.state = some p := (congrArg Power.state hpow :)
  have hpolicies : t.power.policies = s.power.policies := (congrArg Power.policies hpow :)
  have hpolicy : currentPolicy t = s.power.policies.get (PowerState.idx p) := by
    simp [currentPolicy, hstate, hpolicies]
  have hpolicyv : currentPolicy v = s.power.policies.get (PowerState.idx p) := by
    simp [currentPolicy, hshed, setPowerState]
  have hbudget : awakeBudget t = (s.power.policies.get (PowerState.idx p)).budget := by
    rw [awakeBudget, hstate]
    simp [hpolicy]
  have hbudgetv : awakeBudget (prune v) = awakeBudget (setPowerState p s) :=
    awakeBudget_congr (by rw [prune_power, hshed])
  have hlisted : ∀ e ∈ t.power.wakeList, (e.cause = .sense → (s.power.policies.get (PowerState.idx p)).wakeSense = true)
      ∧ (e.cause = .downstream → (s.power.policies.get (PowerState.idx p)).wakeDown = true) := fun e he => by
    have hmem := hf.wakes.subset he
    rw [prune_power] at hmem
    obtain ⟨x, -, hx⟩ := List.mem_filterMap.mp hmem
    exact hpolicyv ▸ (prunedEntry_permitted hx).2
  refine ⟨hpow, ?_, fun e he => (hlisted e he).1, fun e he => (hlisted e he).2, hlast.trans hstate,
    by rw [hscale, hpolicy]⟩
  rw [← hbudget]
  refine hf.budget ?_
  rw [awakeCount_congr (prune_pruned v).st, hcount, hbudgetv]
  exact min_le_right _ _

/-! ## With no quiet delay and no test -/

/-- No line falls quiet where none has a quiet delay (R93). -/
theorem rederiveAll_of_never (h : ∀ n, (s.line n).cfg.quietDelay = 0) : rederiveAll s = s := by
  refine foldl_holds (· = s) _ (fun u n hu => ?_) _ s rfl
  subst hu
  simp [rederiveQuiet, idleReached, effectiveQuiet, h]

theorem restrainTest_of_none (p : PowerState) (h : s.seq.act = none) : restrainTest p s = s := by simp [restrainTest, h]

/-- A change of power state with no quiet delay, no test and nothing queued (R97, R170 to R172). -/
theorem changePower_settled (left p : PowerState) (cause : PowerCause) (hw : WakesListed s) (hact : s.seq.act = none)
    (hq : s.seq.queue = []) (hd : ∀ n, (s.line n).cfg.quietDelay = 0) :
    budgetSettled (setPowerState p s) (changePower left p cause s) := by
  have hsettled := grantAll_prune_shedToBudget (s := setPowerState p s) hw hact
  have hseq : (grantAll (prune (shedToBudget (setPowerState p s)))).seq = s.seq := by
    simpa using ((shedToBudget_shed (setPowerState p s)).counted hact).2
  have hcfg := (grantAll_moved (prune_moved (shedToBudget_moved (.refl (setPowerState p s))))).cfg
  unfold changePower
  dsimp only
  generalize grantAll (prune (shedToBudget (setPowerState p s))) = v at *
  rw [rederiveAll_of_never (s := v) fun n => by rw [hcfg]; exact hd n,
    restrainTest_of_none p (show (recompute v).seq.act = none by simpa [hseq] using hact)]
  have hrest : budgetSettled (setPowerState p s) (idleStep (recompute v)) := by
    have hrecomputed : budgetSettled (setPowerState p s) (recompute v) :=
      hsettled.congr (recompute_apart v) (by simp) (.of_eq (by simp))
    rcases idleStep_of_rest (s := recompute v) (by simpa [hseq] using hq) with h | h
    · rwa [h]
    · rw [h]
      exact hrecomputed.congr (fun m => congrArg Line.apart (State.line_of_lines (by simp) m)) (by simp)
        (suspendSeq_counts _).1
  exact hrest.congr (fun m => congrArg Line.apart (State.line_of_lines (by simp) m)) (by simp) (raise_countsSame _ _ _)

/-! ## With a test in SETTLING -/

theorem shedReport_of_settling (n : LineNo) (h : s.seq.st ≠ .drainingWait) : shedReport n s = s := by
  unfold shedReport
  split
  · rfl
  · simp [h]

theorem shedToBudget_testsKept (h : s.seq.st ≠ .drainingWait) : testsKept s (shedToBudget s) := by
  have hline : ∀ u n, u.seq = s.seq → (shedLine n u).seq = s.seq := fun u n hu => by
    unfold shedLine
    dsimp only
    split
    · split
      · rw [shedReport_of_settling n (by simpa [hu] using h)]
        simpa using hu
      · simpa using hu
    · exact hu
  refine ⟨by simp, ?_⟩
  have hfold := foldl_holds (fun u => u.seq = s.seq) (fun u n => shedLine n u) hline (shedLines s) s rfl
  unfold shedToBudget
  dsimp only
  split
  · simpa using hfold
  · exact hfold

/-- The restraint of a test in SETTLING by the state entered (R165, R166). -/
theorem restrainTest_settling {a : Activity} {n : LineNo} (p : PowerState) (hact : s.seq.act = some a)
    (ho : a.origin ≠ .external) (hst : s.seq.st = .settling) (hm : s.access.matrix = .settlingIn n) :
    if p = .reserve ∨ p = .conserve ∧ ¬ (a.origin = .demand ∧ a.override = true) then
      (restrainTest p s).seq = { s.seq with st := .releasing, act := some { a with pending := some .abortedPower } }
        ∧ (restrainTest p s).access = { s.access with
            matrix := .settlingOut, settleTimer := some s.access.settleTime, tripped := false, legMv := 0 }
    else testsKept s (restrainTest p s) := by
  have habort := abortTestNow_settling (x := .abortedPower) hst hact hm
  unfold restrainTest
  rw [hact]
  cases p
  · simp [ho, testsKept]
  · simp [ho, testsKept]
  · by_cases hover : a.origin = .demand ∧ a.override = true
    · simp [hover, testsKept]
    · simp only [ho, hover, habort, if_false]
      simp [State.modSeq, State.modAccess]
  · simp only [ho, habort, if_false]
    simp [State.modSeq, State.modAccess]

/-- A change of power state with a test in SETTLING (R165, R166). -/
theorem changePower_settling {a : Activity} {n : LineNo} (left p : PowerState) (cause : PowerCause)
    (hact : s.seq.act = some a) (ho : a.origin ≠ .external) (hst : s.seq.st = .settling)
    (hm : s.access.matrix = .settlingIn n) :
    if p = .reserve ∨ p = .conserve ∧ ¬ (a.origin = .demand ∧ a.override = true) then
      (changePower left p cause s).seq
          = { s.seq with st := .releasing, act := some { a with pending := some .abortedPower } }
        ∧ (changePower left p cause s).access = { s.access with
            matrix := .settlingOut, settleTimer := some s.access.settleTime, tripped := false, legMv := 0 }
    else (changePower left p cause s).seq = s.seq ∧ (changePower left p cause s).access = s.access := by
  obtain ⟨-, hseq⟩ := shedToBudget_testsKept (s := setPowerState p s) (by simp [hst])
  have hkept : ∀ u : State, u = recompute (rederiveAll (grantAll (prune (shedToBudget (setPowerState p s))))) →
      u.seq = s.seq ∧ u.access = s.access := by
    rintro _ rfl
    exact ⟨by simpa using hseq, by simp⟩
  have hraised : ∀ d u, u.seq.st ≠ .idle → (raise none d (idleStep u)).seq = u.seq
      ∧ (raise none d (idleStep u)).access = u.access := fun d u hu => by
    rw [idleStep_busy hu]
    simp
  unfold changePower
  dsimp only
  generalize recompute (rederiveAll (grantAll (prune (shedToBudget (setPowerState p s))))) = u at *
  obtain ⟨hs, ha⟩ := hkept u rfl
  have h := restrainTest_settling (s := u) p (by rw [hs]; exact hact) ho (by rw [hs]; exact hst) (by rw [ha]; exact hm)
  split
  next hp =>
    rw [if_pos hp, hs, ha] at h
    obtain ⟨h1, h2⟩ := h
    obtain ⟨k1, k2⟩ := hraised (.powerState left p cause
      ((idleStep (restrainTest p u)).power.sample.map (·.1)) (awakeCount (shedToBudget (setPowerState p s)))
      (shedLines (setPowerState p s)).length) (restrainTest p u) (by simp [h1])
    exact ⟨k1.trans h1, k2.trans h2⟩
  next hp =>
    rw [if_neg hp] at h
    obtain ⟨h1, h2⟩ := h
    obtain ⟨k1, k2⟩ := hraised (.powerState left p cause
      ((idleStep (restrainTest p u)).power.sample.map (·.1)) (awakeCount (shedToBudget (setPowerState p s)))
      (shedLines (setPowerState p s)).length) (restrainTest p u) (by simp [h2, hs, hst])
    exact ⟨k1.trans (h2.trans hs), k2.trans (h1.trans ha)⟩

/-! ## The events -/

/-- A sample past a threshold (R162). -/
theorem takeSample_changes {st p : PowerState} {mv : Nat} (hst : s.power.state = some st)
    (hmove : sampleMove s.power st mv = some p) : takeSample mv s =
      changePower st p .sample (s.modPower fun x => { x with sample := some (mv, s.mgmt.time) }) := by
  have hst' : (s.modPower fun x => { x with sample := some (mv, s.mgmt.time) }).power.state = some st := hst
  have hmove' : sampleMove (s.modPower fun x => { x with sample := some (mv, s.mgmt.time) }).power st mv = some p :=
    hmove
  simp only [takeSample, hst', hmove']

/-- The loss of mains (R160). -/
theorem loseMains_changes {mv : Nat} (hst : s.power.state = some .mains) (hs : s.power.sample.map Prod.fst = some mv) :
    loseMains s = changePower .mains (batteryChoice s.power mv) .mainsLost
      (s.modPower fun x => { x with mainsOk := false }) := by
  have hst' : (s.modPower fun x => { x with mainsOk := false }).power.state = some .mains := hst
  have hs' : (s.modPower fun x => { x with mainsOk := false }).power.sample.map Prod.fst = some mv := hs
  simp only [loseMains, hst', hs']
  rfl

/-- The expiry of the stable timer (R161). -/
theorem mainsStable_changes {st : PowerState} {k : Nat} (hst : s.power.state = some st)
    (hk : s.power.stableTimer = some k) :
    mainsStable s = changePower st .mains .mainsStable (s.modPower fun x => { x with stableTimer := none }) := by
  simp only [mainsStable, hst, hk]

/-- What decides that a sample changes the state (R162). -/
theorem sampleMove_eq {st p : PowerState} {x : Power} {mv : Nat}
    (h : mv < x.reserve ∧ (st = .battery ∨ st = .conserve) ∧ p = .reserve
      ∨ x.reserve ≤ mv ∧ mv < x.conserve ∧ st = .battery ∧ p = .conserve
      ∨ x.reserve ≤ mv ∧ x.conserve + x.hysteresis ≤ mv ∧ (st = .conserve ∨ st = .reserve) ∧ p = .battery
      ∨ x.reserve + x.hysteresis ≤ mv ∧ mv < x.conserve + x.hysteresis ∧ st = .reserve ∧ p = .conserve) :
    sampleMove x st mv = some p := by
  rcases h with ⟨hr, rfl | rfl, rfl⟩ | ⟨hr, hc, rfl, rfl⟩ | ⟨hr, hc, rfl | rfl, rfl⟩ | ⟨hr, hc, rfl, rfl⟩
  · simp [sampleMove, hr]
  · simp [sampleMove, hr]
  · simp [sampleMove, hc, Nat.not_lt.mpr hr]
  · simp [sampleMove, hc, Nat.not_lt.mpr hr]
  · simp [sampleMove, hc]
  · simp [sampleMove, hr, Nat.not_le.mpr hc]

/-- The battery state that a sample of the loss of mains names (R160). -/
theorem batteryChoice_eq {p : PowerState} {x : Power} {mv : Nat}
    (h : mv < x.reserve ∧ p = .reserve ∨ x.reserve ≤ mv ∧ mv < x.conserve ∧ p = .conserve
      ∨ x.reserve ≤ mv ∧ x.conserve ≤ mv ∧ p = .battery) : batteryChoice x mv = p := by
  rcases h with ⟨hr, rfl⟩ | ⟨hr, hc, rfl⟩ | ⟨hr, hc, rfl⟩
  · simp [batteryChoice, hr]
  · simp [batteryChoice, hc, Nat.not_lt.mpr hr]
  · simp [batteryChoice, Nat.not_lt.mpr hr, Nat.not_lt.mpr hc]

/-! ## From the state before the event -/

theorem prunedEntry_modPower (p : PowerState) {f : Power → Power} (hf : (f s.power).policies = s.power.policies) :
    prunedEntry (setPowerState p (s.modPower f)) = prunedEntry (setPowerState p s) := by
  have hpol : currentPolicy (setPowerState p (s.modPower f)) = currentPolicy (setPowerState p s) :=
    congrArg (fun x : Tab 4 Policy => x.get (PowerState.idx p)) hf
  funext e
  simp [prunedEntry, wakeOnDownAllowed, hpol]
  rfl

end

end Sys2Proof.Machine

namespace Sys2Proof
open Machine

/-- Settles O40: the lines over the budget are shed, the wakes not permitted removed and the rest granted, and what
follows keeps the budget, the wakes permitted and the results of the shares. -/
theorem powerStateChanges : Obligations.PowerStateChanges := by
  intro c st p mv k test pair wakes pruned s hst hr hc
  obtain ⟨f, cause, hexec, hpol, hwakes, hstable, hmains, hsample⟩ : ∃ (f : Power → Power) (cause : PowerCause),
      exec c s = .next (changePower st p cause (s.modPower f)) ∧ (f s.power).policies = s.power.policies
        ∧ (f s.power).wakeList = s.power.wakeList ∧ (c = .mainsStableTimerExpiry → (f s.power).stableTimer = none)
        ∧ (c = .mainsOkDeasserted → (f s.power).mainsOk = false)
        ∧ (c = .batterySample mv → (f s.power).sample = some (mv, s.mgmt.time)) := by
    rcases hc with ⟨rfl, hmove⟩ | ⟨rfl, rfl, hs, hp⟩ | ⟨rfl, hk, rfl⟩
    · refine ⟨fun x => { x with sample := some (mv, s.mgmt.time) }, .sample, congrArg Host.Outcome.next ?_, rfl, rfl,
        by simp, by simp, by simp⟩
      rw [whenRunning, if_pos hr, takeSample_changes hst (sampleMove_eq hmove)]
    · rw [← batteryChoice_eq hp]
      exact ⟨_, .mainsLost, congrArg Host.Outcome.next (loseMains_changes hst hs), rfl, rfl, by simp, by simp, by simp⟩
    · exact ⟨_, .mainsStable, congrArg Host.Outcome.next (mainsStable_changes hst hk), rfl, rfl,
        by simp, by simp, by simp⟩
  obtain ⟨hpow, hcount, hsense, hdown, hlast, hscale⟩ := changePower_power st p cause (s.modPower f)
  obtain ⟨-, -, hflag⟩ := changePower_follows st p cause (s.modPower f)
  have hsettled := changePower_settled (s := s.modPower f) st p cause
  have htest := changePower_settling (s := s.modPower f) (a := test) (n := pair) st p cause
  have hmgmt : (changePower st p cause (s.modPower f)).mgmt = s.mgmt
      ∧ (changePower st p cause (s.modPower f)).memory = s.memory := by simp
  generalize changePower st p cause (s.modPower f) = t at *
  rw [State.modPower_power, hpol] at hcount hsense hdown hscale
  have hpolicies : t.power.policies = s.power.policies := (congrArg Power.policies hpow :).trans hpol
  refine ⟨t, hexec, congrArg Power.state hpow, congrArg Power.lastChange hpow, hflag, hcount, hsense, hdown, hlast,
    hscale, hpolicies, fun h => (congrArg Power.stableTimer hpow :).trans (hstable h),
    fun h => (congrArg Power.mainsOk hpow :).trans (hmains h),
    fun h => (congrArg Power.sample hpow :).trans (hsample h), hmgmt.1, hmgmt.2, ?_, htest⟩
  rintro hw hact hq hd rfl rfl
  have hlisted : WakesListed (s.modPower f) := hw.sublist (fun _ _ => rfl) (by rw [State.modPower_power, hwakes])
  obtain ⟨htaken, hpruned, hcounted⟩ := hsettled hlisted hact hq hd
  have hpolicy : currentPolicy (setPowerState p (s.modPower f)) = s.power.policies.get (PowerState.idx p) :=
    congrArg (fun x : Tab 4 Policy => x.get (PowerState.idx p)) hpol
  have hbudget : awakeBudget (setPowerState p (s.modPower f)) = (s.power.policies.get (PowerState.idx p)).budget :=
    congrArg Policy.budget hpolicy
  have hlist : (setPowerState p (s.modPower f)).power.wakeList = s.power.wakeList := hwakes
  rw [hbudget, hpolicy, hlist, prunedEntry_modPower p hpol] at htaken
  rw [prunedWakes, hlist, prunedEntry_modPower p hpol] at hpruned hcounted
  exact ⟨htaken, hpruned, hcounted⟩

end Sys2Proof
end

