-- ==== Sys2Proof/Proofs/Shares.lean ====
section
/-! PROOF. The share computation (R52 to R58): the weighted rounds raise shares towards their ceilings and take no more
than the excess, so that the shares never exceed the effective capacity. -/

namespace Sys2Proof.Machine

/-! ## Eligible lines -/

theorem eligibleState_iff (st : LineState) : eligibleState st = true ↔ st = .up ∨ st = .draining := by
  cases st <;> simp [eligibleState]

/-- The ceiling lies within the trained upstream rate (R54). -/
theorem ceilingOf_le_upRate (l : Line) : ceilingOf l ≤ l.upRate := by
  unfold ceilingOf
  split
  · exact le_rfl
  · exact min_le_right _ _

/-- The ceiling lies within the cap, if there is one (R54). -/
theorem ceilingOf_le_cap (l : Line) (h : l.cfg.cap ≠ 0) : ceilingOf l ≤ l.cfg.cap := by
  simp [ceilingOf, h]

theorem committedTerm_le_ceiling (l : Line) : committedTerm l ≤ ceilingOf l := by
  unfold committedTerm
  split
  · exact min_le_right _ _
  · exact Nat.zero_le _

theorem committedTerm_eq (l : Line) :
    committedTerm l = if l.st = .up ∨ l.st = .draining then min l.cfg.committed (ceilingOf l) else 0 := by
  simp only [committedTerm, eligibleState_iff, committedOf]

/-! ## Proportional parts -/

/-- Parts of `x` in proportion to weights, rounded down, make up at most the same part of the weights' sum. -/
theorem sum_parts_le {α : Type} (f : α → Nat) (x t : Nat) (l : List α) :
    (l.map fun a => x * f a / t).sum ≤ x * (l.map f).sum / t := by
  induction l with
  | nil => simp
  | cons a l ih =>
    simp only [List.map_cons, List.sum_cons, Nat.mul_add]
    exact (Nat.add_le_add_left ih _).trans Nat.div_add_div_le_add_div

/-- A part for each line makes up at most the whole where the weights sum to the divisor. -/
theorem sum_parts_le_whole {α : Type} (f : α → Nat) (x : Nat) (l : List α) :
    (l.map fun a => x * f a / (l.map f).sum).sum ≤ x :=
  (sum_parts_le f x _ l).trans (Nat.div_le_of_le_mul (Nat.mul_comm x _).le)

theorem sum_le_of_le {α : Type} {f g : α → Nat} (l : List α) (h : ∀ a ∈ l, f a ≤ g a) : (l.map f).sum ≤ (l.map g).sum :=
  List.sum_le_sum h

/-! ## The cells of a round -/

/-- The sum of the shares of the eligible cells. -/
def cellTotal (cs : Tab 24 ShareCell) : Nat := (cs.items.map ShareCell.share).sum

theorem cellTotal_map (cs : Tab 24 ShareCell) (f : ShareCell → ShareCell) (g : ShareCell → Nat)
    (h : ∀ c, (f c).share = c.share + g c) : cellTotal (cs.map f) = cellTotal cs + (cs.items.map g).sum := by
  simp only [cellTotal, Tab.map, List.map_map, ← List.sum_map_add]
  exact congrArg List.sum (List.map_congr_left fun c _ => h c)

/-- What a round gives an unsaturated cell that it does not cut short (R57, step 3). -/
def roundPart (x w : Nat) (c : ShareCell) : Nat := x * (if c.unsat then c.w else 0) / w

theorem roundPart_of_unsat {x w : Nat} {c : ShareCell} (h : c.unsat = true) : roundPart x w c = tentative x w c := by
  simp [roundPart, tentative, h]

theorem roundParts_le (x : Nat) (cs : Tab 24 ShareCell) : (cs.items.map (roundPart x (unsatWeight cs))).sum ≤ x :=
  sum_parts_le_whole _ x cs.items

theorem unsat_iff (c : ShareCell) : c.unsat = true ↔ c.on = true ∧ c.g < c.m := by simp [ShareCell.unsat]

theorem reaches_iff (x w : Nat) (c : ShareCell) :
    c.reaches x w = true ↔ c.unsat = true ∧ c.m ≤ c.g + tentative x w c := by simp [ShareCell.reaches]

theorem grantRound_share (x w : Nat) (c : ShareCell) : (grantRound x w c).share = c.share + roundPart x w c := by
  unfold grantRound
  split
  next h => simp [ShareCell.share, ((unsat_iff c).mp h).1, roundPart_of_unsat h]
  next h => simp [roundPart, h]

theorem saturate_share (x w : Nat) (c : ShareCell) :
    (saturate x w c).share = c.share + if c.reaches x w then c.m - c.g else 0 := by
  unfold saturate
  split
  next h =>
    obtain ⟨hon, hlt⟩ := (unsat_iff c).mp ((reaches_iff x w c).mp h).1
    simp only [ShareCell.share, hon, if_true]
    omega
  next => rfl

/-- The saturated lines take no more than the excess (R57, step 4). -/
theorem taken_le (x : Nat) (cs : Tab 24 ShareCell) : taken x (unsatWeight cs) cs ≤ x := by
  refine (sum_le_of_le _ fun c _ => ?_).trans (roundParts_le x cs)
  split
  next h =>
    obtain ⟨hu, hm⟩ := (reaches_iff _ _ _).mp h
    rw [roundPart_of_unsat hu]
    exact Nat.sub_le_iff_le_add'.mpr hm
  next => exact Nat.zero_le _

/-! ## What a round does to a cell -/

/-- A cell raised, but not beyond its ceiling. -/
structure ShareCell.Raised (a b : ShareCell) : Prop where
  on : b.on = a.on
  m : b.m = a.m
  le : a.g ≤ b.g
  ceiling : a.g ≤ a.m → b.g ≤ b.m

theorem ShareCell.Raised.refl (a : ShareCell) : a.Raised a := ⟨rfl, rfl, le_rfl, id⟩

theorem ShareCell.Raised.trans {a b c : ShareCell} (h : a.Raised b) (k : b.Raised c) : a.Raised c :=
  ⟨k.on.trans h.on, k.m.trans h.m, h.le.trans k.le, k.ceiling ∘ h.ceiling⟩

theorem saturate_raised (x w : Nat) (c : ShareCell) : c.Raised (saturate x w c) := by
  unfold saturate
  split
  next h => exact ⟨rfl, rfl, ((unsat_iff c).mp ((reaches_iff x w c).mp h).1).2.le, fun _ => le_rfl⟩
  next => exact .refl c

theorem grantRound_raised {x w : Nat} {c : ShareCell} (h : c.reaches x w = false) : c.Raised (grantRound x w c) := by
  unfold grantRound
  split
  next hu =>
    have hlt : c.g + tentative x w c < c.m := by simpa [ShareCell.reaches, hu] using h
    exact ⟨rfl, rfl, Nat.le_add_right _ _, fun _ => hlt.le⟩
  next => exact .refl c

theorem not_reaches_of_any {x w : Nat} {cs : Tab 24 ShareCell} (h : ¬cs.items.any (ShareCell.reaches x w) = true)
    (n : LineNo) : (cs.get n).reaches x w = false := by
  by_contra hr
  exact h (List.any_eq_true.mpr ⟨cs.get n, List.getElem_mem _, by simpa using hr⟩)

/-! ## The rounds -/

section
variable (fuel x k : Nat) (cs : Tab 24 ShareCell)

/-- No round is begun with nothing to share out (R57). -/
theorem weightedRounds_zero : weightedRounds fuel 0 k cs = (cs, k) := by
  cases fuel <;> simp [weightedRounds]

/-- A round that no ceiling cuts short is the last (R57, step 3). -/
theorem weightedRounds_grant {n : LineNo} (hx : x ≠ 0) (hn : (cs.get n).unsat = true)
    (h : ∀ m, (cs.get m).reaches x (unsatWeight cs) = false) :
    weightedRounds (fuel + 1) x k cs = (cs.map (grantRound x (unsatWeight cs)), k + 1) := by
  have hany : cs.items.any ShareCell.unsat = true := List.any_eq_true.mpr ⟨cs.get n, List.getElem_mem _, hn⟩
  have hnone : cs.items.any (ShareCell.reaches x (unsatWeight cs)) = false := by
    rw [tab_items_eq_map, List.any_map, List.any_eq_false]
    simp [h]
  simp [weightedRounds, hx, hany, hnone]

/-- The rounds raise each share, but not beyond its ceiling (R57). -/
theorem weightedRounds_raised (n : LineNo) : (cs.get n).Raised ((weightedRounds fuel x k cs).1.get n) := by
  induction fuel generalizing x k cs with
  | zero => exact .refl _
  | succ fuel ih =>
    unfold weightedRounds
    split
    · exact .refl _
    · dsimp only
      split
      · refine ShareCell.Raised.trans ?_ (ih _ _ _)
        rw [Tab.get_map]
        exact saturate_raised _ _ _
      next hnone =>
        rw [Tab.get_map]
        exact grantRound_raised (not_reaches_of_any hnone n)

/-- The rounds hand out no more than the excess (R57, R58). -/
theorem weightedRounds_total : cellTotal (weightedRounds fuel x k cs).1 ≤ cellTotal cs + x := by
  induction fuel generalizing x k cs with
  | zero => exact Nat.le_add_right _ _
  | succ fuel ih =>
    unfold weightedRounds
    split
    · exact Nat.le_add_right _ _
    · dsimp only
      split
      · have htaken := taken_le x cs
        have htotal := cellTotal_map cs (saturate x (unsatWeight cs)) _ (saturate_share x (unsatWeight cs))
        refine (ih _ _ _).trans ?_
        rw [htotal, taken] at *
        omega
      · rw [cellTotal_map cs _ _ (grantRound_share x (unsatWeight cs))]
        exact Nat.add_le_add_left (roundParts_le x cs) _

end

/-! ## The committed part -/

section
variable (ls : Tab 24 Line) (effective : Nat)

theorem shareCell_share (sum : Nat) (l : Line) :
    (shareCell sum effective l).share = committedShare sum effective l := by
  by_cases h : eligibleState l.st = true
  · simp [ShareCell.share, shareCell, h]
  · simp [ShareCell.share, shareCell, h, committedShare, committedTerm]

theorem committedShare_le_ceiling (sum : Nat) (l : Line) : committedShare sum effective l ≤ ceilingOf l := by
  refine le_trans ?_ (committedTerm_le_ceiling l)
  unfold committedShare
  split
  next h => exact Nat.div_le_of_le_mul ((Nat.mul_le_mul_left _ h.le).trans (Nat.mul_comm _ _).le)
  next => exact le_rfl

/-- The committed part and the excess make up the effective capacity at most (R56). -/
theorem committedPart_le :
    cellTotal (ls.map (shareCell (committedSum ls) effective)) + excess (committedSum ls) effective ≤ effective := by
  have hmap : cellTotal (ls.map (shareCell (committedSum ls) effective))
      = (ls.items.map (committedShare (committedSum ls) effective)).sum := by
    simp only [cellTotal, Tab.map, List.map_map]
    exact congrArg List.sum (List.map_congr_left fun l _ => shareCell_share effective _ l)
  rw [hmap]
  by_cases h : effective < committedSum ls
  · have hshare : committedShare (committedSum ls) effective
        = fun l => effective * committedTerm l / (ls.items.map committedTerm).sum :=
      funext fun l => by rw [committedShare, if_pos h, Nat.mul_comm, committedSum]
    rw [excess, if_pos h, hshare]
    exact sum_parts_le_whole committedTerm effective ls.items
  · have hshare : committedShare (committedSum ls) effective = committedTerm :=
      funext fun l => by rw [committedShare, if_neg h]
    rw [excess, if_neg h, hshare, ← committedSum, Nat.add_sub_cancel' (not_lt.mp h)]

/-- The shares make up the effective capacity at most (R58). -/
theorem computeShares_total : cellTotal (computeShares ls effective).1 ≤ effective :=
  (weightedRounds_total _ _ _ _).trans (committedPart_le ls effective)

theorem computeShares_raised (n : LineNo) :
    (shareCell (committedSum ls) effective (ls.get n)).Raised ((computeShares ls effective).1.get n) := by
  have h := weightedRounds_raised 25 (excess (committedSum ls) effective) 0
    (ls.map (shareCell (committedSum ls) effective)) n
  rwa [Tab.get_map] at h

theorem computeShares_on (n : LineNo) : ((computeShares ls effective).1.get n).on = eligibleState (ls.get n).st :=
  (computeShares_raised ls effective n).on

/-- A share is at most the line's ceiling (R57). -/
theorem computeShares_le_ceiling (n : LineNo) : ((computeShares ls effective).1.get n).g ≤ ceilingOf (ls.get n) := by
  have h := computeShares_raised ls effective n
  have hle := h.ceiling (committedShare_le_ceiling effective _ (ls.get n))
  rwa [h.m] at hle

/-- With the committed figures within the capacity each line has its own at least (R56). -/
theorem computeShares_committed (n : LineNo) (h : committedSum ls ≤ effective) :
    committedTerm (ls.get n) ≤ ((computeShares ls effective).1.get n).g := by
  have hle := (computeShares_raised ls effective n).le
  simpa [shareCell, committedShare, Nat.not_lt.mpr h] using hle

/-- Beyond the capacity each line has its proportion, and no round is begun (R56). -/
theorem computeShares_proportional (h : effective < committedSum ls) :
    computeShares ls effective = (ls.map (shareCell (committedSum ls) effective), 0) := by
  simp only [computeShares, excess, h, if_true]
  exact weightedRounds_zero _ _ _

/-- The weight of the lines whose committed figure is below their ceiling (R57, step 1). -/
def openWeight (ls : Tab 24 Line) : Nat :=
  (ls.items.map fun l =>
    if (l.st = .up ∨ l.st = .draining) ∧ l.cfg.committed < ceilingOf l then adjustedWeight l else 0).sum

/-- With the committed figures within the capacity a line is unsaturated at first where its figure is below its
ceiling (R57). -/
theorem shareCell_unsat_iff {sum : Nat} (h : sum ≤ effective) (l : Line) :
    (shareCell sum effective l).unsat = true
      ↔ (l.st = .up ∨ l.st = .draining) ∧ l.cfg.committed < ceilingOf l := by
  rw [unsat_iff]
  simp only [shareCell, committedShare, Nat.not_lt.mpr h, if_false, eligibleState_iff]
  refine and_congr_right fun hel => ?_
  rw [committedTerm_eq, if_pos hel, min_lt_iff]
  omega

theorem unsatWeight_shareCell {sum : Nat} (h : sum ≤ effective) :
    unsatWeight (ls.map (shareCell sum effective)) = openWeight ls := by
  simp only [unsatWeight, openWeight, Tab.map, List.map_map, Function.comp_def, shareCell_unsat_iff effective h]
  rfl

/-- A first round that no line's ceiling cuts short adds to the committed figures by the adjusted weights (R57). -/
theorem computeShares_firstRound {n : LineNo} (h : committedSum ls < effective)
    (hn : ((ls.get n).st = .up ∨ (ls.get n).st = .draining) ∧ (ls.get n).cfg.committed < ceilingOf (ls.get n))
    (hopen : ∀ m, ((ls.get m).st = .up ∨ (ls.get m).st = .draining) → (ls.get m).cfg.committed < ceilingOf (ls.get m) →
      (ls.get m).cfg.committed + (effective - committedSum ls) * adjustedWeight (ls.get m) / openWeight ls
        < ceilingOf (ls.get m)) :
    ((computeShares ls effective).1.get n).g
        = (ls.get n).cfg.committed + (effective - committedSum ls) * adjustedWeight (ls.get n) / openWeight ls
      ∧ (computeShares ls effective).2 = 1 := by
  have hweight := unsatWeight_shareCell ls effective h.le
  have hexcess : excess (committedSum ls) effective = effective - committedSum ls := by
    simp [excess, Nat.not_lt.mpr h.le]
  have hg : ∀ m, ((ls.get m).st = .up ∨ (ls.get m).st = .draining) → (ls.get m).cfg.committed < ceilingOf (ls.get m) →
      (shareCell (committedSum ls) effective (ls.get m)).g = (ls.get m).cfg.committed := by
    intro m hel hlt
    simp only [shareCell, committedShare, Nat.not_lt.mpr h.le, if_false, committedTerm_eq, if_pos hel]
    exact min_eq_left hlt.le
  have hun := (shareCell_unsat_iff effective h.le (ls.get n)).mpr hn
  have hrounds : computeShares ls effective = ((ls.map (shareCell (committedSum ls) effective)).map
      (grantRound (effective - committedSum ls) (openWeight ls)), 1) := by
    rw [← hweight, ← hexcess]
    refine weightedRounds_grant 24 _ 0 _ (n := n) (by omega) (by rwa [Tab.get_map]) fun m => ?_
    rw [Tab.get_map, hweight, hexcess]
    by_contra hr
    obtain ⟨hu, hm⟩ := (reaches_iff _ _ _).mp (by simpa using hr)
    obtain ⟨hel, hlt⟩ := (shareCell_unsat_iff effective h.le _).mp hu
    rw [hg m hel hlt] at hm
    exact absurd (hopen m hel hlt) (Nat.not_lt.mpr hm)
  rw [hrounds]
  refine ⟨?_, rfl⟩
  rw [Tab.get_map, Tab.get_map]
  simp only [grantRound, hun, if_true]
  rw [hg n hn.1 hn.2]
  rfl

end

/-! ## A recompute -/

section
variable (s : State)

/-- The shares stored are those computed (R58). -/
theorem recompute_share (n : LineNo) : ((recompute s).line n).share =
    if eligibleState (s.line n).st then ((computeShares s.lines (recompute s).sched.effective).1.get n).g else 0 := by
  rw [recompute_line]
  simp only [handOver, ShareCell.share, computeShares_on]
  rfl

theorem recompute_shares_total :
    ((recompute s).lines.items.map Line.share).sum
      = cellTotal (computeShares s.lines (recompute s).sched.effective).1 := by
  rw [cellTotal, tab_items_eq_map, tab_items_eq_map (computeShares _ _).1, List.map_map, List.map_map]
  refine congrArg List.sum (List.map_congr_left fun n _ => ?_)
  have h : ((recompute s).lines.get n).share = _ := congrArg Line.share (recompute_line s n)
  simpa [handOver] using h

/-- The shares make up the effective capacity at most (R58). -/
theorem recompute_shares_le : ((recompute s).lines.items.map Line.share).sum ≤ (recompute s).sched.effective := by
  rw [recompute_shares_total]
  exact computeShares_total _ _

end

end Sys2Proof.Machine
end

