-- ==== Sys2Proof/Proofs/Credits.lean ====
section
/-! PROOF. The bounds of shares and credits (R58, R66, R68) across the shared operations: an operation leaves the
figures of the lines, or it moves a line and makes the recompute that the move calls for. -/

namespace Sys2Proof.Machine

/-! ## What the bounds read -/

/-- No stored frame is longer than the largest (R33). -/
def framesFit (p : Pool) : Prop := ∀ x ∈ p.recs, x.2.bytes.length ≤ Config.greatestFrame

/-- What a line brings to the bounds: its state, its share and its credit. -/
def Line.figures (l : Line) : LineState × Nat × Int := (l.st, l.share, l.credit)

/-- What the bounds read of a state is as it was, but for frames let go. -/
structure FiguresKept (s t : State) : Prop where
  lines : ∀ n, (t.line n).figures = (s.line n).figures
  effective : t.sched.effective = s.sched.effective
  fit : framesFit s.pool → framesFit t.pool
  phase : t.mgmt.phase = s.mgmt.phase
  power : t.power.state = s.power.state

/-- What a recompute needs of a state: no credit below its floor, no frame too long, and the part at rest before the
start-up completes (R66, R33, R158). -/
structure CreditFloor (s : State) : Prop where
  floor : ∀ n, -12175 ≤ (s.line n).credit
  fit : framesFit s.pool
  rest : s.running = false → s.power.state = none ∧ ∀ n, eligibleState (s.line n).st = false

section
variable {s t u : State}

theorem Line.figures_eq {a b : Line} (h : a.figures = b.figures) :
    a.st = b.st ∧ a.share = b.share ∧ a.credit = b.credit := by
  simpa [Line.figures] using h

theorem FiguresKept.refl (s : State) : FiguresKept s s := ⟨fun _ => rfl, rfl, id, rfl, rfl⟩

theorem FiguresKept.trans (h : FiguresKept s t) (k : FiguresKept t u) : FiguresKept s u where
  lines n := (k.lines n).trans (h.lines n)
  effective := k.effective.trans h.effective
  fit := k.fit ∘ h.fit
  phase := k.phase.trans h.phase
  power := k.power.trans h.power

/-- An operation that leaves the lines and the pool. -/
theorem FiguresKept.aside (hk : t.lines = s.lines ∧ t.pool = s.pool ∧ t.sched.effective = s.sched.effective
    ∧ t.mgmt.phase = s.mgmt.phase ∧ t.power.state = s.power.state) : FiguresKept s t := by
  obtain ⟨hl, hp, he, hm, hw⟩ := hk
  exact ⟨fun n => by rw [State.line_of_lines hl], he, fun h => hp ▸ h, hm, hw⟩

theorem running_congr (h : t.mgmt.phase = s.mgmt.phase) : t.running = s.running := by
  simp [State.running, h]

theorem CreditKept.toFloor (h : CreditKept s) : CreditFloor s := by
  obtain ⟨hc, -, hf, hr⟩ := h
  exact ⟨fun n => (hc n).1, hf, hr⟩

theorem CreditFloor.of_kept (h : CreditFloor s) (k : FiguresKept s t) : CreditFloor t where
  floor n := by rw [(Line.figures_eq (k.lines n)).2.2]; exact h.floor n
  fit := k.fit h.fit
  rest hr := by
    rw [running_congr k.phase] at hr
    refine ⟨k.power.trans (h.rest hr).1, fun n => ?_⟩
    rw [(Line.figures_eq (k.lines n)).1]
    exact (h.rest hr).2 n

theorem shares_sum_congr (h : ∀ n, (t.line n).share = (s.line n).share) :
    (t.lines.items.map Line.share).sum = (s.lines.items.map Line.share).sum := by
  rw [tab_items_eq_map t.lines, tab_items_eq_map s.lines, List.map_map, List.map_map]
  exact congrArg List.sum (List.map_congr_left fun n _ => h n)

theorem CreditKept.of_kept (h : CreditKept s) (k : FiguresKept s t) : CreditKept t := by
  have hfloor := h.toFloor.of_kept k
  obtain ⟨hc, hsum, -, -⟩ := h
  refine ⟨fun n => ?_, ?_, hfloor.fit, hfloor.rest⟩
  · obtain ⟨hst, hshare, hcredit⟩ := Line.figures_eq (k.lines n)
    rw [hst, hshare, hcredit]
    exact hc n
  · rw [shares_sum_congr fun n => (Line.figures_eq (k.lines n)).2.1, k.effective]
    exact hsum

theorem CreditKept.aside (h : CreditKept s) (hk : t.lines = s.lines ∧ t.pool = s.pool
    ∧ t.sched.effective = s.sched.effective ∧ t.mgmt.phase = s.mgmt.phase ∧ t.power.state = s.power.state) :
    CreditKept t := h.of_kept (.aside hk)

theorem CreditFloor.running_of_eligible (h : CreditFloor s) {n : LineNo} (hn : eligibleState (s.line n).st = true) :
    s.running = true := by
  by_contra hr
  simp [(h.rest (by simpa using hr)).2 n] at hn

/-- A power state is in force once the start-up has completed, and not before (R158). -/
theorem CreditFloor.running_of_state (h : CreditFloor s) (hp : s.power.state ≠ none) : s.running = true := by
  by_contra hr
  exact hp (h.rest (by simpa using hr)).1

/-- A wake can be granted once the start-up has completed, and not before (R167). -/
theorem CreditFloor.running_of_budget (h : CreditFloor s) (hb : awakeCount s < awakeBudget s) : s.running = true := by
  refine h.running_of_state fun hn => ?_
  simp [awakeBudget, hn] at hb

/-! ## The pool -/

theorem dropRef_fit (id : Nat) (h : framesFit s.pool) : framesFit (dropRef id s).pool := by
  cases hr : s.record id with
  | none => rwa [dropRef_none s id hr]
  | some r =>
    have hsub : ∀ x ∈ (dropRef id s).pool.recs, ∃ y ∈ s.pool.recs, y.2.bytes = x.2.bytes := by
      by_cases h1 : r.refs ≤ 1
      · intro x hx
        rw [(dropRef_last s id r hr h1).2] at hx
        exact ⟨x, (List.mem_filter.mp hx).1, rfl⟩
      · intro x hx
        rw [(dropRef_other s id r hr (by omega)).2] at hx
        obtain ⟨y, hy, rfl⟩ := List.mem_map.mp hx
        exact ⟨y, hy, by dsimp only; split <;> rfl⟩
    intro x hx
    obtain ⟨y, hy, he⟩ := hsub x hx
    exact he ▸ h y hy

/-- Frames let go leave no longer ones. -/
theorem Unloads.fit (h : Unloads s t) (hs : framesFit s.pool) : framesFit t.pool := by
  induction h with
  | @letGo s t ids hp _ =>
    rw [hp]
    exact foldl_holds (fun u => framesFit u.pool) _ (fun _ id hu => dropRef_fit id hu) ids s hs
  | cleared hr _ _ _ =>
    intro x hx
    simp [hr] at hx
  | trans _ _ ih ik => exact ik (ih hs)

theorem makeRecord_fit {r : FrameRec} (hr : r.bytes.length ≤ Config.greatestFrame) (h : framesFit s.pool) :
    framesFit (makeRecord r s).pool := by
  intro x hx
  rw [(makeRecord_pool s r).2.1, List.mem_append, List.mem_singleton] at hx
  rcases hx with hx | rfl
  · exact h x hx
  · exact hr

theorem makeRecord_figuresKept {r : FrameRec} (hr : r.bytes.length ≤ Config.greatestFrame) (s : State) :
    FiguresKept s (makeRecord r s) where
  lines n := by rw [makeRecord_line]
  effective := by simp
  fit := makeRecord_fit hr
  phase := by simp
  power := by simp

theorem dropRef_figuresKept (id : Nat) (s : State) : FiguresKept s (dropRef id s) where
  lines n := by rw [State.line_of_lines (dropRef_lines _ _)]
  effective := by simp
  fit := dropRef_fit id
  phase := by simp
  power := by simp

theorem dropRefs_figuresKept (ids : List Nat) (s : State) : FiguresKept s (ids.foldl (fun u id => dropRef id u) s) :=
  foldl_holds (FiguresKept s) _ (fun u id hu => hu.trans (dropRef_figuresKept id u)) ids s (.refl s)

/-! ## One line -/

/-- One line written, but for its state, its share and its credit. -/
theorem modLine_figuresKept (s : State) (n : LineNo) (f : Line → Line)
    (hf : ∀ l, (f l).st = l.st ∧ (f l).share = l.share ∧ (f l).credit = l.credit) :
    FiguresKept s (s.modLine n f) where
  lines m := by
    by_cases hm : m = n
    · obtain ⟨hst, hshare, hcredit⟩ := hf (s.line n)
      rw [hm, State.modLine_line_self, Line.figures, hst, hshare, hcredit]
      rfl
    · rw [State.modLine_line_other s f hm]
  effective := rfl
  fit := id
  phase := rfl
  power := rfl

theorem refreshIdle_figuresKept (n : LineNo) (s : State) : FiguresKept s (refreshIdle n s) :=
  modLine_figuresKept s n _ fun _ => ⟨rfl, rfl, rfl⟩

theorem flush_figuresKept (n : LineNo) (x : Flush) (s : State) : FiguresKept s (flush n x s) where
  lines m := by
    by_cases hm : m = n
    · rw [hm, flush_line_self]
      rfl
    · rw [flush_line_other n s x hm]
  effective := by simp
  fit := (flush_unloads n x (.refl s)).fit
  phase := by simp
  power := by simp

theorem pushQueue_figuresKept (n : LineNo) (k : QueueKind) (id : Nat) (s : State) :
    FiguresKept s (pushQueue n k id s) :=
  (modLine_figuresKept _ n _ (fun _ => by cases k <;> exact ⟨rfl, rfl, rfl⟩)).trans (refreshIdle_figuresKept n _)

/-! ## Recompute -/

theorem depthOf_floor (share : Nat) : (-12175 : Int) ≤ depthOf share := by omega

/-- The credit handed over lies within its bounds (R68). -/
theorem handOver_credit {l : Line} (g : Nat) (h : -12175 ≤ l.credit) :
    -12175 ≤ (handOver g l).credit ∧ (handOver g l).credit ≤ depthOf g := by
  have hdepth := depthOf_floor g
  unfold handOver
  dsimp only
  split
  · exact ⟨le_min h hdepth, min_le_right _ _⟩
  · omega

theorem recompute_floor (h : CreditFloor s) : CreditFloor (recompute s) where
  floor n := by rw [recompute_line]; exact (handOver_credit _ (h.floor n)).1
  fit := h.fit
  rest hr := ⟨(h.rest hr).1, fun n => by rw [recompute_line]; exact (h.rest hr).2 n⟩

/-- A recompute brings every share and credit within its bounds (R58, R66, R68). -/
theorem recompute_credits (h : CreditFloor s) : CreditKept (recompute s) := by
  have hfloor := recompute_floor h
  refine ⟨fun n => ?_, recompute_shares_le s, hfloor.fit, hfloor.rest⟩
  obtain ⟨hlow, hhigh⟩ :=
    handOver_credit ((computeShares s.lines (recompute s).sched.effective).1.get n).share (h.floor n)
  rw [recompute_line]
  refine ⟨hlow, hhigh, fun hoff => ⟨share_off _ ?_, handOver_credit_off _ _ hoff⟩⟩
  rw [computeShares_on]
  exact hoff

/-! ## Entering a state -/

theorem leaveState_figures (l : Line) : (leaveState l).figures = l.figures := by unfold leaveState; split <;> rfl

theorem enterState_figures (s : State) (new : LineState) (l : Line) :
    (enterState s new l).figures = (new, l.share, l.credit) := by
  unfold enterState
  dsimp only
  cases new <;> dsimp only [Line.figures]
  split <;> rfl

/-- An entry changes no share and no credit. -/
theorem enterCore_figures (n : LineNo) (new : LineState) (r : Reason) (s : State) (m : LineNo) :
    ((enterCore n new r s).line m).figures
      = (if m = n then new else (s.line m).st, (s.line m).share, (s.line m).credit) := by
  by_cases hm : m = n
  · subst hm
    rw [if_pos rfl]
    by_cases h : (s.line m).st = new
    · rw [enterCore_of_eq m new r s h, Line.figures, h]
    · rw [enterCore_line_self m new r s h]
      have hleft := Line.figures_eq (leaveState_figures ((entryFlush (s.line m).st new r).empty (s.line m)))
      exact (enterState_figures s new _).trans (by rw [hleft.2.1, hleft.2.2]; rfl)
  · rw [if_neg hm, enterCore_line_other n new r s hm]
    rfl

theorem enterCore_state (n : LineNo) (new : LineState) (r : Reason) (s : State) :
    (enterCore n new r s).power.state = s.power.state :=
  (congrArg Power.state (enterCore_moved n new r (.refl s)).power : _)

theorem enterCore_floor (n : LineNo) (new : LineState) (r : Reason)
    (hnew : eligibleState new = true → s.running = true) (h : CreditFloor s) : CreditFloor (enterCore n new r s) where
  floor m := by
    have hf : ((enterCore n new r s).line m).credit = (s.line m).credit :=
      congrArg (fun x : LineState × Nat × Int => x.2.2) (enterCore_figures n new r s m)
    rw [hf]
    exact h.floor m
  fit := (enterCore_unloads n new r (.refl s)).fit h.fit
  rest hr := by
    have hrun : s.running = false :=
      by rwa [running_congr (s := s) (congrArg Mgmt.phase (enterCore_mgmt s n new r))] at hr
    obtain ⟨hpower, hoff⟩ := h.rest hrun
    refine ⟨(enterCore_state n new r s).trans hpower, fun m => ?_⟩
    have hst : ((enterCore n new r s).line m).st = if m = n then new else (s.line m).st :=
      congrArg Prod.fst (enterCore_figures n new r s m)
    rw [hst]
    split
    · by_contra hel
      simp [hnew (by simpa using hel)] at hrun
    · exact hoff m

/-- An entry that changes no line's eligibility keeps the bounds. -/
theorem enterCore_credits (n : LineNo) (new : LineState) (r : Reason)
    (hsame : eligibleState (s.line n).st = eligibleState new) (h : CreditKept s) :
    CreditKept (enterCore n new r s) := by
  have hfloor := enterCore_floor n new r (fun hn => h.toFloor.running_of_eligible (hsame.trans hn)) h.toFloor
  obtain ⟨hc, hsum, -, -⟩ := h
  have hfig := fun m => Prod.ext_iff.mp (enterCore_figures n new r s m)
  have hshare := fun m => (Prod.ext_iff.mp (hfig m).2).1
  have hcredit := fun m => (Prod.ext_iff.mp (hfig m).2).2
  refine ⟨fun m => ?_, ?_, hfloor.fit, hfloor.rest⟩
  · have hel : eligibleState ((enterCore n new r s).line m).st = eligibleState (s.line m).st := by
      refine (congrArg eligibleState (hfig m).1).trans ?_
      dsimp only
      split
      next hm => rw [hm, hsame]
      next => rfl
    have := hc m
    simp only [Line.figures] at hshare hcredit
    rwa [hel, hshare, hcredit]
  · rw [shares_sum_congr (s := s) hshare, enterCore_sched]
    exact hsum

/-- A line's entry with the recompute that it calls for (R60, R88). -/
theorem enterCore_recomputeIf_credits {n : LineNo} {before : Line} (new : LineState) (r : Reason)
    (hb : before = s.line n) (hnew : eligibleState new = true → s.running = true) (h : CreditKept s) :
    CreditKept (recomputeIf n before (enterCore n new r s)) := by
  subst hb
  unfold recomputeIf
  split
  · exact recompute_credits (enterCore_floor n new r hnew h.toFloor)
  next hcalls =>
    refine enterCore_credits n new r ?_ h
    have hst := enterCore_st s n new r
    simp_all [callsRecompute]

theorem grantOne_credits (e : WakeEntry) (hroom : awakeCount s < awakeBudget s) (h : CreditKept s) :
    CreditKept (grantOne e s) := by
  have hrun := h.toFloor.running_of_budget hroom
  have hd : CreditKept (s.modPower fun p => { p with wakeList := p.wakeList.drop 1 }) :=
    h.aside ⟨rfl, rfl, rfl, rfl, rfl⟩
  unfold grantOne
  dsimp only
  split
  · exact enterCore_recomputeIf_credits _ _ rfl (fun _ => hrun) hd
  · exact hd

theorem grants_credits (k : Nat) (h : CreditKept s) : CreditKept (grants k s) := by
  induction k generalizing s with
  | zero => exact h
  | succ k ih =>
    unfold grants
    split
    · exact h
    · split
      next hroom => exact ih (grantOne_credits _ hroom h)
      · exact h

theorem wakeRequest_credits (n : LineNo) (c : WakeCause) (h : CreditKept s) : CreditKept (wakeRequest n c s) := by
  unfold wakeRequest
  split
  · exact h
  · exact grants_credits _ (h.aside ⟨rfl, rfl, rfl, rfl, rfl⟩)

/-- An entry with its recompute and its grants (R88, R170). A line becomes eligible in service alone. -/
theorem enter_credits (n : LineNo) (new : LineState) (r : Reason)
    (hnew : eligibleState new = true → s.running = true) (h : CreditKept s) : CreditKept (enter n new r s) := by
  have hc := enterCore_recomputeIf_credits (n := n) new r rfl hnew h
  unfold enter
  dsimp only
  split
  · exact grants_credits _ hc
  · exact hc

theorem enter_off_credits (n : LineNo) (new : LineState) (r : Reason) (hoff : eligibleState new = false)
    (h : CreditKept s) : CreditKept (enter n new r s) :=
  enter_credits n new r (fun hon => by simp [hoff] at hon) h

theorem rederiveQuiet_credits (n : LineNo) (h : CreditKept s) : CreditKept (rederiveQuiet n s) := by
  unfold rederiveQuiet
  split
  · exact enter_off_credits n .quiet .idle rfl h
  · exact h

theorem rederiveAll_credits (h : CreditKept s) : CreditKept (rederiveAll s) :=
  foldl_holds CreditKept _ (fun _ n hu => rederiveQuiet_credits n hu) _ s h

theorem rederiveDormant_credits (n : LineNo) (h : CreditKept s) : CreditKept (rederiveDormant n s) := by
  unfold rederiveDormant
  dsimp only
  split
  · split
    · exact enter_off_credits n .dormant .dormantDelay rfl h
    · exact h
  · exact h

theorem takeState_eligible {st new : LineState} (h : takeState st = some new) (hn : eligibleState new = true) :
    eligibleState st = true := by
  cases st with
  | up | draining => rfl
  | _ => cases h <;> cases hn

theorem takeLine_credits (n : LineNo) (h : CreditKept s) : CreditKept (takeLine n s) := by
  unfold takeLine
  dsimp only
  split
  next new hst =>
    exact enter_credits n new .taken (fun hn => h.toFloor.running_of_eligible (takeState_eligible hst hn))
      (h.of_kept (modLine_figuresKept _ n _ (fun _ => ⟨rfl, rfl, rfl⟩)))
  · exact h

theorem returnState_off (l : Line) (g : Option Grade) : eligibleState (returnState l g) = false := by
  unfold returnState
  split
  · rfl
  · split <;> rfl

theorem returnLine_credits (n : LineNo) (g : Option Grade) (h : CreditKept s) : CreditKept (returnLine n g s) := by
  unfold returnLine
  dsimp only
  split
  · exact enter_off_credits n _ .returned (returnState_off _ _) h
  next hst => exact enter_credits n .up .returned (fun _ => h.toFloor.running_of_eligible (n := n) (by rw [hst]; rfl)) h
  · split
    · exact enter_off_credits n .down .returned rfl h
    · exact h
  · exact h

/-- A recompute, where a line's change calls for one. -/
theorem recomputeIf_credits (n : LineNo) (before : Line) (h : CreditKept s) : CreditKept (recomputeIf n before s) := by
  unfold recomputeIf
  split
  · exact recompute_credits h.toFloor
  · exact h

theorem takeRates_credits (n : LineNo) (down up : Nat) (h : CreditKept s) : CreditKept (takeRates n down up s) :=
  recomputeIf_credits n _ (h.of_kept (modLine_figuresKept _ n _ (fun _ => ⟨rfl, rfl, rfl⟩)))

/-! ## The sequencer -/

theorem writeGrade_credits (n : LineNo) (g : Grade) (h : CreditKept s) : CreditKept (writeGrade n g s) := by
  have hl : CreditKept (s.modLine n fun l => { l with grade := g }) :=
    h.of_kept (modLine_figuresKept _ n _ (fun _ => ⟨rfl, rfl, rfl⟩))
  unfold writeGrade
  dsimp only
  split
  · exact recompute_credits hl.toFloor
  · exact hl

theorem closeActivity_credits (o : Outcome) (askReturn : Bool) (h : CreditKept s) :
    CreditKept (closeActivity o askReturn s) := by
  unfold closeActivity
  split
  · exact h
  next a _ =>
    dsimp only
    have hgraded : ∀ (g : Grade) (k : Nat) {u : State}, CreditKept u → CreditKept (if o = .completed then
        (writeGrade a.line g u).modLine a.line (fun l => { l with lastTest := some k }) else u) := by
      intro g k u hu
      split
      · exact (writeGrade_credits _ _ hu).of_kept (modLine_figuresKept _ _ _ (fun _ => ⟨rfl, rfl, rfl⟩))
      · exact hu
    have hreturned : ∀ (g : Option Grade) {u : State}, CreditKept u →
        CreditKept (if askReturn = true then returnLine a.line g u else u) := by
      intro g u hu
      split
      · exact returnLine_credits _ _ hu
      · exact hu
    have hraised : ∀ (d : Detail) (f : Seq → Seq) {u : State}, CreditKept u →
        CreditKept ((raise (some a.line) d u).modSeq f) := fun _ _ _ hu => hu.aside (by simp)
    exact hraised _ _ (hreturned _ (hgraded _ _ (h.aside (by simp))))

theorem drainReport_credits (n : LineNo) (h : CreditKept s) : CreditKept (drainReport n s) := by
  unfold drainReport
  split
  · exact (enter_off_credits n .held .drained rfl h).aside (by simp)
  · exact h

theorem askForLine_credits (n : LineNo) (h : CreditKept s) : CreditKept (askForLine n s) := by
  unfold askForLine
  dsimp only
  split
  · exact (takeLine_credits n h).aside (by simp)
  · exact drainReport_credits n (takeLine_credits n h)

theorem startRequest_credits (r : TestRequest) (h : CreditKept s) : CreditKept (startRequest r s) := by
  unfold startRequest
  exact askForLine_credits _ (h.aside (by simp))

theorem selectWalk_credits (k : Nat) (h : CreditKept s) : CreditKept (selectWalk k s) := by
  induction k generalizing s with
  | zero => exact h
  | succ k ih =>
    unfold selectWalk
    split
    · exact h
    · split
      · exact ih (h.aside (by simp))
      · exact startRequest_credits _ h

theorem boundary_credits (k : State → State) (hk : CreditKept (k s)) (h : CreditKept s) :
    CreditKept (boundary k s) := by
  unfold boundary
  split
  · exact h.aside (by simp)
  · exact hk

theorem idleStep_credits (h : CreditKept s) : CreditKept (idleStep s) := by
  unfold idleStep
  split
  · exact boundary_credits _ (selectWalk_credits _ h) h
  · exact h

theorem joining_credits (offer : State → State) (ho : CreditKept (offer s)) : CreditKept (joining offer s) := by
  unfold joining
  dsimp only
  split
  · exact idleStep_credits ho
  · exact ho

theorem placesFreed_credits (h : CreditKept s) : CreditKept (placesFreed s) :=
  idleStep_credits (foldl_holds CreditKept _ (fun u _ hu => foldl_holds CreditKept _
    (fun _ _ hv => joining_credits _ (hv.aside (by simp))) _ u hu) _ s h)

theorem enterIdle_credits (h : CreditKept s) : CreditKept (enterIdle s) := idleStep_credits (h.aside (by simp))

theorem afterExternal_credits (h : CreditKept s) : CreditKept (afterExternal s) := by
  unfold afterExternal
  split
  · exact h.aside (by simp)
  · exact enterIdle_credits h

theorem releasedReport_credits (h : CreditKept s) : CreditKept (releasedReport s) := by
  unfold releasedReport
  split
  · exact enterIdle_credits h
  · split
    · exact afterExternal_credits (closeActivity_credits _ _ h)
    · exact enterIdle_credits (closeActivity_credits _ _ h)

theorem abortTestNow_credits (o : Outcome) (h : CreditKept s) : CreditKept (abortTestNow o s) := by
  unfold abortTestNow
  split
  · exact enterIdle_credits (closeActivity_credits _ _ h)
  · exact h.aside (by simp)
  · exact h.aside (by simp)
  · exact h.aside (by simp)
  · exact closeActivity_credits _ _ h
  all_goals exact h

theorem endExternal_credits (h : CreditKept s) : CreditKept (endExternal s) := by
  unfold endExternal
  split
  · exact afterExternal_credits (closeActivity_credits _ _ h)
  · exact h.aside (by simp)
  · exact h.aside (by simp)
  · exact h

theorem restrainTest_credits (p : PowerState) (h : CreditKept s) : CreditKept (restrainTest p s) := by
  unfold restrainTest
  split
  · exact h
  · split
    · exact h
    · split
      · exact h
      · exact h
      · split
        · exact h
        · exact abortTestNow_credits _ h
      · exact abortTestNow_credits _ h

end

end Sys2Proof.Machine
end

