-- ==== Sys2Proof/Proofs/CreditSteps.lean ====
section
/-! PROOF. The bounds of shares and credits (R58, R66, R68) across every step. -/

namespace Sys2Proof.Machine

section
variable {s t u : State}

/-- With the start-up completed the bounds read the lines, the pool and the effective capacity alone. -/
theorem CreditKept.inService (h : CreditKept s) (hrun : t.running = true) (hl : t.lines = s.lines)
    (hp : t.pool = s.pool) (he : t.sched.effective = s.sched.effective) : CreditKept t := by
  obtain ⟨hc, hsum, hf, -⟩ := h
  refine ⟨fun n => ?_, by rw [hl, he]; exact hsum, hp ▸ hf, fun hr => by simp [hrun] at hr⟩
  rw [State.line_of_lines hl]
  exact hc n

/-- With no share and no credit handed out the bounds hold. -/
theorem CreditKept.of_unshared (hz : ∀ n, (s.line n).share = 0 ∧ (s.line n).credit = 0) (hf : framesFit s.pool)
    (hr : s.running = false → s.power.state = none ∧ ∀ n, eligibleState (s.line n).st = false) : CreditKept s := by
  refine ⟨fun n => ?_, ?_, hf, hr⟩
  · rw [(hz n).2]
    exact ⟨by decide, Int.natCast_nonneg _, fun _ => ⟨(hz n).1, rfl⟩⟩
  · have hsum : (s.lines.items.map Line.share).sum = 0 := by
      rw [tab_items_eq_map, List.map_map]
      refine List.sum_eq_zero fun x hx => ?_
      obtain ⟨n, -, rfl⟩ := List.mem_map.mp hx
      exact (hz n).1
    rw [hsum]
    exact Nat.zero_le _

/-- A state that a condition chooses keeps the bounds. -/
theorem CreditKept.ite {p : Prop} [Decidable p] {a b : State} (ha : CreditKept a) (hb : CreditKept b) :
    CreditKept (if p then a else b) := by
  split
  · exact ha
  · exact hb

/-! ## Shedding and pruning -/

theorem shedState_off (mode : SleepMode) (st : LineState) : eligibleState (shedState mode st) = false := by
  cases mode with
  | dormant => rfl
  | quiet => cases st <;> rfl

theorem shedReport_figuresKept (n : LineNo) (s : State) : FiguresKept s (shedReport n s) where
  lines m := by rw [State.line_of_lines (shedReport_aside n s).1]
  effective := by
    unfold shedReport closeActivity
    split
    · rfl
    · split <;> simp only [reduceCtorEq, if_false, Bool.false_eq_true]
      split <;> simp
  fit := (shedReport_unloads n (.refl s)).fit
  phase := by simp
  power := by rw [(shedReport_aside n s).2.1]

/-- What the shedding of one line needs for the recompute that follows (R171). -/
theorem shedLine_floor (n : LineNo) (h : CreditFloor s) : CreditFloor (shedLine n s) := by
  have hcore := enterCore_floor n (shedState (currentPolicy s).sleep (s.line n).st) .shed
    (fun hn => by simp [shedState_off] at hn) h
  unfold shedLine
  dsimp only
  split
  · split
    · exact hcore.of_kept (shedReport_figuresKept n _)
    · exact hcore
  · exact h

/-- The shedding of a line in TRAINING changes no line's eligibility. -/
theorem shedLine_off_credits {n : LineNo} (hoff : eligibleState (s.line n).st = false) (h : CreditKept s) :
    CreditKept (shedLine n s) := by
  have hcore := enterCore_credits n (shedState (currentPolicy s).sleep (s.line n).st) .shed
    (by rw [hoff, shedState_off]) h
  unfold shedLine
  dsimp only
  split
  · split
    · exact hcore.of_kept (shedReport_figuresKept n _)
    · exact hcore
  · exact h

/-- A shed makes no line eligible. -/
theorem shedLine_stays_off {n m : LineNo} (hoff : eligibleState (s.line m).st = false) :
    eligibleState ((shedLine n s).line m).st = false := by
  by_cases hm : m = n
  · subst hm
    by_cases ha : awakeState (s.line m).st = true
    · rw [shedLine_st ha, shedState_off]
    · simp [shedLine, ha, hoff]
  · rwa [shedLine_line_other hm]

theorem shedLines_off_credits {ns : List LineNo} (hoff : ∀ n ∈ ns, eligibleState (s.line n).st = false)
    (h : CreditKept s) : CreditKept (ns.foldl (fun s n => shedLine n s) s) := by
  induction ns generalizing s with
  | nil => exact h
  | cons n ns ih =>
    refine ih (fun m hm => shedLine_stays_off (hoff m (List.mem_cons_of_mem n hm))) ?_
    exact shedLine_off_credits (hoff n List.mem_cons_self) h

theorem shedToBudget_credits (h : CreditKept s) : CreditKept (shedToBudget s) := by
  unfold shedToBudget
  dsimp only
  split
  · exact recompute_credits (foldl_holds CreditFloor _ (fun _ n hu => shedLine_floor n hu) _ s h.toFloor)
  next hcalled =>
    refine shedLines_off_credits (fun n hn => ?_) h
    by_contra hon
    exact hcalled (List.any_eq_true.mpr ⟨n, hn, by simpa using hon⟩)

theorem prune_credits (h : CreditKept s) : CreditKept (prune s) :=
  foldl_holds CreditKept _
    (fun u _ hu => hu.of_kept ((flush_figuresKept _ _ u).trans (refreshIdle_figuresKept _ _))) _ _
    (h.aside ⟨rfl, rfl, rfl, rfl, rfl⟩)

/-! ## Cabinet power -/

theorem changePower_credits (l p : PowerState) (c : PowerCause) (hrun : s.running = true) (h : CreditKept s) :
    CreditKept (changePower l p c s) := by
  have hset : CreditKept (setPowerState p s) := h.inService hrun rfl rfl rfl
  have hgranted : CreditKept (grantAll (prune (shedToBudget (setPowerState p s)))) :=
    grants_credits _ (prune_credits (shedToBudget_credits hset))
  have htest := idleStep_credits (restrainTest_credits p (recompute_credits (rederiveAll_credits hgranted).toFloor))
  unfold changePower
  dsimp only
  exact htest.aside (by simp)

theorem takeSample_credits (mv : Nat) (h : CreditKept s) : CreditKept (takeSample mv s) := by
  have hp : CreditKept (s.modPower fun p => { p with sample := some (mv, s.mgmt.time) }) :=
    h.aside ⟨rfl, rfl, rfl, rfl, rfl⟩
  unfold takeSample
  dsimp only
  split
  · exact hp
  next st hst =>
    split
    · exact hp
    · exact changePower_credits _ _ _ (hp.toFloor.running_of_state (by rw [hst]; simp)) hp

theorem loseMains_credits (h : CreditKept s) : CreditKept (loseMains s) := by
  have hp : CreditKept (s.modPower fun p => { p with mainsOk := false }) := h.aside ⟨rfl, rfl, rfl, rfl, rfl⟩
  unfold loseMains
  dsimp only
  split
  · exact hp
  next hst => exact changePower_credits _ _ _ (hp.toFloor.running_of_state (by rw [hst]; simp)) hp
  · exact hp.aside ⟨rfl, rfl, rfl, rfl, rfl⟩

theorem gainMains_credits (h : CreditKept s) : CreditKept (gainMains s) := by
  unfold gainMains
  dsimp only
  split <;> exact h.aside ⟨rfl, rfl, rfl, rfl, rfl⟩

theorem mainsStable_credits (h : CreditKept s) : CreditKept (mainsStable s) := by
  unfold mainsStable
  split
  next hst =>
    exact changePower_credits _ _ _ (h.toFloor.running_of_state (by simp [hst])) (h.aside ⟨rfl, rfl, rfl, rfl, rfl⟩)
  · exact h

/-! ## Frames stored -/

theorem receptionDrop_length {k : Nat} {f : List Byte} (h : receptionDrop k f = none) :
    4 ≤ f.length ∧ f.length ≤ k := by
  unfold receptionDrop at h
  split at h
  · cases h
  · split at h
    · cases h
    · split at h
      · cases h
      next hshort hlong =>
        simp only [Config.leastFrame] at hshort
        omega

theorem queueFrame_figuresKept (n : LineNo) (k : QueueKind) (c d : LineCause) {r : FrameRec}
    (hr : r.bytes.length ≤ Config.greatestFrame) (s : State) : FiguresKept s (queueFrame n k c d r s) := by
  unfold queueFrame
  split
  · exact .aside (by simp)
  · split
    · exact .aside (by simp)
    · exact (makeRecord_figuresKept hr s).trans (pushQueue_figuresKept n k _ _)

theorem toWakeStore_credits (n : LineNo) {f : List Byte} (hf : f.length ≤ Config.greatestFrame) (h : CreditKept s) :
    CreditKept (toWakeStore n f s) := by
  unfold toWakeStore
  dsimp only
  split
  · exact h.aside (by simp)
  · split
    · exact h.aside (by simp)
    · split
      · exact h.aside (by simp)
      · exact wakeRequest_credits n _ (h.of_kept ((makeRecord_figuresKept (r := downRecord f 1) hf s).trans
          (modLine_figuresKept _ n _ fun _ => ⟨rfl, rfl, rfl⟩)))

theorem decideUnicast_credits (n : LineNo) {f : List Byte} (hf : f.length ≤ Config.greatestFrame) (h : CreditKept s) :
    CreditKept (decideUnicast n f s) := by
  have hq := h.of_kept (queueFrame_figuresKept n .down .downPoolFull .downQueueFull (r := downRecord f 1) hf s)
  unfold decideUnicast
  dsimp only
  split
  · exact hq
  · split
    · exact wakeRequest_credits n _ hq
    · exact hq
  · exact toWakeStore_credits n hf h
  all_goals exact h.aside (by simp)

theorem replicate_figuresKept {f : List Byte} (hf : f.length ≤ Config.greatestFrame) (s : State) :
    FiguresKept s (replicate f s) := by
  unfold replicate
  dsimp only
  split
  · exact .aside (by simp)
  · split
    · exact .aside (by simp)
    · have hno := foldl_holds (FiguresKept s) (fun u n => countDrop n .downQueueFull u)
        (fun u n hu => hu.trans (.aside (by simp)))
        ((recipients s f).filter fun n => !queueRoom s n .down (cellsFor f.length)) s (.refl s)
      split
      · exact hno
      · exact foldl_holds (FiguresKept s) _ (fun u n hu => hu.trans (pushQueue_figuresKept n _ _ u)) _ _
          (hno.trans (makeRecord_figuresKept (r := downRecord f _) hf _))

theorem sortDownstream_credits {f : List Byte} (hf : f.length ≤ Config.greatestFrame) (h : CreditKept s) :
    CreditKept (sortDownstream f s) := by
  unfold sortDownstream unicast
  split
  · exact h.aside (by simp)
  · split
    · exact h.aside (by simp)
    · split
      · exact h.of_kept (replicate_figuresKept hf s)
      · split
        · exact h.aside (by simp)
        · split
          · exact decideUnicast_credits _ hf h
          · exact h.aside (by simp)

theorem takeAdvisory_credits (v : Nat) (h : CreditKept s) : CreditKept (takeAdvisory v s) := by
  have hadv : ∀ f g, CreditKept (((countDev .advisories s).modShares f).modShares g) := fun _ _ => h.aside (by simp)
  have hrest : ∀ f g d, CreditKept ((raise none d ((countDev .advisories s).modShares f)).modShares g) :=
    fun _ _ _ => h.aside (by simp)
  unfold takeAdvisory
  dsimp only
  split
  · exact recompute_credits (hrest _ _ _).toFloor
  · exact recompute_credits (hadv _ _).toFloor

theorem takePause_credits (m : Byte) (d : Nat) (h : CreditKept s) : CreditKept (takePause m d s) :=
  h.aside (by simp [takePause])

theorem queueControl_credits (p : Port) (f : List Byte) (h : CreditKept s) : CreditKept (queueControl p f s) := by
  unfold queueControl
  split
  · exact h.aside ⟨rfl, rfl, rfl, rfl, rfl⟩
  · exact h.aside (by simp)

theorem recogniseUplink_credits {f : List Byte} (hf : f.length ≤ Config.greatestFrame) (h : CreditKept s) :
    CreditKept (recogniseUplink f s) := by
  unfold recogniseUplink backhaulFrame
  split
  · dsimp only
    split
    · exact takeAdvisory_credits _ h
    · split
      · exact takePause_credits _ _ h
      · exact h.aside (by simp)
  · split
    · split
      · exact h.aside (by simp)
      · exact queueControl_credits _ f h
    · exact sortDownstream_credits hf h

theorem recogniseCraft_credits (b : Bool) (f : List Byte) (h : CreditKept s) : CreditKept (recogniseCraft b f s) := by
  unfold recogniseCraft
  split
  · exact h.aside (by simp)
  · split
    · exact queueControl_credits _ f h
    · exact h.aside (by simp)

theorem sourceCheck_credits (n : LineNo) (a : Addr) (h : CreditKept s) : CreditKept (sourceCheck n a s).2 := by
  rcases sourceCheck_cases n a s with ⟨d, hd⟩ | ⟨c, es, hc⟩ | ⟨c, es, hc⟩
  · rw [hd]
    exact h.aside (by simp)
  · rw [hc]
    exact h.aside ⟨rfl, rfl, rfl, rfl, rfl⟩
  · rw [hc]
    exact h.aside ⟨rfl, rfl, rfl, rfl, rfl⟩

theorem upstream_credits (n : LineNo) {f : List Byte} (hf : 4 ≤ f.length ∧ f.length ≤ Config.greatestLineFrame)
    (h : CreditKept s) : CreditKept (upstream n f s) := by
  have htagged : ∀ v, (insertTag v f).length ≤ Config.greatestFrame := fun v => by
    rw [insertTag_length _ hf.1]
    exact Nat.add_le_add_right hf.2 4
  unfold upstream
  split
  · exact h.aside (by simp)
  · split
    · exact h.aside (by simp)
    · split
      · exact h.aside (by simp)
      · have hc := sourceCheck_credits n (frameSrc f) h
        split
        next hs =>
          rw [hs] at hc
          exact hc.of_kept (queueFrame_figuresKept n _ _ _ (htagged _) _)
        next hs =>
          rw [hs] at hc
          exact hc
      · exact h.aside (by simp)

theorem receive_credits (k : Nat) (f : List Byte) (pass : State → State)
    (hp : 4 ≤ f.length ∧ f.length ≤ k → CreditKept (pass s)) (h : CreditKept s) : CreditKept (receive k f pass s) := by
  unfold receive
  split
  · exact h.aside (by simp)
  next hdrop =>
    split
    · exact hp (receptionDrop_length hdrop)
    · exact h.aside (by simp)

/-! ## The upstream side -/

/-- A credited pass serves a line with credit (R72, R73). -/
theorem choose_credited {n : LineNo} {c : Cls} (h : choose s = some (.credited n c)) : 0 < (s.line n).credit := by
  have hpass : ∀ d, creditedPass d s = some (.credited n c) → 0 < (s.line n).credit := by
    intro d hd
    unfold creditedPass at hd
    split at hd
    · cases hd
    · obtain ⟨m, hm, he⟩ := Option.map_eq_some_iff.mp hd
      cases he
      have := List.find?_some hm
      simp only [Bool.and_eq_true, decide_eq_true_eq] at this
      exact this.2
  have hman : managementPass s ≠ some (.credited n c) := by
    unfold managementPass
    split <;> simp
  have hspare : sparePass s ≠ some (.credited n c) := by
    unfold sparePass
    split <;> simp
  unfold choose at h
  cases hm : managementPass s with
  | some x => exact absurd (hm.trans (by simpa [hm] using h)) hman
  | none =>
    cases hp : creditedPass .prio s with
    | some x => exact hpass _ (hp.trans (by simpa [hm, hp] using h))
    | none =>
      cases hb : creditedPass .bulk s with
      | some x => exact hpass _ (hb.trans (by simpa [hm, hp, hb] using h))
      | none => exact absurd (by simpa [hm, hp, hb] using h) hspare

theorem chargeOf_bounds (h : framesFit s.pool) (id : Nat) : 0 ≤ chargeOf s id ∧ chargeOf s id ≤ 12176 := by
  unfold chargeOf
  cases hr : s.record id with
  | none => simp
  | some r =>
    have hlen : r.bytes.length ≤ 1522 := h _ (mem_of_lookup hr)
    simp only [Option.elim, FrameRec.length]
    omega

/-- A charge takes a line's credit from above 0 to -12,175 at the least (R69). -/
theorem chargeHead_credits (n : LineNo) (c : Cls) (hpos : 0 < (s.line n).credit) (h : CreditKept s) :
    CreditKept (chargeHead n c s) := by
  unfold chargeHead
  split
  · exact h
  next id _ _ =>
    obtain ⟨hc, hsum, hf, hr⟩ := h
    obtain ⟨hlow, hhigh⟩ := chargeOf_bounds hf id
    have hst : ∀ m, ((s.modLine n fun l => { l with credit := l.credit - chargeOf s id }).line m).st = (s.line m).st
        ∧ ((s.modLine n fun l => { l with credit := l.credit - chargeOf s id }).line m).share = (s.line m).share := by
      intro m
      by_cases hm : m = n
      · rw [hm, State.modLine_line_self]
        exact ⟨rfl, rfl⟩
      · rw [State.modLine_line_other s _ hm]
        exact ⟨rfl, rfl⟩
    refine ⟨fun m => ?_, ?_, hf, fun hrun => ⟨(hr hrun).1, fun m => by rw [(hst m).1]; exact (hr hrun).2 m⟩⟩
    · by_cases hm : m = n
      · subst hm
        rw [State.modLine_line_self]
        obtain ⟨-, hdepth, hoff⟩ := hc m
        refine ⟨by dsimp only; omega, by dsimp only; omega, fun hel => ?_⟩
        simp [(hoff hel).2] at hpos
      · rw [State.modLine_line_other s _ hm]
        exact hc m
    · rw [shares_sum_congr fun m => (hst m).2]
      exact hsum

theorem takeHead_figuresKept (n : LineNo) (c : Cls) (b : Bool) (s : State) : FiguresKept s (takeHead n c b s) := by
  unfold takeHead
  split
  · exact .refl s
  next id rest _ =>
    have hline := modLine_figuresKept s n (fun l => l.setQueue (.ofCls c) rest)
      fun _ => by cases c <;> exact ⟨rfl, rfl, rfl⟩
    refine hline.trans (FiguresKept.trans ?_ (refreshIdle_figuresKept n _))
    exact .aside ⟨rfl, rfl, rfl, rfl, rfl⟩

theorem makeChoice_credits (h : CreditKept s) : CreditKept (makeChoice s) := by
  unfold makeChoice
  split
  · cases hc : choose s with
    | none => exact h
    | some p =>
      simp only [Option.elim, startChoice]
      cases p with
      | management e => exact h.aside ⟨rfl, rfl, rfl, rfl, rfl⟩
      | credited n c =>
        have hcharged := chargeHead_credits n c (choose_credited hc) h
        refine (hcharged.of_kept (takeHead_figuresKept n c false _)).aside ⟨rfl, rfl, ?_, rfl, rfl⟩
        cases c <;> rfl
      | spare n c => exact (h.of_kept (takeHead_figuresKept n c true s)).aside ⟨rfl, rfl, rfl, rfl, rfl⟩
  · exact h

/-- A refill raises each credit by the share, as far as its depth (R67). -/
theorem refill_credits (k : Option Nat) (h : CreditKept s) :
    CreditKept { s with lines := s.lines.map Line.refilled, sched := { s.sched with refill := k } } := by
  obtain ⟨hc, hsum, hf, hr⟩ := h
  have hline : ∀ n,
      ({ s with lines := s.lines.map Line.refilled, sched := { s.sched with refill := k } } : State).line n
      = (s.line n).refilled := fun n => Tab.get_map _ _ _
  refine ⟨fun n => ?_, ?_, hf, fun hrun => ⟨(hr hrun).1, fun n => by rw [hline]; exact (hr hrun).2 n⟩⟩
  · obtain ⟨hlow, -, hoff⟩ := hc n
    have hdepth := depthOf_floor (s.line n).share
    rw [hline]
    refine ⟨le_min hdepth (by omega), min_le_left _ _, fun hel => ?_⟩
    obtain ⟨hshare, hcredit⟩ := hoff hel
    refine ⟨hshare, ?_⟩
    simp only [Line.refilled, hshare, hcredit]
    decide
  · rw [shares_sum_congr (s := s) fun n => by rw [hline]; rfl]
    exact hsum

/-! ## Resets and the start-up -/

theorem coldState_credits (s : State) : CreditKept (coldState s) := by
  have hline : ∀ n, (coldState s).line n = Line.reset n := fun n => Tab.get_ofFn _ _
  exact .of_unshared (fun n => by rw [hline]; exact ⟨rfl, rfl⟩) (fun _ hx => by cases hx)
    fun _ => ⟨rfl, fun n => by rw [hline]; rfl⟩

theorem warmReset_credits (f : ResetFlag) (s : State) : CreditKept (warmReset f s) := by
  have hline : ∀ n, (warmReset f s).line n = Line.reset n := fun n => Tab.get_ofFn _ _
  exact .of_unshared (fun n => by rw [hline]; exact ⟨rfl, rfl⟩) (fun _ hx => by cases hx)
    fun _ => ⟨rfl, fun n => by rw [hline]; rfl⟩

theorem completeTransmission_credits (id : Nat) (b : Bool) (h : CreditKept s) :
    CreditKept (completeTransmission id b s) := by
  unfold completeTransmission
  split
  · exact warmReset_credits _ s
  · split
    · exact h
    · have hdrop := h.of_kept (dropRef_figuresKept id s)
      unfold countTransmission
      split
      · exact hdrop.aside (by simp)
      · exact hdrop
      · exact hdrop

theorem dropCraftEntries_credits (h : CreditKept s) : CreditKept (dropCraftEntries s) :=
  (h.aside (t := s.modMgmt fun m => { m with txList := m.txList.filter fun e => e.port != .craft })
    ⟨rfl, rfl, rfl, rfl, rfl⟩).of_kept (dropRefs_figuresKept _ _)

theorem loadStation_figuresKept (e : ImageEntry) (s : State) : FiguresKept s (loadStation e s) := by
  unfold loadStation
  split
  · split
    · exact .refl s
    · exact .aside (by simp)
  · exact .refl s

theorem loadImage_figuresKept (b : ImageBody) (s : State) : FiguresKept s (loadImage b s) := by
  have hst := foldl_holds (FiguresKept s) (fun u e => loadStation e u)
    (fun u e hu => hu.trans (loadStation_figuresKept e u)) b.stations s (.refl s)
  exact hst.trans ⟨fun n => by simp [loadImage, State.line, Line.figures], rfl, id, rfl, rfl⟩

theorem warmLoad_figuresKept (s : State) : FiguresKept s (warmLoad s) := by
  unfold warmLoad
  split
  · exact (loadImage_figuresKept _ s).trans (.aside ⟨rfl, rfl, rfl, rfl, rfl⟩)
  · exact .aside (by simp)

theorem settleMarker_figuresKept (s : State) : FiguresKept s (settleMarker s) := by
  unfold settleMarker
  split
  · exact .refl s
  · exact .aside (by simp)

/-- Lines sent to DOWN before the start-up completes, none of them eligible (R190). -/
theorem enableLines_credits (hrun : s.running = false) (h : CreditKept s) : CreditKept (enableLines s) := by
  refine (foldl_holds (fun u => CreditKept u ∧ u.running = false) _ (fun u n hu => ?_) _ s ⟨h, hrun⟩).1
  obtain ⟨hc, hr⟩ := hu
  split
  · exact ⟨enterCore_credits n .down .enabled ((hc.toFloor.rest hr).2 n) hc,
      (running_congr (s := u) (congrArg Mgmt.phase (enterCore_mgmt u n .down .enabled))).trans hr⟩
  · exact ⟨hc, hr⟩

theorem runStartUp_credits (cold : Bool) (hrun : s.running = false) (h : CreditKept s) :
    CreditKept (runStartUp cold s) := by
  have hid : FiguresKept s (readIdentity s) :=
    ⟨fun n => by simp [readIdentity, State.line, Line.figures], rfl, id, rfl, rfl⟩
  have hload : FiguresKept s (if cold = true then readIdentity s else warmLoad (readIdentity s)) := by
    split
    · exact hid
    · exact hid.trans (warmLoad_figuresKept _)
  have hmarked := hload.trans (settleMarker_figuresKept _)
  have hlines := enableLines_credits ((running_congr hmarked.phase).trans hrun) (h.of_kept hmarked)
  have hstarted : ∀ (d : Detail) {u : State}, CreditKept u → u.running = false →
      CreditKept ((raise none d u).modMgmt fun m => { m with phase := .started }) := by
    intro d u hu hr
    obtain ⟨hc, hsum, hf, hrest⟩ := hu
    have hl : ∀ n, ((raise none d u).modMgmt fun m => { m with phase := .started }).line n = u.line n :=
      fun n => State.line_of_lines (by simp) n
    refine ⟨fun n => by rw [hl]; exact hc n, by simpa using hsum, by simpa using hf, fun _ => ?_⟩
    exact ⟨by simpa using (hrest hr).1, fun n => by rw [hl]; exact (hrest hr).2 n⟩
  have hphase : (enableLines (settleMarker (if cold = true then readIdentity s else warmLoad (readIdentity s)))).running
      = false := by
    have hm := (enableLines_moved (.refl (settleMarker (if cold = true then readIdentity s
      else warmLoad (readIdentity s))))).beside.2.2.2.2.1
    exact (running_congr ((congrArg Mgmt.phase hm).trans hmarked.phase)).trans hrun
  exact hstarted _ hlines hphase

theorem recompute_modMgmt (f : Mgmt → Mgmt) (s : State) : recompute (s.modMgmt f) = (recompute s).modMgmt f := rfl

/-- The recompute of the completion is made as the part comes into service (R47, R191). -/
theorem completeStartUp_credits (mv : Nat) (h : CreditKept s) : CreditKept (completeStartUp mv s) := by
  have hrec : ∀ f, CreditKept ((recompute (s.modPower f)).modMgmt fun m => { m with phase := .running }) := by
    intro f
    rw [← recompute_modMgmt]
    exact recompute_credits ⟨h.toFloor.floor, h.toFloor.fit, fun hr => by cases hr⟩
  rw [completeStartUp_eq]
  refine enterIdle_credits ((hrec fun p => { p with
    sample := some (mv, s.mgmt.time)
    state := some (if s.power.mainsOk then .mains else batteryChoice s.power mv)
    lastChange := some s.mgmt.time }).aside ⟨rfl, rfl, rfl, rfl, rfl⟩)

theorem doTrafficReset_credits (h : CreditKept s) : CreditKept (doTrafficReset s) := by
  obtain ⟨-, hpower, hpool, -⟩ := doTrafficReset_frames s
  have hmgmt := (doTrafficReset_beside s).1
  refine .of_unshared (fun n => ?_) (fun x hx => by simp [hpool] at hx) fun hr => ?_
  · obtain ⟨-, -, hshare, hcredit, -⟩ := doTrafficReset_line s n
    exact ⟨hshare, hcredit⟩
  · rw [running_congr (s := s) (by rw [hmgmt])] at hr
    obtain ⟨hnone, hoff⟩ := h.toFloor.rest hr
    refine ⟨by rw [hpower]; exact hnone, fun n => ?_⟩
    rw [(doTrafficReset_line s n).1]
    split
    · exact hoff n
    · rfl

/-! ## Line events -/

theorem whenRunning_credits (f : State → State) (hf : s.running = true → CreditKept (f s)) (h : CreditKept s) :
    CreditKept (whenRunning f s) := by
  unfold whenRunning
  split
  next hr => exact hf hr
  · exact h

theorem failTraining_credits (n : LineNo) (r : Reason) (h : CreditKept s) : CreditKept (failTraining n r s) :=
  enter_off_credits n .down r rfl (h.of_kept (modLine_figuresKept s n _ fun _ => ⟨rfl, rfl, rfl⟩))

theorem takeReady_credits (n : LineNo) (h : CreditKept s) : CreditKept (takeReady n s) :=
  .ite (h.of_kept (modLine_figuresKept s n _ fun _ => ⟨rfl, rfl, rfl⟩)) h

theorem takeActivity_credits (n : LineNo) (h : CreditKept s) : CreditKept (takeActivity n s) := by
  unfold takeActivity
  split
  · exact wakeRequest_credits n _ h
  · exact .ite (wakeRequest_credits n _ h) h
  · exact h

theorem takeLinkUp_credits (n : LineNo) (down up : Nat) (hrun : s.running = true) (h : CreditKept s) :
    CreditKept (takeLinkUp n down up s) := by
  unfold takeLinkUp
  split
  · exact enter_credits n .up .linkUp (fun _ => hrun) (h.of_kept (modLine_figuresKept s n _ fun _ => ⟨rfl, rfl, rfl⟩))
  · exact takeRates_credits n _ _ h
  · exact takeRates_credits n _ _ h
  · exact takeRates_credits n _ _ h
  · exact h

theorem takeRatesReport_credits (n : LineNo) (down up : Nat) (h : CreditKept s) :
    CreditKept (takeRatesReport n down up s) := by
  unfold takeRatesReport
  split
  · exact takeRates_credits n _ _ h
  · exact takeRates_credits n _ _ h
  · exact takeRates_credits n _ _ h
  · exact h

theorem takeLinkDown_credits (n : LineNo) (h : CreditKept s) : CreditKept (takeLinkDown n s) := by
  unfold takeLinkDown
  split
  · exact failTraining_credits n _ h
  · exact enter_off_credits n .down .linkDown rfl h
  · exact enter_off_credits n .down .linkDown rfl h
  · exact (enter_off_credits n .held .linkDown rfl h).aside (by simp)
  · exact h

theorem takeAwake_credits (n : LineNo) (h : CreditKept s) : CreditKept (takeAwake n s) :=
  .ite (h.of_kept (modLine_figuresKept s n _ fun _ => ⟨rfl, rfl, rfl⟩)) h

theorem takeSense_credits (n : LineNo) (b : Bool) (h : CreditKept s) : CreditKept (takeSense n b s) := by
  have hs : ∀ d : Detail, CreditKept (raise (some n) d (s.modLine n fun l => { l with sense := true })) := fun _ =>
    (h.of_kept (modLine_figuresKept s n (fun l => { l with sense := true }) fun _ => ⟨rfl, rfl, rfl⟩)).aside (by simp)
  unfold takeSense
  dsimp only
  refine .ite ?_ h
  split
  · exact wakeRequest_credits n _ (hs _)
  · exact .ite (wakeRequest_credits n _ (hs _)) (hs _)
  · exact .ite (wakeRequest_credits n _ (hs _)) (hs _)
  · exact hs _

theorem handOffComplete_credits (n : LineNo) (id len : Nat) (h : CreditKept s) : CreditKept (countDelivered n len
    (refreshIdle n (dropRef id (s.modLine n fun l => { l with handOff := none })))) := by
  have hline := modLine_figuresKept s n (fun l => { l with handOff := none }) fun _ => ⟨rfl, rfl, rfl⟩
  have hdrop := (hline.trans (dropRef_figuresKept id _)).trans (refreshIdle_figuresKept n _)
  exact (h.of_kept hdrop).aside (by simp)

/-! ## Test events -/

theorem settledReport_credits (h : CreditKept s) : CreditKept (settledReport s) := by
  unfold settledReport
  split
  · exact h
  · refine .ite (.ite (h.aside (by simp)) (boundary_credits _ (h.aside (by simp)) h)) h

theorem settleEnds_credits (h : CreditKept s) : CreditKept (settleEnds s) := by
  have ha : ∀ f, CreditKept (s.modAccess f) := fun _ => h.aside (by simp)
  unfold settleEnds
  split
  · exact settledReport_credits (ha _)
  · exact .ite (releasedReport_credits (ha _)) (ha _)
  · exact h
  · exact h

theorem completeMeasurement_credits (r : Result) (h : CreditKept s) : CreditKept (completeMeasurement r s) := by
  unfold completeMeasurement
  exact h.aside (by simp)

theorem windowEnds_credits (xs : List Sample) (h : CreditKept s) : CreditKept (windowEnds xs s) := by
  unfold windowEnds
  split
  · exact h
  · split
    · exact h
    · exact .ite (completeMeasurement_credits _ h) h

theorem captureEnds_credits (k : Nat) (b : Bool) (h : CreditKept s) : CreditKept (captureEnds k b s) := by
  unfold captureEnds
  split
  · exact completeMeasurement_credits _ h
  · exact h

theorem toneEnds_credits (h : CreditKept s) : CreditKept (toneEnds s) := by
  unfold toneEnds
  split
  · exact completeMeasurement_credits _ h
  · exact h

theorem dischargeEnds_credits (h : CreditKept s) : CreditKept (dischargeEnds s) := by
  have hg : ∀ f, CreditKept (guardCheck (s.modAccess f)) := fun _ => h.aside (by simp)
  have hr : ∀ f, CreditKept (releaseStep (guardCheck (s.modAccess f))) := fun _ => h.aside (by simp)
  have hn : ∀ f, CreditKept (nextStep (guardCheck (s.modAccess f))) := fun _ => h.aside (by simp)
  exact .ite (.ite (hr _) (.ite (boundary_credits _ (hn _) (hg _)) (hg _))) h

theorem resumeTest_credits (a : Activity) (h : CreditKept s) : CreditKept (resumeTest a s) := by
  unfold resumeTest
  dsimp only
  split
  · split <;> exact h.aside (by simp)
  · exact h.aside (by simp)

theorem reclaimBus_credits (h : CreditKept s) : CreditKept (reclaimBus s) := by
  have hr : CreditKept (raise s.lineUnderTest (.external false) s) := h.aside (by simp)
  have hq : ∀ f, CreditKept ((raise s.lineUnderTest (.external false) s).modSeq f) := fun _ => h.aside (by simp)
  unfold reclaimBus
  dsimp only
  split
  · exact .ite (endExternal_credits hr) (resumeTest_credits _ (hq _))
  · split
    · exact (hq id).aside (by simp)
    · exact (hq id).aside (by simp)
    · exact enterIdle_credits (hq _)
    · exact hq _

theorem tickRequests_credits (g : Fin 4) (half : Bool) (h : CreditKept s) : CreditKept (tickRequests g half s) := by
  have hq : ∀ f, CreditKept (s.modSeq f) := fun _ => h.aside (by simp)
  exact foldl_holds CreditKept _ (fun _ _ hu => joining_credits _ (hu.aside (by simp))) _ _
    (.ite (idleStep_credits (hq _)) (hq _))

/-! ## Commands -/

theorem afterLineWrite_credits (n : LineNo) (f : LineFields) (old : LineConfig) (h : CreditKept s) :
    CreditKept (afterLineWrite n f old s) := by
  have hx : CreditKept (sharesWritten old n s) := .ite (recompute_credits h.toFloor) h
  have hq : CreditKept (if f.quietDelay.isSome then rederiveQuiet n (sharesWritten old n s)
      else sharesWritten old n s) := .ite (rederiveQuiet_credits n hx) hx
  rw [afterLineWrite_eq]
  exact .ite (rederiveDormant_credits n hq) hq

theorem afterPolicyWrite_credits (b : Bool) (h : CreditKept s) : CreditKept (afterPolicyWrite b s) := by
  have hi : CreditKept (idleStep (grantAll (shedToBudget s))) :=
    idleStep_credits (grants_credits _ (shedToBudget_credits h))
  exact .ite (rederiveAll_credits hi) hi

theorem makeExternal_credits (n : LineNo) (h : CreditKept s) : CreditKept (makeExternal n s) := by
  have hq : ∀ f, CreditKept (s.modSeq f) := fun _ => h.aside (by simp)
  have hp : ∀ f, CreditKept (placeFreed (s.modSeq f)) := fun _ => h.aside (by simp)
  exact askForLine_credits n (.ite (hp _) (hq _))

/-- A line's settings written (R17, R104, R105). -/
theorem modCfg_credits (n : LineNo) (f : Line → LineConfig) (h : CreditKept s) :
    CreditKept (s.modLine n fun l => { l with cfg := f l }) :=
  h.of_kept (modLine_figuresKept s n _ fun _ => ⟨rfl, rfl, rfl⟩)

/-- A command row keeps the bounds. The rows below the named ones write no line and no frame. -/
theorem runRow_credits (c : Instr) (h : CreditKept s) : CreditKept (runRow c s).1 := by
  have hseq : ∀ f, CreditKept (s.modSeq f) := fun _ => h.aside (by simp)
  cases c with
  | writeLine o line f =>
    simp only [runRow, cmdWriteLine]
    split
    · exact h
    · split
      · exact h
      · split
        · exact h
        · exact afterLineWrite_credits _ _ _ (modCfg_credits _ _ h)
  | enableLine o line =>
    simp only [runRow, cmdEnableLine]
    split
    · exact h
    · split
      · exact h
      · split
        · exact enter_off_credits _ .down .enabled rfl (modCfg_credits _ (fun l => { l.cfg with enabled := true }) h)
        · exact h
  | disableLine o line =>
    simp only [runRow, cmdDisableLine]
    split
    · exact h
    · split
      · exact h
      · split
        · exact h
        · exact enter_off_credits _ .disabled .disabled rfl
            (modCfg_credits _ (fun l => { l.cfg with enabled := false }) h)
  | clearBar o line =>
    simp only [runRow, cmdClearBar]
    split
    · exact h
    · split
      · exact h
      · split
        · exact enter_off_credits _ .down .barCleared rfl h
        · exact h
  | clearSense o m =>
    simp only [runRow, cmdClearSense]
    split
    · exact h
    · exact h.of_kept ⟨fun n => by simp [answer, State.line, Line.figures], rfl, id, rfl, rfl⟩
  | setUplink o f =>
    simp only [runRow, cmdSetUplink]
    split
    · exact h
    · split
      · exact h
      · exact recompute_credits (h.aside (t := s.modShares _) ⟨rfl, rfl, rfl, rfl, rfl⟩).toFloor
  | requestTest o line p v =>
    simp only [runRow, cmdRequestTest]
    split
    · split
      · exact h
      · split
        · exact idleStep_credits (hseq _)
        · exact h
    · exact h
  | abortTest o line =>
    simp only [runRow, cmdAbortTest, answer]
    split
    · exact h
    · split
      · dsimp only
        exact placesFreed_credits (hseq _)
      · split
        · exact h
        · split
          · split
            · exact h
            · exact abortTestNow_credits _ h
          · exact h
  | stopRoutineGroup o g =>
    simp only [runRow, cmdStopRoutineGroup]
    split
    · exact h
    · dsimp only [answer]
      split
      · exact h.aside ⟨rfl, rfl, rfl, rfl, rfl⟩
      · exact placesFreed_credits (h.aside ⟨rfl, rfl, rfl, rfl, rfl⟩)
  | setTestLimits o f =>
    simp only [runRow, cmdSetTestLimits]
    split
    · exact h
    · have hg : ∀ f g, CreditKept (guardCheck ((s.modAccess f).modSeq g)) := fun _ _ => h.aside (by simp)
      exact hg _ _
  | connectExternal o line =>
    simp only [runRow, cmdConnectExternal]
    split
    · exact h
    · split
      · exact h
      · split
        · exact h
        · split
          · exact h
          · split
            · exact h
            · exact makeExternal_credits _ h
  | disconnectExternal o =>
    simp only [runRow, cmdDisconnectExternal]
    split
    · exact h
    · split
      · exact endExternal_credits h
      · exact h
  | writePowerPolicy o v f =>
    simp only [runRow, cmdWritePowerPolicy]
    split
    · exact h
    · split
      · exact h
      · split
        · exact h
        · refine recompute_credits (CreditKept.toFloor ?_)
          split
          · exact afterPolicyWrite_credits _ (h.aside ⟨rfl, rfl, rfl, rfl, rfl⟩)
          · exact h.aside ⟨rfl, rfl, rfl, rfl, rfl⟩
  | trafficReset o =>
    simp only [runRow, cmdTrafficReset, answer]
    exact doTrafficReset_credits h
  | _ =>
    simp only [runRow, cmdWriteStation, placeStation, cmdRemoveStation, cmdFlushLearned, cmdWriteStationTableForm,
      cmdReadStation, cmdReadLine, cmdEnableLineSettings, cmdReadUplink, cmdWriteProgram, cmdReadProgram,
      cmdReadTestQueue, cmdReadTestRecord, cmdSetRoutineGroup, cmdStartRoutineGroup, cmdSetBatteryThresholds,
      cmdReadPower, cmdReadCounters, cmdReadGlobalCounters, cmdClearEvents, cmdSetNotices, cmdClearResetCause,
      cmdReadStatus, cmdSetManagement, cmdSetTime, cmdLock, cmdSaveConfiguration, cmdDeviceReset, cmdUnknown]
    (repeat' split) <;> exact h.aside ⟨rfl, rfl, rfl, rfl, rfl⟩

theorem runCommand_credits (cmd : State → State × CmdResult) (hc : CreditKept (cmd s).1) (h : CreditKept s) :
    CreditKept (runCommand cmd s).1 := by
  unfold runCommand
  split
  · exact h
  · exact hc

/-! ## Control frames and notices -/

theorem runElement_credits (o : Origin) (i : Nat) (b : List Byte) (h : CreditKept s) :
    CreditKept (runElement o i b s).1 := by
  refine runCommand_credits _ ?_ h
  split
  · exact h
  · exact runRow_credits _ h

theorem runElements_credits (o : Origin) (es : List Element) (h : CreditKept s) :
    CreditKept (runElements o es s).1 := by
  induction es generalizing s with
  | nil => exact h
  | cons e es ih =>
    cases e with
    | truncated i => exact h
    | whole i b => exact ih (runElement_credits o i b h)

theorem runFrame_credits (o : Origin) (f : List Byte) (h : CreditKept s) : CreditKept (runFrame o f s).1 := by
  unfold runFrame
  dsimp only
  split
  · exact h
  · exact runElements_credits o _ h

theorem buildEntry_figuresKept {b : List Byte} (hb : b.length ≤ Config.greatestFrame) (p : Port) (q : TxPart)
    (s : State) : FiguresKept s (buildEntry b p q s) :=
  (makeRecord_figuresKept (r := { bytes := b, cls := none, origin := .part, refs := 1 }) hb s).trans
    (.aside ⟨rfl, rfl, rfl, rfl, rfl⟩)

/-- A reply is no longer than the largest frame (R180). -/
theorem replyFrame_length {f : List Byte} {rs : List (Nat × CmdResult)} (h : rs.length ≤ 16) (s : State) :
    (replyFrame f rs s).length ≤ Config.greatestFrame := by
  have hpack := packElements_length replySpace rs (by simp [replySpace, Config.greatestFrame]; omega)
  simp only [replyFrame, finishFrame, withCheck_length, List.length_append, List.length_replicate, beBytes_length,
    List.length_take]
  simp only [replySpace, Config.greatestFrame] at hpack ⊢
  omega

theorem placeReply_credits {b : List Byte} (hb : b.length ≤ Config.greatestFrame) (p : Port) (h : CreditKept s) :
    CreditKept (placeReply b p s) := by
  have hbuilt : ∀ f : Option DevReset → Option DevReset, CreditKept ((buildEntry b p .reply s).modMgmt fun m =>
      { m with devReset := f m.devReset }) := fun _ =>
    (h.of_kept (buildEntry_figuresKept hb p .reply s)).aside ⟨rfl, rfl, rfl, rfl, rfl⟩
  exact .ite (dropCraftEntries_credits (hbuilt _)) (hbuilt _)

theorem takeFrame_credits (b : Bool) (p : Port) (f : List Byte) (h : CreditKept s) :
    CreditKept (takeFrame b p f s) := by
  have hcounted : CreditKept (countDev .framesTaken (s.modMgmt fun m =>
      { m with controlQ := m.controlQ.drop 1, service := b })) := h.aside ⟨rfl, rfl, rfl, rfl, rfl⟩
  exact placeReply_credits (replyFrame_length (runFrame_length _ _ _) _) p (runFrame_credits (originOf p b) f hcounted)

/-! ## Notices -/

/-- The octets of a string of items (11.2). -/
theorem encodeItems_length (xs : List Item) : (encodeItems xs).length = (xs.map fun i => 2 + i.value.length).sum := by
  induction xs with
  | nil => rfl
  | cons x xs ih =>
    rw [encodeItems, List.flatMap_cons, List.length_append, List.map_cons, List.sum_cons, ← ih, encodeItems]
    simp
    omega

/-- The details of an event fill at most 48 octets (R199). -/
theorem detail_length (d : Detail) : (encodeItems d.items).length ≤ 48 := by
  rw [encodeItems_length]
  cases d with
  | guardTrip e u k => cases k <;> simp [Detail.items, Item.opt, Item.code, Item.yes, beBytes_length]
  | powerState l e c v a n => cases v <;> simp [Detail.items, Item.opt, Item.code, Item.count, beBytes_length]
  | advisoryLost a => cases a <;> simp [Detail.items, Item.opt, Item.count, beBytes_length]
  | _ => simp [Detail.items, Item.code, Item.count, Item.yes, Item.success, beBytes_length]

theorem notice_length (x : Notice) : x.bytes.length ≤ 58 := by
  have := detail_length x.detail
  simp only [Notice.bytes, List.length_append, beBytes_length]
  omega

theorem notices_length (xs : List Notice) : (xs.flatMap Notice.bytes).length ≤ 58 * xs.length := by
  induction xs with
  | nil => exact le_rfl
  | cons x xs ih =>
    have := notice_length x
    rw [List.flatMap_cons, List.length_append, List.length_cons]
    omega

/-- A notice frame is no longer than the largest frame (R202). -/
theorem noticeFrame_length (a : Addr) (s : State) : (noticeFrame a s).length ≤ Config.greatestFrame := by
  have hbytes := notices_length (nextNotices s)
  have hcount : (nextNotices s).length ≤ 8 := List.length_take_le _ _
  simp only [noticeFrame, finishFrame, withCheck_length, List.length_append, List.length_replicate, beBytes_length,
    Config.greatestFrame]
  omega

theorem buildNotice_credits {f : List Byte} (hf : f.length ≤ Config.greatestFrame) (h : CreditKept s) :
    CreditKept (buildNotice f s) := by
  have hnumbered : ∀ xs k,
      CreditKept ((s.modCounts fun c => { c with notices := dropBuilt xs c.notices }).modMgmt fun m =>
      { m with noticeNumber := m.noticeNumber + k }) := fun _ _ => h.aside ⟨rfl, rfl, rfl, rfl, rfl⟩
  exact (hnumbered (nextNotices s) 1).of_kept (buildEntry_figuresKept hf .uplink _ _)

theorem noticeFrameBuild_credits (h : CreditKept s) : CreditKept ((noticeReady s).elim s fun f => buildNotice f s) := by
  cases hr : noticeReady s with
  | none => exact h
  | some f =>
    refine buildNotice_credits ?_ h
    unfold noticeReady at hr
    split at hr
    · cases hr
    · dsimp only at hr
      split at hr
      · cases hr
        exact noticeFrame_length _ s
      · cases hr

theorem endSave_credits (good : Bool) (h : CreditKept s) : CreditKept (endSave good s) := by
  unfold endSave
  split
  · exact h
  · exact h.aside (by simp)

/-- A transmission given up as its link is lost (R79, R81). -/
theorem transmitAborted_credits (id : Nat) (h : CreditKept s) :
    CreditKept (countDev .transmitAborted (dropRef id s)) := (h.of_kept (dropRef_figuresKept id s)).aside (by simp)

/-! ## Every step -/

/-- The bounds across an occurrence, a command row apart. -/
theorem exec_event_credits {c : Instr} (hc : isCommand c = false) (hs : CreditKept s) (h : exec c s = .next t) :
    CreditKept t := by
  have key : ∀ u, exec c s = .next u → CreditKept u → CreditKept t := by
    rintro u hu hk
    rw [hu] at h
    cases h
    exact hk
  have sched : ∀ f : Sched → Sched, (f s.sched).effective = s.sched.effective → CreditKept (s.modSched f) :=
    fun _ he => hs.aside ⟨rfl, rfl, he, rfl, rfl⟩
  cases c with
  | coldReset => exact key _ rfl (coldState_credits s)
  | pinReset => exact key _ rfl (warmReset_credits _ s)
  | supplyReset => exact key _ rfl (warmReset_credits _ s)
  | startUp =>
    refine key _ rfl ?_
    split
    next hp => exact runStartUp_credits _ (by simp [State.running, hp]) hs
    · exact hs
    · exact hs
  | startUpComplete v =>
    refine key _ rfl ?_
    split
    · exact completeStartUp_credits v hs
    · exact hs
    · exact hs
  | uplinkFrameReceived f =>
    exact key _ rfl (receive_credits _ f _ (fun hf => recogniseUplink_credits hf.2 hs) hs)
  | capacityAdvisory v => exact key _ rfl (.ite (takeAdvisory_credits v hs) (hs.aside (by simp)))
  | classPause m d => exact key _ rfl (.ite (takePause_credits m d hs) (hs.aside (by simp)))
  | craftFrameReceived b f =>
    have hservice : CreditKept (s.modMgmt fun m => { m with service := b }) := hs.aside ⟨rfl, rfl, rfl, rfl, rfl⟩
    exact key _ rfl (receive_credits _ f _ (fun _ => recogniseCraft_credits b f hservice) hservice)
  | lineLinkFrameReceived n f => exact key _ rfl (receive_credits _ f _ (fun hf => upstream_credits n hf hs) hs)
  | ready n => exact key _ rfl (whenRunning_credits _ (fun _ => takeReady_credits n hs) hs)
  | activity n => exact key _ rfl (whenRunning_credits _ (fun _ => takeActivity_credits n hs) hs)
  | linkUp n d u => exact key _ rfl (whenRunning_credits _ (fun hr => takeLinkUp_credits n d u hr hs) hs)
  | rates n d u => exact key _ rfl (whenRunning_credits _ (fun _ => takeRatesReport_credits n d u hs) hs)
  | linkFail n => exact key _ rfl (whenRunning_credits _ (fun _ => .ite (failTraining_credits n _ hs) hs) hs)
  | linkDown n => exact key _ rfl (whenRunning_credits _ (fun _ => takeLinkDown_credits n hs) hs)
  | awake n => exact key _ rfl (whenRunning_credits _ (fun _ => takeAwake_credits n hs) hs)
  | senseEdge n b => exact key _ rfl (whenRunning_credits _ (fun _ => takeSense_credits n b hs) hs)
  | wakeGrant => exact key _ rfl (grants_credits 1 hs)
  | agingSweep =>
    refine key _ rfl ?_
    split
    · exact hs
    · exact hs.aside ⟨rfl, rfl, rfl, rfl, rfl⟩
  | holdTimerExpiry =>
    refine key _ rfl ?_
    split
    · exact hs
    · refine recompute_credits (CreditKept.toFloor (s := raise _ _ _) ?_)
      exact hs.aside (by simp)
  | refill =>
    refine key _ rfl ?_
    split
    · exact hs
    · exact refill_credits _ hs
  | pauseTimerExpiry c => exact key _ rfl (sched _ (by cases c <;> rfl))
  | upstreamChoice => exact key _ rfl (makeChoice_credits hs)
  | transmissionComplete =>
    refine key _ rfl ?_
    split
    · exact hs
    · exact completeTransmission_credits _ _ (sched _ rfl)
  | handOffStart n =>
    have hline := modLine_figuresKept s n Line.handed fun _ => ⟨rfl, rfl, rfl⟩
    exact key _ rfl (.ite (hs.of_kept (hline.trans (refreshIdle_figuresKept n _))) hs)
  | handOffComplete n =>
    refine key _ rfl ?_
    split
    · exact hs
    · exact handOffComplete_credits n _ _ hs
  | drainComplete n => exact key _ rfl (drainReport_credits n hs)
  | uplinkLinkDown =>
    refine key _ rfl ?_
    dsimp only
    split
    · exact sched _ rfl
    · exact transmitAborted_credits _ (sched _ rfl)
  | uplinkLinkUp => exact key _ rfl (makeChoice_credits (sched _ rfl))
  | craftTransmissionStart =>
    refine key _ rfl (.ite ?_ hs)
    split
    · exact hs
    · exact hs.aside ⟨rfl, rfl, rfl, rfl, rfl⟩
  | craftTransmissionComplete =>
    refine key _ rfl ?_
    split
    · exact hs
    · exact completeTransmission_credits _ _ (sched _ rfl)
  | craftLinkDown =>
    refine key _ rfl (dropCraftEntries_credits ?_)
    split
    · exact sched _ rfl
    · exact transmitAborted_credits _ (sched _ rfl)
  | trainingTimerExpiry n => exact key _ rfl (.ite (failTraining_credits n _ hs) hs)
  | wakeTimerExpiry n => exact key _ rfl (.ite (enter_off_credits n _ _ rfl hs) hs)
  | idleTimerExpiry n => exact key _ rfl (.ite (enter_off_credits n _ _ rfl hs) hs)
  | dormantTimerExpiry n => exact key _ rfl (.ite (enter_off_credits n _ _ rfl hs) hs)
  | drainTimerExpiry n =>
    exact key _ rfl (.ite ((enter_off_credits n .held .drainLimit rfl hs).aside (by simp)) hs)
  | settleTimerExpiry => exact key _ rfl (settleEnds_credits hs)
  | windowEnd xs => exact key _ rfl (windowEnds_credits xs hs)
  | captureTargetReached v => exact key _ rfl (.ite (captureEnds_credits v _ hs) hs)
  | captureTimeout => exact key _ rfl (captureEnds_credits _ _ hs)
  | toneDurationElapsed => exact key _ rfl (toneEnds_credits hs)
  | dischargeWaitExpiry => exact key _ rfl (dischargeEnds_credits hs)
  | guardTrip v =>
    refine key _ rfl ?_
    split
    · exact hs
    · exact hs.aside (by simp)
  | extreqAsserted => exact key _ rfl (idleStep_credits (hs.aside ⟨rfl, rfl, rfl, rfl, rfl⟩))
  | extreqReleased =>
    have hq : ∀ f, CreditKept (s.modSeq f) := fun _ => hs.aside ⟨rfl, rfl, rfl, rfl, rfl⟩
    exact key _ rfl (.ite (reclaimBus_credits (hq _)) (hq _))
  | suspendTimerExpiry => exact key _ rfl (.ite (abortTestNow_credits _ hs) hs)
  | halfTick g => exact key _ rfl (.ite (tickRequests_credits g _ (hs.aside ⟨rfl, rfl, rfl, rfl, rfl⟩)) hs)
  | fullTick g => exact key _ rfl (.ite (tickRequests_credits g _ (hs.aside ⟨rfl, rfl, rfl, rfl, rfl⟩)) hs)
  | batterySample v => exact key _ rfl (whenRunning_credits _ (fun _ => takeSample_credits v hs) hs)
  | mainsOkDeasserted => exact key _ rfl (loseMains_credits hs)
  | mainsOkAsserted => exact key _ rfl (gainMains_credits hs)
  | mainsStableTimerExpiry => exact key _ rfl (mainsStable_credits hs)
  | controlFrameTaken b =>
    refine key _ rfl ?_
    split
    · exact hs
    · exact .ite (takeFrame_credits b _ _ hs) hs
  | noticeFrameBuild => exact key _ rfl (noticeFrameBuild_credits hs)
  | saveDone b => exact key _ rfl (endSave_credits b hs)
  | deviceResetTimerExpiry => exact key _ rfl (.ite (warmReset_credits _ s) hs)
  | craftLinkUp => exact key _ rfl (sched _ rfl)
  | _ => cases hc

theorem exec_credits (c : Instr) (hs : CreditKept s) (h : exec c s = .next t) : CreditKept t := by
  by_cases hc : isCommand c = true
  · rw [exec_of_isCommand hc] at h
    cases h
    exact (runCommand_credits _ (runRow_credits c hs) hs).aside ⟨rfl, rfl, rfl, rfl, rfl⟩
  · exact exec_event_credits (by simpa using hc) hs h

theorem passMs_credits (hs : CreditKept s) : CreditKept (passMs s) := by
  have htime : FiguresKept s (passTime s) :=
    ⟨fun n => by simp [passTime, State.line, Line.passMs, Line.figures], rfl, id, rfl, rfl⟩
  unfold passMs
  split
  · exact hs
  · exact hs.of_kept htime
  · exact hs.of_kept htime

theorem step_credits (hs : CreditKept s) (h : step s = .next t) : CreditKept t := by
  unfold step idle at h
  split at h
  next rest _ => exact exec_credits _ (s := { s with pending := rest }) (hs.aside ⟨rfl, rfl, rfl, rfl, rfl⟩) h
  · split at h
    · exact exec_credits _ hs h
    · cases h
      exact passMs_credits hs

end

end Sys2Proof.Machine

namespace Sys2Proof
open Machine

/-- Settles O41: each operation keeps the bounds or ends in a recompute, and a recompute stores the shares that the
rounds work out. -/
theorem sharesFit : Obligations.SharesFit := by
  refine ⟨fun s t hs h => step_credits hs h, fun n total weight s => ⟨fun htotal => ?_, rfl, rfl, ?_, fun hel => ?_,
    fun hup hdr => ?_, fun m => recompute_apart s m, rfl⟩⟩
  · have hsum : committedSum s.lines = total := by
      rw [htotal, committedSum]
      exact congrArg List.sum (List.map_congr_left fun l _ => committedTerm_eq l)
    subst hsum
    refine ⟨rfl, fun hel => ?_⟩
    have hshare := recompute_share s n
    rw [if_pos ((eligibleState_iff _).mpr hel)] at hshare
    have hterm : committedTerm (s.line n) = min (s.line n).cfg.committed (ceilingOf (s.line n)) := by
      rw [committedTerm_eq, if_pos hel]
    rw [hshare]
    refine ⟨fun hlt => ?_, fun hle => ?_, fun hlt hweight hn hopen => ?_⟩
    · have hprop := computeShares_proportional s.lines _ hlt
      refine ⟨?_, congrArg Prod.snd hprop⟩
      have hg : _ = committedShare _ _ (s.line n) := congrArg ShareCell.g
        ((congrArg (fun r : Tab 24 ShareCell × Nat => r.1.get n) hprop).trans (Tab.get_map _ _ _))
      rw [← hterm]
      exact hg.trans (if_pos hlt)
    · rw [← hterm]
      exact computeShares_committed s.lines _ n hle
    · have hround := computeShares_firstRound s.lines _ (n := n) hlt ⟨hel, hn⟩
      rw [show weight = openWeight s.lines from hweight] at hopen ⊢
      exact hround hopen
  · rw [recompute_shares_total]
    exact Nat.add_sub_cancel' (computeShares_total s.lines _)
  · have hshare := recompute_share s n
    rw [if_pos ((eligibleState_iff _).mpr hel)] at hshare
    have hceiling := computeShares_le_ceiling s.lines (recompute s).sched.effective n
    rw [hshare]
    exact ⟨rfl, hceiling.trans (ceilingOf_le_upRate _), fun hcap => hceiling.trans (ceilingOf_le_cap _ hcap)⟩
  · have hoff : eligibleState (s.line n).st = false := by
      by_contra hon
      exact ((eligibleState_iff _).mp (by simpa using hon)).elim hup hdr
    refine ⟨by rw [recompute_share, hoff]; rfl, ?_⟩
    rw [recompute_line]
    exact handOver_credit_off _ _ hoff

end Sys2Proof
end

