-- ==== Sys2Proof/Proofs/UplinkAndPolicy.lean ====
section
/-! PROOF. SET UPLINK (R63, R64) and WRITE POWER POLICY (R174): what a write stores and recomputes, and what a write of
the entry in force makes of the lines. -/

namespace Sys2Proof.Machine

section
variable {s t u : State} {o : Origin} {f : UplinkFields} {st : PowerState} {pf : PolicyFields}

/-! ## The budget taken with no wake removed -/

theorem budgetTaken.congr {b : Nat} {sleep : SleepMode} {wakes : List WakeEntry}
    (h : budgetTaken b sleep wakes s t) (hl : ∀ m, (u.line m).apart = (t.line m).apart)
    (hw : u.power.wakeList = t.power.wakeList) : budgetTaken b sleep wakes s u := by
  obtain ⟨hcount, hlist, hwoken, hfirst, hrest⟩ := h
  have hst : ∀ m, (u.line m).st = (t.line m).st := fun m => apart_st (hl m)
  exact ⟨(awakeCount_congr hst).trans hcount, hw.trans hlist,
    fun w hwm => Line.wokenFrom_congr rfl (hl _).symm rfl rfl (hwoken w hwm), by simpa only [hst] using hfirst,
    by simpa only [hst] using hrest⟩

/-- What the policy in force makes of the lines where no wake is removed (R97, R170, R171), with the counts. -/
def budgetTakenCounted (s t : State) : Prop :=
  budgetTaken (awakeBudget s) (currentPolicy s).sleep s.power.wakeList s t ∧ dropsCounted .shed (shedRefs s t) s t

theorem budgetTakenCounted.congr (h : budgetTakenCounted s t) (hl : ∀ m, (u.line m).apart = (t.line m).apart)
    (hw : u.power.wakeList = t.power.wakeList) (hc : countsSame t u) : budgetTakenCounted s u := by
  have hrefs : shedRefs s u = shedRefs s t := by simp [shedRefs, fun m => apart_st (hl m)]
  exact ⟨h.1.congr hl hw, hrefs ▸ h.2.congr (.refl s) hc fun _ => rfl⟩

/-- The lines over the budget shed and the wakes granted, with no test running (R170, R171). -/
theorem grantAll_shedToBudget (hw : WakesListed s) (hact : s.seq.act = none) :
    budgetTakenCounted s (grantAll (shedToBudget s)) := by
  have hshed := shedToBudget_shed s
  have hcount := shedToBudget_awakeCount s
  have hlimits : (shedToBudget s).wakeLimit = s.wakeLimit ∧ (shedToBudget s).trainLimit = s.trainLimit := by simp
  generalize shedToBudget s = v at hshed hcount hlimits
  have hline : ∀ w ∈ s.power.wakeList, (v.line w.line).apart = (s.line w.line).apart := fun w hwm =>
    hshed.others _ fun hn => by simpa [shedLines_awake hn] using asleep_not_awake (hw.1 w hwm)
  have hg := grantAll_grants (hw.sublist (t := v) (fun w hwm => apart_st (hline w (by rwa [hshed.power] at hwm)))
    (by rw [hshed.power]))
  have hbudget : awakeBudget v = awakeBudget s := awakeBudget_congr (by rw [hshed.power])
  have hroom : awakeBudget s - min (awakeCount s) (awakeBudget s) = awakeBudget s - awakeCount s := by omega
  rw [hbudget, hcount, hroom, hshed.power] at hg
  generalize grantAll v = t at hg
  have hwoken : ∀ w ∈ s.power.wakeList.take (awakeBudget s - awakeCount s), w ∈ s.power.wakeList :=
    fun w hwm => List.mem_of_mem_take hwm
  have hst : ∀ m, (∀ w ∈ s.power.wakeList.take (awakeBudget s - awakeCount s), w.line ≠ m) → (t.line m).st =
      if m ∈ shedLines s then shedState (currentPolicy s).sleep (s.line m).st else (s.line m).st := fun m hm => by
    rw [apart_st (hg.others m hm), hshed.st]
  have hmem := mem_shedLines_iff (fun w hwm => hw.1 w (hwoken w hwm)) hst
  refine ⟨⟨?_, ?_, fun w hwm => ?_, fun x y hx hy hxy hax => ?_, fun n hn => ?_⟩, ?_⟩
  · rw [hg.count, hcount, List.length_take]
    omega
  · rw [hg.power, hshed.power]
  · exact Line.wokenFrom_congr (hline w (hwoken w hwm)) rfl hlimits.1 hlimits.2 (hg.each w hwm)
  · by_contra hay
    have hyn := (hmem y).mpr ⟨hy, by simpa using hay⟩
    simp [((hmem x).mp (shedLines_first hx hxy hyn)).2] at hax
  · refine (hst n hn).trans ?_
    rw [shedState_eq]
    simp only [hmem]
  · refine ((hshed.counted hact).1.congr (.refl s) hg.counts fun _ => rfl).perm (.map _ ?_)
    refine (List.perm_ext_iff_of_nodup ((List.nodup_finRange 24).filter _) (shedLines_nodup s)).mpr fun n => ?_
    simp [hmem]

/-! ## A write of the entry in force -/

/-- What follows the shedding keeps the budget (R167). -/
theorem afterPolicyWrite_follows (b : Bool) (s : State) : Follows (shedToBudget s) (afterPolicyWrite b s) := by
  have h : Follows (shedToBudget s) (idleStep (grantAll (shedToBudget s))) :=
    idleStep_follows (grants_follows _ (.refl _))
  unfold afterPolicyWrite
  dsimp only
  split
  · exact foldl_holds (Follows (shedToBudget s)) _ (fun _ n hu => rederiveQuiet_follows n hu) _ _ h
  · exact h

theorem afterPolicyWrite_moved (b : Bool) (s : State) : Moved s (afterPolicyWrite b s) := by
  have h : Moved s (idleStep (grantAll (shedToBudget s))) :=
    idleStep_moved (grantAll_moved (shedToBudget_moved (.refl s)))
  unfold afterPolicyWrite
  dsimp only
  split
  · exact rederiveAll_moved h
  · exact h

/-- With no quiet delay the quiet delays anew do nothing (R93). -/
theorem afterPolicyWrite_of_never (b : Bool) (h : ∀ n, (s.line n).cfg.quietDelay = 0) :
    afterPolicyWrite b s = idleStep (grantAll (shedToBudget s)) := by
  have hcfg := (idleStep_moved (grantAll_moved (shedToBudget_moved (.refl s)))).cfg
  simp [afterPolicyWrite, rederiveAll_of_never fun n => by rw [hcfg]; exact h n]

/-- A write of the entry in force with no quiet delay, no test and nothing queued (R170, R171, R174). -/
theorem afterPolicyWrite_budgetTaken (b : Bool) (hw : WakesListed s) (hact : s.seq.act = none)
    (hq : s.seq.queue = []) (hd : ∀ n, (s.line n).cfg.quietDelay = 0) :
    budgetTakenCounted s (afterPolicyWrite b s) := by
  have hgranted := grantAll_shedToBudget hw hact
  have hseq : (grantAll (shedToBudget s)).seq = s.seq := by
    simpa using ((shedToBudget_shed s).counted hact).2
  rw [afterPolicyWrite_of_never b hd]
  rcases idleStep_of_rest (s := grantAll (shedToBudget s)) (by rw [hseq, hq]) with h | h
  · rwa [h]
  · rw [h]
    exact hgranted.congr (fun m => congrArg Line.apart (State.line_of_lines (by simp) m)) (by simp)
      (suspendSeq_counts _).1

/-! ## The rows -/

/-- The results of a recompute hold the effective capacity (R52, R58). -/
theorem recompute_last_effective (s : State) : (recompute s).shares.last.effective =
    min (capacityInUse s.shares) (s.shares.ceiling * (currentPolicy s).scale / 100) - s.shares.allowance := rfl

theorem row_setUplink (o : Origin) (he : UplinkFields.exist f = true)
    (hl : lockForbids s o = false) :
    runRow (.setUplink o f) s = answer (clampStatus (UplinkFields.clamps f)) (UplinkFields.store f s.shares).items
      (recompute (s.modShares fun _ => UplinkFields.store f s.shares)) := by
  simp [runRow, cmdSetUplink, he, hl]

theorem PowerState.ofCode_code (p : PowerState) : PowerState.ofCode p.code = some p := by cases p <;> rfl

/-- The state with one policy entry written (R174). -/
def policyWritten (st : PowerState) (pf : PolicyFields) (s : State) : State :=
  s.modPower fun x => { x with
    policies := x.policies.set (PowerState.idx st) (PolicyFields.store pf (x.policies.get (PowerState.idx st))) }

theorem currentPolicy_policyWritten (pf : PolicyFields) (hst : s.power.state = some st) :
    currentPolicy (policyWritten st pf s) = PolicyFields.store pf (s.power.policies.get (PowerState.idx st)) := by
  simp [currentPolicy, policyWritten, hst]

theorem awakeBudget_policyWritten (pf : PolicyFields) (hst : s.power.state = some st) :
    awakeBudget (policyWritten st pf s) =
      (PolicyFields.store pf (s.power.policies.get (PowerState.idx st))).budget := by
  rw [← currentPolicy_policyWritten pf hst]
  simp [awakeBudget, policyWritten, hst]

theorem row_writePowerPolicy (o : Origin) (he : PolicyFields.exist pf = true) (hl : lockForbids s o = false)
    (hst : s.power.state ≠ some st) :
    runRow (.writePowerPolicy o st.code pf) s = answer (clampStatus (PolicyFields.clamps pf))
      (PolicyFields.store pf (s.power.policies.get (PowerState.idx st))).items (recompute (policyWritten st pf s)) := by
  simp only [runRow, cmdWritePowerPolicy, PowerState.ofCode_code, he, hl, State.modPower_power, hst, if_false,
    Bool.false_and, Bool.true_eq_false, Bool.false_eq_true]
  rfl

theorem row_writePowerPolicy_inForce (o : Origin) (he : PolicyFields.exist pf = true) (hl : lockForbids s o = false)
    (hst : s.power.state = some st) :
    ∃ b, runRow (.writePowerPolicy o st.code pf) s = answer (clampStatus (PolicyFields.clamps pf))
      (PolicyFields.store pf (s.power.policies.get (PowerState.idx st))).items
      (recompute (afterPolicyWrite b (policyWritten st pf s))) := by
  simp only [runRow, cmdWritePowerPolicy, PowerState.ofCode_code, he, hl, State.modPower_power, hst, if_true,
    Bool.false_and, Bool.true_eq_false, Bool.false_eq_true, if_false]
  exact ⟨_, rfl⟩

/-! ## What the writes leave -/

/-- A recompute leaves all but the shares, the credits and the results (R58, R61). -/
theorem recompute_kept (s : State) : linesKept s (recompute s) ∧ (recompute s).power = s.power
    ∧ testsKept s (recompute s) ∧ (recompute s).counts = s.counts ∧ (recompute s).pool = s.pool
    ∧ (recompute s).stations = s.stations ∧ (recompute s).mgmt = s.mgmt :=
  ⟨recompute_apart s, by simp, ⟨by simp, by simp⟩, by simp, by simp, by simp, by simp⟩

/-- The Share Computer after SET UPLINK (R46, R52, R59, R63). -/
theorem setUplink_shares (f : UplinkFields) (s : State) :
    let t := recompute (s.modShares fun _ => UplinkFields.store f s.shares)
    { t.shares with last := s.shares.last } = UplinkFields.store f s.shares
      ∧ t.shares.last.effective = min (capacityInUse (UplinkFields.store f s.shares))
          ((UplinkFields.store f s.shares).ceiling * (currentPolicy s).scale / 100)
            - (UplinkFields.store f s.shares).allowance :=
  ⟨rfl, recompute_last_effective _⟩

/-- The power side after a write of the entry in force (R167, R174). -/
theorem afterPolicyWrite_power (b : Bool) (pf : PolicyFields) (hst : s.power.state = some st) :
    let new := PolicyFields.store pf (s.power.policies.get (PowerState.idx st))
    let t := afterPolicyWrite b (policyWritten st pf s)
    t.power.policies = s.power.policies.set (PowerState.idx st) new ∧ t.power.state = some st
      ∧ currentPolicy t = new ∧ awakeCount t ≤ new.budget := by
  dsimp only
  have hpower := (afterPolicyWrite_moved b (policyWritten st pf s)).power
  have hshed := (shedToBudget_shed (policyWritten st pf s)).power
  have hbudget := (afterPolicyWrite_follows b (policyWritten st pf s)).budget
  rw [shedToBudget_awakeCount, awakeBudget_congr (s := policyWritten st pf s) (t := shedToBudget _) (by rw [hshed]),
    awakeBudget_congr hpower, awakeBudget_policyWritten pf hst] at hbudget
  generalize afterPolicyWrite b (policyWritten st pf s) = t at *
  exact ⟨(congrArg Power.policies hpower :), (congrArg Power.state hpower :).trans hst,
    (currentPolicy_congr hpower).trans (currentPolicy_policyWritten pf hst), hbudget (min_le_right _ _)⟩

/-- The effective capacity after an operation that leaves the upstream settings (R52). -/
theorem recompute_effective_of_kept (h : upstreamKept s t) : (recompute t).shares.last.effective =
    min (capacityInUse s.shares) (s.shares.ceiling * (currentPolicy t).scale / 100) - s.shares.allowance := by
  have hcapacity : capacityInUse t.shares = capacityInUse s.shares := (congrArg capacityInUse h.1 :)
  have hceiling : t.shares.ceiling = s.shares.ceiling := (congrArg Shares.ceiling h.1 :)
  have hallowance : t.shares.allowance = s.shares.allowance := (congrArg Shares.allowance h.1 :)
  rw [recompute_last_effective, hcapacity, hceiling, hallowance]

end

end Sys2Proof.Machine

namespace Sys2Proof
open Machine

/-- Settles O51: both writes are rows that recompute, and a write of the entry in force sheds and grants by the policy
that it has stored. -/
theorem uplinkAndPolicySettings : Obligations.UplinkAndPolicySettings := by
  intro o f st pf s hs
  refine ⟨fun he => ?_, fun he hl hne => ?_, fun he hl => ?_, fun he => ?_, fun he hl hst => ?_, fun he hl hst => ?_,
    fun he hl hne => ?_⟩
  · exact exec_of_row hs rfl (by simp [runRow, cmdSetUplink, he, refuse_eq])
  · exact exec_of_row hs rfl (by simp [runRow, cmdSetUplink, he, hl, hne, refuse_eq])
  · refine ⟨_, exec_of_row hs rfl (row_setUplink o he hl), ?_⟩
    obtain ⟨hset, heffective⟩ := setUplink_shares f s
    obtain ⟨hlines, hpower, htests, hcounts, hpool, hstations, hmgmt⟩ :=
      recompute_kept (s.modShares fun _ => UplinkFields.store f s.shares)
    generalize recompute (s.modShares fun _ => UplinkFields.store f s.shares) = t at *
    have hceiling : t.shares.ceiling = (UplinkFields.store f s.shares).ceiling := (congrArg Shares.ceiling hset :)
    have hhold : t.shares.hold = (UplinkFields.store f s.shares).hold := (congrArg Shares.hold hset :)
    have hbackhaul : t.shares.backhaul = (UplinkFields.store f s.shares).backhaul := (congrArg Shares.backhaul hset :)
    refine ⟨hset, ?_, fun v hv => hceiling.trans ?_, fun v hv => hhold.trans ?_, (congrArg Shares.holdTimer hset :),
      fun v hv => hbackhaul.trans ?_, (congrArg Shares.source hset :), hlines, ⟨htests, hpower⟩, hcounts, hstations,
      hpool, ?_⟩
    · rw [← hset] at heffective
      exact heffective
    · simp [UplinkFields.store, hv, clampOr, clamp]
    · simp [UplinkFields.store, hv, clampOr, clamp]
    · simp [UplinkFields.store, hv]
    · rw [State.answered, State.modMgmt_mgmt, hmgmt]
      rfl
  · exact exec_of_row hs rfl (by simp [runRow, cmdWritePowerPolicy, PowerState.ofCode_code, he, refuse_eq])
  · refine ⟨_, exec_of_row hs rfl (row_writePowerPolicy o he hl hst), rfl, ?_⟩
    have hlast := recompute_effective_of_kept (s := s) (t := policyWritten st pf s) (.refl s)
    obtain ⟨hlines, hpower, htests, hcounts, hpool, -, -⟩ := recompute_kept (policyWritten st pf s)
    generalize recompute (policyWritten st pf s) = t at *
    refine ⟨hpower, ?_, hlines, htests, hcounts, hpool⟩
    rwa [← currentPolicy_congr (t := t) (by rw [hpower])] at hlast
  · obtain ⟨b, hrow⟩ := row_writePowerPolicy_inForce o he hl hst
    refine ⟨_, exec_of_row hs rfl hrow, ?_⟩
    obtain ⟨hpolicies, hstate, hpolicy, hcount⟩ := afterPolicyWrite_power b pf hst
    obtain ⟨hupstream, -, -, -, hmgmt, -⟩ := (afterPolicyWrite_moved b (policyWritten st pf s)).beside
    have htaken := afterPolicyWrite_budgetTaken b (s := policyWritten st pf s)
    generalize afterPolicyWrite b (policyWritten st pf s) = t at *
    have heffective := recompute_effective_of_kept hupstream
    have hscale : (recompute t).shares.last.scale = (currentPolicy t).scale := rfl
    rw [hpolicy] at heffective hscale
    obtain ⟨hlines, hpower, -, hcounts, -, -, hkept⟩ := recompute_kept t
    generalize recompute t = u at *
    refine ⟨(congrArg Power.policies hpower).trans hpolicies, (congrArg Power.state hpower).trans hstate,
      (awakeCount_congr fun m => apart_st (hlines m)).trans_le hcount, hscale, heffective, ?_, fun hw hact hq hd => ?_⟩
    · rw [State.answered, State.modMgmt_mgmt, hkept, hmgmt]
      rfl
    · have hrecomputed := (htaken hw hact hq hd).congr hlines (congrArg Power.wakeList hpower) (.of_eq hcounts)
      rw [budgetTakenCounted, awakeBudget_policyWritten pf hst, currentPolicy_policyWritten pf hst] at hrecomputed
      exact hrecomputed
  · exact exec_of_row hs rfl (by simp [runRow, cmdWritePowerPolicy, PowerState.ofCode_code, he, hl, hne, refuse_eq])

end Sys2Proof
end

