-- ==== Sys2Proof/Proofs/LinePorts.lean ====
section
/-! PROOF. The wake requests of ACTIVITY and of the sense inputs (R90, R91, R103, R168), LINK_UP and RATES (R92, R93),
and WAKE_GRANT (R170). -/

namespace Sys2Proof.Machine

section
variable {n : LineNo} {s t : State}

/-! ## Sense edges -/

/-- An event writes the counters' block alone (R199). -/
theorem raise_eq (x : Option LineNo) (d : Detail) (s : State) :
    raise x d s = { s with counts := (raise x d s).counts } := by
  unfold raise
  dsimp only
  split
  · unfold offerNotice
    split
    · rfl
    · split <;> rfl
  · rfl

/-- The state in which a matching sense edge has set its flag and raised SENSE (R103). -/
def senseSeen (n : LineNo) (rising : Bool) (s : State) : State :=
  raise (some n) (.sense rising) (s.modLine n fun l => { l with sense := true })

theorem senseSeen_flagged (n : LineNo) (rising : Bool) (s : State) : flagged (senseSeen n rising s) .sense :=
  raise_flagged (s.modLine n fun l => { l with sense := true }) (some n) (.sense rising)

theorem senseSeen_eq (n : LineNo) (rising : Bool) (s : State) : senseSeen n rising s =
    { s with lines := (senseSeen n rising s).lines, counts := (senseSeen n rising s).counts } := by
  have hlines : (senseSeen n rising s).lines = (s.modLine n fun l => { l with sense := true }).lines :=
    raise_lines _ _ _
  rw [hlines]
  exact raise_eq (some n) (.sense rising) (s.modLine n fun l => { l with sense := true })

theorem senseSeen_line_self (n : LineNo) (rising : Bool) (s : State) :
    (senseSeen n rising s).line n = { s.line n with sense := true } := by
  rw [senseSeen, State.line_of_lines (raise_lines _ _ _), State.modLine_line_self]

theorem senseSeen_line_other {m : LineNo} (rising : Bool) (s : State) (h : m ≠ n) :
    (senseSeen n rising s).line m = s.line m := by
  rw [senseSeen, State.line_of_lines (raise_lines _ _ _), State.modLine_line_other _ _ h]

@[simp] theorem senseSeen_power (n : LineNo) (rising : Bool) (s : State) :
    (senseSeen n rising s).power = s.power := by rw [senseSeen_eq]

@[simp] theorem senseSeen_mgmt (n : LineNo) (rising : Bool) (s : State) :
    (senseSeen n rising s).mgmt = s.mgmt := by rw [senseSeen_eq]

theorem senseSeen_kept (n : LineNo) (rising : Bool) (s : State) :
    (senseSeen n rising s).stations = s.stations ∧ (senseSeen n rising s).pool = s.pool
      ∧ testsKept s (senseSeen n rising s) ∧ besideKept s (senseSeen n rising s) := by
  rw [senseSeen_eq]
  exact ⟨rfl, rfl, ⟨rfl, rfl⟩, .refl s, rfl, rfl, rfl, rfl, rfl⟩

theorem senseSeen_st (n : LineNo) (rising : Bool) (s : State) (m : LineNo) :
    ((senseSeen n rising s).line m).st = (s.line m).st := by
  by_cases hm : m = n
  · rw [hm, senseSeen_line_self]
  · rw [senseSeen_line_other rising s hm]

theorem currentPolicy_senseSeen (n : LineNo) (rising : Bool) (s : State) :
    currentPolicy (senseSeen n rising s) = currentPolicy s := by simp [currentPolicy]

/-! ## Wake requests of a line's state -/

/-- The cause of the wake request that a line's state makes of a sense edge, where the policy permits it (R91, R103). -/
def senseCause (s : State) (st : LineState) : Option WakeCause :=
  if st = .down then some .start
  else if (st = .quiet ∨ st = .dormant) ∧ (currentPolicy s).wakeSense = true then some .sense
  else none

/-- The same of ACTIVITY, which asks nothing of a DORMANT line (R91). -/
def activityCause (s : State) (st : LineState) : Option WakeCause :=
  if st = .down then some .start
  else if st = .quiet ∧ (currentPolicy s).wakeSense = true then some .sense
  else none

/-- The wake request of a cause, if there is one. -/
def requestOf (n : LineNo) (c : Option WakeCause) (s : State) : State := c.elim s fun c => wakeRequest n c s

@[simp] theorem requestOf_none (n : LineNo) (s : State) : requestOf n none s = s := rfl
@[simp] theorem requestOf_some (n : LineNo) (c : WakeCause) (s : State) :
    requestOf n (some c) s = wakeRequest n c s := rfl

theorem requestOf_ite (n : LineNo) (c : WakeCause) (b : Prop) [Decidable b] (s : State) :
    requestOf n (if b then some c else none) s = if b then wakeRequest n c s else s := by split <;> rfl

theorem exec_activity (n : LineNo) (hrun : s.running = true) :
    exec (.activity n) s = .next (requestOf n (activityCause s (s.line n).st) s) := by
  have hexec : exec (.activity n) s = .next (whenRunning (takeActivity n) s) := rfl
  rw [hexec, whenRunning, if_pos hrun, takeActivity, activityCause]
  cases (s.line n).st <;> simp [requestOf_ite]

theorem exec_senseEdge {rising : Bool} (hrun : s.running = true)
    (he : edgeMatches (s.line n).cfg.senseEdge rising = true) : exec (.senseEdge n rising) s
      = .next (requestOf n (senseCause s (s.line n).st) (senseSeen n rising s)) := by
  have hexec : exec (.senseEdge n rising) s = .next (whenRunning (takeSense n rising) s) := rfl
  have hseen : raise (some n) (.sense rising) (s.modLine n fun l => { l with sense := true }) = senseSeen n rising s :=
    rfl
  rw [hexec, whenRunning, if_pos hrun, takeSense, if_pos he]
  simp only [hseen, senseSeen_st, currentPolicy_senseSeen, senseCause]
  cases (s.line n).st <;> simp [requestOf_ite]

theorem exec_senseEdge_unmatched {rising : Bool} (hrun : s.running = true)
    (he : edgeMatches (s.line n).cfg.senseEdge rising = false) : exec (.senseEdge n rising) s = .next s := by
  have hexec : exec (.senseEdge n rising) s = .next (whenRunning (takeSense n rising) s) := rfl
  rw [hexec, whenRunning, if_pos hrun, takeSense, if_neg (by simp [he])]

/-- A request with the budget used up joins the list, and nothing else happens (R168, R170). -/
theorem requestOf_full (c : Option WakeCause) (hfull : awakeBudget s ≤ awakeCount s)
    (hnot : ∀ w ∈ s.power.wakeList, w.line ≠ n) : requestOf n c s = s.modPower fun p => { p with
      wakeList := p.wakeList ++ c.toList.map fun c => { line := n, cause := c, time := s.mgmt.time } } := by
  cases c with
  | none => simp [requestOf, State.modPower]
  | some c =>
    obtain ⟨hlisted, -⟩ := (wakeRequest_taken n c s).2 hnot
    exact hlisted hfull

/-! ## Reports of a line's link -/

/-- A RATES report of a line: its rates stored, each at most 100,000 (R93). -/
theorem takeRates_rates (n : LineNo) (down up : Nat) (s : State) :
    let t := takeRates n down up s
    (t.line n).apart = { (s.line n).apart with downRate := min 100000 down, upRate := min 100000 up }
      ∧ othersKept n s t ∧ plantKept s t ∧ besideKept s t ∧ t.pool = s.pool ∧ t.stations = s.stations
      ∧ t.counts = s.counts := by
  refine ⟨?_, fun m hm => ?_, ⟨⟨by simp, by simp⟩, by simp⟩, (takeRates_moved n down up (.refl s)).beside, by simp,
    by simp, by simp⟩
  · rw [takeRates, recomputeIf_apart, State.modLine_line_self]
    rfl
  · rw [takeRates, recomputeIf_apart, State.modLine_line_other _ _ hm]

/-- A TRAINING line as LINK_UP leaves it (R84, R92). -/
def Line.linkedUp (down up : Nat) (before after : Line) : Prop :=
  after.st = .up ∧ after.downRate = min 100000 down ∧ after.upRate = min 100000 up ∧ after.trainTimer = none
    ∧ after.ready = before.ready ∧ after.cfg = before.cfg ∧ after.wakeStore = before.wakeStore
    ∧ after.downQ = before.downQ

theorem Line.linkedUp_congr {down up : Nat} {l a b : Line} (hab : a.apart = b.apart) (h : Line.linkedUp down up l b) :
    Line.linkedUp down up l a := by
  have hapart : Line.linkedUp down up l b.apart := h
  rw [← hab] at hapart
  exact hapart

/-- The entry of a TRAINING line to UP, once its rates are stored (R85, R88, R92). -/
theorem Line.entered_linkUp (s : State) (down up : Nat) {l : Line} (h : l.st = .training) :
    Line.linkedUp down up l ((storeRates down up l).entered s .up .linkUp) := by
  simp [Line.linkedUp, Line.entered, entryFlush, leaveState, enterState, Flush.empty, storeRates, Config.rateMax, h]

/-- The entry to UP of a TRAINING line, awake before and after: it flushes nothing, and it takes and makes no room (R88,
R92, R170). -/
theorem enter_linkUp (hst : (s.line n).st = .training) :
    let t := enter n .up .linkUp s
    (t.line n).apart = ((s.line n).entered s .up .linkUp).apart ∧ (s.running = true → flagged t .lineState)
      ∧ othersKept n s t ∧ plantKept s t ∧ besideKept s t ∧ t.pool = s.pool ∧ t.stations = s.stations := by
  have hne : (s.line n).st ≠ .up := by rw [hst]; decide
  have henter := enter_to_awake (n := n) (s := s) (new := .up) (r := .linkUp) rfl
  refine ⟨?_, fun hrun => ?_, fun m hm => ?_, ⟨enter_testsKept n .up .linkUp s, ?_⟩,
    (enter_moved n .up .linkUp (.refl s)).beside, enter_pool (by rw [hst]; rfl), ?_⟩
  · rw [henter, recomputeIf_apart, enterCore_line_self n _ _ s hne]
  · rw [henter, flagged, recomputeIf_counts]
    exact enterCore_flagged n _ _ s hne hrun
  · rw [henter, recomputeIf_apart, enterCore_line_other n _ _ s hm]
  · rw [henter, recomputeIf_power, enterCore_power n _ _ s hne, hst]
    rfl
  · rw [henter, recomputeIf_stations, enterCore_stations n _ _ s hne]
    rfl

end

end Sys2Proof.Machine

namespace Sys2Proof
open Machine

/-- Settles O20: a step is the wake request of the line's state, made in the state with the flag and the event where an
edge is seen, and the request is `wakeRequest_taken`. -/
theorem wakeRequestsListed : Obligations.WakeRequestsListed := by
  intro n rising u s hrun
  have hact := exec_activity n hrun
  refine ⟨fun hst => ?_, fun hst hp => ?_, fun hnd hnq => ?_, fun he hu => ?_, fun hfull hnot => ⟨?_, ?_, fun he => ?_⟩⟩
  · exact ⟨_, by simpa [activityCause, hst] using hact, wakeRequest_taken n .start s⟩
  · exact ⟨_, by simpa [activityCause, hst, hp] using hact, wakeRequest_taken n .sense s⟩
  · rw [hact, activityCause, if_neg hnd, if_neg fun h => by simp [hnq h.1] at h]
    rfl
  · have hsense := exec_senseEdge hrun he
    obtain rfl : u = senseSeen n rising s := hu
    refine ⟨senseSeen_flagged n rising s, senseSeen_eq n rising s, senseSeen_line_self n rising s,
      fun m hm => senseSeen_line_other rising s hm, fun hst => ?_, fun hst => ⟨fun hp => ?_, fun hp => ?_⟩,
      fun hnd hnq hnm => ?_⟩
    · exact ⟨_, by simpa [senseCause, hst] using hsense, wakeRequest_taken n .start _⟩
    · refine ⟨_, ?_, wakeRequest_taken n .sense _⟩
      rcases hst with hst | hst <;> simpa [senseCause, hst, hp] using hsense
    · rcases hst with hst | hst <;> simpa [senseCause, hst, hp] using hsense
    · simpa [senseCause, hnd, hnq, hnm] using hsense
  · rw [hact, requestOf_full _ hfull hnot, activityCause]
    split
    · rfl
    · split
      · rfl
      · simp [State.modPower]
  · exact exec_senseEdge_unmatched hrun
  · have hcount : awakeCount (senseSeen n rising s) = awakeCount s := awakeCount_congr (senseSeen_st n rising s)
    have hbudget : awakeBudget (senseSeen n rising s) = awakeBudget s := awakeBudget_congr (by simp)
    refine ⟨_, exec_senseEdge hrun he, ?_⟩
    rw [requestOf_full _ (by rwa [hcount, hbudget]) (by simpa using hnot)]
    obtain ⟨hstations, hpool, htests, hbeside⟩ := senseSeen_kept n rising s
    refine ⟨senseSeen_line_self n rising s, fun m hm => senseSeen_line_other rising s hm,
      senseSeen_flagged n rising s, hstations, hpool, htests, hbeside, ?_⟩
    rw [State.modPower_power, senseSeen_power, senseSeen_mgmt, senseCause]
    split
    · rfl
    · split <;> rfl

/-- Settles O21: LINK_UP of a TRAINING line is an entry to UP that makes and takes no room, and the other reports are
`takeRates_rates`. -/
theorem linkUpAndRates : Obligations.LinkUpAndRates := by
  intro n down up s hrun
  refine ⟨fun hst => ?_, fun hst c hc => ⟨takeRates n down up s, ?_, takeRates_rates n down up s⟩⟩
  · have hexec : exec (.linkUp n down up) s = .next (enter n .up .linkUp (s.modLine n (storeRates down up))) := by
      have hl : exec (.linkUp n down up) s = .next (whenRunning (takeLinkUp n down up) s) := rfl
      rw [hl, whenRunning, if_pos hrun, takeLinkUp, hst]
    obtain ⟨hline, hflagged, hothers, hplant, hbeside, hpool, hstations⟩ :=
      enter_linkUp (n := n) (s := s.modLine n (storeRates down up)) (by rw [State.modLine_line_self]; exact hst)
    rw [State.modLine_line_self] at hline
    obtain ⟨hup, hdownRate, hupRate, htimer, hready, hcfg, hstore, hqueue⟩ :=
      Line.linkedUp_congr hline (Line.entered_linkUp _ down up hst)
    exact ⟨_, hexec, hup, hdownRate, hupRate, htimer, hready, hcfg, hstore, hqueue, hflagged hrun,
      (modLine_othersKept _).trans hothers, hplant, hbeside, hpool, hstations⟩
  · have hr : exec (.rates n down up) s = .next (whenRunning (takeRatesReport n down up) s) := rfl
    have hl : exec (.linkUp n down up) s = .next (whenRunning (takeLinkUp n down up) s) := rfl
    rcases hc with rfl | rfl
    · rw [hr, whenRunning, if_pos hrun, takeRatesReport]
      rcases hst with hst | hst | hst <;> rw [hst]
    · rw [hl, whenRunning, if_pos hrun, takeLinkUp]
      rcases hst with hst | hst | hst <;> rw [hst]

/-- Settles O25: a grant is `grantOne_granted_filter`, and the entry of a line that is awake already is dropped. -/
theorem wakeGranted : Obligations.WakeGranted := by
  intro e rest s hl
  have hexec : exec .wakeGrant s = .next (grants 1 s) := rfl
  refine ⟨fun hfull => by rw [hexec, grants_full 1 hfull], fun hroom => ⟨grantOne e s, ?_, ?_⟩⟩
  · rw [hexec, grants_step 0 hl hroom]
    rfl
  · obtain ⟨htests, hbeside, hstations⟩ := grantOne_kept e s
    obtain ⟨hothers, -⟩ := grantOne_other hl
    refine ⟨fun hst => ?_, fun hst => ?_, fun hst => ?_, hothers, htests, hbeside, grantOne_pool e s, hstations⟩
    · have ha : asleepState (s.line e.line).st = true := by rcases hst with h | h <;> rw [h] <;> rfl
      have hwoken := (grantOne_granted_filter hl ha).woken
      have hne : (s.line e.line).st ≠ .quiet := by rcases hst with h | h <;> rw [h] <;> decide
      rwa [Line.wokenFrom, if_neg hne] at hwoken
    · have ha : asleepState (s.line e.line).st = true := by rw [hst]; rfl
      have hwoken := (grantOne_granted_filter hl ha).woken
      rwa [Line.wokenFrom, if_pos hst] at hwoken
    · have ha : asleepState (s.line e.line).st = true := by rcases hst with h | h | h <;> rw [h] <;> rfl
      have g := grantOne_granted_filter hl ha
      exact ⟨g.awakeCount ha, g.power, g.raised⟩

end Sys2Proof
end

