-- ==== Sys2Proof/Proofs/TestFinished.lean ====
section
/-! PROOF. The end of a test (R140 to R142): its record, its grade in the line record, and the return of the HELD line
(R100, R109). -/

namespace Sys2Proof.Machine

section
variable {n : LineNo} {a : Activity} {o : Outcome} {s : State}

/-! ## The record and the grade -/

/-- The grade that a test gives its line: none unless it was completed (R141). -/
def testGrade (o : Outcome) (a : Activity) : Option Grade := if o = .completed then some (gradeOf a.results) else none

theorem testGrade_completed (a : Activity) : testGrade .completed a = some (gradeOf a.results) := rfl
theorem testGrade_aborted (h : o ≠ .completed) (a : Activity) : testGrade o a = none := if_neg h

/-- The record of an activity that ends with an outcome (R142). -/
def endRecord (o : Outcome) (a : Activity) (s : State) : TestRecord :=
  { seq := nextSequence s.seq.counter, line := a.line, program := a.program, origin := a.origin, start := a.start
    stop := s.mgmt.time, outcome := o, grade := if o = .completed then gradeOf a.results else .none
    interrupted := a.interrupted, guardTripped := a.guardTripped, results := a.results }

/-- A record written while the log has a place left (R142). -/
theorem writeRecord_room (r : TestRecord) (h : s.seq.log.length < Config.logPlaces) : writeRecord r s =
    s.modSeq fun q => { q with
      counter := nextSequence s.seq.counter, log := q.log ++ [{ r with seq := nextSequence s.seq.counter }] } := by
  have hroom : decide (Config.logPlaces ≤ s.seq.log.length) = false := by simpa using h
  simp [writeRecord, hroom]

/-- A grade and the number of its record in the line record (R141). -/
def graded (n : LineNo) (g : Option Grade) (k : Nat) (s : State) : State :=
  g.elim s fun g => (writeGrade n g s).modLine n fun l => { l with lastTest := some k }

/-- A line with its grade and the number of its record. -/
def Line.graded (g : Option Grade) (k : Nat) (l : Line) : Line :=
  g.elim l fun g => { l with grade := g, lastTest := some k }

theorem Line.graded_kept (g : Option Grade) (k : Nat) (l : Line) : (l.graded g k).st = l.st
    ∧ (l.graded g k).takenFrom = l.takenFrom ∧ (l.graded g k).cfg = l.cfg := by cases g <;> exact ⟨rfl, rfl, rfl⟩

theorem writeGrade_apart (n : LineNo) (g : Grade) (s : State) :
    ((writeGrade n g s).line n).apart = { (s.line n).apart with grade := g } ∧ othersKept n s (writeGrade n g s) := by
  have hmod : ((s.modLine n fun l => { l with grade := g }).line n).apart = { (s.line n).apart with grade := g } := by
    rw [State.modLine_line_self]
    rfl
  have hothers : othersKept n s (s.modLine n fun l => { l with grade := g }) := modLine_othersKept _
  unfold writeGrade
  dsimp only
  split
  · exact ⟨(recompute_apart _ n).trans hmod, hothers.trans fun m _ => recompute_apart _ m⟩
  · exact ⟨hmod, hothers⟩

theorem graded_kept (n : LineNo) (g : Option Grade) (k : Nat) (s : State) :
    ((graded n g k s).line n).apart = ((s.line n).graded g k).apart ∧ othersKept n s (graded n g k s)
      ∧ testsKept s (graded n g k s) ∧ (graded n g k s).power = s.power := by
  cases g with
  | none => exact ⟨rfl, fun _ _ => rfl, ⟨rfl, rfl⟩, rfl⟩
  | some g =>
    obtain ⟨hline, hothers⟩ := writeGrade_apart n g s
    refine ⟨?_, hothers.trans (modLine_othersKept _), ⟨by simp [graded], by simp [graded]⟩, by simp [graded]⟩
    rw [graded, Option.elim, State.modLine_line_self]
    exact congrArg (fun l : Line => { l with lastTest := some k }) hline

/-! ## The return of a HELD line -/

theorem returnState_ne (l : Line) (g : Option Grade) : returnState l g ≠ .held ∧ returnState l g ≠ .draining := by
  unfold returnState
  split
  · exact ⟨nofun, nofun⟩
  · split <;> exact ⟨nofun, nofun⟩

/-- The state when taken is cleared by any entry but those to DRAINING and HELD (R100). -/
theorem Line.entered_takenFrom {new : LineState} (s : State) (r : Reason) (l : Line)
    (h : new ≠ .held ∧ new ≠ .draining) : (l.entered s new r).takenFrom = none := by
  have hend : (enterState s new (leaveState ((entryFlush l.st new r).empty l))).takenFrom = none := by
    unfold enterState
    cases new <;> simp_all
    split <;> rfl
  exact hend

/-- What the return of a HELD line leaves (R100). -/
theorem returnLine_held (g : Option Grade) (h : (s.line n).st = .held) :
    let t := returnLine n g s
    (t.line n).st = returnState (s.line n) g ∧ (t.line n).takenFrom = none ∧ (t.line n).grade = (s.line n).grade
      ∧ (t.line n).lastTest = (s.line n).lastTest ∧ othersKept n s t ∧ t.power = s.power ∧ testsKept s t := by
  have hreturn : returnLine n g s = enter n (returnState (s.line n) g) .returned s := by simp [returnLine, h]
  obtain ⟨hnheld, hndrain⟩ := returnState_ne (s.line n) g
  have hne : (s.line n).st ≠ returnState (s.line n) g := by rw [h]; exact hnheld.symm
  have haside : awakeState (s.line n).st = false ∧ asleepState (s.line n).st = false := by rw [h]; exact ⟨rfl, rfl⟩
  obtain ⟨hline, hothers⟩ := enter_aside_line (r := .returned) hne haside.1
  obtain ⟨kgrade, -, klast, -⟩ := Line.entered_kept s .returned (s.line n) (returnState (s.line n) g)
  dsimp only
  rw [hreturn]
  refine ⟨?_, ?_, ?_, ?_, hothers, enter_aside_power hne haside.1 haside.2, enter_testsKept n _ _ s⟩
  · rw [apart_st hline, Line.entered_st]
  · exact (congrArg Line.takenFrom hline : _).trans (Line.entered_takenFrom s _ _ ⟨hnheld, hndrain⟩)
  · exact (congrArg Line.grade hline : _).trans kgrade
  · exact (congrArg Line.lastTest hline : _).trans klast

/-! ## The end -/

/-- An activity closed with a return of its line (R140). -/
theorem closeActivity_eq (hact : s.seq.act = some a) : closeActivity o true s =
    (raise (some a.line) (.testDone (nextSequence s.seq.counter) o (endRecord o a s).grade)
      (returnLine a.line (testGrade o a)
        (graded a.line (testGrade o a) (nextSequence s.seq.counter) (writeRecord (endRecord o a s) s)))).modSeq
      fun q => { q with act := none, marker := none, suspended := false, suspendTimer := none } := by
  by_cases ho : o = .completed
  · subst ho
    simp [closeActivity, hact, testGrade, graded, endRecord]
  · simp [closeActivity, hact, testGrade, graded, endRecord, ho]

/-- What the close of a test leaves of its HELD line and of the rest, while the log has a place left (R140 to R142). -/
theorem closeActivity_held (hact : s.seq.act = some a) (hlog : s.seq.log.length < Config.logPlaces)
    (hst : (s.line a.line).st = .held) :
    let t := closeActivity o true s
    t.seq = { s.seq with
        act := none, marker := none, suspended := false, suspendTimer := none
        counter := nextSequence s.seq.counter, log := s.seq.log ++ [endRecord o a s] }
      ∧ t.access = s.access ∧ flagged t .testDone ∧ t.power = s.power ∧ othersKept a.line s t
      ∧ (t.line a.line).st = returnState (s.line a.line) (testGrade o a) ∧ (t.line a.line).takenFrom = none
      ∧ (t.line a.line).grade = (testGrade o a).getD (s.line a.line).grade
      ∧ (t.line a.line).lastTest =
          if (testGrade o a).isSome then some (nextSequence s.seq.counter) else (s.line a.line).lastTest := by
  rw [closeActivity_eq hact, writeRecord_room _ hlog]
  generalize hv : graded a.line (testGrade o a) (nextSequence s.seq.counter) _ = v
  obtain ⟨hline, hothers, ⟨haccess, hseq⟩, hpower⟩ := graded_kept a.line (testGrade o a) (nextSequence s.seq.counter)
    (s.modSeq fun q => { q with
      counter := nextSequence s.seq.counter
      log := q.log ++ [{ endRecord o a s with seq := nextSequence s.seq.counter }] })
  rw [hv] at hline hothers haccess hseq hpower
  obtain ⟨gst, gtaken, gcfg⟩ := Line.graded_kept (testGrade o a) (nextSequence s.seq.counter) (s.line a.line)
  have hvst : (v.line a.line).st = .held := (apart_st hline).trans (gst.trans hst)
  have hstate : returnState (v.line a.line) (testGrade o a) = returnState (s.line a.line) (testGrade o a) := by
    have htaken : (v.line a.line).takenFrom = (s.line a.line).takenFrom :=
      (congrArg Line.takenFrom hline : _).trans gtaken
    have hcfg : (v.line a.line).cfg = (s.line a.line).cfg := (apart_cfg hline).trans gcfg
    rw [returnState, returnState, htaken, hcfg]
  obtain ⟨rst, rtaken, rgrade, rlast, rothers, rpower, raccess, rseq⟩ := returnLine_held (testGrade o a) hvst
  generalize returnLine a.line (testGrade o a) v = u at *
  have hraised := State.line_of_lines (raise_lines u (some a.line)
    (.testDone (nextSequence s.seq.counter) o (endRecord o a s).grade))
  refine ⟨?_, ?_, raise_flagged u _ _, ?_, fun m hm => ?_, ?_, ?_, ?_, ?_⟩
  · rw [State.modSeq_seq, raise_seq, rseq, hseq]
    rfl
  · rw [State.modSeq_access, raise_access, raccess, haccess, State.modSeq_access]
  · rw [State.modSeq_power, raise_power, rpower, hpower, State.modSeq_power]
  · rw [State.modSeq_line, hraised]
    exact (hothers.trans rothers) m hm
  · rw [State.modSeq_line, hraised, rst, hstate]
  · rw [State.modSeq_line, hraised, rtaken]
  · rw [State.modSeq_line, hraised, rgrade]
    refine (congrArg Line.grade hline : _).trans ?_
    cases testGrade o a <;> rfl
  · rw [State.modSeq_line, hraised, rlast]
    refine (congrArg Line.lastTest hline : _).trans ?_
    cases testGrade o a <;> rfl

/-- The sequencer enters IDLE with nothing queued and EXTREQ released (R136, R140). -/
theorem enterIdle_of_empty (hq : s.seq.queue = []) (hx : s.seq.extreq = false) :
    enterIdle s = s.modSeq fun q => { q with st := .idle, extack := false } := by
  have hwalk : selectWalk 128 (s.modSeq fun q => { q with st := .idle, extack := false })
      = s.modSeq fun q => { q with st := .idle, extack := false } := selectWalk_of_empty 128 hq
  simp [enterIdle, idleStep, boundary, hx, hwalk]

/-- SETTLE_TIMER_EXPIRY of a release made for a test (R109, R140). -/
theorem exec_released (hact : s.seq.act = some a) (hm : s.access.matrix = .settlingOut) (hst : s.seq.st = .releasing)
    (ho : a.origin ≠ .external) : exec .settleTimerExpiry s = .next (enterIdle (closeActivity
      (a.pending.getD .completed) true (s.modAccess fun k => { k with matrix := .idle, settleTimer := none }))) := by
  have hexec : exec .settleTimerExpiry s = .next (settleEnds s) := rfl
  simp [hexec, settleEnds, hm, hst, releasedReport, hact, ho]

end

end Sys2Proof.Machine

namespace Sys2Proof
open Machine

/-- Settles O33: the released report closes the test, whose line is HELD, and the sequencer enters IDLE with nothing
queued. -/
theorem testFinished : Obligations.TestFinished := by
  intro a s hact hm hst ho hx hq hlog hheld
  refine ⟨_, exec_released hact hm hst ho, ?_⟩
  generalize a.pending.getD .completed = o
  have hmoved : Moved s (closeActivity o true (s.modAccess fun k => { k with matrix := .idle, settleTimer := none })) :=
    closeActivity_moved o true (modAccess_moved _ (.refl s))
  obtain ⟨hseq, haccess, hflagged, hpower, hothers, hstate, htaken, hgrade, hlast⟩ :=
    closeActivity_held (o := o) (s := s.modAccess fun k => { k with matrix := .idle, settleTimer := none }) hact hlog
      hheld
  generalize closeActivity o true (s.modAccess fun k => { k with matrix := .idle, settleTimer := none }) = u at *
  rw [enterIdle_of_empty (by rw [hseq]; exact hq) (by rw [hseq]; exact hx)]
  refine ⟨?_, haccess, hflagged, hpower, hothers, (modSeq_moved _ hmoved).beside, fun hc => ⟨?_, ?_⟩,
    fun hc => ⟨?_, ?_⟩, ?_, htaken⟩
  · rw [State.modSeq_seq, hseq]
    rfl
  · subst hc
    exact hgrade
  · subst hc
    exact hlast
  · rw [testGrade_aborted hc] at hgrade
    exact hgrade
  · rw [testGrade_aborted hc] at hlast
    exact hlast
  · refine hstate.trans ?_
    by_cases hc : o = .completed <;> simp [returnState, testGrade, hc]

end Sys2Proof
end

