-- ==== Sys2Proof/Proofs/Settings.lean ====
section
/-! PROOF. The commands that store settings: the limits of training and wakes (R104), the routine groups (R148, R150),
the programs (R131), the test limits (R156), the thresholds (R175), and the management settings, the time and the lock
(R184, R186, R187). -/

namespace Sys2Proof.Machine

section
variable {n : LineNo} {o : Origin} {s : State}

/-! ## Values that a setting carries -/

@[simp] theorem groupOf_val (g : Fin 4) : groupOf g.val = some g := by simp [groupOf]
theorem groupOf_of_le {v : Nat} (h : 4 ≤ v) : groupOf v = none := by simp [groupOf, Nat.not_lt.mpr h]
@[simp] theorem boolOf_toNat (b : Bool) : boolOf b.toNat = some b := by cases b <;> rfl
theorem boolOf_of_le {v : Nat} (h : 2 ≤ v) : boolOf v = none := by
  match v, h with
  | v + 2, _ => rfl

theorem clampStatus_eq (b : Bool) : clampStatus b = if b = true then .clamped else .ok := rfl

/-- The lock stands in the way of no command of an origin it lets through, and of none that changes nothing (R183). -/
theorem lock_allows {α : Type} [BEq α] [LawfulBEq α] {forbids : Bool} {new old : α} (h : forbids = false ∨ new = old) :
    (forbids && new != old) = false := by
  rcases h with rfl | rfl
  · rfl
  · simp

theorem lock_forbids {α : Type} [BEq α] [LawfulBEq α] {forbids : Bool} {new old : α} (h : forbids = true)
    (hne : new ≠ old) : (forbids && new != old) = true := by simp [h, hne]

/-! ## The programs -/

/-- An absent program may not be stored while a queued request, the running test or an enabled group names it (R131). -/
theorem programBusy_iff (s : State) (p : Fin 8) : programBusy s p = true ↔
    (∃ r ∈ s.seq.queue, r.program = p) ∨ (∃ r ∈ s.seq.act.toList, r.program = some p)
      ∨ ∃ h : Fin 4, (s.seq.groups.get h).enabled = true ∧ (s.seq.groups.get h).program = p := by
  have hact : (s.seq.act.any fun a => a.program == some p) = true ↔ ∃ r ∈ s.seq.act.toList, r.program = some p := by
    cases s.seq.act <;> simp
  have hgroups : (s.seq.groups.items.any fun g => g.enabled && g.program == p) = true ↔
      ∃ h : Fin 4, (s.seq.groups.get h).enabled = true ∧ (s.seq.groups.get h).program = p := by
    rw [tab_items_eq_map, List.any_map]
    simp [mem_indexes]
  rw [programBusy, Bool.or_eq_true, Bool.or_eq_true, hact, hgroups, or_assoc]
  simp

/-! ## The guard -/

/-- The comparison of the guard with no pair connected, a trip latched or a leg within the level (R119, R121). -/
theorem guardCheck_rests
    (h : s.access.matrix.pair = none ∨ s.access.tripped = true ∨ s.access.legMv ≤ tripLevel s.access) :
    guardCheck s = s := by
  unfold guardCheck
  split
  next m hm =>
    have hno : (!s.access.tripped && decide (tripLevel s.access < s.access.legMv)) = false := by
      rcases h with h | h | h
      · simp [hm] at h
      · simp [h]
      · simp [h]
    rw [if_neg (by simp [hno])]
  · rfl

theorem guardCheck_trips (hp : s.access.matrix.pair = some n) (ht : s.access.tripped = false)
    (hv : tripLevel s.access < s.access.legMv) : guardCheck s = tripGuard n s := by
  simp [guardCheck, hp, ht, hv]

/-! ## SET ROUTINE GROUP -/

/-- A routine group with the carried settings stored (R148, R150). -/
def setGroup (x y z : Option Nat) (g : Group) : Group :=
  { g with
    base := keepOr Base.ofMinutes g.base x, factor := clampOr 1 64 g.factor y, program := keepOr programOf g.program z }

theorem row_setRoutineGroup {g : Fin 4} {x y z : Option Nat} (o : Origin) (he : (s.seq.groups.get g).enabled = false)
    (hx : fieldOk Base.ofMinutes x = true) (hz : fieldOk programOf z = true) :
    runRow (.setRoutineGroup o g.val x y z) s = answer (if outside 1 64 y = true then .clamped else .ok)
      [.yes 1 false, .count 2 (setGroup x y z (s.seq.groups.get g)).base.minutes
      , .count 3 (setGroup x y z (s.seq.groups.get g)).factor
      , .count 4 (setGroup x y z (s.seq.groups.get g)).program.val
      , .count 5 (setGroup x y z (s.seq.groups.get g)).remaining
      , .count 6 (setGroup x y z (s.seq.groups.get g)).missed]
      (s.modSeq fun q => { q with groups := q.groups.set g (setGroup x y z (s.seq.groups.get g)) }) := by
  simp [runRow, cmdSetRoutineGroup, he, hx, hz, clampStatus_eq, Group.items, modGroup, Tab.modify, setGroup]

theorem row_setRoutineGroup_bad {g : Fin 4} {x y z : Option Nat} {v : Nat} (o : Origin)
    (h : fieldOk Base.ofMinutes x = false ∨ fieldOk programOf z = false ∨ 4 ≤ v) :
    runRow (.setRoutineGroup o (if fieldOk Base.ofMinutes x && fieldOk programOf z then v else g.val) x y z) s
      = answer .badParam [] s := by
  by_cases hok : (fieldOk Base.ofMinutes x && fieldOk programOf z) = true
  · obtain ⟨hx, hz⟩ := Bool.and_eq_true_iff.mp hok
    have hv : 4 ≤ v := by simpa [hx, hz] using h
    simp [runRow, cmdSetRoutineGroup, hok, groupOf_of_le hv, refuse_eq]
  · rw [if_neg hok]
    simp [runRow, cmdSetRoutineGroup, Bool.eq_false_of_not_eq_true hok, refuse_eq]

/-! ## WRITE PROGRAM -/

section
variable {p : Fin 8} {specs : List RawSpec} {read : List (Spec × Bool)}

theorem row_writeProgram_bad {v : Nat} (o : Origin) (h : readSpecs specs = none ∨ 8 ≤ v) :
    runRow (.writeProgram o (if (readSpecs specs).isNone then p.val else v) specs) s = answer .badParam [] s := by
  cases hr : readSpecs specs with
  | none => simp [runRow, cmdWriteProgram, hr, refuse_eq]
  | some rs =>
    have hv : 8 ≤ v := by simpa [hr] using h
    simp [runRow, cmdWriteProgram, programOf_of_le hv, refuse_eq]

theorem row_writeProgram_inverted (o : Origin) (hr : readSpecs specs = some read)
    (hinv : ∃ r ∈ read, Spec.inverted r.1 = true) : runRow (.writeProgram o p.val specs) s = answer .badParam [] s := by
  have hany : (read.map Prod.fst).any Spec.inverted = true := by
    rw [List.any_map]
    exact List.any_eq_true.mpr hinv
  simp only [runRow, cmdWriteProgram, programOf_val, hr, hany, if_true, refuse_eq]

theorem row_writeProgram_busy (o : Origin) (hr : readSpecs specs = some []) (hbusy : programBusy s p = true) :
    runRow (.writeProgram o p.val specs) s = answer .busy [] s := by
  simp [runRow, cmdWriteProgram, hr, hbusy, refuse_eq]

theorem none_inverted (hinv : ∀ r ∈ read, Spec.inverted r.1 = false) :
    (read.map Prod.fst).any Spec.inverted = false := by
  rw [List.any_map]
  exact List.any_eq_false.mpr fun r hrm => by simp [hinv r hrm]

theorem removal_free (hfree : read ≠ [] ∨ programBusy s p = false) :
    ((read.map Prod.fst).isEmpty && programBusy s p) = false := by
  rcases hfree with h | h <;> simp [h]

theorem row_writeProgram_locked (hr : readSpecs specs = some read) (hinv : ∀ r ∈ read, Spec.inverted r.1 = false)
    (hfree : read ≠ [] ∨ programBusy s p = false) (hl : lockForbids s o = true)
    (hne : read.map Prod.fst ≠ s.seq.programs.get p) :
    runRow (.writeProgram o p.val specs) s = answer .locked [] s := by
  simp only [runRow, cmdWriteProgram, programOf_val, hr, none_inverted hinv, removal_free hfree, lock_forbids hl hne,
    Bool.false_eq_true, if_false, if_true, refuse_eq]

theorem row_writeProgram_stored (hr : readSpecs specs = some read) (hinv : ∀ r ∈ read, Spec.inverted r.1 = false)
    (hfree : read ≠ [] ∨ programBusy s p = false)
    (hok : lockForbids s o = false ∨ read.map Prod.fst = s.seq.programs.get p) :
    runRow (.writeProgram o p.val specs) s = answer (if read.any Prod.snd = true then .clamped else .ok)
      (programItems (read.map Prod.fst))
      (s.modSeq fun q => { q with programs := q.programs.set p (read.map Prod.fst) }) := by
  simp only [runRow, cmdWriteProgram, programOf_val, hr, none_inverted hinv, removal_free hfree, lock_allows hok,
    Bool.false_eq_true, if_false, clampStatus_eq]

end

/-! ## SET TEST LIMITS -/

/-- The limits stored, with the comparison of the guard that follows (R119, R156). -/
theorem row_setTestLimits {f : LimitFields} (o : Origin)
    (hok : lockForbids s o = false
      ∨ limitItems ((s.modAccess (LimitFields.storeAccess f)).modSeq (LimitFields.storeSeq f)) = limitItems s) :
    runRow (.setTestLimits o f) s = answer (if LimitFields.clamps f = true then .clamped else .ok)
      (limitItems ((s.modAccess (LimitFields.storeAccess f)).modSeq (LimitFields.storeSeq f)))
      (guardCheck ((s.modAccess (LimitFields.storeAccess f)).modSeq (LimitFields.storeSeq f))) := by
  simp only [runRow, cmdSetTestLimits, lock_allows hok, clampStatus_eq, Bool.false_eq_true, if_false]

end

end Sys2Proof.Machine

namespace Sys2Proof
open Machine

/-- Settles O49: each row of a command that stores settings is one of its checks, in their order, or the answer of what
it has stored. -/
theorem settingsStored : Obligations.SettingsStored := by
  intro o g p specs read x y z v group lim th mg time mgmt u s hs
  refine ⟨?limits, ?noLimits, ?groupBad, ?groupBusy, ?groupStored, ?groupKept, ?startBad, ?startAbsent, ?started,
    ?programBad, ?programInverted, ?program, ?testLimits, ?thresholdsBad, ?thresholds, ?managementBad, ?management,
    ?time, ?lock, ?lockAtStart, ?lockedAtStart, ?lockBad⟩
  case limits =>
    intro h
    have hsome : (x.isNone && y.isNone) = false := by
      rcases h with h | h <;> simp [Option.isNone_eq_false_iff.mpr h]
    exact exec_of_row hs rfl (by simp [runRow, cmdEnableLineSettings, hsome, clampStatus_eq])
  case noLimits =>
    rintro rfl rfl
    exact exec_of_row hs rfl rfl
  case groupBad => exact fun h => exec_of_row hs rfl (row_setRoutineGroup_bad o h)
  case groupBusy =>
    exact fun he hx hz => exec_of_row hs rfl (by simp [runRow, cmdSetRoutineGroup, he, hx, hz, refuse_eq])
  case groupStored =>
    rintro he hx hz rfl
    exact exec_of_row hs rfl (row_setRoutineGroup o he hx hz)
  case groupKept =>
    exact fun he => ⟨_, exec_of_row hs rfl (row_setRoutineGroup o he rfl (by simp [fieldOk])),
      by simp [State.answered, setGroup, keepOr, Base.ofMinutes]⟩
  case startBad =>
    exact fun h => exec_of_row hs rfl (by simp [runRow, cmdStartRoutineGroup, groupOf_of_le h, refuse_eq])
  case startAbsent => exact fun h => exec_of_row hs rfl (by simp [runRow, cmdStartRoutineGroup, h, refuse_eq])
  case started => exact fun h => exec_of_row hs rfl (by
    simp [runRow, cmdStartRoutineGroup, h, modGroup, Tab.modify, Group.interval, interval])
  case programBad => exact fun h => exec_of_row hs rfl (row_writeProgram_bad o h)
  case programInverted => exact fun hr hinv => exec_of_row hs rfl (row_writeProgram_inverted o hr hinv)
  case program =>
    intro hr hinv
    refine ⟨fun hempty hbusy => ?_, fun hfree => ⟨fun hl hne => ?_, fun hok => ?_⟩⟩
    · subst hempty
      exact exec_of_row hs rfl (row_writeProgram_busy o hr ((programBusy_iff s p).mpr hbusy))
    · exact exec_of_row hs rfl (row_writeProgram_locked hr hinv hfree hl hne)
    · exact exec_of_row hs rfl (row_writeProgram_stored hr hinv hfree hok)
  case testLimits =>
    rintro rfl
    refine ⟨fun hl hne => ?_, fun hok => ⟨fun hrests => ?_, fun n hp ht hv => ?_⟩⟩
    · exact exec_of_row hs rfl (by simp only [runRow, cmdSetTestLimits, lock_forbids hl hne, if_true, refuse_eq])
    · exact exec_of_row hs rfl ((row_setTestLimits o hok).trans (by rw [guardCheck_rests hrests]))
    · exact exec_of_row hs rfl ((row_setTestLimits o hok).trans (by rw [guardCheck_trips hp ht hv]))
  case thresholdsBad => exact fun h => exec_of_row hs rfl (by simp [runRow, cmdSetBatteryThresholds, h, refuse_eq])
  case thresholds =>
    intro h
    refine ⟨fun hl hne => ?_, fun hok => ?_⟩
    · exact exec_of_row hs rfl (by
        simp [runRow, cmdSetBatteryThresholds, Nat.not_le.mpr h, lock_forbids hl hne, refuse_eq])
    · exact exec_of_row hs rfl (by
        simp [runRow, cmdSetBatteryThresholds, Nat.not_le.mpr h, lock_allows hok, clampStatus_eq, State.modPower])
  case managementBad => exact fun h => exec_of_row hs rfl (by simp [runRow, cmdSetManagement, h, refuse_eq])
  case management =>
    intro he hm
    obtain rfl : mgmt = ManagementFields.store mg s.mgmt := hm
    refine ⟨fun hl hc => ?_, fun hok => ?_⟩
    · exact exec_of_row hs rfl (by simp [runRow, cmdSetManagement, he, hl, hc, refuse_eq])
    · have hfree : (lockForbids s o && managementChange s.mgmt (ManagementFields.store mg s.mgmt)) = false := by
        rcases hok with h | h <;> simp [h]
      exact exec_of_row hs rfl (by simp [runRow, cmdSetManagement, he, hfree, clampStatus_eq])
  case time => exact exec_of_row hs rfl rfl
  case lock => exact exec_of_row hs rfl (by simp [runRow, cmdLock, fieldOk, keepOr, State.modMgmt])
  case lockAtStart =>
    intro b hok
    have hfree := lock_allows (hok.imp_right Eq.symm)
    exact exec_of_row hs rfl (by simp [runRow, cmdLock, fieldOk, keepOr, hfree])
  case lockedAtStart =>
    exact fun b hl hne => exec_of_row hs rfl (by simp [runRow, cmdLock, fieldOk, keepOr, hl, hne.symm, refuse_eq])
  case lockBad => exact fun h => exec_of_row hs rfl (by simp [runRow, cmdLock, fieldOk, boolOf_of_le h, refuse_eq])

end Sys2Proof
end

