-- ==== Sys2Proof/Proofs/DriveRule.lean ====
section
/-! PROOF. The drive rule (R114, R118) across the operations of the test side: no operation but the START of a spec turns
the source or the tone on, and a START turns them on only under the rule. -/

namespace Sys2Proof.Machine

/-- What the drive rule reads of a state. -/
def State.driveView (s : State) :=
  (s.access.matrix, s.access.unit, s.access.sourceOn, s.access.toneOn, s.access.tripped, s.seq.st, s.seq.act,
    s.seq.extack, s.mgmt.phase)

/-- The start-up has completed, and source and tone are off: nothing is asked of the test side (R114, R118). -/
structure Undriven (s : State) : Prop where
  running : s.running = true
  source : s.access.sourceOn = false
  tone : s.access.toneOn = false

section
variable {s t : State}

/-! ## The rule -/

theorem DriveSafe.congr (h : DriveSafe s) (hk : t.driveView = s.driveView) : DriveSafe t := by
  simp only [State.driveView, Prod.mk.injEq] at hk
  obtain ⟨hmatrix, hunit, hsource, htone, htripped, hst, hact, hack, hphase⟩ := hk
  have hrun : t.running = s.running := running_congr hphase
  simpa only [DriveSafe, testsAtRest, hmatrix, hunit, hsource, htone, htripped, hst, hact, hack, hrun] using h

/-- An operation that leaves the test side and the phase of the start-up. -/
theorem DriveSafe.aside (h : DriveSafe s)
    (hk : t.access = s.access ∧ t.seq = s.seq ∧ t.mgmt.phase = s.mgmt.phase) : DriveSafe t := by
  obtain ⟨ha, hq, hm⟩ := hk
  exact h.congr (by simp only [State.driveView, ha, hq, hm])

theorem DriveSafe.ite {p : Prop} [Decidable p] {a b : State} (ha : DriveSafe a) (hb : DriveSafe b) :
    DriveSafe (if p then a else b) := by
  split
  · exact ha
  · exact hb

/-- With the drive off and the test side at rest the rule holds in every phase of the start-up. -/
theorem DriveSafe.of_rest (hr : testsAtRest s) (hs : s.access.sourceOn = false) (ht : s.access.toneOn = false) :
    DriveSafe s := ⟨fun h => by simp [hs, ht] at h, fun _ => hr⟩

/-- Once the start-up has completed the rule is about the drive alone. -/
theorem DriveSafe.of_running (hr : s.running = true) (hd : s.access.sourceOn = true ∨ s.access.toneOn = true →
    s.access.unit = .measuring ∧ s.seq.st = .measuring ∧ s.seq.extack = false ∧ s.access.tripped = false) :
    DriveSafe s := ⟨hd, fun hno => by simp [hr] at hno⟩

theorem Undriven.driveSafe (h : Undriven s) : DriveSafe s :=
  .of_running h.running fun hd => by simp [h.source, h.tone] at hd

theorem DriveSafe.running (h : DriveSafe s) (hn : ¬ testsAtRest s) : s.running = true := by
  by_contra hr
  exact hn (h.2 (by simpa using hr))

theorem DriveSafe.running_of_st (h : DriveSafe s) (hst : s.seq.st ≠ .idle) : s.running = true :=
  h.running fun hr => hst hr.1

theorem DriveSafe.running_of_act (h : DriveSafe s) {a : Activity} (ha : s.seq.act = some a) : s.running = true :=
  h.running fun ⟨_, hnone, _⟩ => by simp [ha] at hnone

theorem DriveSafe.running_of_extack (h : DriveSafe s) (hx : s.seq.extack = true) : s.running = true :=
  h.running fun ⟨_, _, hno, _⟩ => by simp [hx] at hno

theorem DriveSafe.running_of_matrix (h : DriveSafe s) (hm : s.access.matrix ≠ .idle) : s.running = true :=
  h.running fun ⟨_, _, _, hidle, _⟩ => hm hidle

theorem DriveSafe.running_of_unit (h : DriveSafe s) (hu : s.access.unit ≠ .idle) : s.running = true :=
  h.running fun ⟨_, _, _, _, hidle⟩ => hu hidle

/-- Where one of the conditions of the rule fails the drive is off. -/
theorem DriveSafe.undriven (h : DriveSafe s) (hr : s.running = true)
    (hn : ¬ (s.access.unit = .measuring ∧ s.seq.st = .measuring ∧ s.seq.extack = false)) : Undriven s := by
  have hoff : ¬ (s.access.sourceOn = true ∨ s.access.toneOn = true) := fun hd => by
    obtain ⟨hu, hst, hx, -⟩ := h.1 hd
    exact hn ⟨hu, hst, hx⟩
  obtain ⟨hs, ht⟩ := not_or.mp hoff
  exact ⟨hr, by simpa using hs, by simpa using ht⟩

theorem DriveSafe.undriven_of_st (h : DriveSafe s) {st : SeqState} (hst : s.seq.st = st)
    (hi : st ≠ .idle) (hm : st ≠ .measuring) : Undriven s :=
  h.undriven (h.running_of_st (hst ▸ hi)) fun ⟨_, hmeas, _⟩ => hm (hst ▸ hmeas)

theorem DriveSafe.undriven_of_extack (h : DriveSafe s) (hx : s.seq.extack = true) : Undriven s :=
  h.undriven (h.running_of_extack hx) fun ⟨_, _, hno⟩ => by simp [hx] at hno

theorem DriveSafe.undriven_of_discharging (h : DriveSafe s) (hu : s.access.unit = .discharging) : Undriven s :=
  h.undriven (h.running_of_unit (by simp [hu])) fun ⟨hmeas, _⟩ => by simp [hu] at hmeas

/-! ## Operations that leave the drive off -/

/-- Until the start-up has completed the test side is at rest with the drive off (R118). -/
theorem DriveSafe.at_rest (h : DriveSafe s) (hr : s.running = false) :
    testsAtRest s ∧ s.access.sourceOn = false ∧ s.access.toneOn = false := by
  have hrest := h.2 hr
  have hoff : ¬ (s.access.sourceOn = true ∨ s.access.toneOn = true) := fun hd => by
    have hu := (h.1 hd).1
    simp [hrest.2.2.2.2] at hu
  obtain ⟨hs, ht⟩ := not_or.mp hoff
  exact ⟨hrest, by simpa using hs, by simpa using ht⟩

/-- An operation that leaves the matrix, the unit and the management engine. -/
theorem Undriven.aside (h : Undriven s) (hk : t.access = s.access ∧ t.mgmt = s.mgmt) : Undriven t := by
  obtain ⟨ha, hm⟩ := hk
  exact ⟨by rw [State.running, hm]; exact h.running, by rw [ha]; exact h.source, by rw [ha]; exact h.tone⟩

theorem Undriven.ite {p : Prop} [Decidable p] {a b : State} (ha : Undriven a) (hb : Undriven b) :
    Undriven (if p then a else b) := by
  split
  · exact ha
  · exact hb

/-- The matrix and the unit written, the drive left as it was or off. -/
theorem modAccess_undriven (f : Access → Access) (h : Undriven s)
    (hf : (f s.access).sourceOn = false ∧ (f s.access).toneOn = false) : Undriven (s.modAccess f) :=
  ⟨h.running, hf.1, hf.2⟩

theorem modSeq_undriven (f : Seq → Seq) (h : Undriven s) : Undriven (s.modSeq f) := h.aside ⟨rfl, rfl⟩

/-- A relay moved leaves the drive. -/
theorem releasePair_drive (a : Access) : (releasePair a).sourceOn = a.sourceOn ∧ (releasePair a).toneOn = a.toneOn := by
  unfold releasePair
  split <;> exact ⟨rfl, rfl⟩

theorem connectPair_drive (n : LineNo) (a : Access) :
    (connectPair n a).sourceOn = a.sourceOn ∧ (connectPair n a).toneOn = a.toneOn := by
  unfold connectPair
  split <;> exact ⟨rfl, rfl⟩

theorem resettlePair_drive (a : Access) :
    (resettlePair a).sourceOn = a.sourceOn ∧ (resettlePair a).toneOn = a.toneOn := by
  unfold resettlePair
  split <;> exact ⟨rfl, rfl⟩

theorem releaseStep_undriven (h : Undriven s) : Undriven (releaseStep s) := by
  obtain ⟨hs, ht⟩ := releasePair_drive s.access
  exact modSeq_undriven _ (modAccess_undriven _ h ⟨hs.trans h.source, ht.trans h.tone⟩)

theorem connectStep_undriven (n : LineNo) (h : Undriven s) : Undriven (connectStep n s) := by
  obtain ⟨hs, ht⟩ := connectPair_drive n s.access
  exact modSeq_undriven _ (modAccess_undriven _ h ⟨hs.trans h.source, ht.trans h.tone⟩)

theorem suspendSeq_undriven (h : Undriven s) : Undriven (suspendSeq s) := h.aside (by simp)

theorem boundary_undriven (k : State → State) (hk : Undriven (k s)) (h : Undriven s) : Undriven (boundary k s) :=
  .ite (suspendSeq_undriven h) hk

theorem heldReport_undriven (h : Undriven s) : Undriven (heldReport s) := by
  unfold heldReport
  split
  · exact h
  · exact .ite (.ite (connectStep_undriven _ h) (boundary_undriven _ (connectStep_undriven _ h) h)) h

theorem drainReport_undriven (n : LineNo) (h : Undriven s) : Undriven (drainReport n s) :=
  .ite (heldReport_undriven (h.aside (by simp))) h

theorem askForLine_undriven (n : LineNo) (h : Undriven s) : Undriven (askForLine n s) := by
  have ht : Undriven (takeLine n s) := h.aside (by simp)
  exact .ite (heldReport_undriven ht) (drainReport_undriven n ht)

theorem startRequest_undriven (r : TestRequest) (h : Undriven s) : Undriven (startRequest r s) := by
  unfold startRequest
  exact askForLine_undriven _ (h.aside (by simp))

theorem selectWalk_undriven (k : Nat) (h : Undriven s) : Undriven (selectWalk k s) := by
  induction k generalizing s with
  | zero => exact h
  | succ k ih =>
    unfold selectWalk
    split
    · exact h
    · exact .ite (ih (h.aside (by simp))) (startRequest_undriven _ h)

theorem idleStep_undriven (h : Undriven s) : Undriven (idleStep s) :=
  .ite (boundary_undriven _ (selectWalk_undriven _ h) h) h

theorem enterIdle_undriven (h : Undriven s) : Undriven (enterIdle s) := idleStep_undriven (modSeq_undriven _ h)

theorem afterExternal_undriven (h : Undriven s) : Undriven (afterExternal s) :=
  .ite (modSeq_undriven _ h) (enterIdle_undriven h)

theorem closeActivity_undriven (o : Outcome) (b : Bool) (h : Undriven s) : Undriven (closeActivity o b s) :=
  h.aside (by simp)

theorem releasedReport_undriven (h : Undriven s) : Undriven (releasedReport s) := by
  unfold releasedReport
  split
  · exact enterIdle_undriven h
  · exact .ite (afterExternal_undriven (closeActivity_undriven _ _ h)) (enterIdle_undriven (closeActivity_undriven _ _ h))

theorem endExternal_undriven (h : Undriven s) : Undriven (endExternal s) := by
  unfold endExternal
  split
  · exact afterExternal_undriven (closeActivity_undriven _ _ h)
  · exact releaseStep_undriven h
  · exact releaseStep_undriven h
  · exact h

theorem resumeTest_undriven (a : Activity) (h : Undriven s) : Undriven (resumeTest a s) := by
  have hq : ∀ f, Undriven (s.modSeq f) := fun f => modSeq_undriven f h
  obtain ⟨hs, ht⟩ := resettlePair_drive s.access
  unfold resumeTest
  dsimp only
  split
  · split
    · exact modSeq_undriven _ (modAccess_undriven _ (hq _) ⟨hs.trans h.source, ht.trans h.tone⟩)
    · exact connectStep_undriven _ (hq _)
  · exact releaseStep_undriven (hq _)

theorem reclaimBus_undriven (h : Undriven s) : Undriven (reclaimBus s) := by
  have hr : Undriven (raise s.lineUnderTest (.external false) s) := h.aside (by simp)
  have hq : ∀ f, Undriven ((raise s.lineUnderTest (.external false) s).modSeq f) := fun f => modSeq_undriven f hr
  unfold reclaimBus
  dsimp only
  split
  · exact .ite (endExternal_undriven hr) (resumeTest_undriven _ (hq _))
  · split
    · exact releaseStep_undriven (hq _)
    · exact releaseStep_undriven (hq _)
    · exact enterIdle_undriven (hq _)
    · exact hq _

/-- The end of a measurement turns source and tone off, whatever drove before (R116). -/
theorem endMeasurement_undriven (b : Bool) (hr : s.running = true) : Undriven (s.modAccess (endMeasurement b)) := by
  obtain ⟨hs, ht⟩ := endMeasurement_off b s.access
  exact ⟨hr, hs, ht⟩

/-! ## The START of a spec -/

theorem beginMeasurement_drive (x : Spec) (len : Nat) (a : Access) :
    (beginMeasurement x len a).unit = .measuring ∧ (beginMeasurement x len a).tripped = a.tripped
      ∧ ((beginMeasurement x len a).sourceOn = true ∨ (beginMeasurement x len a).toneOn = true → a.tripped = false) := by
  refine ⟨rfl, rfl, fun h => ?_⟩
  simp only [beginMeasurement, Bool.and_eq_true, Bool.not_eq_true'] at h
  exact h.elim And.left And.left

/-- A START taken for spec `x` on pair `n`: the index of the next spec moves past it (R113, R139, log entry 36). -/
def specStarted (x : Spec) (n : LineNo) (s : State) : State :=
  (s.modSeq fun q => { q with st := .measuring, act := q.act.map fun a => { a with next := a.next + 1 } }).modAccess
    (beginMeasurement x (s.line n).cfg.recordedLength)

/-- A START of a driving kind with the guard tripped ends at once GUARDED (R121). -/
def specGuarded (x : Spec) (s : State) : State :=
  (modAct (appendResult (guardedResult x)) (s.modAccess (endMeasurement true))).modSeq fun q =>
    { q with st := .discharging }

/-- What a START can do: nothing where it is refused, and otherwise it begins the measurement, which goes on or ends at
once GUARDED (R113, R121). -/
theorem startStep_cases (s : State) : startStep s = s
    ∨ ∃ x n, s.seq.extack = false ∧ startStep s =
        if (x.kind.driving && s.access.tripped) = true then specGuarded x (specStarted x n s) else specStarted x n s := by
  unfold startStep
  split
  · exact .inl rfl
  · split
    next x n _ _ =>
      split
      next hfree => exact .inr ⟨x, n, hfree.2, rfl⟩
      · exact .inl rfl
    · exact .inl rfl

/-- A START drives only with the unit idle before it, the bus not yielded and the guard not tripped (R113, R114). -/
theorem startStep_drive (h : Undriven s) : DriveSafe (startStep s) := by
  rcases startStep_cases s with he | ⟨x, n, hx, he⟩
  · rw [he]
    exact h.driveSafe
  · have hr : (specStarted x n s).running = true := h.running
    obtain ⟨hunit, htripped, hdrive⟩ := beginMeasurement_drive x (s.line n).cfg.recordedLength s.access
    rw [he]
    refine .ite ?_ (.of_running hr fun hd => ⟨hunit, rfl, hx, htripped.trans (hdrive hd)⟩)
    exact (modSeq_undriven _ (modSeq_undriven _ (endMeasurement_undriven true hr))).driveSafe

theorem nextStep_drive (h : Undriven s) : DriveSafe (nextStep s) :=
  .ite (startStep_drive h) (releaseStep_undriven h).driveSafe

theorem boundary_drive (k : State → State) (hk : DriveSafe (k s)) (h : Undriven s) : DriveSafe (boundary k s) :=
  .ite (suspendSeq_undriven h).driveSafe hk

theorem resultStep_drive (r : Result) (h : Undriven s) : DriveSafe (resultStep r s) := by
  have hm : Undriven (modAct (appendResult r) s) := modSeq_undriven _ h
  exact .ite (modSeq_undriven _ hm).driveSafe (boundary_drive _ (nextStep_drive hm) hm)

theorem completeMeasurement_drive (r : Result) (hr : s.running = true) : DriveSafe (completeMeasurement r s) :=
  resultStep_drive r (endMeasurement_undriven _ hr)

/-! ## The guard -/

/-- A guard trip as it stands before a measurement in hand is ended: the drive off and the guard latched (R120). -/
def guardLatched (n : LineNo) (s : State) : State :=
  modAct (fun a => if a.line = n then { a with guardTripped := true } else a)
    ((raise (some n) (.guardTrip s.seq.extack s.access.unit ((measuringSpec s.access).map fun x => (x.kind, x.leg)))
      s).modAccess fun a => { a with
        sourceOn := false, toneOn := false, tripped := true
        indication := a.indication || decide (s.access.unit = .measuring) })

/-- What a trip does with the measurement in hand: a driving one ends GUARDED, and anything else goes on (R120, R135). -/
theorem tripGuard_eq (n : LineNo) (s : State) : tripGuard n s =
    match measuringSpec s.access with
    | some x =>
      if x.kind.driving = true then
        resultStep (guardedResult x) ((guardLatched n s).modAccess (endMeasurement true))
      else guardLatched n s
    | none => guardLatched n s := by
  have hm : (if decide (s.access.unit = .measuring) = true then s.access.spec else none) = measuringSpec s.access := by
    simp [measuringSpec]
  unfold tripGuard
  dsimp only
  rw [hm]
  cases hx : measuringSpec s.access <;> simp only [guardLatched, hx]

theorem guardLatched_undriven (n : LineNo) (hr : s.running = true) : Undriven (guardLatched n s) :=
  ⟨by simpa [State.running, guardLatched] using hr, rfl, rfl⟩

/-- A guard trip turns source and tone off, whatever drove before (R120). -/
theorem tripGuard_undriven (n : LineNo) (hr : s.running = true) : Undriven (tripGuard n s) := by
  have hlatched := guardLatched_undriven n hr
  rw [tripGuard_eq]
  split
  next x _ =>
    split
    next hd =>
      rw [resultStep, if_pos (show (guardedResult x).kind.driving = true from hd)]
      exact modSeq_undriven _ (modSeq_undriven _ (endMeasurement_undriven true hlatched.running))
    · exact hlatched
  · exact hlatched

theorem guardCheck_undriven (h : Undriven s) : Undriven (guardCheck s) := by
  unfold guardCheck
  split
  · exact .ite (tripGuard_undriven _ h.running) h
  · exact h

theorem guardCheck_drive (h : DriveSafe s) : DriveSafe (guardCheck s) := by
  unfold guardCheck
  split
  next n hp =>
    have hm : s.access.matrix ≠ .idle := fun hi => by simp [hi, MatrixState.pair] at hp
    exact .ite (tripGuard_undriven n (h.running_of_matrix hm)).driveSafe h
  · exact h

/-! ## Operations under the rule -/

/-- Once the start-up has completed the activity plays no part in the rule. -/
theorem modSeq_drive (f : Seq → Seq) (h : DriveSafe s) (hr : s.running = true)
    (hf : (f s.seq).st = s.seq.st ∧ (f s.seq).extack = s.seq.extack) : DriveSafe (s.modSeq f) := by
  obtain ⟨hst, hx⟩ := hf
  refine .of_running (s := s.modSeq f) hr fun hd => ?_
  obtain ⟨hu, hm, ha, ht⟩ := h.1 hd
  exact ⟨hu, hst.trans hm, hx.trans ha, ht⟩

theorem heldReport_drive (h : DriveSafe s) : DriveSafe (heldReport s) := by
  by_cases hst : s.seq.st = .drainingWait
  · exact (heldReport_undriven (h.undriven_of_st hst (by simp) (by simp))).driveSafe
  · unfold heldReport
    split
    · exact h
    · rwa [if_neg hst]

theorem drainReport_drive (n : LineNo) (h : DriveSafe s) : DriveSafe (drainReport n s) :=
  .ite (heldReport_drive (h.aside (by simp))) h

theorem idleStep_drive (h : DriveSafe s) : DriveSafe (idleStep s) := by
  by_cases hi : s.seq.st = .idle ∧ s.running = true
  · obtain ⟨hst, hr⟩ := hi
    exact (idleStep_undriven (h.undriven hr fun ⟨_, hm, _⟩ => by simp [hst] at hm)).driveSafe
  · rwa [idleStep, if_neg hi]

theorem offersOnly.drive (hk : offersOnly s t) (h : DriveSafe s) : DriveSafe t := by
  obtain ⟨ht, -⟩ := hk
  rw [ht]
  exact h.congr rfl

theorem joining_drive (offer : State → State) (ho : DriveSafe (offer s)) : DriveSafe (joining offer s) :=
  .ite (idleStep_drive ho) ho

theorem placesFreed_drive (h : DriveSafe s) : DriveSafe (placesFreed s) :=
  idleStep_drive (foldl_holds DriveSafe _ (fun u g hu => foldl_holds DriveSafe _
    (fun v n hv => joining_drive _ ((offerDue_offersOnly g n v).drive hv)) _ u hu) _ s h)

theorem stopStep_drive (hr : s.running = true) (h : DriveSafe s) : DriveSafe (stopStep s) := by
  unfold stopStep
  split
  · exact h
  next hu =>
    have hoff := h.undriven_of_discharging hu
    exact (modAccess_undriven _ hoff ⟨hoff.source, hoff.tone⟩).driveSafe
  · have hend := endMeasurement_undriven (s := s) (s.access.spec.any fun x => x.kind.driving) hr
    exact .ite (modAccess_undriven _ hend ⟨hend.source, hend.tone⟩).driveSafe (releaseStep_undriven hend).driveSafe

/-- An abort of the running test (R144). -/
theorem abortTestNow_drive (o : Outcome) (hr : s.running = true) (h : DriveSafe s) : DriveSafe (abortTestNow o s) := by
  have hstop : DriveSafe (stopStep (setPending o s)) :=
    stopStep_drive (s := setPending o s) hr (modSeq_drive _ h hr ⟨rfl, rfl⟩)
  unfold abortTestNow
  split
  next hst => exact (enterIdle_undriven (closeActivity_undriven _ _ (h.undriven_of_st hst (by simp) (by simp)))).driveSafe
  next hst => exact (releaseStep_undriven (modSeq_undriven _ (h.undriven_of_st hst (by simp) (by simp)))).driveSafe
  · exact hstop
  · exact hstop
  next hst => exact (closeActivity_undriven _ _ (h.undriven_of_st hst (by simp) (by simp))).driveSafe
  all_goals exact h

theorem restrainTest_drive (p : PowerState) (h : DriveSafe s) : DriveSafe (restrainTest p s) := by
  unfold restrainTest
  split
  · exact h
  next a ha =>
    have habort := abortTestNow_drive .abortedPower (h.running_of_act ha) h
    refine .ite h ?_
    split
    · exact h
    · exact h
    · exact .ite h habort
    · exact habort

/-- The activity whose DRAINING line is shed ends with the drive off (R146). -/
theorem shedReport_drive (n : LineNo) (h : DriveSafe s) : DriveSafe (shedReport n s) := by
  unfold shedReport
  split
  · exact h
  · split
    next hn =>
      have hc := closeActivity_undriven .abortedPower false (h.undriven_of_st hn.2 (by simp) (by simp))
      exact .ite (modSeq_undriven _ hc).driveSafe (modSeq_undriven _ hc).driveSafe
    · exact h

theorem endExternal_drive (h : DriveSafe s) : DriveSafe (endExternal s) := by
  unfold endExternal
  split
  next hst =>
    exact (afterExternal_undriven (closeActivity_undriven _ _ (h.undriven_of_st hst (by simp) (by simp)))).driveSafe
  next hst => exact (releaseStep_undriven (h.undriven_of_st hst (by simp) (by simp))).driveSafe
  next hst => exact (releaseStep_undriven (h.undriven_of_st hst (by simp) (by simp))).driveSafe
  · exact h

/-! ## Test events -/

theorem settledReport_drive (h : DriveSafe s) : DriveSafe (settledReport s) := by
  unfold settledReport
  split
  · exact h
  · split
    next hst =>
      have hoff := h.undriven_of_st hst (by simp) (by simp)
      exact .ite (modSeq_undriven _ hoff).driveSafe (boundary_drive _ (nextStep_drive hoff) hoff)
    · exact h

/-- The matrix written once the start-up has completed. -/
theorem modMatrix_drive (m : MatrixState) (t : Option Nat) (hr : s.running = true) (h : DriveSafe s) :
    DriveSafe (s.modAccess fun a => { a with matrix := m, settleTimer := t }) :=
  .of_running hr h.1

theorem settleEnds_drive (h : DriveSafe s) : DriveSafe (settleEnds s) := by
  unfold settleEnds
  split
  next n hm => exact settledReport_drive (modMatrix_drive _ _ (h.running_of_matrix (by simp [hm])) h)
  next hm =>
    have hmat := modMatrix_drive .idle none (h.running_of_matrix (by simp [hm])) h
    dsimp only
    split
    next hst => exact (releasedReport_undriven (hmat.undriven_of_st hst (by simp) (by simp))).driveSafe
    · exact hmat
  · exact h
  · exact h

theorem running_of_measuringSpec (h : DriveSafe s) {x : Spec} (hx : measuringSpec s.access = some x) :
    s.running = true := by
  refine h.running_of_unit fun hi => ?_
  simp [measuringSpec, hi] at hx

theorem windowEnds_drive (xs : List Sample) (h : DriveSafe s) : DriveSafe (windowEnds xs s) := by
  unfold windowEnds
  split
  · exact h
  next hx =>
    split
    · exact h
    · exact .ite (completeMeasurement_drive _ (running_of_measuringSpec h hx)) h

theorem captureEnds_drive (k : Nat) (b : Bool) (h : DriveSafe s) : DriveSafe (captureEnds k b s) := by
  unfold captureEnds
  split
  next hx => exact completeMeasurement_drive _ (running_of_measuringSpec h hx)
  · exact h

theorem toneEnds_drive (h : DriveSafe s) : DriveSafe (toneEnds s) := by
  unfold toneEnds
  split
  next hx => exact completeMeasurement_drive _ (running_of_measuringSpec h hx)
  · exact h

theorem dischargeEnds_drive (h : DriveSafe s) : DriveSafe (dischargeEnds s) := by
  unfold dischargeEnds
  split
  next hu =>
    have hoff := h.undriven_of_discharging hu
    have hg := guardCheck_undriven (modAccess_undriven (fun a =>
      { a with unit := .idle, spec := none, dischargeTimer := none, stopping := false }) hoff ⟨hoff.source, hoff.tone⟩)
    exact .ite (releaseStep_undriven hg).driveSafe (.ite (boundary_drive _ (nextStep_drive hg) hg) hg.driveSafe)
  · exact h

theorem tickRequests_drive (g : Fin 4) (half : Bool) (h : DriveSafe s) : DriveSafe (tickRequests g half s) := by
  have hq : DriveSafe (s.modSeq fun q => { q with queue := q.queue.map (TestRequest.undefer g) }) := h.congr rfl
  exact foldl_holds DriveSafe _ (fun u n hu => joining_drive _ ((offerRoutine_offersOnly g n u).drive hu)) _ _
    (.ite (idleStep_drive hq) hq)

end

end Sys2Proof.Machine
end

