-- ==== Sys2Proof/Proofs/DriveKept.lean ====
section
/-! PROOF. The drive rule (R114, R118) across every step: the resets and the start-up leave the test side at rest, the
frame path and the lines leave it as it is, and the rest goes through the operations of Proofs/DriveRule.lean. -/

namespace Sys2Proof.Machine

section
variable {s t : State}

/-! ## Counts, events and recomputes -/

theorem raise_drive (u : Option LineNo) (d : Detail) (h : DriveSafe s) : DriveSafe (raise u d s) := h.aside (by simp)

theorem recompute_drive (h : DriveSafe s) : DriveSafe (recompute s) := h.aside (by simp)

theorem makeRecord_drive (r : FrameRec) (h : DriveSafe s) : DriveSafe (makeRecord r s) := h.aside (by simp)

/-- A transmission given up as its link is lost (R79, R81). -/
theorem transmitAborted_drive (id : Nat) (h : DriveSafe s) : DriveSafe (countDev .transmitAborted (dropRef id s)) :=
  h.aside (by simp)

/-! ## Resets and the start-up -/

theorem coldState_drive (s : State) : DriveSafe (coldState s) := .of_rest ⟨rfl, rfl, rfl, rfl, rfl⟩ rfl rfl

theorem warmReset_drive (f : ResetFlag) (s : State) : DriveSafe (warmReset f s) :=
  .of_rest ⟨rfl, rfl, rfl, rfl, rfl⟩ rfl rfl

theorem writeRecord_drive (r : TestRecord) (h : DriveSafe s) : DriveSafe (writeRecord r s) := by
  unfold writeRecord
  dsimp only
  split <;> exact h.congr rfl

theorem settleMarker_drive (h : DriveSafe s) : DriveSafe (settleMarker s) := by
  unfold settleMarker
  split
  · exact h
  · exact (raise_drive _ _ (writeRecord_drive _ h)).congr rfl

theorem enableLines_drive (h : DriveSafe s) : DriveSafe (enableLines s) :=
  foldl_holds DriveSafe _ (fun _ _ hu => .ite (hu.aside (by simp)) hu) _ s h

theorem loadStation_drive (e : ImageEntry) (h : DriveSafe s) : DriveSafe (loadStation e s) := by
  unfold loadStation
  split
  · exact .ite h (h.aside (by simp))
  · exact h

/-- The image holds limits and programs, and nothing of the drive (R188). -/
theorem loadImage_drive (b : ImageBody) (h : DriveSafe s) : DriveSafe (loadImage b s) := by
  have hst := foldl_holds DriveSafe (fun u e => loadStation e u) (fun _ e hu => loadStation_drive e hu) b.stations s h
  exact hst.congr rfl

theorem warmLoad_drive (h : DriveSafe s) : DriveSafe (warmLoad s) := by
  unfold warmLoad
  exact .ite ((loadImage_drive _ h).congr rfl) (h.congr (by simp [State.driveView]))

/-- The start-up leaves the test side as the reset left it, at rest (R190). -/
theorem runStartUp_drive (cold : Bool) (hrun : s.running = false) (h : DriveSafe s) : DriveSafe (runStartUp cold s) := by
  have hid : DriveSafe (readIdentity s) := h.congr rfl
  have hread : FiguresKept s (readIdentity s) :=
    ⟨fun n => by simp [readIdentity, State.line, Line.figures], rfl, id, rfl, rfl⟩
  have hload : DriveSafe (if cold = true then readIdentity s else warmLoad (readIdentity s)) :=
    .ite hid (warmLoad_drive hid)
  generalize hu : enableLines (settleMarker (if cold = true then readIdentity s else warmLoad (readIdentity s))) = u
  have hsafe : DriveSafe u := hu ▸ enableLines_drive (settleMarker_drive hload)
  have hphase : u.running = false := by
    have hmarked : FiguresKept s (settleMarker (if cold = true then readIdentity s else warmLoad (readIdentity s))) := by
      refine FiguresKept.trans ?_ (settleMarker_figuresKept _)
      split
      · exact hread
      · exact hread.trans (warmLoad_figuresKept _)
    have hmgmt : u.mgmt = _ := hu ▸ (enableLines_moved (.refl _)).beside.2.2.2.2.1
    exact (running_congr ((congrArg Mgmt.phase hmgmt).trans hmarked.phase)).trans hrun
  obtain ⟨⟨hst, hact, hack, hmatrix, hunit⟩, hs, ht⟩ := hsafe.at_rest hphase
  have hstarted : runStartUp cold s
      = (raise none (.resetCause u.counts.resetCause) u).modMgmt fun m => { m with phase := .started } := by
    rw [← hu]
    rfl
  rw [hstarted]
  exact .of_rest ⟨by simpa using hst, by simpa using hact, by simpa using hack, by simpa using hmatrix,
    by simpa using hunit⟩ (by simpa using hs) (by simpa using ht)

/-- The part comes into service with the drive off (R191). -/
theorem completeStartUp_drive (mv : Nat) (hrun : s.running = false) (h : DriveSafe s) :
    DriveSafe (completeStartUp mv s) := by
  obtain ⟨-, hs, ht⟩ := h.at_rest hrun
  rw [completeStartUp_eq]
  exact (enterIdle_undriven (s := inService mv s) ⟨rfl, hs, ht⟩).driveSafe

theorem closeActivity_act (o : Outcome) (b : Bool) (s : State) : (closeActivity o b s).seq.act = none := by
  unfold closeActivity
  split
  next h => exact h
  · rfl

/-- A traffic reset puts the test side at rest (R147, R111, R118). -/
theorem trafficTests_drive (s : State) : DriveSafe (trafficTests s) :=
  .of_rest ⟨rfl, closeActivity_act .abortedReset false s, rfl, rfl, rfl⟩ rfl rfl

theorem doTrafficReset_drive (s : State) : DriveSafe (doTrafficReset s) := by
  have hsched : ∀ u f, DriveSafe ((trafficTests u).modSched f) := fun u _ => (trafficTests_drive u).congr rfl
  have hflag : ∀ f u, DriveSafe u → DriveSafe (setResetFlag f u) := fun _ _ hu => hu.congr rfl
  unfold doTrafficReset
  exact idleStep_drive (hflag _ _ (recompute_drive (hsched _ _)))

/-! ## The frame path -/

theorem queueFrame_drive (n : LineNo) (k : QueueKind) (c d : LineCause) (r : FrameRec) (h : DriveSafe s) :
    DriveSafe (queueFrame n k c d r s) :=
  .ite (h.aside (by simp)) (.ite (h.aside (by simp)) (h.aside (by simp [pushQueue])))

theorem toWakeStore_drive (n : LineNo) (f : List Byte) (h : DriveSafe s) : DriveSafe (toWakeStore n f s) :=
  .ite (h.aside (by simp)) (.ite (h.aside (by simp)) (.ite (h.aside (by simp)) (h.aside (by simp))))

theorem decideUnicast_drive (n : LineNo) (f : List Byte) (h : DriveSafe s) : DriveSafe (decideUnicast n f s) := by
  have hq := queueFrame_drive n .down .downPoolFull .downQueueFull (downRecord f 1) h
  unfold decideUnicast
  dsimp only
  split
  · exact hq
  · exact .ite (hq.aside (by simp)) hq
  · exact toWakeStore_drive n f h
  all_goals exact h.aside (by simp)

theorem replicate_drive (f : List Byte) (h : DriveSafe s) : DriveSafe (replicate f s) := by
  have hno : ∀ ns : List LineNo, DriveSafe (ns.foldl (fun u n => countDrop n .downQueueFull u) s) := fun ns =>
    foldl_holds DriveSafe _ (fun _ _ hu => hu.aside (by simp)) ns s h
  exact .ite (h.aside (by simp)) (.ite (h.aside (by simp)) (.ite (hno _) (foldl_holds DriveSafe _
    (fun _ _ hu => hu.aside (by simp [pushQueue])) _ _ (makeRecord_drive _ (hno _)))))

theorem sortDownstream_drive (f : List Byte) (h : DriveSafe s) : DriveSafe (sortDownstream f s) := by
  refine .ite (h.aside (by simp)) (.ite (h.aside (by simp)) (.ite (replicate_drive f h) ?_))
  unfold unicast
  split
  · exact h.aside (by simp)
  · exact .ite (decideUnicast_drive _ f h) (h.aside (by simp))

theorem takeAdvisory_drive (v : Nat) (h : DriveSafe s) : DriveSafe (takeAdvisory v s) := by
  unfold takeAdvisory
  dsimp only
  split <;> exact h.aside (by simp)

theorem takePause_drive (m : Byte) (d : Nat) (h : DriveSafe s) : DriveSafe (takePause m d s) :=
  h.aside (by simp [takePause])

theorem queueControl_drive (p : Port) (f : List Byte) (h : DriveSafe s) : DriveSafe (queueControl p f s) :=
  .ite (h.aside ⟨rfl, rfl, rfl⟩) (h.aside (by simp))

theorem recogniseUplink_drive (f : List Byte) (h : DriveSafe s) : DriveSafe (recogniseUplink f s) := by
  refine .ite ?_ (.ite (.ite (h.aside (by simp)) (queueControl_drive _ f h)) (sortDownstream_drive f h))
  exact .ite (takeAdvisory_drive _ h) (.ite (takePause_drive _ _ h) (h.aside (by simp)))

theorem recogniseCraft_drive (b : Bool) (f : List Byte) (h : DriveSafe s) : DriveSafe (recogniseCraft b f s) :=
  .ite (h.aside (by simp)) (.ite (queueControl_drive _ f h) (h.aside (by simp)))

theorem sourceCheck_drive (n : LineNo) (a : Addr) (h : DriveSafe s) : DriveSafe (sourceCheck n a s).2 := by
  rcases sourceCheck_cases n a s with ⟨d, hd⟩ | ⟨c, es, hc⟩ | ⟨c, es, hc⟩
  · rw [hd]
    exact h.aside (by simp)
  · rw [hc]
    exact h.aside ⟨rfl, rfl, rfl⟩
  · rw [hc]
    exact h.aside ⟨rfl, rfl, rfl⟩

theorem upstream_drive (n : LineNo) (f : List Byte) (h : DriveSafe s) : DriveSafe (upstream n f s) := by
  refine .ite (h.aside (by simp)) (.ite (h.aside (by simp)) ?_)
  split
  · exact h.aside (by simp)
  · have hc := sourceCheck_drive n (frameSrc f) h
    split
    next hs =>
      rw [hs] at hc
      exact queueFrame_drive n _ _ _ _ hc
    next hs =>
      rw [hs] at hc
      exact hc
  · exact h.aside (by simp)

theorem receive_drive (k : Nat) (f : List Byte) (pass : State → State) (hp : DriveSafe (pass s)) (h : DriveSafe s) :
    DriveSafe (receive k f pass s) := by
  unfold receive
  split
  · exact h.aside (by simp)
  · exact .ite hp (h.aside (by simp))

/-! ## The upstream side -/

theorem takeHead_drive (n : LineNo) (c : Cls) (b : Bool) (h : DriveSafe s) : DriveSafe (takeHead n c b s) := by
  unfold takeHead
  split
  · exact h
  · exact h.aside (by simp)

theorem chargeHead_drive (n : LineNo) (c : Cls) (h : DriveSafe s) : DriveSafe (chargeHead n c s) := by
  unfold chargeHead
  split
  · exact h
  · exact h.aside ⟨rfl, rfl, rfl⟩

theorem makeChoice_drive (h : DriveSafe s) : DriveSafe (makeChoice s) := by
  refine .ite ?_ h
  cases choose s with
  | none => exact h
  | some p =>
    cases p with
    | management e => exact h.aside ⟨rfl, rfl, rfl⟩
    | credited n c => exact (takeHead_drive n c false (chargeHead_drive n c h)).aside ⟨rfl, rfl, rfl⟩
    | spare n c => exact (takeHead_drive n c true h).aside ⟨rfl, rfl, rfl⟩

theorem dropRefs_drive (ids : List Nat) (h : DriveSafe s) : DriveSafe (ids.foldl (fun u id => dropRef id u) s) :=
  foldl_holds DriveSafe _ (fun _ _ hu => hu.aside (by simp)) ids s h

theorem dropCraftEntries_drive (h : DriveSafe s) : DriveSafe (dropCraftEntries s) :=
  dropRefs_drive _ (h.aside ⟨rfl, rfl, rfl⟩)

theorem completeTransmission_drive (id : Nat) (b : Bool) (h : DriveSafe s) :
    DriveSafe (completeTransmission id b s) := by
  refine .ite (warmReset_drive _ s) ?_
  split
  · exact h
  · unfold countTransmission
    split <;> exact h.aside (by simp)

/-! ## Line events -/

theorem whenRunning_drive (f : State → State) (hf : DriveSafe (f s)) (h : DriveSafe s) : DriveSafe (whenRunning f s) :=
  .ite hf h

theorem failTraining_drive (n : LineNo) (r : Reason) (h : DriveSafe s) : DriveSafe (failTraining n r s) :=
  h.aside (by simp [failTraining])

theorem takeActivity_drive (n : LineNo) (h : DriveSafe s) : DriveSafe (takeActivity n s) := by
  unfold takeActivity
  split
  · exact h.aside (by simp)
  · exact .ite (h.aside (by simp)) h
  · exact h

theorem takeLinkUp_drive (n : LineNo) (down up : Nat) (h : DriveSafe s) : DriveSafe (takeLinkUp n down up s) := by
  unfold takeLinkUp
  split
  case h_5 => exact h
  all_goals exact h.aside (by simp)

theorem takeRatesReport_drive (n : LineNo) (down up : Nat) (h : DriveSafe s) :
    DriveSafe (takeRatesReport n down up s) := by
  unfold takeRatesReport
  split
  case h_4 => exact h
  all_goals exact h.aside (by simp)

theorem takeLinkDown_drive (n : LineNo) (h : DriveSafe s) : DriveSafe (takeLinkDown n s) := by
  unfold takeLinkDown
  split
  · exact failTraining_drive n _ h
  · exact h.aside (by simp)
  · exact h.aside (by simp)
  · exact heldReport_drive (h.aside (by simp))
  · exact h

theorem takeSense_drive (n : LineNo) (b : Bool) (h : DriveSafe s) : DriveSafe (takeSense n b s) := by
  have hs : DriveSafe (raise (some n) (.sense b) (s.modLine n fun l => { l with sense := true })) := h.aside (by simp)
  have hw : ∀ c, DriveSafe (wakeRequest n c (raise (some n) (.sense b) (s.modLine n fun l => { l with sense := true }))) :=
    fun _ => hs.aside (by simp)
  refine .ite ?_ h
  dsimp only
  split
  · exact hw _
  · exact .ite (hw _) hs
  · exact .ite (hw _) hs
  · exact hs

/-! ## Cabinet power -/

theorem shedLine_drive (n : LineNo) (h : DriveSafe s) : DriveSafe (shedLine n s) := by
  have hc : ∀ st r, DriveSafe (enterCore n st r s) := fun _ _ => h.aside (by simp)
  exact .ite (.ite (shedReport_drive n (hc _ _)) (hc _ _)) h

theorem shedToBudget_drive (h : DriveSafe s) : DriveSafe (shedToBudget s) := by
  have hf : DriveSafe ((shedLines s).foldl (fun s n => shedLine n s) s) :=
    foldl_holds DriveSafe _ (fun _ n hu => shedLine_drive n hu) _ s h
  exact .ite (hf.aside (by simp)) hf

theorem changePower_drive (l p : PowerState) (c : PowerCause) (h : DriveSafe s) : DriveSafe (changePower l p c s) := by
  have hset : DriveSafe (setPowerState p s) := h.aside (by simp)
  have hlines : DriveSafe (recompute (rederiveAll (grantAll (prune (shedToBudget (setPowerState p s)))))) :=
    (shedToBudget_drive hset).aside (by simp)
  unfold changePower
  exact raise_drive _ _ (idleStep_drive (restrainTest_drive p hlines))

theorem takeSample_drive (mv : Nat) (h : DriveSafe s) : DriveSafe (takeSample mv s) := by
  have hp : ∀ f, DriveSafe (s.modPower f) := fun _ => h.aside ⟨rfl, rfl, rfl⟩
  unfold takeSample
  dsimp only
  split
  · exact hp _
  · split
    · exact hp _
    · exact changePower_drive _ _ _ (hp _)

theorem loseMains_drive (h : DriveSafe s) : DriveSafe (loseMains s) := by
  have hp : ∀ f, DriveSafe (s.modPower f) := fun _ => h.aside ⟨rfl, rfl, rfl⟩
  unfold loseMains
  dsimp only
  split
  · exact hp _
  · exact changePower_drive _ _ _ (hp _)
  · exact h.aside ⟨rfl, rfl, rfl⟩

theorem gainMains_drive (h : DriveSafe s) : DriveSafe (gainMains s) := by
  unfold gainMains
  dsimp only
  split <;> exact h.aside ⟨rfl, rfl, rfl⟩

theorem mainsStable_drive (h : DriveSafe s) : DriveSafe (mainsStable s) := by
  unfold mainsStable
  split
  · exact changePower_drive _ _ _ (h.aside ⟨rfl, rfl, rfl⟩)
  · exact h

/-! ## Commands -/

theorem afterLineWrite_drive (n : LineNo) (f : LineFields) (old : LineConfig) (h : DriveSafe s) :
    DriveSafe (afterLineWrite n f old s) := by
  have hx : DriveSafe (sharesWritten old n s) := .ite (h.aside (by simp)) h
  have hq : DriveSafe (if f.quietDelay.isSome then rederiveQuiet n (sharesWritten old n s) else sharesWritten old n s) :=
    .ite (hx.aside (by simp)) hx
  rw [afterLineWrite_eq]
  exact .ite (hq.aside (by simp)) hq

theorem afterPolicyWrite_drive (b : Bool) (h : DriveSafe s) : DriveSafe (afterPolicyWrite b s) := by
  have hi : DriveSafe (idleStep (grantAll (shedToBudget s))) := idleStep_drive ((shedToBudget_drive h).aside (by simp))
  exact .ite (hi.aside (by simp)) hi

/-- An external connection is made only while the bus stands yielded, and so with the drive off (R114, R152). -/
theorem makeExternal_drive (n : LineNo) (hx : s.seq.extack = true) (h : DriveSafe s) : DriveSafe (makeExternal n s) := by
  have hq : ∀ f, Undriven (s.modSeq f) := fun f => modSeq_undriven f (h.undriven_of_extack hx)
  have hp : ∀ f, Undriven (placeFreed (s.modSeq f)) := fun f => (hq f).aside (by simp)
  exact (askForLine_undriven n (.ite (hp _) (hq _))).driveSafe

theorem busFree_extack (h : busFree s = true) : s.seq.extack = true := by
  simp only [busFree, Bool.and_eq_true] at h
  exact h.1.1.1

/-- A command row keeps the drive rule. The rows below the named ones leave the matrix, the unit and the sequencer's
activity. -/
theorem runRow_drive (c : Instr) (h : DriveSafe s) : DriveSafe (runRow c s).1 := by
  cases c with
  | writeLine o line f =>
    simp only [runRow, cmdWriteLine]
    split
    · exact h
    · split
      · exact h
      · split
        · exact h
        · exact afterLineWrite_drive _ _ _ (h.aside ⟨rfl, rfl, rfl⟩)
  | enableLine o line =>
    simp only [runRow, cmdEnableLine]
    (repeat' split) <;> exact h.aside (by simp [answer, refuse])
  | disableLine o line =>
    simp only [runRow, cmdDisableLine]
    (repeat' split) <;> exact h.aside (by simp [answer, refuse])
  | clearBar o line =>
    simp only [runRow, cmdClearBar]
    (repeat' split) <;> exact h.aside (by simp [answer, refuse])
  | requestTest o line p v =>
    simp only [runRow, cmdRequestTest]
    split
    · split
      · exact h
      · split
        · exact idleStep_drive (h.congr rfl)
        · exact h
    · exact h
  | abortTest o line =>
    simp only [runRow, cmdAbortTest]
    split
    · exact h
    · split
      · dsimp only [answer]
        exact placesFreed_drive (h.congr rfl)
      · split
        · exact h
        next a ha =>
          split
          · split
            · exact h
            · exact abortTestNow_drive _ (h.running_of_act ha) h
          · exact h
  | stopRoutineGroup o g =>
    simp only [runRow, cmdStopRoutineGroup]
    split
    · exact h
    next g _ =>
      have hq : ∀ f, DriveSafe ((modGroup g f s).modSeq fun q => { q with
        queue := q.queue.filter fun r => !(r.group == some g) }) := fun _ => h.congr rfl
      exact .ite (hq _) (placesFreed_drive (hq _))
  | setTestLimits o f =>
    simp only [runRow, cmdSetTestLimits]
    split
    · exact h
    · exact guardCheck_drive (h.congr rfl)
  | connectExternal o line =>
    simp only [runRow, cmdConnectExternal]
    split
    · exact h
    · split
      · exact h
      · split
        · exact h
        next hfree =>
          split
          · exact h
          · split
            · exact h
            · exact makeExternal_drive _ (busFree_extack (by simpa using hfree)) h
  | disconnectExternal o =>
    simp only [runRow, cmdDisconnectExternal]
    split
    · exact h
    · split
      · exact endExternal_drive h
      · exact h
  | writePowerPolicy o v f =>
    simp only [runRow, cmdWritePowerPolicy]
    split
    · exact h
    · split
      · exact h
      · split
        · exact h
        · exact recompute_drive (.ite (afterPolicyWrite_drive _ (h.aside ⟨rfl, rfl, rfl⟩)) (h.aside ⟨rfl, rfl, rfl⟩))
  | trafficReset o =>
    simp only [runRow, cmdTrafficReset, answer]
    exact doTrafficReset_drive s
  | _ =>
    simp only [runRow, cmdWriteStation, placeStation, cmdRemoveStation, cmdFlushLearned, cmdWriteStationTableForm,
      cmdReadStation, cmdReadLine, cmdEnableLineSettings, cmdReadUplink, cmdWriteProgram, cmdReadProgram, cmdClearSense,
      cmdSetUplink, cmdReadTestQueue, cmdReadTestRecord, cmdSetRoutineGroup, cmdStartRoutineGroup,
      cmdSetBatteryThresholds, cmdReadPower, cmdReadCounters, cmdReadGlobalCounters, cmdClearEvents, cmdSetNotices,
      cmdClearResetCause, cmdReadStatus, cmdSetManagement, cmdSetTime, cmdLock, cmdSaveConfiguration, cmdDeviceReset,
      cmdUnknown]
    (repeat' split) <;> exact h.congr rfl

theorem runCommand_drive (cmd : State → State × CmdResult) (hc : DriveSafe (cmd s).1) (h : DriveSafe s) :
    DriveSafe (runCommand cmd s).1 := by
  unfold runCommand
  split
  · exact h
  · exact hc

/-! ## Control frames and notices -/

theorem runElement_drive (o : Origin) (i : Nat) (b : List Byte) (h : DriveSafe s) :
    DriveSafe (runElement o i b s).1 := by
  refine runCommand_drive _ ?_ h
  split
  · exact h
  · exact runRow_drive _ h

theorem runElements_drive (o : Origin) (es : List Element) (h : DriveSafe s) : DriveSafe (runElements o es s).1 := by
  induction es generalizing s with
  | nil => exact h
  | cons e es ih =>
    cases e with
    | truncated i => exact h
    | whole i b => exact ih (runElement_drive o i b h)

theorem runFrame_drive (o : Origin) (f : List Byte) (h : DriveSafe s) : DriveSafe (runFrame o f s).1 := by
  unfold runFrame
  dsimp only
  split
  · exact h
  · exact runElements_drive o _ h

theorem buildEntry_drive (b : List Byte) (p : Port) (q : TxPart) (h : DriveSafe s) : DriveSafe (buildEntry b p q s) :=
  (makeRecord_drive _ h).congr rfl

theorem placeReply_drive (b : List Byte) (p : Port) (h : DriveSafe s) : DriveSafe (placeReply b p s) := by
  have hbuilt : ∀ f : Option DevReset → Option DevReset, DriveSafe ((buildEntry b p .reply s).modMgmt fun m =>
      { m with devReset := f m.devReset }) := fun _ => (buildEntry_drive b p .reply h).aside ⟨rfl, rfl, rfl⟩
  exact .ite (dropCraftEntries_drive (hbuilt _)) (hbuilt _)

theorem takeFrame_drive (b : Bool) (p : Port) (f : List Byte) (h : DriveSafe s) : DriveSafe (takeFrame b p f s) :=
  placeReply_drive _ p (runFrame_drive (originOf p b) f (h.aside ⟨rfl, rfl, rfl⟩))

theorem noticeFrameBuild_drive (h : DriveSafe s) : DriveSafe ((noticeReady s).elim s fun f => buildNotice f s) := by
  cases noticeReady s with
  | none => exact h
  | some f => exact buildEntry_drive f .uplink _ (h.aside ⟨rfl, rfl, rfl⟩)

theorem endSave_drive (good : Bool) (h : DriveSafe s) : DriveSafe (endSave good s) := by
  unfold endSave
  split
  · exact h
  · exact h.aside (by simp)

/-! ## Every step -/

/-- The drive rule across an occurrence, a command row apart. -/
theorem exec_event_drive {c : Instr} (hc : isCommand c = false) (hs : DriveSafe s) (h : exec c s = .next t) :
    DriveSafe t := by
  have key : ∀ u, exec c s = .next u → DriveSafe u → DriveSafe t := by
    rintro u hu hk
    rw [hu] at h
    cases h
    exact hk
  have sched : ∀ f : Sched → Sched, DriveSafe (s.modSched f) := fun _ => hs.congr rfl
  have seqSide : ∀ f : Seq → Seq, (f s.seq).st = s.seq.st ∧ (f s.seq).act = s.seq.act ∧ (f s.seq).extack = s.seq.extack →
      DriveSafe (s.modSeq f) := fun f hf => hs.congr (by simp [State.driveView, hf])
  cases c with
  | coldReset => exact key _ rfl (coldState_drive s)
  | pinReset => exact key _ rfl (warmReset_drive _ s)
  | supplyReset => exact key _ rfl (warmReset_drive _ s)
  | startUp =>
    refine key _ rfl ?_
    split
    next hp => exact runStartUp_drive _ (by simp [State.running, hp]) hs
    · exact hs
    · exact hs
  | startUpComplete v =>
    refine key _ rfl ?_
    split
    next hp => exact completeStartUp_drive v (by simp [State.running, hp]) hs
    · exact hs
    · exact hs
  | uplinkFrameReceived f => exact key _ rfl (receive_drive _ f _ (recogniseUplink_drive f hs) hs)
  | capacityAdvisory v => exact key _ rfl (.ite (takeAdvisory_drive v hs) (hs.aside (by simp)))
  | classPause m d => exact key _ rfl (.ite (takePause_drive m d hs) (hs.aside (by simp)))
  | craftFrameReceived b f =>
    have hservice : DriveSafe (s.modMgmt fun m => { m with service := b }) := hs.congr rfl
    exact key _ rfl (receive_drive _ f _ (recogniseCraft_drive b f hservice) hservice)
  | lineLinkFrameReceived n f => exact key _ rfl (receive_drive _ f _ (upstream_drive n f hs) hs)
  | ready n => exact key _ rfl (whenRunning_drive _ (.ite (hs.congr rfl) hs) hs)
  | activity n => exact key _ rfl (whenRunning_drive _ (takeActivity_drive n hs) hs)
  | linkUp n d u => exact key _ rfl (whenRunning_drive _ (takeLinkUp_drive n d u hs) hs)
  | rates n d u => exact key _ rfl (whenRunning_drive _ (takeRatesReport_drive n d u hs) hs)
  | linkFail n => exact key _ rfl (whenRunning_drive _ (.ite (failTraining_drive n _ hs) hs) hs)
  | linkDown n => exact key _ rfl (whenRunning_drive _ (takeLinkDown_drive n hs) hs)
  | awake n => exact key _ rfl (whenRunning_drive _ (.ite (hs.congr rfl) hs) hs)
  | senseEdge n b => exact key _ rfl (whenRunning_drive _ (takeSense_drive n b hs) hs)
  | wakeGrant => exact key _ rfl (hs.aside (by simp))
  | agingSweep =>
    refine key _ rfl ?_
    split
    · exact hs
    · exact hs.congr rfl
  | holdTimerExpiry =>
    refine key _ rfl ?_
    split
    · exact hs
    · exact hs.aside (by simp)
  | refill =>
    refine key _ rfl ?_
    split
    · exact hs
    · exact hs.congr rfl
  | pauseTimerExpiry c => exact key _ rfl (sched _)
  | upstreamChoice => exact key _ rfl (makeChoice_drive hs)
  | transmissionComplete =>
    refine key _ rfl ?_
    split
    · exact hs
    · exact completeTransmission_drive _ _ (sched _)
  | handOffStart n => exact key _ rfl (.ite (hs.aside (by simp)) hs)
  | handOffComplete n =>
    refine key _ rfl ?_
    split
    · exact hs
    · exact hs.aside (by simp)
  | drainComplete n => exact key _ rfl (drainReport_drive n hs)
  | uplinkLinkDown =>
    refine key _ rfl ?_
    dsimp only
    split
    · exact sched _
    · exact transmitAborted_drive _ (sched _)
  | uplinkLinkUp => exact key _ rfl (makeChoice_drive (sched _))
  | craftTransmissionStart =>
    refine key _ rfl (.ite ?_ hs)
    split
    · exact hs
    · exact hs.congr rfl
  | craftTransmissionComplete =>
    refine key _ rfl ?_
    split
    · exact hs
    · exact completeTransmission_drive _ _ (sched _)
  | craftLinkDown =>
    refine key _ rfl (dropCraftEntries_drive ?_)
    split
    · exact sched _
    · exact transmitAborted_drive _ (sched _)
  | trainingTimerExpiry n => exact key _ rfl (.ite (failTraining_drive n _ hs) hs)
  | wakeTimerExpiry n => exact key _ rfl (.ite (hs.aside (by simp)) hs)
  | idleTimerExpiry n => exact key _ rfl (.ite (hs.aside (by simp)) hs)
  | dormantTimerExpiry n => exact key _ rfl (.ite (hs.aside (by simp)) hs)
  | drainTimerExpiry n => exact key _ rfl (.ite (heldReport_drive (hs.aside (by simp))) hs)
  | settleTimerExpiry => exact key _ rfl (settleEnds_drive hs)
  | windowEnd xs => exact key _ rfl (windowEnds_drive xs hs)
  | captureTargetReached v => exact key _ rfl (.ite (captureEnds_drive v _ hs) hs)
  | captureTimeout => exact key _ rfl (captureEnds_drive _ _ hs)
  | toneDurationElapsed => exact key _ rfl (toneEnds_drive hs)
  | dischargeWaitExpiry => exact key _ rfl (dischargeEnds_drive hs)
  | guardTrip v =>
    refine key _ rfl ?_
    split
    · exact hs
    · exact guardCheck_drive (hs.congr rfl)
  | extreqAsserted => exact key _ rfl (idleStep_drive (seqSide _ ⟨rfl, rfl, rfl⟩))
  | extreqReleased =>
    have hq : DriveSafe (s.modSeq fun q => { q with extreq := false }) := seqSide _ ⟨rfl, rfl, rfl⟩
    refine key _ rfl ?_
    dsimp only
    split
    next hx => exact (reclaimBus_undriven (hq.undriven_of_extack hx)).driveSafe
    · exact hq
  | suspendTimerExpiry =>
    refine key _ rfl ?_
    split
    next hst => exact abortTestNow_drive _ (hs.running_of_st (by simp [hst.1])) hs
    · exact hs
  | halfTick g => exact key _ rfl (.ite (tickRequests_drive g _ (seqSide _ ⟨rfl, rfl, rfl⟩)) hs)
  | fullTick g => exact key _ rfl (.ite (tickRequests_drive g _ (seqSide _ ⟨rfl, rfl, rfl⟩)) hs)
  | batterySample v => exact key _ rfl (whenRunning_drive _ (takeSample_drive v hs) hs)
  | mainsOkDeasserted => exact key _ rfl (loseMains_drive hs)
  | mainsOkAsserted => exact key _ rfl (gainMains_drive hs)
  | mainsStableTimerExpiry => exact key _ rfl (mainsStable_drive hs)
  | controlFrameTaken b =>
    refine key _ rfl ?_
    split
    · exact hs
    · exact .ite (takeFrame_drive b _ _ hs) hs
  | noticeFrameBuild => exact key _ rfl (noticeFrameBuild_drive hs)
  | saveDone b => exact key _ rfl (endSave_drive b hs)
  | deviceResetTimerExpiry => exact key _ rfl (.ite (warmReset_drive _ s) hs)
  | craftLinkUp => exact key _ rfl (sched _)
  | _ => cases hc

theorem exec_drive (c : Instr) (hs : DriveSafe s) (h : exec c s = .next t) : DriveSafe t := by
  by_cases hc : isCommand c = true
  · rw [exec_of_isCommand hc] at h
    cases h
    exact (runCommand_drive _ (runRow_drive c hs) hs).congr rfl
  · exact exec_event_drive (by simpa using hc) hs h

theorem passMs_drive (hs : DriveSafe s) : DriveSafe (passMs s) := by
  unfold passMs
  split
  · exact hs
  · exact hs.congr rfl
  · exact hs.congr rfl

theorem step_drive (hs : DriveSafe s) (h : step s = .next t) : DriveSafe t := by
  unfold step idle at h
  split at h
  next rest _ => exact exec_drive _ (s := { s with pending := rest }) (hs.congr rfl) h
  · split at h
    · exact exec_drive _ hs h
    · cases h
      exact passMs_drive hs

end

end Sys2Proof.Machine

namespace Sys2Proof
open Machine

/-- Settles O55: no operation but a START turns the drive on, and a START does so only under the rule. -/
theorem driveSafeKept : Obligations.DriveSafeKept := fun _ _ hs h => step_drive hs h

end Sys2Proof
end

