-- ==== Sys2Proof/Proofs/Measurements.lean ====
section
/-! PROOF. What follows a settle, a measurement and a discharge wait: the next spec started, the pair released or the bus
yielded (R113, R116, R139, R151), and the guard (R119, R120). -/

namespace Sys2Proof.Machine

section
variable {n : LineNo} {a : Activity} {x : Spec} {s : State}

/-! ## The next step of a test -/

/-- A START with the guard not tripped drives as the kind has it (R113, R114). -/
theorem beginMeasurement_armed (len : Nat) (c : Access) (h : c.tripped = false) : beginMeasurement x len c = { c with
    unit := .measuring, spec := some x, kTaken := c.cablePf, lengthTaken := len, elapsed := 0, indication := false
    stopping := false, sourceOn := x.kind == .resistance || x.kind == .capacitance, toneOn := x.kind == .tone } := by
  simp [beginMeasurement, h]

/-- The drive of a kind (R114). -/
theorem drive_decide (x : Spec) :
    (x.kind == .resistance || x.kind == .capacitance) = decide (x.kind = .resistance ∨ x.kind = .capacitance)
      ∧ (x.kind == .tone) = decide (x.kind = .tone) := by
  generalize x.kind = k
  cases k <;> decide

/-- A START that nothing refuses, with the guard not tripped (R113). -/
theorem startStep_eq (hact : s.seq.act = some a) (hm : s.access.matrix = .connected n) (hu : s.access.unit = .idle)
    (hx : s.seq.extack = false) (ht : s.access.tripped = false) (hspec : a.specs[a.next]? = some x) :
    startStep s = specStarted x n s := by
  have htripped : (beginMeasurement x (s.line n).cfg.recordedLength s.access).tripped = false := ht
  simp [startStep, hact, hspec, hm, hu, hx, htripped, specStarted]

theorem goesOn_of_spec (hspec : a.specs[a.next]? = some x) (hg : ∀ r ∈ a.results, r.verdict ≠ .guarded) :
    a.goesOn = true := by
  obtain ⟨hlt, -⟩ := List.getElem?_eq_some_iff.mp hspec
  have hnone : (a.results.any fun r => r.verdict == .guarded) = false := by simpa using hg
  simp [Activity.goesOn, hlt, hnone]

theorem goesOn_of_le (h : a.specs.length ≤ a.next) : a.goesOn = false := by
  simp [Activity.goesOn, Nat.not_lt.mpr h]

/-- A step boundary with EXTREQ released and a spec left starts the next spec (R139). -/
theorem boundary_starts (hreq : s.seq.extreq = false) (hact : s.seq.act = some a)
    (hm : s.access.matrix = .connected n) (hu : s.access.unit = .idle) (hx : s.seq.extack = false)
    (ht : s.access.tripped = false) (hspec : a.specs[a.next]? = some x)
    (hg : ∀ r ∈ a.results, r.verdict ≠ .guarded) : boundary nextStep s = specStarted x n s := by
  simp [boundary, hreq, nextStep, hact, goesOn_of_spec hspec hg, startStep_eq hact hm hu hx ht hspec]

/-- The pair released (R109, R139). -/
theorem releaseStep_connected (hm : s.access.matrix = .connected n) : releaseStep s =
    (s.modAccess fun k => { k with
      matrix := .settlingOut, settleTimer := some k.settleTime, tripped := false, legMv := 0 }).modSeq fun q =>
        { q with st := .releasing } := by
  simp [releaseStep, releasePair, hm, State.modAccess]

/-- A step boundary with EXTREQ released and no spec left releases the pair (R139). -/
theorem boundary_releases (hreq : s.seq.extreq = false) (hact : s.seq.act = some a)
    (hlast : a.specs.length ≤ a.next) : boundary nextStep s = releaseStep s := by
  simp [boundary, hreq, nextStep, hact, goesOn_of_le hlast]

/-- A step boundary with EXTREQ asserted yields the bus, and leaves everything but the sequencer (R151). -/
theorem boundary_yields (hreq : s.seq.extreq = true) (hact : s.seq.act = some a) :
    let t := boundary nextStep s
    t.access = s.access ∧ t.seq = { s.seq with
        st := .suspended, extack := true, suspended := true
        suspendTimer := some (s.seq.suspendLimit * 1000), act := some { a with interrupted := true } }
      ∧ flagged t .external ∧ t.lines = s.lines ∧ t.power = s.power ∧ t.pool = s.pool ∧ t.mgmt = s.mgmt := by
  have hb : boundary nextStep s = suspendSeq s := by rw [boundary, if_pos hreq]
  dsimp only
  rw [hb]
  exact ⟨by simp, suspendSeq_seq hact, (suspendSeq_counts s).2.2, by simp, by simp, by simp, by simp⟩

/-! ## A settled pair -/

/-- A pair that has settled (R109). -/
def settled (n : LineNo) (s : State) : State := s.modAccess fun c => { c with matrix := .connected n, settleTimer := none }

theorem exec_settled (hact : s.seq.act = some a) (hm : s.access.matrix = .settlingIn n) (hst : s.seq.st = .settling) :
    exec .settleTimerExpiry s = .next (if a.origin = .external then (settled n s).modSeq fun q => { q with st := .external }
      else boundary nextStep (settled n s)) := by
  have hexec : exec .settleTimerExpiry s = .next (settleEnds s) := rfl
  simp [hexec, settleEnds, hm, settledReport, hact, hst, settled]

/-! ## The trip level -/

/-- The drive allowance of a spec (R119). -/
def specAllowance : Spec → Nat
  | .resistance _ v _ _ _ => v * 1000
  | .capacitance _ _ target _ _ => target
  | _ => 0

theorem tripLevel_measuring (hu : s.access.unit = .measuring) (hs : s.access.spec = some x) :
    tripLevel s.access = s.access.guardVolts * 1000 + specAllowance x := by
  rw [tripLevel, driveAllowance, hu, hs]
  cases x <;> rfl

theorem tripLevel_discharging (hu : s.access.unit = .discharging) :
    tripLevel s.access = s.access.guardVolts * 1000 + s.access.spec.elim 0 specAllowance := by
  rw [tripLevel, driveAllowance, hu]
  cases s.access.spec with
  | none => rfl
  | some y => cases y <;> rfl

theorem tripLevel_idle (hu : s.access.unit = .idle) : tripLevel s.access = s.access.guardVolts * 1000 := by
  simp [tripLevel, driveAllowance, hu]

/-! ## The discharge wait -/

/-- The unit at the end of a discharge wait (R116). -/
def discharged (s : State) : State := s.modAccess fun c =>
  { c with unit := .idle, spec := none, dischargeTimer := none, stopping := false }

/-- With no leg above the trip level, now without the drive allowance, the guard rests (R119). -/
theorem exec_discharged (hu : s.access.unit = .discharging) (hv : s.access.legMv ≤ s.access.guardVolts * 1000) :
    exec .dischargeWaitExpiry s = .next (if s.access.stopping = true then releaseStep (discharged s)
      else if s.seq.st = .discharging then boundary nextStep (discharged s) else discharged s) := by
  have hexec : exec .dischargeWaitExpiry s = .next (dischargeEnds s) := rfl
  have hlevel : tripLevel (discharged s).access = s.access.guardVolts * 1000 := tripLevel_idle rfl
  have hrest : guardCheck (discharged s) = discharged s := guardCheck_rests (.inr (.inr (hlevel ▸ hv)))
  rw [hexec, dischargeEnds, if_pos hu, ← discharged, hrest]
  rfl

/-! ## The guard -/

theorem exec_guardTrip {mv : Nat} (hp : s.access.matrix.pair = some n) :
    exec (.guardTrip mv) s = .next (guardCheck (s.modAccess fun c => { c with legMv := mv })) := by
  simp [exec, execGuardTrip, hp]

/-- A trip ends a driving measurement in hand GUARDED (R120, R135). -/
theorem tripGuard_driving (n : LineNo) (hx : measuringSpec s.access = some x) (hd : x.kind.driving = true) :
    tripGuard n s = (modAct (appendResult (guardedResult x)) ((guardLatched n s).modAccess (endMeasurement true))).modSeq
      fun q => { q with st := .discharging } := by
  have hkind : (guardedResult x).kind.driving = true := hd
  simp [tripGuard_eq, hx, hd, resultStep, hkind]

/-- A trip leaves a FOREIGN measurement, a discharge and a unit in IDLE to go on (R120). -/
theorem tripGuard_latches (n : LineNo) (h : ∀ x, measuringSpec s.access = some x → x.kind.driving = false) :
    tripGuard n s = guardLatched n s := by
  rw [tripGuard_eq]
  split
  next x hx => rw [if_neg (by simp [h x hx])]
  · rfl

theorem guardLatched_flagged (n : LineNo) (s : State) : flagged (guardLatched n s) .guardTrip :=
  raise_flagged s (some n) _

theorem guardLatched_access (n : LineNo) (s : State) : (guardLatched n s).access = { s.access with
    sourceOn := false, toneOn := false, tripped := true
    indication := s.access.indication || decide (s.access.unit = .measuring) } := by
  simp [guardLatched]

theorem guardLatched_seq (n : LineNo) (s : State) : (guardLatched n s).seq = { s.seq with
    act := s.seq.act.map fun b => if b.line = n then { b with guardTripped := true } else b } := by
  simp [guardLatched, modAct]

end

end Sys2Proof.Machine

namespace Sys2Proof
open Machine

/-- Settles O32: the settled report goes by the origin of the activity, and for a test through a step boundary. -/
theorem settleTimer : Obligations.SettleTimer := by
  intro n a x s hact hm hst
  refine ⟨fun ho => ?_, fun ho hreq => ?_, fun ho hreq hx hu ht hspec hg => ?_, fun ho hreq hlast => ?_⟩
  · rw [exec_settled hact hm hst, if_pos ho]
    rfl
  · refine ⟨_, exec_settled hact hm hst, ?_⟩
    rw [if_neg ho]
    obtain ⟨haccess, hseq, hflag, hlines, hpower, hpool, -⟩ := boundary_yields (s := settled n s) hreq hact
    exact ⟨haccess, hseq, hflag, hlines, hpower, hpool⟩
  · obtain ⟨hsource, htone⟩ := drive_decide x
    rw [exec_settled hact hm hst, if_neg ho,
      boundary_starts (s := settled n s) (n := n) hreq hact rfl hu hx ht hspec hg, specStarted,
      ← hsource, ← htone]
    simp [settled, State.modAccess, State.modSeq, hact, beginMeasurement_armed, ht]
    rfl
  · rw [exec_settled hact hm hst, if_neg ho, boundary_releases (s := settled n s) hreq hact hlast,
      releaseStep_connected (n := n) rfl]
    rfl

/-- Settles O35: the guard rests at the lowered level, and a STOP or the step boundary says what follows. -/
theorem dischargeWait : Obligations.DischargeWait := by
  intro n a x s hu hm hv hact
  refine ⟨fun h => ?_, fun hstop hst hreq => ?_, fun hstop hst hreq hx ht hspec hg => ?_⟩
  · have hrelease : exec .dischargeWaitExpiry s = .next (releaseStep (discharged s)) := by
      rw [exec_discharged hu hv]
      by_cases hstop : s.access.stopping = true
      · rw [if_pos hstop]
      · obtain ⟨hst, hreq, hlast⟩ := h.resolve_left hstop
        rw [if_neg hstop, if_pos hst, boundary_releases (s := discharged s) hreq hact hlast]
    rw [hrelease, releaseStep_connected (s := discharged s) hm]
    rfl
  · refine ⟨_, exec_discharged hu hv, ?_⟩
    rw [if_neg (by simp [hstop]), if_pos hst]
    obtain ⟨haccess, hseq, hflag, hlines, hpower, -⟩ := boundary_yields (s := discharged s) hreq hact
    refine ⟨?_, hseq, hflag, hlines, hpower⟩
    rw [haccess]
    simp [discharged, hstop]
  · obtain ⟨hsource, htone⟩ := drive_decide x
    rw [exec_discharged hu hv, if_neg (by simp [hstop]), if_pos hst,
      boundary_starts (s := discharged s) hreq hact hm rfl hx ht hspec hg, specStarted, ← hsource, ← htone]
    simp [discharged, State.modAccess, State.modSeq, hact, beginMeasurement_armed, ht]
    rfl

/-- Settles O36: the comparison at the trip level, and what a trip does with the measurement in hand. -/
theorem guardTrips : Obligations.GuardTrips := by
  intro n a x mv level s
  refine ⟨fun hm => ?_, fun hm hu hs hd => ?_, fun hm hh hlevel => ?_⟩
  · have hp : s.access.matrix.pair = none := by rcases hm with h | h <;> rw [h] <;> rfl
    simp [exec, execGuardTrip, hp]
  · have hp : s.access.matrix.pair = some n := by rw [hm]; rfl
    have htrip := tripLevel_measuring hu hs
    refine ⟨fun (hv : mv ≤ s.access.guardVolts * 1000 + specAllowance x) => ?_,
      fun (hv : s.access.guardVolts * 1000 + specAllowance x < mv) ht hact hline => ?_⟩
    · rw [exec_guardTrip hp, guardCheck_rests]
      exact .inr (.inr (hv.trans_eq htrip.symm))
    · refine ⟨_, exec_guardTrip hp, ?_⟩
      have hx : measuringSpec s.access = some x := by simp [measuringSpec, hu, hs]
      rw [guardCheck_trips (s := s.modAccess fun c => { c with legMv := mv }) hp ht (htrip.trans_lt hv),
        tripGuard_driving (s := s.modAccess fun c => { c with legMv := mv }) n hx hd]
      have hflag := guardLatched_flagged n (s.modAccess fun c => { c with legMv := mv })
      refine ⟨?_, ?_, by simpa [flagged, modAct] using hflag, by simp [guardLatched], by simp [guardLatched],
        by simp [guardLatched]⟩
      · simp [guardLatched_access, endMeasurement, hu]
      · simp [guardLatched_seq, modAct, hact, hline, appendResult, guardedResult]
        rfl
  · have hp : s.access.matrix.pair = some n := by rcases hm with h | h <;> rw [h] <;> rfl
    have htrip : tripLevel s.access = level := by
      rw [hlevel]
      rcases hh with h | h | ⟨h, hs, hk⟩
      · simp [tripLevel_idle h, h]
      · rw [tripLevel_discharging h, h]
        cases s.access.spec with
        | none => rfl
        | some y => cases y <;> rfl
      · rw [tripLevel_measuring h hs, h]
        cases x <;> cases hk
        rfl
    have hgoes : ∀ y, measuringSpec s.access = some y → y.kind.driving = false := by
      intro y hy
      rcases hh with h | h | ⟨hu, hs, hk⟩
      · simp [measuringSpec, h] at hy
      · simp [measuringSpec, h] at hy
      · have hyx : x = y := by simpa [measuringSpec, hu, hs] using hy
        rw [← hyx, hk]
        rfl
    refine ⟨fun hv => ?_, fun hv ht => ?_⟩
    · rw [exec_guardTrip hp, guardCheck_rests]
      exact .inr (hv.symm.imp_right fun h => h.trans_eq htrip.symm)
    · refine ⟨_, exec_guardTrip hp, ?_⟩
      rw [guardCheck_trips (s := s.modAccess fun c => { c with legMv := mv }) hp ht (htrip.trans_lt hv),
        tripGuard_latches (s := s.modAccess fun c => { c with legMv := mv }) n hgoes]
      exact ⟨guardLatched_access n _, guardLatched_seq n _, guardLatched_flagged n _, by simp [guardLatched],
        by simp [guardLatched], by simp [guardLatched], by simp [guardLatched]⟩

end Sys2Proof
end
-- ==== Sys2Proof/Proofs/MeasuredValues.lean ====
section
/-! PROOF. A measurement completed: the value and verdict of each kind (R122 to R128), the tone (R126), and what follows (R116,
R139). -/

namespace Sys2Proof.Machine

section
variable {a : Activity} {x : Spec} {leg : Leg} {p w m f q t : Nat} {xs : List Sample} {s : State}

/-! ## Measurements completed -/

/-- A result of a measurement that ran joins the results, with its guard indication (R128, R139). -/
theorem appendResult_run {r : Result} (a : Activity) (h : r.verdict ≠ .guarded) : appendResult r a =
    { a with results := a.results ++ [r], guardTripped := a.guardTripped || r.guardSeen } := by
  simp [appendResult, h]

/-- A driving measurement completed: the drive off and the discharge begun (R116, R139). -/
theorem completeMeasurement_driving {r : Result} (hd : r.kind.driving = true) (hv : r.verdict ≠ .guarded)
    (hseen : r.guardSeen = s.access.indication) (hact : s.seq.act = some a) : completeMeasurement r s =
      (s.modAccess fun k => { k with
        unit := .discharging, sourceOn := false, toneOn := false, dischargeTimer := some k.dischargeTime }).modSeq
      fun k => { k with
        st := .discharging
        act := some { a with results := a.results ++ [r], guardTripped := a.guardTripped || s.access.indication } } := by
  simp [completeMeasurement, resultStep, hd, endMeasurement, modAct, State.modSeq, State.modAccess, hact,
    appendResult_run a hv, hseen]

/-- The state at the step boundary that follows a FOREIGN measurement (R116, R139). -/
def foreignDone (r : Result) (a : Activity) (s : State) : State :=
  (s.modAccess fun k => { k with unit := .idle, spec := none, sourceOn := false, toneOn := false }).modSeq fun k =>
    { k with act := some { a with results := a.results ++ [r], guardTripped := a.guardTripped || s.access.indication } }

theorem completeMeasurement_foreign {r : Result} (hd : r.kind.driving = false) (hv : r.verdict ≠ .guarded)
    (hseen : r.guardSeen = s.access.indication) (hact : s.seq.act = some a) :
    completeMeasurement r s = boundary nextStep (foreignDone r a s) := by
  simp [completeMeasurement, resultStep, hd, endMeasurement, modAct, State.modSeq, State.modAccess, hact,
    appendResult_run a hv, hseen, foreignDone]

theorem verdictAbove_ne (v m f : Nat) : verdictAbove v m f ≠ .guarded := by
  unfold verdictAbove
  split
  · nofun
  · split <;> nofun

theorem verdictBelow_ne (v m f : Nat) : verdictBelow v m f ≠ .guarded := by
  unfold verdictBelow
  split
  · nofun
  · split <;> nofun

theorem capacitanceVerdict_ne (b : Bool) (l k m f : Nat) : capacitanceVerdict b l k m f ≠ .guarded := by
  unfold capacitanceVerdict
  split
  · nofun
  · split
    · nofun
    · exact verdictAbove_ne _ _ _

theorem captureResult_ne (c : Access) (leg : Leg) (i v m f t : Nat) (b : Bool) :
    (captureResult c leg i v m f t b).verdict ≠ .guarded := capacitanceVerdict_ne _ _ _ _ _

/-! ## Measured values -/

/-- The mean resistance of a window, each sample read at the nearer end of the sampler's ranges (R115, R123). -/
theorem resistanceOf_eq (xs : List Sample) : resistanceOf xs =
    if (xs.map fun y => min 60000000 y.na).sum / xs.length = 0 then 999999999
    else min 999999999 ((xs.map fun y => min 150000 y.mv.natAbs).sum / xs.length * 1000000
      / ((xs.map fun y => min 60000000 y.na).sum / xs.length)) := by
  simp only [resistanceOf, Config.resistanceMax, show Sample.volts = fun y => min 150000 y.mv.natAbs from rfl,
    show Sample.amps = fun y => min 60000000 y.na from rfl]

theorem greatestVolts_eq (xs : List Sample) :
    greatestVolts xs = (xs.map fun y => min 150000 y.mv.natAbs).foldl max 0 := by
  rw [greatestVolts, show Sample.volts = fun y => min 150000 y.mv.natAbs from rfl]

theorem capacitanceOf_eq (p t w : Nat) : capacitanceOf p t w = min 9999999 (p * t * 1000 / w) := by
  rw [capacitanceOf, Config.capacitanceMax]

/-- The result of a RESISTANCE window (R123). -/
theorem windowResult_resistance (hl : xs.length = w)
    (hq : q = if (xs.map fun y => min 60000000 y.na).sum / w = 0 then 999999999
      else min 999999999 ((xs.map fun y => min 150000 y.mv.natAbs).sum / w * 1000000
        / ((xs.map fun y => min 60000000 y.na).sum / w)))
    (b : Bool) : windowResult (.resistance leg p w m f) xs b =
      { kind := .resistance, leg := leg, value := some q, length := none, guardSeen := b
        verdict := verdictBelow q m f } := by
  rw [windowResult, resistanceOf_eq, hl, ← hq]

/-- The result of a FOREIGN window (R122). -/
theorem windowResult_foreign (hq : q = (xs.map fun y => min 150000 y.mv.natAbs).foldl max 0) (b : Bool) :
    windowResult (.foreign leg w m f) xs b =
      { kind := .foreign, leg := leg, value := some q, length := none, guardSeen := b
        verdict := verdictAbove q m f } := by
  rw [windowResult, greatestVolts_eq, hq]

/-- The result of a capture stopped at `t` (R124, R125). -/
theorem captureResult_eq (timedOut : Bool) (hq : q = min 9999999 (p * t * 1000 / w)) :
    captureResult s.access leg p w m f t timedOut =
      { kind := .capacitance, leg := leg, value := some q, length := some (q / s.access.kTaken)
        guardSeen := s.access.indication
        verdict := capacitanceVerdict timedOut s.access.lengthTaken (q / s.access.kTaken) m f } := by
  rw [captureResult, capacitanceOf_eq, hq]

/-! ## The occurrences that complete a measurement -/

/-- The last sample of a window completes its measurement (R115). -/
theorem exec_windowEnd {w : Nat} {xs : List Sample} (hu : s.access.unit = .measuring) (hs : s.access.spec = some x)
    (hw : Spec.window x = some w) (hl : xs.length = w) :
    exec (.windowEnd xs) s = .next (completeMeasurement (windowResult x xs s.access.indication) s) := by
  have hexec : exec (.windowEnd xs) s = .next (windowEnds xs s) := rfl
  have htake : xs.take w = xs := List.take_of_length_le hl.le
  rw [hexec]
  simp [windowEnds, measuringSpec, hu, hs, hw, hl, htake]

/-- The capture timer's stop completes a CAPACITANCE measurement (R124). -/
theorem captureEnds_eq {leg : Leg} {i v m f : Nat} (t : Nat) (b : Bool) (hu : s.access.unit = .measuring)
    (hs : s.access.spec = some (.capacitance leg i v m f)) :
    captureEnds t b s = completeMeasurement (captureResult s.access leg i v m f t b) s := by
  simp [captureEnds, measuringSpec, hu, hs]

/-- The capture ends at its target within the timeout, or at the timeout (R124). -/
theorem exec_captureEnd {c : Instr} (hu : s.access.unit = .measuring)
    (hs : s.access.spec = some (.capacitance leg p w m f))
    (hc : c = .captureTargetReached t ∧ t ≤ 2000000 ∨ c = .captureTimeout ∧ t = 2000000) :
    exec c s = .next (completeMeasurement (captureResult s.access leg p w m f t (decide (c = .captureTimeout))) s) := by
  rw [← captureEnds_eq t _ hu hs]
  rcases hc with ⟨rfl, ht⟩ | ⟨rfl, rfl⟩
  · simp [exec, execCaptureTargetReached, Config.captureTimeoutUs, ht]
  · simp [exec, execCaptureTimeout, Config.captureTimeoutUs]

/-- The end of the tone duration completes a TONE measurement (R127, R128). -/
theorem exec_toneEnd (hu : s.access.unit = .measuring) (hs : s.access.spec = some (.tone leg p w m f)) :
    exec .toneDurationElapsed s = .next (completeMeasurement
      { kind := .tone, leg := leg, value := none, length := none, guardSeen := s.access.indication
        verdict := .pass } s) := by
  simp [exec, execToneDurationElapsed, toneEnds, measuringSpec, hu, hs]

/-! ## The tone -/

/-- The wave is high in the first half of each period (R126). -/
theorem toneWave_iff (f us : Nat) : toneWave f us = true ↔ us % (1000000 / f) < 1000000 / f / 2 := decide_eq_true_iff

/-- The generator's output on a spec's leg (R126). -/
theorem toneOutput_iff (us : Nat) (hs : s.access.spec = some (.tone leg p w m f)) :
    Access.toneOutput us s.access = true ↔ s.access.toneOn = true ∧ s.access.elapsed * 1000 + us < f * 1000000
      ∧ (s.access.elapsed * 1000 + us) % ((w + m) * 1000) < w * 1000
      ∧ (s.access.elapsed * 1000 + us) % ((w + m) * 1000) % (1000000 / p) < 1000000 / p / 2 := by
  rw [Access.toneOutput, hs, Option.any_some, Spec.toneLevel, Bool.and_eq_true, Bool.and_eq_true, Bool.and_eq_true,
    toneWave_iff, decide_eq_true_iff, decide_eq_true_iff, and_assoc]

end

end Sys2Proof.Machine

namespace Sys2Proof
open Machine

/-- Settles O34: each kind's occurrence completes its measurement with the kind's result, and a FOREIGN measurement goes on
to a step boundary. -/
theorem measurementCompletes : Obligations.MeasurementCompletes := by
  intro leg p w m f t us q xs x c r a s
  refine ⟨toneOutput_iff us, fun hact hu hs => ⟨fun h => ?_, fun n y hx hl hm hq hr => ?_⟩⟩
  · obtain ⟨hexec, hd, hv, hseen⟩ : exec c s = .next (completeMeasurement r s) ∧ r.kind.driving = true
        ∧ r.verdict ≠ .guarded ∧ r.guardSeen = s.access.indication := by
      rcases h with ⟨rfl, rfl, hl, hq, hr⟩ | ⟨rfl, hc, hq, hr⟩ | ⟨rfl, rfl, hr⟩
      · rw [exec_windowEnd hu hs rfl hl, windowResult_resistance hl hq, hr]
        exact ⟨rfl, rfl, verdictBelow_ne q m f, rfl⟩
      · have hresult : captureResult s.access leg p w m f t (decide (c = .captureTimeout)) = r := by
          rw [captureResult_eq _ hq, hr, capacitanceVerdict, deviation]
          simp only [decide_eq_true_eq]
        have hv := captureResult_ne s.access leg p w m f t (decide (c = .captureTimeout))
        rw [hresult] at hv
        rw [exec_captureEnd hu hs hc, hresult]
        exact ⟨rfl, by rw [hr]; rfl, hv, by rw [hr]⟩
      · rw [exec_toneEnd hu hs, hr]
        exact ⟨rfl, rfl, nofun, rfl⟩
    rw [hexec, completeMeasurement_driving hd hv hseen hact]
  · have hv : r.verdict ≠ .guarded := hr ▸ verdictAbove_ne q m f
    have hseen : r.guardSeen = s.access.indication := by rw [hr]
    have hexec : exec (.windowEnd xs) s = .next (boundary nextStep (foreignDone r a s)) := by
      rw [exec_windowEnd hu hs (w := w) (hx ▸ rfl) hl, ← completeMeasurement_foreign (hr ▸ rfl) hv hseen hact, hx,
        windowResult_foreign hq, hr]
      rfl
    refine ⟨fun hreq hlast => ?_, fun hreq hack ht hspec hg => ?_, fun hreq => ?_⟩
    · rw [hexec, boundary_releases (s := foreignDone r a s) hreq rfl hlast,
        releaseStep_connected (s := foreignDone r a s) hm]
      simp [foreignDone, State.modAccess, State.modSeq]
    · have hall : ∀ z ∈ a.results ++ [r], z.verdict ≠ .guarded := by
        simpa [or_imp, forall_and] using ⟨hg, hv⟩
      rw [hexec, boundary_starts (s := foreignDone r a s) hreq rfl hm rfl hack ht hspec hall]
      simp [specStarted, foreignDone, State.modAccess, State.modSeq, beginMeasurement_armed, ht]
      rfl
    · refine ⟨_, hexec, ?_⟩
      obtain ⟨haccess, hseq, hflag, hlines, hpower, hpool, hmgmt⟩ := boundary_yields (s := foreignDone r a s) hreq rfl
      exact ⟨haccess, hseq, hflag, hlines, hpower, hpool, hmgmt⟩

end Sys2Proof
end

