-- ==== Sys2Proof/Proofs/Lists.lean ====
section
/-! PROOF. The places of the lists (R132, R142, R177, R181, R201) and the wake list (R168, R169) across the shared
operations: one relation between the state before and the state after, and one lemma for each operation that it holds
across. -/

namespace Sys2Proof.Machine

/-- What holds of the lists holds on: each list within its places, and each listed wake one of a line asleep. -/
structure ListsHold (s t : State) : Prop where
  bounded : ListsBounded s → ListsBounded t
  listed : WakesListed s → WakesListed t

/-- What holds of the lists holds on, and the transmit list has not grown: only the frames that the part builds join it
(R180, R202). -/
structure ListsKept (s t : State) : Prop extends ListsHold s t where
  noneBuilt : t.mgmt.txList.length ≤ s.mgmt.txList.length

/-- The lists, and the states of the lines that the wake list speaks of. -/
def State.listView (s : State) :=
  (s.mgmt.controlQ, s.mgmt.txList, s.counts.notices, s.seq.queue, s.seq.log, s.power.wakeList,
    fun n => (s.line n).st)

section
variable {s t u : State}

/-! ## Composing -/

theorem ListsHold.trans (h : ListsHold s t) (k : ListsHold t u) : ListsHold s u :=
  ⟨k.bounded ∘ h.bounded, k.listed ∘ h.listed⟩

theorem ListsKept.refl (s : State) : ListsKept s s := ⟨⟨id, id⟩, le_rfl⟩

theorem ListsKept.trans (h : ListsKept s t) (k : ListsKept t u) : ListsKept s u :=
  ⟨h.toListsHold.trans k.toListsHold, k.noneBuilt.trans h.noneBuilt⟩

theorem ListsKept.ite {p : Prop} [Decidable p] {a b : State} (ha : ListsKept s a) (hb : ListsKept s b) :
    ListsKept s (if p then a else b) := by
  split
  · exact ha
  · exact hb

/-- An operation that leaves the lists and the states of the lines. -/
theorem ListsKept.aside (h : ListsKept s t) (hk : u.listView = t.listView) : ListsKept s u := by
  simp only [State.listView, Prod.mk.injEq] at hk
  obtain ⟨hcontrol, htx, hnotices, hqueue, hlog, hwakes, hst⟩ := hk
  refine ⟨⟨fun hs => ?_, fun hs => (h.listed hs).sublist (fun w _ => congrFun hst w.line) (by rw [hwakes])⟩,
    by rw [htx]; exact h.noneBuilt⟩
  simpa only [ListsBounded, hcontrol, htx, hnotices, hqueue, hlog] using h.bounded hs


/-- The queue and the log written within their places. -/
theorem modSeq_lists (f : Seq → Seq) (hq : t.seq.queue.length ≤ Config.testPlaces → (f t.seq).queue.length ≤ Config.testPlaces)
    (hl : t.seq.log.length ≤ Config.logPlaces → (f t.seq).log.length ≤ Config.logPlaces) (h : ListsKept s t) :
    ListsKept s (t.modSeq f) :=
  h.trans ⟨⟨fun ⟨hc, htx, hn, hqueue, hlog⟩ => ⟨hc, htx, hn, hq hqueue, hl hlog⟩, id⟩, le_rfl⟩

/-- The notices written within their places. -/
theorem modCounts_lists (f : Counts → Counts)
    (hf : t.counts.notices.length ≤ Config.noticePlaces → (f t.counts).notices.length ≤ Config.noticePlaces)
    (h : ListsKept s t) : ListsKept s (t.modCounts f) :=
  h.trans ⟨⟨fun ⟨hc, htx, hn, hq⟩ => ⟨hc, htx, hf hn, hq⟩, id⟩, le_rfl⟩

/-- The control queue written within its places, and entries taken off the transmit list. -/
theorem modMgmt_lists (f : Mgmt → Mgmt)
    (hc : t.mgmt.controlQ.length ≤ Config.controlPlaces → (f t.mgmt).controlQ.length ≤ Config.controlPlaces)
    (ht : (f t.mgmt).txList.length ≤ t.mgmt.txList.length)
    (h : ListsKept s t) : ListsKept s (t.modMgmt f) :=
  h.trans ⟨⟨fun ⟨hcontrol, htx, hrest⟩ => ⟨hc hcontrol, ht.trans htx, hrest⟩, id⟩, ht⟩

/-- Entries taken off the wake list. -/
theorem modWakes_lists (f : Power → Power) (hf : (f t.power).wakeList.Sublist t.power.wakeList) (h : ListsKept s t) :
    ListsKept s (t.modPower f) :=
  h.trans ⟨⟨id, fun hw => hw.sublist (fun _ _ => rfl) hf⟩, le_rfl⟩

/-- Lines written, but for their states. -/
theorem lines_lists (hl : ∀ n, (u.line n).st = (t.line n).st) (hk : { u with lines := t.lines } = t)
    (h : ListsKept s t) : ListsKept s u := by
  have hview : u.listView = ({ u with lines := t.lines } : State).listView := by
    simp only [State.listView, Prod.mk.injEq, true_and]
    exact funext hl
  exact h.aside (hview.trans (congrArg State.listView hk))

theorem modLine_lists (n : LineNo) (f : Line → Line) (hf : ∀ l, (f l).st = l.st) (h : ListsKept s t) :
    ListsKept s (t.modLine n f) := by
  refine lines_lists (fun m => ?_) rfl h
  by_cases hm : m = n
  · rw [hm, State.modLine_line_self]
    exact hf _
  · rw [State.modLine_line_other _ _ hm]

/-! ## Counters, events and the cell pool -/

theorem countDev_lists (c : DevCount) (h : ListsKept s t) : ListsKept s (countDev c t) := h.aside rfl

theorem countDeviceDrop_lists (c : LineCause) (h : ListsKept s t) : ListsKept s (countDeviceDrop c t) := h.aside rfl

theorem countFor_lists (n : LineNo) (f : CounterSet → CounterSet) (h : ListsKept s t) : ListsKept s (countFor n f t) := by
  unfold countFor
  dsimp only
  split <;> exact h.aside rfl

theorem countDrop_lists (n : LineNo) (c : LineCause) (h : ListsKept s t) : ListsKept s (countDrop n c t) :=
  countFor_lists n _ h

theorem offerNotice_lists (x : Option LineNo) (d : Detail) (h : ListsKept s t) : ListsKept s (offerNotice x d t) := by
  refine h.trans ⟨⟨fun ⟨hc, htx, hn, hq⟩ => ?_, fun hw => hw.congr (fun m => ?_) (by simp)⟩, by simp⟩
  · exact ⟨by simpa using hc, by simpa using htx, offerNotice_bounded t x d hn, by simpa using hq⟩
  · rw [State.line_of_lines (offerNotice_lines _ _ _)]

theorem raise_lists (x : Option LineNo) (d : Detail) (h : ListsKept s t) : ListsKept s (raise x d t) := by
  have hf : ListsKept s (t.modCounts fun k => { k with flags := k.flags.set d.kind.idx true }) := h.aside rfl
  exact .ite (offerNotice_lists x d hf) hf

theorem setFree_lists (k : Nat) (h : ListsKept s t) : ListsKept s (setFree k t) := by
  have hp : ∀ f, ListsKept s (t.modPool f) := fun _ => h.aside rfl
  have hpp : ∀ f g, ListsKept s ((t.modPool f).modPool g) := fun _ _ => h.aside rfl
  exact .ite (.ite (raise_lists _ _ (hpp _ _)) (hp _)) (.ite (hpp _ _) (hp _))

theorem makeRecord_lists (r : FrameRec) (h : ListsKept s t) : ListsKept s (makeRecord r t) :=
  setFree_lists _ (h.aside rfl)

theorem dropRef_lists (id : Nat) (h : ListsKept s t) : ListsKept s (dropRef id t) := by
  have hp : ∀ f, ListsKept s (t.modPool f) := fun _ => h.aside rfl
  unfold dropRef
  split
  · exact h
  · exact .ite (setFree_lists _ (hp _)) (hp _)

theorem dropRefs_lists (ids : List Nat) (h : ListsKept s t) : ListsKept s (ids.foldl (fun u id => dropRef id u) t) :=
  foldl_holds (ListsKept s) _ (fun _ id hu => dropRef_lists id hu) ids t h

theorem dropAll_lists (n : LineNo) (c : LineCause) (ids : List Nat) (h : ListsKept s t) :
    ListsKept s (dropAll n c ids t) :=
  foldl_holds (ListsKept s) _ (fun _ id hu => countDrop_lists n c (dropRef_lists id hu)) ids t h

theorem refreshIdle_lists (n : LineNo) (h : ListsKept s t) : ListsKept s (refreshIdle n t) :=
  modLine_lists n _ (fun _ => rfl) h

theorem flush_lists (n : LineNo) (x : Flush) (h : ListsKept s t) : ListsKept s (flush n x t) :=
  dropAll_lists n _ _ (modLine_lists n _ (fun _ => rfl) h)

theorem recompute_lists (h : ListsKept s t) : ListsKept s (recompute t) := by
  refine h.aside ?_
  simp only [State.listView, recompute_mgmt, recompute_counts, recompute_seq, recompute_power, Prod.mk.injEq, true_and]
  exact funext fun n => apart_st (recompute_apart t n)

theorem recomputeIf_lists (n : LineNo) (before : Line) (h : ListsKept s t) : ListsKept s (recomputeIf n before t) :=
  .ite (recompute_lists h) h

/-! ## Entering a state -/

theorem lineStateEvent_lists (n : LineNo) (old new : LineState) (r : Reason) (h : ListsKept s t) :
    ListsKept s (lineStateEvent n old new r t) := .ite (raise_lists _ _ h) h

/-- The part of an entry that lies in the line and the Station Table leaves the lists; the flush before it and the event
after it offer notices alone. -/
theorem enterCore_bounded (n : LineNo) (new : LineState) (r : Reason) (hs : ListsBounded s) :
    ListsBounded (enterCore n new r s) := by
  unfold enterCore
  dsimp only
  split
  · exact hs
  · have hflush := (flush_lists n (entryFlush (s.line n).st new r) (.refl s)).bounded hs
    have hwake : ListsBounded (if asleepState (s.line n).st = true then
        removeWake n (flush n (entryFlush (s.line n).st new r) s) else flush n (entryFlush (s.line n).st new r) s) := by
      split <;> exact hflush
    refine (lineStateEvent_lists n _ new r (refreshIdle_lists n (.refl _))).bounded ?_
    split <;> exact hwake

/-- A line that enters a state leaves the wake list, and the other lines stay asleep or not (R169). -/
theorem enterCore_listed (n : LineNo) (new : LineState) (r : Reason) (hw : WakesListed s) :
    WakesListed (enterCore n new r s) := by
  by_cases heq : (s.line n).st = new
  · rwa [enterCore_of_eq n new r s heq]
  · have hpower := enterCore_wakes (r := r) hw heq
    refine hw.sublist (fun w hwm => ?_) (by rw [hpower]; exact List.filter_sublist)
    rw [hpower, List.mem_filter] at hwm
    rw [enterCore_line_other n new r s (by simpa using hwm.2)]

theorem enterCore_lists (n : LineNo) (new : LineState) (r : Reason) (h : ListsKept s t) :
    ListsKept s (enterCore n new r t) := h.trans ⟨⟨enterCore_bounded n new r, enterCore_listed n new r⟩, by simp⟩

/-! ## Wakes -/

theorem grantOne_lists (e : WakeEntry) (h : ListsKept s t) : ListsKept s (grantOne e t) := by
  have hd : ListsKept s (t.modPower fun p => { p with wakeList := p.wakeList.drop 1 }) :=
    modWakes_lists _ (List.drop_sublist _ _) h
  exact .ite (recomputeIf_lists _ _ (enterCore_lists _ _ _ hd)) hd

theorem grants_lists (k : Nat) (h : ListsKept s t) : ListsKept s (grants k t) := by
  induction k generalizing t with
  | zero => exact h
  | succ k ih =>
    unfold grants
    split
    · exact h
    · exact .ite (ih (grantOne_lists _ h)) h

theorem grantAll_lists (h : ListsKept s t) : ListsKept s (grantAll t) := grants_lists _ h

/-- A line that asks for a wake is asleep, and is listed once (R168). -/
theorem wakeRequest_lists (n : LineNo) (c : WakeCause) (hn : asleepState (t.line n).st = true) (h : ListsKept s t) :
    ListsKept s (wakeRequest n c t) := by
  unfold wakeRequest
  split
  · exact h
  next hfree =>
    refine grantAll_lists (h.trans ⟨⟨id, fun ⟨hasleep, hnd⟩ => ⟨fun w hw => ?_, ?_⟩⟩, le_rfl⟩)
    · rcases List.mem_append.mp hw with hw | hw
      · exact hasleep w hw
      · rw [List.mem_singleton.mp hw]
        exact hn
    · have hnew : ∀ w ∈ t.power.wakeList, w.line ≠ n := by simpa using hfree
      simpa [List.nodup_append] using ⟨hnd, hnew⟩

theorem enter_lists (n : LineNo) (new : LineState) (r : Reason) (h : ListsKept s t) : ListsKept s (enter n new r t) := by
  have hc := recomputeIf_lists n (t.line n) (enterCore_lists n new r h)
  exact .ite (grantAll_lists hc) hc

theorem rederiveQuiet_lists (n : LineNo) (h : ListsKept s t) : ListsKept s (rederiveQuiet n t) :=
  .ite (enter_lists n _ _ h) h

theorem rederiveAll_lists (h : ListsKept s t) : ListsKept s (rederiveAll t) :=
  foldl_holds (ListsKept s) _ (fun _ n hu => rederiveQuiet_lists n hu) _ t h

theorem rederiveDormant_lists (n : LineNo) (h : ListsKept s t) : ListsKept s (rederiveDormant n t) := by
  unfold rederiveDormant
  dsimp only
  split
  · exact .ite (enter_lists n _ _ h) h
  · exact h

theorem takeLine_lists (n : LineNo) (h : ListsKept s t) : ListsKept s (takeLine n t) := by
  unfold takeLine
  dsimp only
  split
  · exact enter_lists n _ _ (modLine_lists n _ (fun _ => rfl) h)
  · exact h

theorem returnLine_lists (n : LineNo) (g : Option Grade) (h : ListsKept s t) : ListsKept s (returnLine n g t) := by
  unfold returnLine
  dsimp only
  split
  · exact enter_lists n _ _ h
  · exact enter_lists n _ _ h
  · exact .ite (enter_lists n _ _ h) h
  · exact h

theorem takeRates_lists (n : LineNo) (down up : Nat) (h : ListsKept s t) : ListsKept s (takeRates n down up t) :=
  recomputeIf_lists n _ (modLine_lists n _ (fun _ => rfl) h)

/-! ## Steps of a test -/

/-- A record takes a place that is free, or that of the oldest (R142). -/
theorem writeRecord_lists (r : TestRecord) (h : ListsKept s t) : ListsKept s (writeRecord r t) := by
  have hplaces : 0 < Config.logPlaces := by decide
  unfold writeRecord
  dsimp only
  by_cases hfull : Config.logPlaces ≤ t.seq.log.length
  · simp only [hfull, decide_true, if_true]
    refine modSeq_lists _ id (fun hlog => ?_) (countDev_lists _ h)
    simp only [List.length_append, List.length_drop, List.length_singleton]
    omega
  · simp only [hfull, decide_false, Bool.false_eq_true, if_false]
    refine modSeq_lists _ id (fun _ => ?_) h
    simp only [List.length_append, List.length_singleton]
    omega

theorem writeGrade_lists (n : LineNo) (g : Grade) (h : ListsKept s t) : ListsKept s (writeGrade n g t) := by
  have hl : ListsKept s (t.modLine n fun l => { l with grade := g }) := modLine_lists n _ (fun _ => rfl) h
  exact .ite (recompute_lists hl) hl

theorem closeActivity_lists (o : Outcome) (askReturn : Bool) (h : ListsKept s t) :
    ListsKept s (closeActivity o askReturn t) := by
  unfold closeActivity
  split
  · exact h
  next a _ =>
    have hgraded : ∀ (g : Grade) (k : Nat) {u : State}, ListsKept s u → ListsKept s (if o = .completed then
        (writeGrade a.line g u).modLine a.line (fun l => { l with lastTest := some k }) else u) := fun g _ _ hu =>
      .ite (modLine_lists _ _ (fun _ => rfl) (writeGrade_lists _ g hu)) hu
    have hreturned : ∀ (g : Option Grade) {u : State}, ListsKept s u →
        ListsKept s (if askReturn = true then returnLine a.line g u else u) := fun g _ hu =>
      .ite (returnLine_lists _ g hu) hu
    exact (raise_lists _ _ (hreturned _ (hgraded _ _ (writeRecord_lists _ h)))).aside rfl

theorem releaseStep_lists (h : ListsKept s t) : ListsKept s (releaseStep t) := h.aside rfl

theorem connectStep_lists (n : LineNo) (h : ListsKept s t) : ListsKept s (connectStep n t) := h.aside rfl

theorem startStep_lists (h : ListsKept s t) : ListsKept s (startStep t) := by
  rcases startStep_cases t with he | ⟨x, n, -, he⟩
  · rw [he]
    exact h
  · rw [he]
    exact .ite (h.aside rfl) (h.aside rfl)

theorem nextStep_lists (h : ListsKept s t) : ListsKept s (nextStep t) := .ite (startStep_lists h) (releaseStep_lists h)

theorem suspendSeq_lists (h : ListsKept s t) : ListsKept s (suspendSeq t) := by
  have hr := raise_lists t.lineUnderTest (.external true) h
  exact .ite (hr.aside rfl) (hr.aside rfl)

theorem boundary_lists (k : State → State) (hk : ListsKept s (k t)) (h : ListsKept s t) : ListsKept s (boundary k t) :=
  .ite (suspendSeq_lists h) hk

theorem resultStep_lists (r : Result) (h : ListsKept s t) : ListsKept s (resultStep r t) := by
  have hm : ListsKept s (modAct (appendResult r) t) := h.aside rfl
  exact .ite (hm.aside rfl) (boundary_lists _ (nextStep_lists hm) hm)

theorem heldReport_lists (h : ListsKept s t) : ListsKept s (heldReport t) := by
  unfold heldReport
  split
  · exact h
  · exact .ite (.ite (connectStep_lists _ h) (boundary_lists _ (connectStep_lists _ h) h)) h

theorem drainReport_lists (n : LineNo) (h : ListsKept s t) : ListsKept s (drainReport n t) :=
  .ite (heldReport_lists (enter_lists n _ _ h)) h

theorem askForLine_lists (n : LineNo) (h : ListsKept s t) : ListsKept s (askForLine n t) :=
  .ite (heldReport_lists (takeLine_lists n h)) (drainReport_lists n (takeLine_lists n h))

theorem stopStep_lists (h : ListsKept s t) : ListsKept s (stopStep t) := by
  unfold stopStep
  split
  · exact h
  · exact h.aside rfl
  · exact .ite (h.aside rfl) (releaseStep_lists (h.aside rfl))

/-! ## The test queue -/

theorem setDue_lists (g : Fin 4) (n : LineNo) (b : Bool) (h : ListsKept s t) : ListsKept s (setDue g n b t) := h.aside rfl

/-- A ROUTINE request joins the queue where a place is free (R133). -/
theorem offerRoutine_lists (g : Fin 4) (n : LineNo) (h : ListsKept s t) : ListsKept s (offerRoutine g n t) := by
  unfold offerRoutine
  dsimp only
  split
  · exact setDue_lists g n _ h
  · split
    · exact .ite h (h.aside rfl)
    next hroom =>
      refine setDue_lists g n _ (modSeq_lists _ (fun _ => ?_) id h)
      simp only [List.length_append, List.length_singleton]
      omega

theorem offerDue_lists (g : Fin 4) (n : LineNo) (h : ListsKept s t) : ListsKept s (offerDue g n t) :=
  .ite (.ite (offerRoutine_lists g n h) (setDue_lists g n _ h)) h

theorem placeFreed_lists (h : ListsKept s t) : ListsKept s (placeFreed t) :=
  foldl_holds (ListsKept s) _ (fun u g hu => foldl_holds (ListsKept s) _ (fun _ n hv => offerDue_lists g n hv) _ u hu) _ t h

/-- Requests taken off the queue. -/
theorem filterQueue_lists (p : TestRequest → Bool) (f : Seq → Seq) (hq : (f t.seq).queue = t.seq.queue.filter p)
    (hl : (f t.seq).log = t.seq.log) (h : ListsKept s t) : ListsKept s (t.modSeq f) :=
  modSeq_lists f (fun hle => by rw [hq]; exact (List.length_filter_le _ _).trans hle) (fun hle => by rwa [hl]) h

theorem length_filter_ne_lt {α : Type} [DecidableEq α] {a : α} {l : List α} (h : a ∈ l) :
    (l.filter fun x => x != a).length < l.length :=
  List.length_filter_lt_length_iff_exists.mpr ⟨a, h, by simp⟩

/-- A request deferred takes up the place that it leaves (R137). -/
theorem deferRequest_lists {r : TestRequest} (hr : r ∈ t.seq.queue) (h : ListsKept s t) :
    ListsKept s (deferRequest r t) := by
  have hdrop : ListsKept s (t.modSeq fun q => { q with queue := q.queue.filter fun x => x != r }) :=
    filterQueue_lists _ _ rfl rfl h
  have hlt := length_filter_ne_lt hr
  unfold deferRequest
  split
  · exact h
  · refine .ite (placeFreed_lists (raise_lists _ _ (writeRecord_lists _ hdrop))) ?_
    refine modSeq_lists (t := t) (fun q => { q with queue := (q.queue.filter fun x => x != _) ++ [_] }) (fun hle => ?_) id h
    simp only [List.length_append, List.length_singleton]
    omega

theorem startRequest_lists (r : TestRequest) (h : ListsKept s t) : ListsKept s (startRequest r t) := by
  unfold startRequest
  exact askForLine_lists _ (placeFreed_lists (filterQueue_lists _ _ rfl rfl h))

theorem selectWalk_lists (k : Nat) (h : ListsKept s t) : ListsKept s (selectWalk k t) := by
  induction k generalizing t with
  | zero => exact h
  | succ k ih =>
    unfold selectWalk
    split
    · exact h
    next hr => exact .ite (ih (deferRequest_lists (List.mem_of_find?_eq_some hr) h)) (startRequest_lists _ h)

theorem idleStep_lists (h : ListsKept s t) : ListsKept s (idleStep t) :=
  .ite (boundary_lists _ (selectWalk_lists _ h) h) h

theorem joining_lists (offer : State → State) (ho : ListsKept s (offer t)) : ListsKept s (joining offer t) :=
  .ite (idleStep_lists ho) ho

theorem placesFreed_lists (h : ListsKept s t) : ListsKept s (placesFreed t) :=
  idleStep_lists (foldl_holds (ListsKept s) _ (fun u g hu => foldl_holds (ListsKept s) _
    (fun _ n hv => joining_lists _ (offerDue_lists g n hv)) _ u hu) _ t h)

theorem enterIdle_lists (h : ListsKept s t) : ListsKept s (enterIdle t) := idleStep_lists (h.aside rfl)

/-! ## Ends and aborts -/

theorem afterExternal_lists (h : ListsKept s t) : ListsKept s (afterExternal t) :=
  .ite (h.aside rfl) (enterIdle_lists h)

theorem releasedReport_lists (h : ListsKept s t) : ListsKept s (releasedReport t) := by
  unfold releasedReport
  split
  · exact enterIdle_lists h
  · exact .ite (afterExternal_lists (closeActivity_lists _ _ h)) (enterIdle_lists (closeActivity_lists _ _ h))

theorem abortTestNow_lists (o : Outcome) (h : ListsKept s t) : ListsKept s (abortTestNow o t) := by
  have hp : ListsKept s (setPending o t) := h.aside rfl
  unfold abortTestNow
  split
  · exact enterIdle_lists (closeActivity_lists _ _ h)
  · exact releaseStep_lists hp
  · exact stopStep_lists hp
  · exact stopStep_lists hp
  · exact closeActivity_lists _ _ h
  all_goals exact h

theorem shedReport_lists (n : LineNo) (h : ListsKept s t) : ListsKept s (shedReport n t) := by
  have hc := closeActivity_lists .abortedPower false h
  unfold shedReport
  split
  · exact h
  · exact .ite (.ite (hc.aside rfl) (hc.aside rfl)) h

theorem endExternal_lists (h : ListsKept s t) : ListsKept s (endExternal t) := by
  unfold endExternal
  split
  · exact afterExternal_lists (closeActivity_lists _ _ h)
  · exact releaseStep_lists h
  · exact releaseStep_lists h
  · exact h

theorem restrainTest_lists (p : PowerState) (h : ListsKept s t) : ListsKept s (restrainTest p t) := by
  unfold restrainTest
  split
  · exact h
  · refine .ite h ?_
    split
    · exact h
    · exact h
    · exact .ite h (abortTestNow_lists _ h)
    · exact abortTestNow_lists _ h

theorem tripGuard_lists (n : LineNo) (h : ListsKept s t) : ListsKept s (tripGuard n t) := by
  have hg : ListsKept s (guardLatched n t) := (raise_lists (some n) _ h).aside rfl
  rw [tripGuard_eq]
  split
  · exact .ite (resultStep_lists _ (hg.aside rfl)) hg
  · exact hg

theorem guardCheck_lists (h : ListsKept s t) : ListsKept s (guardCheck t) := by
  unfold guardCheck
  split
  · exact .ite (tripGuard_lists _ h) h
  · exact h

/-! ## Cabinet power -/

theorem shedLine_lists (n : LineNo) (h : ListsKept s t) : ListsKept s (shedLine n t) :=
  .ite (.ite (shedReport_lists n (enterCore_lists n _ _ h)) (enterCore_lists n _ _ h)) h

theorem shedToBudget_lists (h : ListsKept s t) : ListsKept s (shedToBudget t) := by
  have hf := foldl_holds (ListsKept s) (fun u n => shedLine n u) (fun _ n hu => shedLine_lists n hu) (shedLines t) t h
  exact .ite (recompute_lists hf) hf

/-- A pruning takes entries off the wake list, and may offer notices as it flushes (R172). -/
theorem prune_lists (h : ListsKept s t) : ListsKept s (prune t) :=
  h.trans ⟨⟨fun hb => foldl_holds ListsBounded _
    (fun _ _ hu => (refreshIdle_lists _ (flush_lists _ _ (.refl _))).bounded hu) _ _ hb, prune_listed⟩, by simp⟩

theorem changePower_lists (l p : PowerState) (c : PowerCause) (h : ListsKept s t) : ListsKept s (changePower l p c t) := by
  have hset : ListsKept s (setPowerState p t) := h.aside rfl
  unfold changePower
  exact raise_lists _ _ (idleStep_lists (restrainTest_lists p (recompute_lists (rederiveAll_lists (grantAll_lists
    (prune_lists (shedToBudget_lists hset)))))))

end

end Sys2Proof.Machine
end

