-- ==== Sys2Proof/Proofs/ListSteps.lean ====
section
/-! PROOF. The places of the lists and the wake list across every step (O59): the frame path, the resets and the commands go
through the operations of Proofs/Lists.lean, and a frame that the part builds takes a place of the transmit list that
is free. -/

namespace Sys2Proof.Machine

section
variable {s t u : State}

/-! ## Resets and the start-up -/

/-- With no request queued and no record written every list is empty, and a reset lists no wake (R169). -/
theorem coldState_lists (s : State) : ListsKept s (coldState s) := by
  refine ⟨⟨fun _ => ?_, fun _ => ⟨fun _ hw => (List.not_mem_nil hw).elim, List.nodup_nil⟩⟩, Nat.zero_le _⟩
  exact ⟨Nat.zero_le _, Nat.zero_le _, Nat.zero_le _, Nat.zero_le _, Nat.zero_le _⟩

/-- A warm reset keeps the log and empties the other lists (R142). -/
theorem warmReset_lists (f : ResetFlag) (s : State) : ListsKept s (warmReset f s) := by
  refine ⟨⟨fun ⟨_, _, _, _, hlog⟩ => ?_, fun _ => ⟨fun _ hw => (List.not_mem_nil hw).elim, List.nodup_nil⟩⟩, Nat.zero_le _⟩
  exact ⟨Nat.zero_le _, Nat.zero_le _, Nat.zero_le _, Nat.zero_le _, hlog⟩

theorem setStation_lists (i : Fin 96) (e : Option Entry) (h : ListsKept s t) : ListsKept s (setStation i e t) := h.aside rfl

theorem loadStation_lists (e : ImageEntry) (h : ListsKept s t) : ListsKept s (loadStation e t) := by
  unfold loadStation
  split
  · exact .ite h (setStation_lists _ _ h)
  · exact h

/-- The image holds settings and STATIC entries, and none of the lists (R188). -/
theorem loadImage_lists (b : ImageBody) (h : ListsKept s t) : ListsKept s (loadImage b t) := by
  have hst := foldl_holds (ListsKept s) (fun u e => loadStation e u) (fun _ e hu => loadStation_lists e hu) b.stations t h
  refine hst.aside ?_
  simp [State.listView, loadImage, State.line]

theorem warmLoad_lists (h : ListsKept s t) : ListsKept s (warmLoad t) := by
  have hm : ∀ c, ListsKept s (t.modMgmt fun m => { m with imageCheck := c }) := fun _ => h.aside rfl
  exact .ite ((loadImage_lists _ h).aside rfl) (raise_lists _ _ (hm _))

theorem settleMarker_lists (h : ListsKept s t) : ListsKept s (settleMarker t) := by
  unfold settleMarker
  split
  · exact h
  · exact (raise_lists _ _ (writeRecord_lists _ h)).aside rfl

theorem enableLines_lists (h : ListsKept s t) : ListsKept s (enableLines t) :=
  foldl_holds (ListsKept s) _ (fun _ n hu => .ite (enterCore_lists n _ _ hu) hu) _ t h

theorem runStartUp_lists (cold : Bool) (s : State) : ListsKept s (runStartUp cold s) := by
  have hid : ListsKept s (readIdentity s) := (ListsKept.refl s).aside (by simp [State.listView, readIdentity, State.line])
  have hload : ListsKept s (if cold = true then readIdentity s else warmLoad (readIdentity s)) :=
    .ite hid (warmLoad_lists hid)
  have hlines := enableLines_lists (settleMarker_lists hload)
  unfold runStartUp
  dsimp only
  generalize enableLines _ = u at hlines ⊢
  have hraised := raise_lists none (.resetCause u.counts.resetCause) hlines
  generalize raise none _ u = v at hraised ⊢
  exact hraised.aside rfl

theorem inService_lists (mv : Nat) (s : State) : ListsKept s (inService mv s) := by
  have hpower : ∀ p : PowerState,
      ListsKept s (setPowerState p (s.modPower fun x => { x with sample := some (mv, s.mgmt.time) })) := fun _ =>
    (ListsKept.refl s).aside rfl
  have hrecomputed := recompute_lists (hpower (if s.power.mainsOk then .mains else batteryChoice s.power mv))
  unfold inService
  dsimp only
  generalize recompute _ = u at hrecomputed ⊢
  exact hrecomputed.aside rfl

theorem completeStartUp_lists (mv : Nat) (s : State) : ListsKept s (completeStartUp mv s) := by
  rw [completeStartUp_eq]
  exact enterIdle_lists (inService_lists mv s)

theorem discardUplink_lists (h : ListsKept s t) : ListsKept s (discardUplink t) := by
  unfold discardUplink
  split
  · exact h
  next x _ =>
    have hc : ListsKept s (if t.isPart x.recId then t else countDev .transmitAborted t) := .ite h (countDev_lists _ h)
    exact dropRef_lists _ (hc.aside (t := if t.isPart x.recId then t else countDev .transmitAborted t)
      (u := State.modSched _ _) rfl)

theorem discardManagement_lists (h : ListsKept s t) : ListsKept s (discardManagement t) := by
  have hcraft : ListsKept s (t.modSched fun c => { c with craftTx := none }) := h.aside rfl
  exact dropRefs_lists _ (modMgmt_lists (fun m => { m with txList := [] }) id (Nat.zero_le _) hcraft)

theorem releaseAll_lists (h : ListsKept s t) : ListsKept s (releaseAll t) := by
  have hflushed : ListsKept s (flushLines t) :=
    foldl_holds (ListsKept s) _ (fun _ n hu => flush_lists n wholeFlush hu) (indexes 24) t h
  have hdiscarded := discardManagement_lists (discardUplink_lists hflushed)
  rw [releaseAll_eq]
  generalize discardManagement (discardUplink (flushLines t)) = u at hdiscarded ⊢
  exact hdiscarded.aside rfl

theorem linesDown_lists (h : ListsKept s t) : ListsKept s (linesDown t) := by
  unfold linesDown
  exact foldl_holds (ListsKept s) trafficDown (fun _ n hu => .ite hu (enterCore_lists n _ _ hu)) (indexes 24) t h

theorem trafficLines_lists (h : ListsKept s t) : ListsKept s (trafficLines t) := by
  rw [trafficLines_eq]
  exact lines_lists (fun n => by simp [State.line, Line.trafficCleared]) rfl (linesDown_lists h)

theorem trafficTests_lists (h : ListsKept s t) : ListsKept s (trafficTests t) := by
  have hclosed := closeActivity_lists .abortedReset false h
  have hq : ListsKept s ((closeActivity .abortedReset false t).modSeq fun q => { q with
      st := .idle, suspended := false, extack := false, queue := [], suspendTimer := none
      groups := q.groups.map fun g => { g with due := .fill 24 false } }) :=
    modSeq_lists _ (fun _ => Nat.zero_le _) id hclosed
  exact hq.aside rfl

theorem trafficEmptied_lists (s : State) : ListsKept s (trafficEmptied s) := by
  have hreleased := releaseAll_lists (.refl s)
  unfold trafficEmptied
  generalize releaseAll s = u at hreleased ⊢
  have hdropped : ListsKept s (dropStations Entry.isLearned u) := hreleased.aside rfl
  exact modWakes_lists _ (List.nil_sublist _) hdropped

theorem doTrafficReset_lists (s : State) : ListsKept s (doTrafficReset s) := by
  have hstopped : ListsKept s (trafficStopped s) := trafficTests_lists (trafficLines_lists (trafficEmptied_lists s))
  have hflagged : ListsKept s (trafficFlagged s) := by
    unfold trafficFlagged
    generalize trafficStopped s = u at hstopped ⊢
    have hrecomputed : ListsKept s (recompute (u.modSched Sched.atRest)) := recompute_lists (hstopped.aside rfl)
    exact hrecomputed.aside rfl
  rw [doTrafficReset_eq]
  exact idleStep_lists hflagged

/-! ## The frame path -/

theorem pushQueue_lists (n : LineNo) (k : QueueKind) (id : Nat) (h : ListsKept s t) : ListsKept s (pushQueue n k id t) :=
  refreshIdle_lists n (modLine_lists n _ (fun _ => by cases k <;> rfl) h)

theorem queueFrame_lists (n : LineNo) (k : QueueKind) (c d : LineCause) (r : FrameRec) (h : ListsKept s t) :
    ListsKept s (queueFrame n k c d r t) :=
  .ite (countDrop_lists n _ h) (.ite (countDrop_lists n _ h) (pushQueue_lists n k _ (makeRecord_lists r h)))

/-- A frame admitted or dropped moves no line. -/
theorem queueFrame_st (n : LineNo) (k : QueueKind) (c d : LineCause) (r : FrameRec) (s : State) (m : LineNo) :
    ((queueFrame n k c d r s).line m).st = (s.line m).st := by
  unfold queueFrame
  split
  · rw [State.line_of_lines (countDrop_lines _ _ _)]
  · split
    · rw [State.line_of_lines (countDrop_lines _ _ _)]
    · rw [(Line.figures_eq ((pushQueue_figuresKept n k _ _).lines m)).1, makeRecord_line]

theorem toWakeStore_lists (n : LineNo) (f : List Byte) (hn : asleepState (t.line n).st = true) (h : ListsKept s t) :
    ListsKept s (toWakeStore n f t) := by
  refine .ite (countDrop_lists n _ h) (.ite (countDrop_lists n _ h) (.ite (countDrop_lists n _ h) ?_))
  refine wakeRequest_lists n _ ?_ (modLine_lists n _ (fun _ => rfl) (makeRecord_lists _ h))
  rw [State.modLine_line_self, makeRecord_line]
  exact hn

theorem decideUnicast_lists (n : LineNo) (f : List Byte) (h : ListsKept s t) : ListsKept s (decideUnicast n f t) := by
  have hq := queueFrame_lists n .down .downPoolFull .downQueueFull (downRecord f 1) h
  unfold decideUnicast
  dsimp only
  split
  · exact hq
  next hst => exact .ite (wakeRequest_lists n _ (by rw [queueFrame_st, hst]; rfl) hq) hq
  next hst => exact toWakeStore_lists n f (by rw [hst]; rfl) h
  all_goals exact countDrop_lists n _ h

theorem replicate_lists (f : List Byte) (h : ListsKept s t) : ListsKept s (replicate f t) := by
  have hno : ∀ ns : List LineNo, ListsKept s (ns.foldl (fun u n => countDrop n .downQueueFull u) t) := fun ns =>
    foldl_holds (ListsKept s) _ (fun _ n hu => countDrop_lists n _ hu) ns t h
  exact .ite (countDev_lists _ h) (.ite (countDeviceDrop_lists _ h) (.ite (hno _) (foldl_holds (ListsKept s) _
    (fun _ n hu => pushQueue_lists n _ _ hu) _ _ (makeRecord_lists _ (hno _)))))

theorem sortDownstream_lists (f : List Byte) (h : ListsKept s t) : ListsKept s (sortDownstream f t) := by
  refine .ite (countDev_lists _ h) (.ite (countDev_lists _ h) (.ite (replicate_lists f h) ?_))
  unfold unicast
  split
  · exact countDev_lists _ h
  · exact .ite (decideUnicast_lists _ f h) (countDev_lists _ h)

theorem takeAdvisory_lists (v : Nat) (h : ListsKept s t) : ListsKept s (takeAdvisory v t) := by
  have hadv : ∀ f, ListsKept s ((countDev .advisories t).modShares f) := fun _ => h.aside rfl
  have hrestored : ∀ f (b : Bool), ListsKept s (if b = true then
      raise none (.advisoryRestored (storedFigure v)) ((countDev .advisories t).modShares f)
      else (countDev .advisories t).modShares f) := fun f _ => .ite (raise_lists _ _ (hadv f)) (hadv f)
  unfold takeAdvisory
  exact recompute_lists ((hrestored _ _).aside rfl)

theorem takePause_lists (m : Byte) (d : Nat) (h : ListsKept s t) : ListsKept s (takePause m d t) := h.aside rfl

/-- A control frame joins the control queue where a place is free (R177). -/
theorem queueControl_lists (p : Port) (f : List Byte) (h : ListsKept s t) : ListsKept s (queueControl p f t) := by
  unfold queueControl
  split
  next hroom =>
    refine modMgmt_lists _ (fun _ => ?_) le_rfl h
    simp only [List.length_append, List.length_singleton]
    omega
  · exact countDev_lists _ h

theorem recogniseUplink_lists (f : List Byte) (h : ListsKept s t) : ListsKept s (recogniseUplink f t) := by
  refine .ite ?_ (.ite (.ite (countDev_lists _ h) (queueControl_lists _ f h)) (sortDownstream_lists f h))
  exact .ite (takeAdvisory_lists _ h) (.ite (takePause_lists _ _ h) (countDev_lists _ h))

theorem recogniseCraft_lists (b : Bool) (f : List Byte) (h : ListsKept s t) : ListsKept s (recogniseCraft b f t) :=
  .ite (countDev_lists _ h) (.ite (queueControl_lists _ f h) (countDev_lists _ h))

theorem sourceCheck_lists (n : LineNo) (a : Addr) (h : ListsKept s t) : ListsKept s (sourceCheck n a t).2 := by
  rcases sourceCheck_cases n a t with ⟨d, hd⟩ | ⟨c, es, hc⟩ | ⟨c, es, hc⟩
  · rw [hd]
    exact countDrop_lists n d h
  · rw [hc]
    exact h.aside rfl
  · rw [hc]
    exact h.aside rfl

theorem upstream_lists (n : LineNo) (f : List Byte) (h : ListsKept s t) : ListsKept s (upstream n f t) := by
  refine .ite (countDev_lists _ h) (.ite (countDev_lists _ h) ?_)
  split
  · exact countDrop_lists n _ h
  · have hc := sourceCheck_lists n (frameSrc f) h
    split
    next hs =>
      rw [hs] at hc
      exact queueFrame_lists n _ _ _ _ hc
    next hs =>
      rw [hs] at hc
      exact hc
  · exact countDrop_lists n _ h

theorem receive_lists (k : Nat) (f : List Byte) (pass : State → State) (hp : ListsKept s (pass t)) (h : ListsKept s t) :
    ListsKept s (receive k f pass t) := by
  unfold receive
  split
  · exact countDev_lists _ h
  · exact .ite hp (countDeviceDrop_lists _ h)

/-! ## The upstream side -/

theorem takeHead_lists (n : LineNo) (c : Cls) (b : Bool) (h : ListsKept s t) : ListsKept s (takeHead n c b t) := by
  unfold takeHead
  split
  · exact h
  next id rest _ =>
    have hline : ListsKept s (t.modLine n fun l => l.setQueue (.ofCls c) rest) :=
      modLine_lists n _ (fun _ => by cases c <;> rfl) h
    exact refreshIdle_lists n (hline.aside rfl)

theorem chargeHead_lists (n : LineNo) (c : Cls) (h : ListsKept s t) : ListsKept s (chargeHead n c t) := by
  unfold chargeHead
  split
  · exact h
  · exact modLine_lists n _ (fun _ => rfl) h

/-- An entry of the transmit list that a transmitter takes leaves the list (R70, R81). -/
theorem takeEntry_lists (e : TxEntry) (f : Sched → Sched) (h : ListsKept s t) :
    ListsKept s ((t.modMgmt fun m => { m with txList := m.txList.erase e }).modSched f) := by
  have herased : ListsKept s (t.modMgmt fun m => { m with txList := m.txList.erase e }) :=
    modMgmt_lists _ id List.length_erase_le h
  exact herased.aside rfl

theorem makeChoice_lists (h : ListsKept s t) : ListsKept s (makeChoice t) := by
  refine .ite ?_ h
  cases choose t with
  | none => exact h
  | some p =>
    cases p with
    | management e => exact takeEntry_lists e (fun x => { x with uplinkTx := some { recId := e.recId, spare := false } }) h
    | credited n c => exact (takeHead_lists n c false (chargeHead_lists n c h)).aside rfl
    | spare n c => exact (takeHead_lists n c true h).aside rfl

theorem dropCraftEntries_lists (h : ListsKept s t) : ListsKept s (dropCraftEntries t) :=
  dropRefs_lists _ (modMgmt_lists _ id (List.length_filter_le _ _) h)

theorem completeTransmission_lists (id : Nat) (b : Bool) (h : ListsKept s t) :
    ListsKept s (completeTransmission id b t) := by
  refine .ite (h.trans (warmReset_lists _ t)) ?_
  split
  · exact h
  · unfold countTransmission
    split
    · exact (countFor_lists _ _ (dropRef_lists id h)).aside rfl
    · exact dropRef_lists id h
    · exact dropRef_lists id h

/-- A transmission given up as its link is lost (R79, R81). -/
theorem transmitAborted_lists (id : Nat) (h : ListsKept s t) :
    ListsKept s (countDev .transmitAborted (dropRef id t)) := countDev_lists _ (dropRef_lists id h)

/-! ## Line events -/

theorem failTraining_lists (n : LineNo) (r : Reason) (h : ListsKept s t) : ListsKept s (failTraining n r t) :=
  enter_lists n _ _ (modLine_lists n _ (fun _ => rfl) h)

theorem takeActivity_lists (n : LineNo) (h : ListsKept s t) : ListsKept s (takeActivity n t) := by
  unfold takeActivity
  split
  next hst => exact wakeRequest_lists n _ (by rw [hst]; rfl) h
  next hst => exact .ite (wakeRequest_lists n _ (by rw [hst]; rfl) h) h
  · exact h

theorem takeLinkUp_lists (n : LineNo) (down up : Nat) (h : ListsKept s t) : ListsKept s (takeLinkUp n down up t) := by
  unfold takeLinkUp
  split
  · exact enter_lists n _ _ (modLine_lists n _ (fun _ => rfl) h)
  · exact takeRates_lists n _ _ h
  · exact takeRates_lists n _ _ h
  · exact takeRates_lists n _ _ h
  · exact h

theorem takeRatesReport_lists (n : LineNo) (down up : Nat) (h : ListsKept s t) :
    ListsKept s (takeRatesReport n down up t) := by
  unfold takeRatesReport
  split
  · exact takeRates_lists n _ _ h
  · exact takeRates_lists n _ _ h
  · exact takeRates_lists n _ _ h
  · exact h

theorem takeLinkDown_lists (n : LineNo) (h : ListsKept s t) : ListsKept s (takeLinkDown n t) := by
  unfold takeLinkDown
  split
  · exact failTraining_lists n _ h
  · exact enter_lists n _ _ h
  · exact enter_lists n _ _ h
  · exact heldReport_lists (enter_lists n _ _ h)
  · exact h

/-- A sense edge raises its event, and asks for a wake where the line is asleep (R103). -/
theorem takeSense_lists (n : LineNo) (b : Bool) (h : ListsKept s t) : ListsKept s (takeSense n b t) := by
  have hs : ListsKept s (senseSeen n b t) := raise_lists _ _ (modLine_lists n _ (fun _ => rfl) h)
  have hw : ∀ c, asleepState ((senseSeen n b t).line n).st = true → ListsKept s (wakeRequest n c (senseSeen n b t)) :=
    fun c ha => wakeRequest_lists n c ha hs
  have hwake : ListsKept s (match ((senseSeen n b t).line n).st with
      | .down => wakeRequest n .start (senseSeen n b t)
      | .quiet | .dormant =>
        if (currentPolicy (senseSeen n b t)).wakeSense then wakeRequest n .sense (senseSeen n b t) else senseSeen n b t
      | _ => senseSeen n b t) := by
    split
    next hst => exact hw _ (by rw [hst]; rfl)
    next hst => exact .ite (hw _ (by rw [hst]; rfl)) hs
    next hst => exact .ite (hw _ (by rw [hst]; rfl)) hs
    · exact hs
  exact .ite hwake h

/-! ## Test events -/

theorem settledReport_lists (h : ListsKept s t) : ListsKept s (settledReport t) := by
  unfold settledReport
  split
  · exact h
  · exact .ite (.ite (h.aside rfl) (boundary_lists _ (nextStep_lists h) h)) h

theorem settleEnds_lists (h : ListsKept s t) : ListsKept s (settleEnds t) := by
  have ha : ∀ f, ListsKept s (t.modAccess f) := fun _ => h.aside rfl
  unfold settleEnds
  split
  · exact settledReport_lists (ha _)
  · exact .ite (releasedReport_lists (ha _)) (ha _)
  · exact h
  · exact h

theorem completeMeasurement_lists (r : Result) (h : ListsKept s t) : ListsKept s (completeMeasurement r t) :=
  resultStep_lists r (h.aside rfl)

theorem windowEnds_lists (xs : List Sample) (h : ListsKept s t) : ListsKept s (windowEnds xs t) := by
  unfold windowEnds
  split
  · exact h
  · split
    · exact h
    · exact .ite (completeMeasurement_lists _ h) h

theorem captureEnds_lists (k : Nat) (b : Bool) (h : ListsKept s t) : ListsKept s (captureEnds k b t) := by
  unfold captureEnds
  split
  · exact completeMeasurement_lists _ h
  · exact h

theorem toneEnds_lists (h : ListsKept s t) : ListsKept s (toneEnds t) := by
  unfold toneEnds
  split
  · exact completeMeasurement_lists _ h
  · exact h

theorem dischargeEnds_lists (h : ListsKept s t) : ListsKept s (dischargeEnds t) := by
  have hg : ∀ f, ListsKept s (guardCheck (t.modAccess f)) := fun _ => guardCheck_lists (h.aside rfl)
  exact .ite (.ite (releaseStep_lists (hg _)) (.ite (boundary_lists _ (nextStep_lists (hg _)) (hg _)) (hg _))) h

theorem resumeTest_lists (a : Activity) (h : ListsKept s t) : ListsKept s (resumeTest a t) := by
  have hq : ∀ f : Seq → Seq, (∀ q, (f q).queue = q.queue ∧ (f q).log = q.log) → ListsKept s (t.modSeq f) := fun f hf =>
    h.aside (by simp [State.listView, hf])
  have hresumed := hq (fun q => { q with suspended := false, suspendTimer := none }) fun _ => ⟨rfl, rfl⟩
  refine .ite ?_ (releaseStep_lists hresumed)
  split
  · exact hresumed.aside rfl
  · exact connectStep_lists _ hresumed

theorem reclaimBus_lists (h : ListsKept s t) : ListsKept s (reclaimBus t) := by
  have hr : ListsKept s (raise t.lineUnderTest (.external false) t) := raise_lists _ _ h
  have hq : ListsKept s ((raise t.lineUnderTest (.external false) t).modSeq fun q => { q with extack := false }) :=
    hr.aside rfl
  unfold reclaimBus
  dsimp only
  split
  · exact .ite (endExternal_lists hr) (resumeTest_lists _ hq)
  · split
    · exact releaseStep_lists hq
    · exact releaseStep_lists hq
    · exact enterIdle_lists hq
    · exact hq

theorem tickRequests_lists (g : Fin 4) (half : Bool) (h : ListsKept s t) : ListsKept s (tickRequests g half t) := by
  have hq : ListsKept s (t.modSeq fun q => { q with queue := q.queue.map (TestRequest.undefer g) }) :=
    modSeq_lists _ (fun hle => by rwa [List.length_map]) id h
  exact foldl_holds (ListsKept s) _ (fun _ n hu => joining_lists _ (offerRoutine_lists g n hu)) _ _
    (.ite (idleStep_lists hq) hq)

/-! ## Cabinet power -/

theorem takeSample_lists (mv : Nat) (h : ListsKept s t) : ListsKept s (takeSample mv t) := by
  have hp : ListsKept s (t.modPower fun p => { p with sample := some (mv, t.mgmt.time) }) := h.aside rfl
  unfold takeSample
  dsimp only
  split
  · exact hp
  · split
    · exact hp
    · exact changePower_lists _ _ _ hp

theorem loseMains_lists (h : ListsKept s t) : ListsKept s (loseMains t) := by
  have hp : ListsKept s (t.modPower fun p => { p with mainsOk := false }) := h.aside rfl
  unfold loseMains
  dsimp only
  split
  · exact hp
  · exact changePower_lists _ _ _ hp
  · exact hp.aside rfl

theorem gainMains_lists (h : ListsKept s t) : ListsKept s (gainMains t) := by
  unfold gainMains
  dsimp only
  split <;> exact h.aside rfl

theorem mainsStable_lists (h : ListsKept s t) : ListsKept s (mainsStable t) := by
  unfold mainsStable
  split
  · exact changePower_lists _ _ _ (h.aside rfl)
  · exact h

/-! ## Commands -/

theorem afterLineWrite_lists (n : LineNo) (f : LineFields) (old : LineConfig) (h : ListsKept s t) :
    ListsKept s (afterLineWrite n f old t) := by
  have hx : ListsKept s (sharesWritten old n t) := .ite (recompute_lists h) h
  have hq : ListsKept s (if f.quietDelay.isSome then rederiveQuiet n (sharesWritten old n t)
      else sharesWritten old n t) := .ite (rederiveQuiet_lists n hx) hx
  rw [afterLineWrite_eq]
  exact .ite (rederiveDormant_lists n hq) hq

theorem afterPolicyWrite_lists (b : Bool) (h : ListsKept s t) : ListsKept s (afterPolicyWrite b t) := by
  have hi : ListsKept s (idleStep (grantAll (shedToBudget t))) := idleStep_lists (grantAll_lists (shedToBudget_lists h))
  exact .ite (rederiveAll_lists hi) hi

/-- A request joins the DEMAND part where a place is free, or takes that of the line's ROUTINE request (R133). -/
theorem placeDemand_length {n : LineNo} {p : Fin 8} {v : Bool} (h : (placeDemand n p v s).1 = .accepted)
    (hq : s.seq.queue.length ≤ Config.testPlaces) : (placeDemand n p v s).2.length ≤ Config.testPlaces := by
  have hinsert : ∀ (r : TestRequest) (q : List TestRequest), (insertDemand r q).length = q.length + 1 := fun r q => by
    have hsplit := q.length_eq_length_filter_add TestRequest.isDemand
    simp only [insertDemand, List.length_append, List.length_singleton]
    omega
  unfold placeDemand at h ⊢
  dsimp only at h ⊢
  split at h
  · cases h
  · split at h
    · cases h
    · split at h
      next hfree hnew hline =>
        obtain ⟨r, hr, hrn⟩ := List.any_eq_true.mp hline
        have hlt : (s.seq.queue.filter fun r => r.line != n).length < s.seq.queue.length :=
          List.length_filter_lt_length_iff_exists.mpr ⟨r, hr, by simpa using hrn⟩
        rw [if_neg hfree, if_neg hnew, if_pos hline, hinsert]
        omega
      next hfree hnew hline =>
        split at h
        · cases h
        next hroom =>
          rw [if_neg hfree, if_neg hnew, if_neg hline, if_neg hroom, hinsert]
          omega

theorem makeExternal_lists (n : LineNo) (h : ListsKept s t) : ListsKept s (makeExternal n t) := by
  have hq : ∀ f : Seq → Seq, (f t.seq).queue = t.seq.queue.filter (fun r => r.line != n) →
      (f t.seq).log = t.seq.log → ListsKept s (t.modSeq f) := fun f hq hl => filterQueue_lists _ f hq hl h
  exact askForLine_lists n (.ite (placeFreed_lists (hq _ rfl rfl)) (hq _ rfl rfl))

/-- A command row keeps the lists. The rows below the named ones write no line's state, no request and no frame. -/
theorem runRow_lists (c : Instr) (h : ListsKept s t) : ListsKept s (runRow c t).1 := by
  have hcfg : ∀ n (f : Line → LineConfig), ListsKept s (t.modLine n fun l => { l with cfg := f l }) :=
    fun n f => modLine_lists n _ (fun _ => rfl) h
  cases c with
  | writeLine o line f =>
    simp only [runRow, cmdWriteLine]
    split
    · exact h
    · split
      · exact h
      · split
        · exact h
        · exact afterLineWrite_lists _ _ _ (hcfg _ _)
  | enableLine o line =>
    simp only [runRow, cmdEnableLine]
    split
    · exact h
    · split
      · exact h
      · split
        · exact enter_lists _ _ _ (hcfg _ fun l => { l.cfg with enabled := true })
        · exact h
  | disableLine o line =>
    simp only [runRow, cmdDisableLine]
    split
    · exact h
    · split
      · exact h
      · split
        · exact h
        · exact enter_lists _ _ _ (hcfg _ fun l => { l.cfg with enabled := false })
  | clearBar o line =>
    simp only [runRow, cmdClearBar]
    split
    · exact h
    · split
      · exact h
      · split
        · exact enter_lists _ _ _ h
        · exact h
  | clearSense o m =>
    simp only [runRow, cmdClearSense]
    split
    · exact h
    · exact h.aside (by simp [answer, State.listView, State.line])
  | setUplink o f =>
    simp only [runRow, cmdSetUplink]
    split
    · exact h
    · split
      · exact h
      · have hstored : ListsKept s (t.modShares fun _ => UplinkFields.store f t.shares) := h.aside rfl
        exact recompute_lists hstored
  | requestTest o line p v =>
    simp only [runRow, cmdRequestTest]
    split
    · split
      · exact h
      · split
        next hacc => exact idleStep_lists (modSeq_lists _ (placeDemand_length hacc) id h)
        · exact h
    · exact h
  | abortTest o line =>
    simp only [runRow, cmdAbortTest, answer]
    split
    · exact h
    · split
      · dsimp only
        exact placesFreed_lists (filterQueue_lists _ _ rfl rfl h)
      · split
        · exact h
        · split
          · split
            · exact h
            · exact abortTestNow_lists _ h
          · exact h
  | stopRoutineGroup o g =>
    simp only [runRow, cmdStopRoutineGroup]
    split
    · exact h
    next g _ =>
      have hstopped : ∀ f, ListsKept s (modGroup g f t) := fun _ => h.aside rfl
      have hfreed : ∀ f, ListsKept s ((modGroup g f t).modSeq fun q => { q with
        queue := q.queue.filter fun r => !(r.group == some g) }) := fun f => filterQueue_lists _ _ rfl rfl (hstopped f)
      exact .ite (hfreed _) (placesFreed_lists (hfreed _))
  | setTestLimits o f =>
    simp only [runRow, cmdSetTestLimits]
    split
    · exact h
    · have hnew : ListsKept s ((t.modAccess (LimitFields.storeAccess f)).modSeq (LimitFields.storeSeq f)) := h.aside rfl
      exact guardCheck_lists hnew
  | connectExternal o line =>
    simp only [runRow, cmdConnectExternal]
    split
    · exact h
    · split
      · exact h
      · split
        · exact h
        · split
          · exact h
          · split
            · exact h
            · exact makeExternal_lists _ h
  | disconnectExternal o =>
    simp only [runRow, cmdDisconnectExternal]
    split
    · exact h
    · split
      · exact endExternal_lists h
      · exact h
  | writePowerPolicy o v f =>
    simp only [runRow, cmdWritePowerPolicy]
    split
    · exact h
    · split
      · exact h
      · split
        · exact h
        · refine recompute_lists ?_
          split
          · exact afterPolicyWrite_lists _ (h.aside rfl)
          · exact h.aside rfl
  | setNotices o fs =>
    simp only [runRow, cmdSetNotices, answer]
    split
    · dsimp only
      refine modCounts_lists _ (fun hle => ?_) h
      exact (List.length_filter_le _ _).trans hle
    · exact h
  | trafficReset o =>
    simp only [runRow, cmdTrafficReset, answer]
    exact h.trans (doTrafficReset_lists t)
  | _ =>
    simp only [runRow, cmdWriteStation, placeStation, cmdRemoveStation, cmdFlushLearned, cmdWriteStationTableForm,
      cmdReadStation, cmdReadLine, cmdEnableLineSettings, cmdReadUplink, cmdWriteProgram, cmdReadProgram,
      cmdReadTestQueue, cmdReadTestRecord, cmdSetRoutineGroup, cmdStartRoutineGroup, cmdSetBatteryThresholds,
      cmdReadPower, cmdReadCounters, cmdReadGlobalCounters, cmdClearEvents, cmdClearResetCause,
      cmdReadStatus, cmdSetManagement, cmdSetTime, cmdLock, cmdSaveConfiguration, cmdDeviceReset, cmdUnknown]
    (repeat' split) <;> exact h.aside rfl

theorem runCommand_lists (cmd : State → State × CmdResult) (hc : ListsKept s (cmd t).1) (h : ListsKept s t) :
    ListsKept s (runCommand cmd t).1 := by
  unfold runCommand
  split
  · exact h
  · exact hc

/-! ## Control frames and notices -/

theorem runElement_lists (o : Origin) (i : Nat) (b : List Byte) (h : ListsKept s t) :
    ListsKept s (runElement o i b t).1 := by
  refine runCommand_lists _ ?_ h
  split
  · exact h
  · exact runRow_lists _ h

theorem runElements_lists (o : Origin) (es : List Element) (h : ListsKept s t) :
    ListsKept s (runElements o es t).1 := by
  induction es generalizing t with
  | nil => exact h
  | cons e es ih =>
    cases e with
    | truncated i => exact h
    | whole i b => exact ih (runElement_lists o i b h)

theorem runFrame_lists (o : Origin) (f : List Byte) (h : ListsKept s t) : ListsKept s (runFrame o f t).1 := by
  unfold runFrame
  dsimp only
  split
  · exact h
  · exact runElements_lists o _ h

theorem insertTx_length (e : TxEntry) (l : List TxEntry) : (insertTx e l).length = l.length + 1 := by
  have hsplit := l.length_eq_length_filter_add fun x => decide (x.part.rank ≤ e.part.rank)
  simp only [insertTx, List.length_append, List.length_singleton]
  omega

/-- A frame that the part builds takes a place of the transmit list that is free (R180, R181, R202). -/
theorem buildEntry_hold (b : List Byte) (p : Port) (q : TxPart) (hroom : t.mgmt.txList.length < Config.transmitPlaces)
    (h : ListsHold s t) : ListsHold s (buildEntry b p q t) := by
  have hmade := makeRecord_lists { bytes := b, cls := none, origin := .part, refs := 1 } (.refl t)
  have hlt := hmade.noneBuilt.trans_lt hroom
  refine (h.trans hmade.toListsHold).trans ⟨fun ⟨hcontrol, _, hrest⟩ => ⟨hcontrol, ?_, hrest⟩, id⟩
  exact (insertTx_length _ _).trans_le hlt

theorem placeReply_hold (b : List Byte) (p : Port) (hroom : t.mgmt.txList.length < Config.transmitPlaces)
    (h : ListsHold s t) : ListsHold s (placeReply b p t) := by
  have hbuilt : ∀ f : Option DevReset → Option DevReset, ListsKept (buildEntry b p .reply t)
      ((buildEntry b p .reply t).modMgmt fun m => { m with devReset := f m.devReset }) := fun _ =>
    (ListsKept.refl _).aside rfl
  have hplaced : ListsKept (buildEntry b p .reply t) (placeReply b p t) :=
    .ite (dropCraftEntries_lists (hbuilt _)) (hbuilt _)
  exact (buildEntry_hold b p .reply hroom h).trans hplaced.toListsHold

/-- A control frame is taken while a place of the transmit list is free, and its commands build nothing (R178). -/
theorem takeFrame_hold (b : Bool) (p : Port) (f : List Byte) (ht : mayTake s = true) :
    ListsHold s (takeFrame b p f s) := by
  have hcounted : ListsKept s (countDev .framesTaken (s.modMgmt fun m =>
      { m with controlQ := m.controlQ.drop 1, service := b })) :=
    countDev_lists _ (modMgmt_lists _ (fun hle => (List.drop_sublist _ _).length_le.trans hle) le_rfl (.refl s))
  have hrun := runFrame_lists (originOf p b) f hcounted
  have hroom : s.mgmt.txList.length < Config.transmitPlaces := by
    simp only [mayTake, Bool.and_eq_true, decide_eq_true_eq] at ht
    exact ht.1.2
  exact placeReply_hold _ p (hrun.noneBuilt.trans_lt hroom) hrun.toListsHold

/-- A notice frame is built while a place of the transmit list is free, and its notices leave their list (R202). -/
theorem noticeFrameBuild_hold (s : State) : ListsHold s ((noticeReady s).elim s fun f => buildNotice f s) := by
  cases hr : noticeReady s with
  | none => exact (ListsKept.refl s).toListsHold
  | some f =>
    have hroom : s.mgmt.txList.length < Config.transmitPlaces := by
      unfold noticeReady at hr
      split at hr
      · cases hr
      · exact (Option.ite_none_right_eq_some.mp hr).1.2.1
    have hdropped : ListsKept s (s.modCounts fun k => { k with notices := dropBuilt (nextNotices s) k.notices }) :=
      modCounts_lists _ ((List.length_filter_le _ _).trans ·) (.refl s)
    have hnumbered : ListsKept s ((s.modCounts fun k => { k with notices := dropBuilt (nextNotices s) k.notices }).modMgmt
        fun m => { m with noticeNumber := m.noticeNumber + 1 }) := hdropped.aside rfl
    exact buildEntry_hold f .uplink _ hroom hnumbered.toListsHold

theorem endSave_lists (good : Bool) (h : ListsKept s t) : ListsKept s (endSave good t) := by
  unfold endSave
  split
  · exact h
  · exact raise_lists _ _ (h.aside rfl)

/-! ## Every step -/

/-- The lists across an occurrence, a command row apart. -/
theorem exec_event_lists {c : Instr} (hc : isCommand c = false) (h : exec c s = .next t) : ListsHold s t := by
  have hold : ∀ u, exec c s = .next u → ListsHold s u → ListsHold s t := by
    rintro u hu hk
    rw [hu] at h
    cases h
    exact hk
  have key : ∀ u, exec c s = .next u → ListsKept s u → ListsHold s t := fun u hu hk => hold u hu hk.toListsHold
  have hs : ListsKept s s := .refl s
  have sched : ∀ f : Sched → Sched, ListsKept s (s.modSched f) := fun _ => hs.aside rfl
  cases c with
  | coldReset => exact key _ rfl (coldState_lists s)
  | pinReset => exact key _ rfl (warmReset_lists _ s)
  | supplyReset => exact key _ rfl (warmReset_lists _ s)
  | startUp =>
    refine key _ rfl ?_
    split
    · exact runStartUp_lists _ s
    · exact hs
    · exact hs
  | startUpComplete v =>
    refine key _ rfl ?_
    split
    · exact completeStartUp_lists v s
    · exact hs
    · exact hs
  | uplinkFrameReceived f => exact key _ rfl (receive_lists _ f _ (recogniseUplink_lists f hs) hs)
  | capacityAdvisory v => exact key _ rfl (.ite (takeAdvisory_lists v hs) (countDeviceDrop_lists _ hs))
  | classPause m d => exact key _ rfl (.ite (takePause_lists m d hs) (countDeviceDrop_lists _ hs))
  | craftFrameReceived b f =>
    have hservice : ListsKept s (s.modMgmt fun m => { m with service := b }) := hs.aside rfl
    exact key _ rfl (receive_lists _ f _ (recogniseCraft_lists b f hservice) hservice)
  | lineLinkFrameReceived n f => exact key _ rfl (receive_lists _ f _ (upstream_lists n f hs) hs)
  | ready n => exact key _ rfl (.ite (.ite (modLine_lists n _ (fun _ => rfl) hs) hs) hs)
  | activity n => exact key _ rfl (.ite (takeActivity_lists n hs) hs)
  | linkUp n d u => exact key _ rfl (.ite (takeLinkUp_lists n d u hs) hs)
  | rates n d u => exact key _ rfl (.ite (takeRatesReport_lists n d u hs) hs)
  | linkFail n => exact key _ rfl (.ite (.ite (failTraining_lists n _ hs) hs) hs)
  | linkDown n => exact key _ rfl (.ite (takeLinkDown_lists n hs) hs)
  | awake n => exact key _ rfl (.ite (.ite (modLine_lists n _ (fun _ => rfl) hs) hs) hs)
  | senseEdge n b => exact key _ rfl (.ite (takeSense_lists n b hs) hs)
  | wakeGrant => exact key _ rfl (grants_lists 1 hs)
  | agingSweep =>
    refine key _ rfl ?_
    split
    · exact hs
    · exact hs.aside rfl
  | holdTimerExpiry =>
    have hlost : ∀ f, ListsKept s (s.modShares f) := fun _ => hs.aside rfl
    refine key _ rfl ?_
    split
    · exact hs
    · exact recompute_lists (raise_lists _ _ (hlost _))
  | refill =>
    refine key _ rfl ?_
    split
    · exact hs
    · exact hs.aside (by simp [State.listView, State.line, Line.refilled])
  | pauseTimerExpiry c => exact key _ rfl (sched _)
  | upstreamChoice => exact key _ rfl (makeChoice_lists hs)
  | transmissionComplete =>
    refine key _ rfl ?_
    split
    · exact hs
    · exact completeTransmission_lists _ _ (sched _)
  | handOffStart n => exact key _ rfl (.ite (refreshIdle_lists n (modLine_lists n _ (fun _ => rfl) hs)) hs)
  | handOffComplete n =>
    refine key _ rfl ?_
    split
    · exact hs
    · have hline : ListsKept s (s.modLine n fun l => { l with handOff := none }) := modLine_lists n _ (fun _ => rfl) hs
      exact (countFor_lists _ _ (refreshIdle_lists n (dropRef_lists _ hline))).aside rfl
  | drainComplete n => exact key _ rfl (drainReport_lists n hs)
  | uplinkLinkDown =>
    refine key _ rfl ?_
    dsimp only
    split
    · exact sched _
    · exact transmitAborted_lists _ (sched _)
  | uplinkLinkUp => exact key _ rfl (makeChoice_lists (sched _))
  | craftTransmissionStart =>
    refine key _ rfl (.ite ?_ hs)
    split
    · exact hs
    next e _ => exact takeEntry_lists e (fun x => { x with craftTx := some e.recId }) hs
  | craftTransmissionComplete =>
    refine key _ rfl ?_
    split
    · exact hs
    · exact completeTransmission_lists _ _ (sched _)
  | craftLinkDown =>
    refine key _ rfl (dropCraftEntries_lists ?_)
    split
    · exact sched _
    · exact transmitAborted_lists _ (sched _)
  | trainingTimerExpiry n => exact key _ rfl (.ite (failTraining_lists n _ hs) hs)
  | wakeTimerExpiry n => exact key _ rfl (.ite (enter_lists n _ _ hs) hs)
  | idleTimerExpiry n => exact key _ rfl (.ite (enter_lists n _ _ hs) hs)
  | dormantTimerExpiry n => exact key _ rfl (.ite (enter_lists n _ _ hs) hs)
  | drainTimerExpiry n => exact key _ rfl (.ite (heldReport_lists (enter_lists n _ _ hs)) hs)
  | settleTimerExpiry => exact key _ rfl (settleEnds_lists hs)
  | windowEnd xs => exact key _ rfl (windowEnds_lists xs hs)
  | captureTargetReached v => exact key _ rfl (.ite (captureEnds_lists v _ hs) hs)
  | captureTimeout => exact key _ rfl (captureEnds_lists _ _ hs)
  | toneDurationElapsed => exact key _ rfl (toneEnds_lists hs)
  | dischargeWaitExpiry => exact key _ rfl (dischargeEnds_lists hs)
  | guardTrip v =>
    have hleg : ListsKept s (s.modAccess fun a => { a with legMv := v }) := hs.aside rfl
    refine key _ rfl ?_
    split
    · exact hs
    · exact guardCheck_lists hleg
  | extreqAsserted =>
    have hq : ListsKept s (s.modSeq fun q => { q with extreq := true }) := hs.aside rfl
    exact key _ rfl (idleStep_lists hq)
  | extreqReleased =>
    have hq : ListsKept s (s.modSeq fun q => { q with extreq := false }) := hs.aside rfl
    exact key _ rfl (.ite (reclaimBus_lists hq) hq)
  | suspendTimerExpiry => exact key _ rfl (.ite (abortTestNow_lists _ hs) hs)
  | halfTick g =>
    have hq : ∀ f, ListsKept s (modGroup g f s) := fun _ => hs.aside rfl
    exact key _ rfl (.ite (tickRequests_lists g _ (hq _)) hs)
  | fullTick g =>
    have hq : ∀ f, ListsKept s (modGroup g f s) := fun _ => hs.aside rfl
    exact key _ rfl (.ite (tickRequests_lists g _ (hq _)) hs)
  | batterySample v => exact key _ rfl (.ite (takeSample_lists v hs) hs)
  | mainsOkDeasserted => exact key _ rfl (loseMains_lists hs)
  | mainsOkAsserted => exact key _ rfl (gainMains_lists hs)
  | mainsStableTimerExpiry => exact key _ rfl (mainsStable_lists hs)
  | controlFrameTaken b =>
    refine hold _ rfl ?_
    split
    · exact hs.toListsHold
    · split
      next ht => exact takeFrame_hold b _ _ ht
      · exact hs.toListsHold
  | noticeFrameBuild => exact hold _ rfl (noticeFrameBuild_hold s)
  | saveDone b => exact key _ rfl (endSave_lists b hs)
  | deviceResetTimerExpiry => exact key _ rfl (.ite (warmReset_lists _ s) hs)
  | craftLinkUp => exact key _ rfl (sched _)
  | _ => cases hc

theorem exec_lists (c : Instr) (h : exec c s = .next t) : ListsHold s t := by
  by_cases hc : isCommand c = true
  · rw [exec_of_isCommand hc] at h
    cases h
    have hrun : ListsKept s (runCommand (runRow c) s).1 := runCommand_lists _ (runRow_lists c (.refl s)) (.refl s)
    exact (hrun.aside (u := setResult (runCommand (runRow c) s)) rfl).toListsHold
  · exact exec_event_lists (by simpa using hc) h

theorem passMs_lists (s : State) : ListsHold s (passMs s) := by
  have htime : ListsKept s (passTime s) := (ListsKept.refl s).aside (by
    simp [State.listView, passTime, State.line, Line.passMs])
  unfold passMs
  split
  · exact (ListsKept.refl s).toListsHold
  · exact htime.toListsHold
  · exact htime.toListsHold

theorem step_lists (h : step s = .next t) : ListsHold s t := by
  unfold step idle at h
  split at h
  next rest _ =>
    have hrest : ListsKept s { s with pending := rest } := (ListsKept.refl s).aside rfl
    exact hrest.toListsHold.trans (exec_lists _ h)
  · split at h
    · exact exec_lists _ h
    · cases h
      exact passMs_lists s

end

end Sys2Proof.Machine

namespace Sys2Proof
open Machine

/-- Settles O59: what joins a list takes a place that is free, and what joins the wake list is a line asleep that is not
listed yet. -/
theorem listsStayBounded : Obligations.ListsStayBounded :=
  ⟨fun _ _ hs h => (step_lists h).bounded hs, fun _ _ hs h => (step_lists h).listed hs⟩

end Sys2Proof
end

