-- ==== Sys2Proof/Proofs/ExternalHead.lean ====
section
/-! PROOF. EXTREQ and the suspend timer (R151, R154, R155): the yield from IDLE, the reclaim with nothing queued, the
resume of a suspended test and its end at the timer. -/

namespace Sys2Proof.Machine

section
variable {s : State} {n : LineNo} {a : Activity} {o : Outcome}

/-! ## The yield and the reclaim -/

theorem exec_extreqAsserted (s : State) :
    exec .extreqAsserted s = .next (idleStep (s.modSeq fun q => { q with extreq := true })) := rfl

/-- An IDLE sequencer in service yields the bus at the assertion (R151). -/
theorem exec_extreqAsserted_idle (hst : s.seq.st = .idle) (hrun : s.running = true) :
    exec .extreqAsserted s = .next (suspendSeq (s.modSeq fun q => { q with extreq := true })) := by
  rw [exec_extreqAsserted, idleStep_of_extreq (s := s.modSeq fun q => { q with extreq := true }) hst hrun rfl]

theorem exec_extreqReleased_yielded (h : s.seq.extack = true) :
    exec .extreqReleased s = .next (reclaimBus (s.modSeq fun q => { q with extreq := false })) := by
  have hexec : exec .extreqReleased s = execExtreqReleased s := rfl
  simp [hexec, execExtreqReleased, h]

/-- Outside IDLE, or before the start-up, the sequencer takes no step of IDLE (R136). -/
theorem idleStep_of_not (h : s.seq.st ≠ .idle ∨ s.running = false) : idleStep s = s := by
  rcases h with h | h
  · exact idleStep_busy h
  · simp [idleStep, h]

/-- With nothing current and a free matrix the bus taken back leaves the sequencer to enter IDLE (R155). -/
theorem reclaimBus_free (ha : s.seq.act = none) (hm : s.access.matrix = .idle) : reclaimBus s =
    enterIdle ((raise s.lineUnderTest (.external false) s).modSeq fun q => { q with extack := false }) := by
  simp [reclaimBus, ha, hm]

/-- A suspended test goes on when the bus is taken back (R155). -/
theorem reclaimBus_test (ha : s.seq.act = some a) (ho : a.origin ≠ .external) : reclaimBus s =
    resumeTest a ((raise s.lineUnderTest (.external false) s).modSeq fun q => { q with extack := false }) := by
  simp [reclaimBus, ha, ho]

/-- A test with a spec left and its pair connected resumes with RESETTLE (R109, R155). -/
theorem resumeTest_connected (hgo : a.goesOn = true) (hm : s.access.matrix = .connected n) : resumeTest a s =
    (s.modAccess fun k => { k with matrix := .settlingIn n, settleTimer := some k.settleTime }).modSeq fun q =>
      { q with suspended := false, suspendTimer := none, st := .settling } := by
  simp [resumeTest, hgo, hm, MatrixState.pair, resettlePair, State.modSeq, State.modAccess]

/-! ## The end of a suspended test -/

/-- The return of a line leaves its grade, whatever its state (R99 to R101). -/
theorem returnLine_grade (n : LineNo) (g : Option Grade) (s : State) :
    ((returnLine n g s).line n).grade = (s.line n).grade := by
  have hentered : ∀ {u : State} {new : LineState}, (u.line n).apart = ((s.line n).entered s new .returned).apart →
      (u.line n).grade = (s.line n).grade := fun h =>
    (congrArg Line.grade h : _).trans (Line.entered_kept s .returned (s.line n) _).1
  unfold returnLine
  dsimp only
  split
  next hst =>
    have hne : (s.line n).st ≠ returnState (s.line n) g := hst ▸ (returnState_ne (s.line n) g).1.symm
    exact hentered (enter_aside_line hne (by rw [hst]; rfl)).1
  next hst =>
    refine hentered (new := .up) ?_
    rw [enter_to_awake rfl, recomputeIf_apart, enterCore_line_self _ _ _ _ (by rw [hst]; decide)]
  next hst =>
    split
    · exact hentered (enter_aside_line (new := .down) (by rw [hst]; decide) (by rw [hst]; rfl)).1
    · rfl
  · rfl

theorem exec_suspendTimer (hst : s.seq.st = .suspended) (hsus : s.seq.suspended = true) :
    exec .suspendTimerExpiry s = .next (closeActivity .abortedExternal true s) := by
  have hexec : exec .suspendTimerExpiry s = execSuspendTimerExpiry s := rfl
  simp [hexec, execSuspendTimerExpiry, hst, hsus, abortTestNow]

/-- An activity that ends without completing, while the log has a place left: its record is written, and its line keeps
its grade (R140 to R142). -/
theorem closeActivity_aborted (hact : s.seq.act = some a) (hlog : s.seq.log.length < Config.logPlaces)
    (ho : o ≠ .completed) :
    let t := closeActivity o true s
    t.seq = { s.seq with
        act := none, marker := none, suspended := false, suspendTimer := none
        counter := nextSequence s.seq.counter, log := s.seq.log ++ [endRecord o a s] }
      ∧ t.access = s.access ∧ flagged t .testDone ∧ (t.line a.line).grade = (s.line a.line).grade := by
  rw [closeActivity_eq hact, testGrade_aborted ho, writeRecord_room _ hlog]
  refine ⟨?_, ?_, raise_flagged _ _ _, ?_⟩
  · rw [State.modSeq_seq, raise_seq, returnLine_seq]
    rfl
  · rw [State.modSeq_access, raise_access, returnLine_access]
    rfl
  · rw [State.modSeq_line, State.line_of_lines (raise_lines _ _ _), returnLine_grade]
    rfl

end

end Sys2Proof.Machine

namespace Sys2Proof
open Machine

/-- Settles O37: the sequencer suspends from IDLE alone, the bus taken back enters IDLE or resettles the pair of the
suspended test, and its timer closes the test where it stands. -/
theorem externalHead : Obligations.ExternalHead := by
  intro n a s
  refine ⟨fun h => ?_, fun hst hrun hact => ?_, fun h => ?_, fun hx hact hm hq => ?_, fun hx hact ho hm hn hg => ?_,
    fun hst hsus hact hlog => ?_, fun h => ?_⟩
  · rw [exec_extreqAsserted, idleStep_of_not (s := s.modSeq fun q => { q with extreq := true }) h]
  · refine ⟨_, exec_extreqAsserted_idle hst hrun, ?_, (suspendSeq_counts _).2.2, by simp, by simp, by simp⟩
    rw [suspendSeq_of_none (s := s.modSeq fun q => { q with extreq := true }) hact, State.modSeq_seq, raise_seq]
    rfl
  · have hexec : exec .extreqReleased s = execExtreqReleased s := rfl
    simp [hexec, execExtreqReleased, h]
  · refine ⟨_, exec_extreqReleased_yielded hx, ?_⟩
    rw [reclaimBus_free (s := s.modSeq fun q => { q with extreq := false }) hact hm, enterIdle_of_empty (by simpa using hq) (by simp)]
    exact ⟨by simp, raise_flagged _ _ _, by simp, by simp, by simp⟩
  · have hgo : a.goesOn = true := goesOn_of_spec (List.getElem?_eq_getElem hn) hg
    refine ⟨_, exec_extreqReleased_yielded hx, ?_⟩
    rw [reclaimBus_test (s := s.modSeq fun q => { q with extreq := false }) hact ho, resumeTest_connected hgo (by simpa using hm)]
    exact ⟨by simp, by simp, raise_flagged _ _ _, by simp, by simp⟩
  · obtain ⟨hseq, haccess, hflagged, hgrade⟩ := closeActivity_aborted (o := .abortedExternal) hact hlog (by decide)
    exact ⟨_, exec_suspendTimer hst hsus, hseq, haccess, hflagged, hgrade⟩
  · have hexec : exec .suspendTimerExpiry s = execSuspendTimerExpiry s := rfl
    simp [hexec, execSuspendTimerExpiry, h]

end Sys2Proof
end

