-- ==== Sys2Proof/Proofs/RoutineTicks.lean ====
section
/-! PROOF. The routine ticks (R148, R149): what the offers of a tick leave outside IDLE, and in IDLE with nothing queued
the start of the first line picked, after which the others are offered (R136, R138). -/

namespace Sys2Proof.Machine

section
variable {s t u : State} {g : Fin 4} {half : Bool} {n m : LineNo} {p : Fin 8} {ns : List LineNo}

/-! ## The offers of a tick -/

/-- A line that a tick of a group picked is under test, queued or due (R149). -/
def requested (g : Fin 4) (n : LineNo) (t : State) : Prop :=
  t.lineUnderTest = some n ∨ (∃ r ∈ t.seq.queue, r.line = n) ∨ (t.seq.groups.get g).due.get n = true

/-- What offers made for a group leave: all but the queue and the groups, the other groups, the count of the group, and
the lines requested before; and no request they add waits for a tick. -/
structure Offered (g : Fin 4) (s t : State) : Prop where
  only : offersOnly s t
  others : ∀ h, h ≠ g → t.seq.groups.get h = s.seq.groups.get h
  remaining : (t.seq.groups.get g).remaining = (s.seq.groups.get g).remaining
  fresh : ∀ r ∈ t.seq.queue, r ∈ s.seq.queue ∨ r.deferred = false
  requested : ∀ m, requested g m s → requested g m t

theorem Offered.refl (g : Fin 4) (s : State) : Offered g s s where
  only := .refl s
  others _ _ := rfl
  remaining := rfl
  fresh _ := .inl
  requested _ := id

theorem Offered.trans (h : Offered g s t) (k : Offered g t u) : Offered g s u where
  only := h.only.trans k.only
  others x hx := (k.others x hx).trans (h.others x hx)
  remaining := k.remaining.trans h.remaining
  fresh r hr := (k.fresh r hr).elim (h.fresh r) .inr
  requested m hm := k.requested m (h.requested m hm)

theorem offersOnly.lineUnderTest (h : offersOnly s t) : t.lineUnderTest = s.lineUnderTest := by rw [h.1]; rfl

/-- An offer of one line: requests may join the queue, and of the due marks that of the line alone may change. -/
theorem Offered.of_line {new : List TestRequest} (only : offersOnly s t) (hq : t.seq.queue = s.seq.queue ++ new)
    (hnew : ∀ r ∈ new, r.deferred = false) (others : ∀ h, h ≠ g → t.seq.groups.get h = s.seq.groups.get h)
    (hrem : (t.seq.groups.get g).remaining = (s.seq.groups.get g).remaining)
    (hdue : ∀ m, m ≠ n → (t.seq.groups.get g).due.get m = (s.seq.groups.get g).due.get m)
    (hn : Machine.requested g n t) : Offered g s t where
  only := only
  others := others
  remaining := hrem
  fresh r hr := by
    rw [hq] at hr
    exact (List.mem_append.mp hr).imp_right (hnew r)
  requested m hm := by
    by_cases hmn : m = n
    · rwa [hmn]
    · rcases hm with hm | ⟨r, hr, hline⟩ | hm
      · exact .inl (only.lineUnderTest.trans hm)
      · exact .inr (.inl ⟨r, by rw [hq]; exact List.mem_append_left _ hr, hline⟩)
      · exact .inr (.inr ((hdue m hmn).trans hm))

/-- A line offered is coalesced, left due or queued, and requested in each case (R133, R149). -/
theorem offerRoutine_requested (g : Fin 4) (n : LineNo) (s : State) : requested g n (offerRoutine g n s) := by
  unfold offerRoutine
  dsimp only
  split
  next hbusy =>
    rcases Bool.or_eq_true_iff.mp hbusy with h | h
    · exact .inl (beq_iff_eq.mp h)
    · obtain ⟨r, hr, hline⟩ := List.any_eq_true.mp h
      exact .inr (.inl ⟨r, hr, beq_iff_eq.mp hline⟩)
  · split
    · split
      next hdue => exact .inr (.inr hdue)
      · exact .inr (.inr (by simp [setDue]))
    · exact .inr (.inl ⟨.routine n (s.seq.groups.get g).program g 0 false, by simp [setDue], rfl⟩)

/-- The four ways an offer goes: coalesced, left due as it was, newly due and counted as missed, or queued (R133, R149). -/
theorem offerRoutine_cases (g : Fin 4) (n : LineNo) (s : State) :
    offerRoutine g n s = setDue g n false s ∨ offerRoutine g n s = s
      ∨ offerRoutine g n s = setDue g n true (s.modSeq fun q => { q with
          groups := q.groups.modify g fun x => { x with missed := bump x.missed } })
      ∨ offerRoutine g n s = setDue g n false (s.modSeq fun q => { q with
          queue := q.queue ++ [.routine n (s.seq.groups.get g).program g 0 false] }) := by
  unfold offerRoutine
  dsimp only
  split
  · exact .inl rfl
  · split
    · split
      · exact .inr (.inl rfl)
      · exact .inr (.inr (.inl rfl))
    · exact .inr (.inr (.inr rfl))

theorem offerRoutine_offered (g : Fin 4) (n : LineNo) (s : State) : Offered g s (offerRoutine g n s) := by
  have hother : ∀ (x : Tab 4 Group) (f : Group → Group) h, h ≠ g → (x.modify g f).get h = x.get h :=
    fun x f h hg => Tab.get_modify_other x f hg
  have hdue : ∀ (d : Tab 24 Bool) b m, m ≠ n → (d.set n b).get m = d.get m := fun d b m hm => Tab.get_set_other d b hm
  have hreq := offerRoutine_requested g n s
  have honly := offerRoutine_offersOnly g n s
  rcases offerRoutine_cases g n s with h | h | h | h <;> rw [h] at hreq honly ⊢
  case inr.inl => exact .refl g s
  case inr.inr.inr =>
    refine .of_line (new := [.routine n (s.seq.groups.get g).program g 0 false]) honly ?_ ?_ ?_ ?_ ?_ hreq <;>
      simp +contextual [setDue, hother, hdue, TestRequest.deferred]
  all_goals
    refine .of_line (new := []) honly ?_ ?_ ?_ ?_ ?_ hreq <;> simp +contextual [setDue, hother, hdue]

/-- Outside IDLE what joins the queue is not selected (R136). -/
theorem joining_busy (offer : State → State) (h : (offer s).seq.st ≠ .idle) : joining offer s = offer s := by
  simp [joining, idleStep_busy h]

/-- Lines offered one by one outside IDLE are each requested at the end (R149). -/
theorem joinings_offered (ns : List LineNo) (hst : s.seq.st ≠ .idle) :
    let t := ns.foldl (fun u n => joining (offerRoutine g n) u) s
    Offered g s t ∧ ∀ n ∈ ns, requested g n t := by
  induction ns generalizing s with
  | nil => exact ⟨.refl g s, by simp⟩
  | cons n ns ih =>
    have hoffer := offerRoutine_offered g n s
    have hbusy : (offerRoutine g n s).seq.st ≠ .idle := by rw [hoffer.only.1]; exact hst
    obtain ⟨hrest, hall⟩ := ih hbusy
    dsimp only
    rw [List.foldl_cons, joining_busy _ hbusy]
    refine ⟨hoffer.trans hrest, fun m hm => ?_⟩
    rcases List.mem_cons.mp hm with rfl | hm
    · exact hrest.requested m (offerRoutine_requested g m s)
    · exact hall m hm

/-! ## The lines picked -/

theorem ticked_iff : ticked s g half n = true ↔ (s.line n).cfg.routineGroup = some g ∧ (s.line n).st ≠ .disabled
    ∧ (half = true → (s.line n).grade = .marginal ∨ (s.line n).grade = .faulty ∧ (s.line n).st ≠ .barred) := by
  cases half <;> simp [ticked, and_assoc]

/-- The first line picked comes first of those that a tick offers (R149). -/
theorem ticked_first (hn : ticked s g half n = true) (hfirst : ∀ m, m < n → ticked s g half m = false) :
    ∃ ns, (indexes 24).filter (ticked s g half) = n :: ns := by
  obtain ⟨before, after, hsplit⟩ := List.append_of_mem (mem_indexes n)
  have hsorted : (before ++ n :: after).Pairwise (· < ·) := hsplit ▸ List.pairwise_lt_finRange 24
  refine ⟨after.filter (ticked s g half), List.filter_eq_cons_iff.mpr ⟨before, after, hsplit, fun m hm => ?_, hn, rfl⟩⟩
  have hlt : m < n := (List.pairwise_append.mp hsorted).2.2 m hm n List.mem_cons_self
  rw [hfirst m hlt]
  decide

/-! ## The tick -/

/-- The count of a group as its tick sets it (R148, R149). -/
def tickLoaded (g : Fin 4) (half : Bool) (s : State) : State :=
  s.modSeq fun q => { q with groups := q.groups.modify g fun x =>
    { x with remaining := if half = true then x.halfPoint else x.interval, halfDue := false } }

theorem exec_tick {c : Instr} (hc : c = if half = true then .halfTick g else .fullTick g) :
    exec c s = .next (if groupCounts s g then tickRequests g half (tickLoaded g half s) else s) := by
  subst hc
  cases half <;> rfl

theorem tickLoaded_remaining : ((tickLoaded g half s).seq.groups.get g).remaining =
    (s.seq.groups.get g).base.minutes * (s.seq.groups.get g).factor * 60
      - if half = true then (s.seq.groups.get g).base.minutes * (s.seq.groups.get g).factor * 60 / 2 else 0 := by
  cases half <;> simp [tickLoaded, Group.halfPoint, Group.interval, interval]

theorem tickLoaded_due (h : Fin 4) :
    ((tickLoaded g half s).seq.groups.get h).due = (s.seq.groups.get h).due := by
  by_cases hg : h = g
  · subst hg
    simp [tickLoaded]
  · simp [tickLoaded, Tab.get_modify_other _ _ hg]

theorem undefer_deferred (r : TestRequest) (h : (r.undefer g).group = some g) : (r.undefer g).deferred = false := by
  cases r with
  | demand => rfl
  | routine n p k c d => simp_all [TestRequest.undefer, TestRequest.group, TestRequest.deferred]

/-- Outside IDLE the flags are cleared and the lines offered, with no selection (R136, R149). -/
theorem tickRequests_busy (hst : s.seq.st ≠ .idle) : tickRequests g half s =
    ((indexes 24).filter (ticked s g half)).foldl (fun u n => joining (offerRoutine g n) u)
      (s.modSeq fun q => { q with queue := q.queue.map (TestRequest.undefer g) }) := by
  simp only [tickRequests, idleStep_busy (s := s.modSeq fun q => { q with queue := q.queue.map (TestRequest.undefer g) })
    hst, ite_self]
  rfl

/-- With nothing queued there is no flag to clear (R149). -/
theorem tickRequests_empty (hq : s.seq.queue = []) : tickRequests g half s =
    ((indexes 24).filter (ticked s g half)).foldl (fun u n => joining (offerRoutine g n) u) s := by
  have hsame : (s.modSeq fun q => { q with queue := q.queue.map (TestRequest.undefer g) }) = s := by
    have hmap : s.seq.queue.map (TestRequest.undefer g) = s.seq.queue := by simp [hq]
    simp only [State.modSeq, hmap]
  simp only [tickRequests, hsame, hq, List.any_nil]
  rfl

/-! ## The start of a ROUTINE test -/

/-- A ROUTINE test of a line, as it starts (R138). -/
def routineTest (n : LineNo) (p : Fin 8) (s : State) : Activity :=
  { line := n, program := some p, origin := .routine, override := false, start := s.mgmt.time
    specs := s.seq.programs.get p, next := 0, results := [], pending := none, interrupted := false
    guardTripped := false }

theorem startRequest_routine (u : State) : startRequest (.routine n p g 0 false) u =
    askForLine n (placeFreed (u.modSeq fun q => { q with
      queue := q.queue.filter fun x => x != .routine n p g 0 false
      st := .drainingWait
      act := some (routineTest n p u)
      marker := some { line := n, program := some p, origin := .routine, start := u.mgmt.time } })) := by
  unfold startRequest
  rfl

/-- With mains or the battery an IDLE sequencer starts the one ROUTINE request it holds, if its home does not use the
line (R136 to R138). -/
theorem idleStep_startsRoutine (hst : s.seq.st = .idle) (hrun : s.running = true) (hx : s.seq.extreq = false)
    (hpow : s.power.state = some .mains ∨ s.power.state = some .battery)
    (hq : s.seq.queue = [.routine n p g 0 false]) (hfree : (s.line n).st ≠ .up ∧ (s.line n).st ≠ .training) :
    ∃ w, idleStep s = askForLine n w ∧ Begun (routineTest n p s) s w := by
  have hperm : permitted s.power.state (.routine n p g 0 false) = true := by
    rcases hpow with h | h <;> rw [h] <;> rfl
  have hidle : idleStep s = startRequest (.routine n p g 0 false) s := by
    rw [idleStep, if_pos ⟨hst, hrun⟩, boundary, if_neg (by simp [hx]), show 128 = 127 + 1 from rfl, selectWalk]
    simp [hq, hperm, TestRequest.deferred, inUse, TestRequest.line, hfree]
  rw [hidle, startRequest_routine]
  exact ⟨_, rfl, Begun.offered ⟨rfl, rfl⟩ (placeFreed_offersOnly _)⟩

/-- A line held at once has its pair connected at once, with EXTREQ released (R98, R138). -/
theorem askForLine_connects {a : Activity} (hact : s.seq.act = some a) (ho : a.origin ≠ .external)
    (hst : s.seq.st = .drainingWait) (hx : s.seq.extreq = false) (hline : heldAtOnce (s.line n).st = true) :
    (askForLine n s).seq = { s.seq with st := .settling } := by
  have hask : askForLine n s = heldReport (takeLine n s) := by simp [askForLine, hline]
  rw [hask, heldReport_of_test (a := a) (by simpa using hact) ho (by simpa using hst), if_neg (by simp [hx])]
  simp [connectStep]

/-- The request of a group for a line queued (R133, R149). -/
def routineQueued (g : Fin 4) (n : LineNo) (s : State) : State :=
  setDue g n false (s.modSeq fun q => { q with
    queue := q.queue ++ [.routine n (s.seq.groups.get g).program g 0 false] })

/-- With nothing queued and no test a line offered joins the queue, and a selection follows (R133, R136). -/
theorem joining_queued (hact : s.seq.act = none) (hq : s.seq.queue = []) :
    joining (offerRoutine g n) s = idleStep (routineQueued g n s) := by
  have hoffer : offerRoutine g n s = routineQueued g n s := by
    simp [offerRoutine, routineQueued, State.lineUnderTest, hact, hq, Config.testPlaces]
  rw [joining_joined (s := s) (offer := offerRoutine g n), hoffer]
  rw [hoffer]
  simp [routineQueued, setDue]

/-- In IDLE with nothing queued a line offered is taken under test as its request joins, if its home does not use it
(R133, R136, R138). -/
theorem joining_starts (hst : s.seq.st = .idle) (hrun : s.running = true) (hact : s.seq.act = none)
    (hq : s.seq.queue = []) (hx : s.seq.extreq = false)
    (hpow : s.power.state = some .mains ∨ s.power.state = some .battery)
    (hline : (s.line n).st = .down ∨ (s.line n).st = .quiet ∨ (s.line n).st = .dormant ∨ (s.line n).st = .barred) :
    let t := joining (offerRoutine g n) s
    t.lineUnderTest = some n ∧ t.seq.st = .settling ∧ t.seq.log = s.seq.log := by
  have hfree : (s.line n).st ≠ .up ∧ (s.line n).st ≠ .training := by
    rcases hline with h | h | h | h <;> rw [h] <;> decide
  have hheld : heldAtOnce (s.line n).st = true := by rcases hline with h | h | h | h <;> rw [h] <;> rfl
  have hsole : (routineQueued g n s).seq.queue = [.routine n (s.seq.groups.get g).program g 0 false] := by
    simp [routineQueued, setDue, hq]
  obtain ⟨w, hidle, hw⟩ :=
    idleStep_startsRoutine (s := routineQueued g n s) hst hrun hx hpow hsole hfree
  have hw_act : w.seq.act = some (routineTest n (s.seq.groups.get g).program (routineQueued g n s)) := by rw [hw.seq]
  have hw_st : w.seq.st = .drainingWait := by rw [hw.seq]
  have hw_extreq : w.seq.extreq = false := by rw [hw.seq]; exact hx
  have hw_line : heldAtOnce (w.line n).st = true := by rw [hw.line_eq]; exact hheld
  have hseq := askForLine_connects hw_act nofun hw_st hw_extreq hw_line
  dsimp only
  rw [joining_queued hact hq, hidle, State.lineUnderTest, hseq, hw.seq]
  exact ⟨rfl, rfl, rfl⟩

end

end Sys2Proof.Machine

namespace Sys2Proof
open Machine

/-- Settles O38: outside IDLE the lines are offered with no selection, and in IDLE the first of them is taken under test,
which leaves the sequencer in SETTLING for the others. -/
theorem routineTicks : Obligations.RoutineTicks := by
  intro g half c s hc
  refine ⟨fun hg => ?_, fun hg hst => ?_, fun n hg hst hact hq hx hn hfirst hline => ?_⟩
  · simp [exec_tick hc, hg]
  · refine ⟨_, by rw [exec_tick hc, if_pos hg], ?_⟩
    have hstl : (tickLoaded g half s).seq.st ≠ .idle := hst
    rw [tickRequests_busy hstl]
    obtain ⟨hoff, hall⟩ := joinings_offered (g := g) (s := (tickLoaded g half s).modSeq fun q =>
      { q with queue := q.queue.map (TestRequest.undefer g) })
      ((indexes 24).filter (ticked (tickLoaded g half s) g half)) hstl
    generalize List.foldl _ _ _ = t at hoff hall ⊢
    refine ⟨hoff.remaining.trans tickLoaded_remaining, fun r hr hgrp => ?_, fun n hgrp hdis hhalf => ?_, fun n h hne => ?_,
      ?_, ?_, ?_, ?_, ?_, ?_, ?_, ?_⟩
    · rcases hoff.fresh r hr with hr | hr
      · obtain ⟨x, -, rfl⟩ := List.mem_map.mp hr
        exact undefer_deferred x hgrp
      · exact hr
    · exact hall n (List.mem_filter.mpr ⟨mem_indexes n, ticked_iff.mpr ⟨hgrp, hdis, hhalf⟩⟩)
    · rw [hoff.others h hne]
      exact congrArg (fun d : Tab 24 Bool => d.get n) (tickLoaded_due h)
    all_goals rw [hoff.only.1]; rfl
  · refine ⟨_, by rw [exec_tick hc, if_pos hg], ?_⟩
    obtain ⟨⟨hrun, -⟩, hpow⟩ : (s.running = true ∧ (s.seq.groups.get g).enabled = true)
        ∧ (s.power.state = some .mains ∨ s.power.state = some .battery) := by simpa [groupCounts] using hg
    obtain ⟨ns, hns⟩ := ticked_first hn hfirst
    have hpicked : (indexes 24).filter (ticked (tickLoaded g half s) g half) = n :: ns := hns
    rw [tickRequests_empty (s := tickLoaded g half s) hq, hpicked, List.foldl_cons]
    obtain ⟨hunder, hsettling, hlog⟩ := joining_starts (g := g) (n := n) (s := tickLoaded g half s) hst hrun hact hq hx
      hpow hline
    obtain ⟨hoff, hall⟩ := joinings_offered (g := g) (s := joining (offerRoutine g n) (tickLoaded g half s)) ns
      (by rw [hsettling]; decide)
    have htest := hoff.only.lineUnderTest.trans hunder
    refine ⟨htest, ?_, ?_, fun m hm => ?_⟩
    · rw [hoff.only.1]
      exact hsettling
    · rw [hoff.only.1]
      exact hlog
    · have hmem : m ∈ n :: ns := hns ▸ List.mem_filter.mpr ⟨mem_indexes m, hm⟩
      rcases List.mem_cons.mp hmem with rfl | hm
      · exact .inl htest
      · exact hall m hm

end Sys2Proof
end

