-- ==== Sys2Proof/Proofs/PowerInputs.lean ====
section
/-! PROOF. The inputs of the Power Manager that change no cabinet power state (R159 to R162). -/

namespace Sys2Proof.Machine

section
variable {s : State}

/-- The return of mains starts the stable timer in a battery state (R161). -/
theorem gainMains_of_battery {p : PowerState} (hst : s.power.state = some p) (hp : p ≠ .mains) :
    gainMains s = s.modPower fun x => { x with mainsOk := true, stableTimer := some (x.stableDelay * 1000) } := by
  cases p with
  | mains => exact absurd rfl hp
  | battery | conserve | reserve => simp [gainMains, hst, State.modPower]

/-- In MAINS, and before a state is chosen, the return of mains is noted alone (R161, log entry 5). -/
theorem gainMains_noted (hst : s.power.state = some .mains ∨ s.power.state = none) :
    gainMains s = s.modPower fun x => { x with mainsOk := true } := by
  rcases hst with hst | hst <;> simp [gainMains, hst]

/-- A loss of mains stops the stable timer in a battery state (R161). -/
theorem loseMains_of_battery {p : PowerState} (hst : s.power.state = some p) (hp : p ≠ .mains) :
    loseMains s = s.modPower fun x => { x with mainsOk := false, stableTimer := none } := by
  cases p with
  | mains => exact absurd rfl hp
  | battery | conserve | reserve => simp [loseMains, hst, State.modPower]

/-- Before a state is chosen the loss of mains is noted alone (R160, log entry 5). -/
theorem loseMains_noted (hst : s.power.state = none) : loseMains s = s.modPower fun x => { x with mainsOk := false } := by
  simp [loseMains, hst]

/-- In MAINS a sample is stored with its time and compared with nothing (R159, R162). -/
theorem takeSample_of_mains (mv : Nat) (hst : s.power.state = some .mains) :
    takeSample mv s = s.modPower fun x => { x with sample := some (mv, s.mgmt.time) } := by
  simp [takeSample, hst, sampleMove]

/-- A stopped stable timer does not expire (R161, log entry 9). -/
theorem mainsStable_of_stopped (ht : s.power.stableTimer = none) : mainsStable s = s := by simp [mainsStable, ht]

end

end Sys2Proof.Machine

namespace Sys2Proof
open Machine

/-- Settles O39, input by input. -/
theorem powerInputs : Obligations.PowerInputs := by
  intro mv p s
  refine ⟨fun hst => congrArg Host.Outcome.next (gainMains_noted hst),
    fun hst => congrArg Host.Outcome.next (loseMains_noted hst),
    fun hst hp => ⟨congrArg Host.Outcome.next (gainMains_of_battery hst hp),
      congrArg Host.Outcome.next (loseMains_of_battery hst hp)⟩,
    fun hst hrun => congrArg Host.Outcome.next ?_, fun hrun => congrArg Host.Outcome.next ?_,
    fun ht => congrArg Host.Outcome.next (mainsStable_of_stopped ht)⟩
  · rw [whenRunning, if_pos hrun, takeSample_of_mains mv hst]
  · rw [whenRunning, if_neg (by simp [hrun])]

end Sys2Proof
end

