-- ==== Sys2Proof/Proofs/BudgetRule.lean ====
section
/-! PROOF. The awake budget (R167) across the shared operations and the steps of each block: a line is woken by a grant
alone, which the budget has room for, and a budget that falls sheds lines. -/

namespace Sys2Proof.Machine

/-- What the budget rule reads: the states of the lines, the power state and the policies, and the phase of the
start-up. -/
def State.budgetView (s : State) := (fun n => (s.line n).st, s.power.state, s.power.policies, s.mgmt.phase)

section
variable {s t : State}

/-! ## What the rule reads -/

theorem budgetView_of_blocks (h : t.lines = s.lines ∧ t.power = s.power ∧ t.mgmt = s.mgmt) :
    t.budgetView = s.budgetView := by
  obtain ⟨hl, hp, hm⟩ := h
  simp only [State.budgetView, State.line, hl, hp, hm]

theorem FiguresKept.budgetView (k : FiguresKept s t) (hp : t.power.policies = s.power.policies) :
    t.budgetView = s.budgetView := by
  simp only [State.budgetView, (Line.figures_eq (k.lines _)).1, k.power, k.phase, hp]

/-- An operation that leaves what the rule reads. -/
theorem BudgetKept.aside (h : BudgetKept s) (hv : t.budgetView = s.budgetView) : BudgetKept t := by
  simp only [State.budgetView, Prod.mk.injEq] at hv
  obtain ⟨hst, hstate, hpolicies, hphase⟩ := hv
  have hcount : awakeCount t = awakeCount s := awakeCount_congr fun m => congrFun hst m
  have hbudget : awakeBudget t = awakeBudget s := by simp only [awakeBudget, currentPolicy, hstate, hpolicies]
  rw [BudgetKept, hcount, hbudget, running_congr hphase, hstate]
  exact h

/-- An operation on other blocks than the lines, the Power Manager and the Management Engine. -/
theorem BudgetKept.beside (h : BudgetKept s) (hk : t.lines = s.lines ∧ t.power = s.power ∧ t.mgmt = s.mgmt) :
    BudgetKept t := h.aside (budgetView_of_blocks hk)

/-- An operation that wakes no line beyond the budget and chooses no power state. -/
theorem BudgetKept.follows (h : BudgetKept s) (hf : Follows s t) (hm : t.mgmt = s.mgmt) : BudgetKept t := by
  obtain ⟨hcount, hrest⟩ := h
  have hstate : t.power.state = s.power.state := (congrArg Power.state hf.power :)
  refine ⟨hf.budget hcount, fun hrun => ?_⟩
  rw [running_congr (congrArg Mgmt.phase hm)] at hrun
  rw [hstate]
  exact hrest hrun

/-- A state that a condition chooses keeps the rule. -/
theorem BudgetKept.ite {p : Prop} [Decidable p] {a b : State} (ha : BudgetKept a) (hb : BudgetKept b) :
    BudgetKept (if p then a else b) := by
  split
  · exact ha
  · exact hb

/-- A power state is in force in service alone (R158). -/
theorem BudgetKept.running_of_state (h : BudgetKept s) {p : PowerState} (hp : s.power.state = some p) :
    s.running = true := by
  by_contra hrun
  simp [h.2 (by simpa using hrun)] at hp

/-- No line is awake before the start-up completes (R158, R167). -/
theorem BudgetKept.asleep (h : BudgetKept s) (hrun : s.running = false) (n : LineNo) :
    awakeState (s.line n).st = false := by
  obtain ⟨hcount, hrest⟩ := h
  have hzero : awakeCount s = 0 := by simpa [awakeBudget, hrest hrun] using hcount
  rw [awakeCount_eq, List.countP_eq_zero] at hzero
  simpa using hzero n (mem_indexes n)

/-- With no line awake every budget is kept. -/
theorem BudgetKept.of_asleep (hst : ∀ n, awakeState (s.line n).st = false)
    (hrest : s.running = false → s.power.state = none) : BudgetKept s := by
  refine ⟨?_, hrest⟩
  simp [awakeCount_eq, hst]

theorem modLine_budgetView (n : LineNo) (f : Line → Line) (hf : ∀ l, (f l).st = l.st) (s : State) :
    (s.modLine n f).budgetView = s.budgetView := by
  have hst : ∀ m, ((s.modLine n f).line m).st = (s.line m).st := fun m => by
    by_cases hm : m = n
    · rw [hm, State.modLine_line_self, hf]
    · rw [State.modLine_line_other _ _ hm]
  simp only [State.budgetView, hst, State.modLine_power, State.modLine_mgmt]

/-- One line written, but for its state. -/
theorem modLine_budget (n : LineNo) (f : Line → Line) (hf : ∀ l, (f l).st = l.st) (h : BudgetKept s) :
    BudgetKept (s.modLine n f) := h.aside (modLine_budgetView n f hf s)

theorem dropRefs_budgetView (ids : List Nat) (s : State) :
    (ids.foldl (fun u id => dropRef id u) s).budgetView = s.budgetView :=
  foldl_keeps State.budgetView _ (fun _ _ => budgetView_of_blocks (by simp)) ids s

/-! ## Lines that change their state -/

theorem recompute_budget (h : BudgetKept s) : BudgetKept (recompute s) :=
  h.follows (recompute_follows (.refl s)) (by simp)

theorem enter_budget (n : LineNo) (new : LineState) (r : Reason)
    (hnew : awakeState new = true → awakeState (s.line n).st = true) (h : BudgetKept s) : BudgetKept (enter n new r s) :=
  h.follows (enter_follows n new r hnew (.refl s)) (by simp)

/-- An entry to a state that is not awake. -/
theorem enter_asleep_budget (n : LineNo) (new : LineState) (r : Reason) (hnew : awakeState new = false)
    (h : BudgetKept s) : BudgetKept (enter n new r s) :=
  enter_budget n new r (fun hon => by simp [hnew] at hon) h

theorem grants_budget (k : Nat) (h : BudgetKept s) : BudgetKept (grants k s) :=
  h.follows (grants_follows k (.refl s)) (by simp)

/-- A wake asked for is granted as far as the budget has room (R168, R170). -/
theorem wakeRequest_budget (n : LineNo) (c : WakeCause) (h : BudgetKept s) : BudgetKept (wakeRequest n c s) :=
  .ite h (grants_budget _ (h.aside rfl))

theorem rederiveQuiet_budget (n : LineNo) (h : BudgetKept s) : BudgetKept (rederiveQuiet n s) :=
  h.follows (rederiveQuiet_follows n (.refl s)) (by simp)

theorem rederiveAll_budget (h : BudgetKept s) : BudgetKept (rederiveAll s) :=
  foldl_holds BudgetKept _ (fun _ n hu => rederiveQuiet_budget n hu) _ s h

theorem rederiveDormant_budget (n : LineNo) (h : BudgetKept s) : BudgetKept (rederiveDormant n s) := by
  unfold rederiveDormant
  dsimp only
  split
  · exact .ite (enter_asleep_budget n .dormant _ rfl h) h
  · exact h

theorem takeRates_budget (n : LineNo) (down up : Nat) (h : BudgetKept s) : BudgetKept (takeRates n down up s) :=
  h.follows (recomputeIf_follows n _ (modLine_follows n _ (fun _ => rfl) (.refl s))) (by simp)

/-! ## The sequencer -/

theorem closeActivity_budget (o : Outcome) (askReturn : Bool) (h : BudgetKept s) :
    BudgetKept (closeActivity o askReturn s) :=
  h.follows (closeActivity_follows o askReturn (.refl s)) (by simp)

theorem drainReport_budget (n : LineNo) (h : BudgetKept s) : BudgetKept (drainReport n s) :=
  h.follows (drainReport_follows n (.refl s)) (by simp)

theorem askForLine_budget (n : LineNo) (h : BudgetKept s) : BudgetKept (askForLine n s) :=
  h.follows (askForLine_follows n (.refl s)) (by simp)

theorem idleStep_budget (h : BudgetKept s) : BudgetKept (idleStep s) :=
  h.follows (idleStep_follows (.refl s)) (by simp)

theorem enterIdle_budget (h : BudgetKept s) : BudgetKept (enterIdle s) :=
  h.follows (enterIdle_follows (.refl s)) (by simp)

theorem abortTestNow_budget (o : Outcome) (h : BudgetKept s) : BudgetKept (abortTestNow o s) :=
  h.follows (abortTestNow_follows o (.refl s)) (by simp)

/-- A step boundary whose next step moves no line. -/
theorem boundary_nextStep_budget (h : BudgetKept s) : BudgetKept (boundary nextStep s) :=
  .ite (h.beside (by simp)) (h.beside (by simp))

theorem joining_budget (offer : State → State) (ho : BudgetKept (offer s)) : BudgetKept (joining offer s) :=
  .ite (idleStep_budget ho) ho

theorem placesFreed_budget (h : BudgetKept s) : BudgetKept (placesFreed s) :=
  idleStep_budget (foldl_holds BudgetKept _ (fun u _ hu => foldl_holds BudgetKept _
    (fun _ _ hv => joining_budget _ (hv.beside (by simp))) _ u hu) _ s h)

theorem afterExternal_budget (h : BudgetKept s) : BudgetKept (afterExternal s) :=
  .ite (h.aside rfl) (enterIdle_budget h)

theorem releasedReport_budget (h : BudgetKept s) : BudgetKept (releasedReport s) := by
  unfold releasedReport
  split
  · exact enterIdle_budget h
  · exact .ite (afterExternal_budget (closeActivity_budget _ _ h)) (enterIdle_budget (closeActivity_budget _ _ h))

theorem endExternal_budget (h : BudgetKept s) : BudgetKept (endExternal s) := by
  unfold endExternal
  split
  · exact afterExternal_budget (closeActivity_budget _ _ h)
  · exact h.beside (by simp)
  · exact h.beside (by simp)
  · exact h

/-! ## Test events -/

theorem settledReport_budget (h : BudgetKept s) : BudgetKept (settledReport s) := by
  unfold settledReport
  split
  · exact h
  · exact .ite (.ite (h.aside rfl) (boundary_nextStep_budget h)) h

theorem settleEnds_budget (h : BudgetKept s) : BudgetKept (settleEnds s) := by
  have ha : ∀ f, BudgetKept (s.modAccess f) := fun _ => h.aside rfl
  unfold settleEnds
  split
  · exact settledReport_budget (ha _)
  · exact .ite (releasedReport_budget (ha _)) (ha _)
  · exact h
  · exact h

theorem completeMeasurement_budget (r : Result) (h : BudgetKept s) : BudgetKept (completeMeasurement r s) :=
  h.beside (by simp [completeMeasurement])

theorem windowEnds_budget (xs : List Sample) (h : BudgetKept s) : BudgetKept (windowEnds xs s) := by
  unfold windowEnds
  split
  · exact h
  · split
    · exact h
    · exact .ite (completeMeasurement_budget _ h) h

theorem captureEnds_budget (k : Nat) (b : Bool) (h : BudgetKept s) : BudgetKept (captureEnds k b s) := by
  unfold captureEnds
  split
  · exact completeMeasurement_budget _ h
  · exact h

theorem toneEnds_budget (h : BudgetKept s) : BudgetKept (toneEnds s) := by
  unfold toneEnds
  split
  · exact completeMeasurement_budget _ h
  · exact h

theorem dischargeEnds_budget (h : BudgetKept s) : BudgetKept (dischargeEnds s) := by
  have hg : ∀ f, BudgetKept (guardCheck (s.modAccess f)) := fun _ => h.beside (by simp)
  exact .ite (.ite (h.beside (by simp)) (.ite (boundary_nextStep_budget (hg _)) (hg _))) h

theorem resumeTest_budget (a : Activity) (h : BudgetKept s) : BudgetKept (resumeTest a s) := by
  refine .ite ?_ (h.beside (by simp))
  split
  · exact h.aside rfl
  · exact h.beside (by simp)

theorem reclaimBus_budget (h : BudgetKept s) : BudgetKept (reclaimBus s) := by
  have hr : BudgetKept (raise s.lineUnderTest (.external false) s) := h.beside (by simp)
  have hq : ∀ f, BudgetKept ((raise s.lineUnderTest (.external false) s).modSeq f) := fun _ => hr.aside rfl
  unfold reclaimBus
  dsimp only
  split
  · exact .ite (endExternal_budget hr) (resumeTest_budget _ (hq _))
  · split
    · exact hr.beside (by simp)
    · exact hr.beside (by simp)
    · exact enterIdle_budget (hq _)
    · exact hq _

theorem tickRequests_budget (g : Fin 4) (half : Bool) (h : BudgetKept s) : BudgetKept (tickRequests g half s) := by
  have hq : ∀ f, BudgetKept (s.modSeq f) := fun _ => h.aside rfl
  exact foldl_holds BudgetKept _ (fun _ _ hu => joining_budget _ (hu.beside (by simp))) _ _
    (.ite (idleStep_budget (hq _)) (hq _))

/-! ## Cabinet power -/

/-- A shedding brings the awake lines down to the budget in force, whatever it found (R167, R171). -/
theorem shedToBudget_budget (hrest : s.running = false → s.power.state = none) : BudgetKept (shedToBudget s) := by
  have hshed := (shedToBudget_shed s).power
  have hbudget : awakeBudget (shedToBudget s) = awakeBudget s := awakeBudget_congr (by rw [hshed])
  refine ⟨?_, fun hrun => ?_⟩
  · rw [shedToBudget_awakeCount, hbudget]
    exact min_le_right _ _
  · rw [running_congr (congrArg Mgmt.phase (shedToBudget_mgmt s))] at hrun
    rw [hshed]
    exact hrest hrun

/-- A new power state sheds what its budget does not allow, whatever state it leaves (R165, R167). -/
theorem changePower_budget (left p : PowerState) (c : PowerCause) (hrun : s.running = true) :
    BudgetKept (changePower left p c s) := by
  obtain ⟨hpow, hcount, -⟩ := changePower_power left p c s
  have hmgmt := changePower_mgmt s left p c
  generalize changePower left p c s = t at *
  have hstate : t.power.state = some p := (congrArg Power.state hpow :)
  have hpolicies : t.power.policies = s.power.policies := (congrArg Power.policies hpow :)
  have hbudget : awakeBudget t = (s.power.policies.get (PowerState.idx p)).budget := by
    simp [awakeBudget, currentPolicy, hstate, hpolicies]
  refine ⟨hbudget ▸ hcount, fun hr => ?_⟩
  rw [running_congr (congrArg Mgmt.phase hmgmt), hrun] at hr
  cases hr

theorem takeSample_budget (mv : Nat) (h : BudgetKept s) : BudgetKept (takeSample mv s) := by
  have hp : BudgetKept (s.modPower fun p => { p with sample := some (mv, s.mgmt.time) }) := h.aside rfl
  unfold takeSample
  dsimp only
  split
  · exact hp
  next hst =>
    split
    · exact hp
    · exact changePower_budget _ _ _ (hp.running_of_state hst)

theorem loseMains_budget (h : BudgetKept s) : BudgetKept (loseMains s) := by
  have hp : BudgetKept (s.modPower fun p => { p with mainsOk := false }) := h.aside rfl
  unfold loseMains
  dsimp only
  split
  · exact hp
  next hst => exact changePower_budget _ _ _ (hp.running_of_state hst)
  · exact hp.aside rfl

theorem gainMains_budget (h : BudgetKept s) : BudgetKept (gainMains s) := by
  unfold gainMains
  dsimp only
  split <;> exact h.aside rfl

theorem mainsStable_budget (h : BudgetKept s) : BudgetKept (mainsStable s) := by
  unfold mainsStable
  split
  next hst => exact changePower_budget _ _ _ (h.running_of_state hst)
  · exact h

/-! ## Line events -/

theorem failTraining_budget (n : LineNo) (r : Reason) (h : BudgetKept s) : BudgetKept (failTraining n r s) :=
  enter_asleep_budget n .down r rfl (modLine_budget n _ (fun _ => rfl) h)

theorem takeActivity_budget (n : LineNo) (h : BudgetKept s) : BudgetKept (takeActivity n s) := by
  unfold takeActivity
  split
  · exact wakeRequest_budget n _ h
  · exact .ite (wakeRequest_budget n _ h) h
  · exact h

/-- A line in TRAINING is awake before it is UP (R86, R92). -/
theorem takeLinkUp_budget (n : LineNo) (down up : Nat) (h : BudgetKept s) : BudgetKept (takeLinkUp n down up s) := by
  unfold takeLinkUp
  split
  next hst =>
    refine enter_budget n .up .linkUp (fun _ => ?_) (modLine_budget n _ (fun _ => rfl) h)
    rw [State.modLine_line_self, storeRates, hst]
    rfl
  · exact takeRates_budget n _ _ h
  · exact takeRates_budget n _ _ h
  · exact takeRates_budget n _ _ h
  · exact h

theorem takeRatesReport_budget (n : LineNo) (down up : Nat) (h : BudgetKept s) :
    BudgetKept (takeRatesReport n down up s) := by
  unfold takeRatesReport
  split
  · exact takeRates_budget n _ _ h
  · exact takeRates_budget n _ _ h
  · exact takeRates_budget n _ _ h
  · exact h

/-- A line held, with the held report that follows (R99). -/
theorem heldReport_enter_budget (n : LineNo) (r : Reason) (h : BudgetKept s) :
    BudgetKept (heldReport (enter n .held r s)) := (enter_asleep_budget n .held r rfl h).beside (by simp)

theorem takeLinkDown_budget (n : LineNo) (h : BudgetKept s) : BudgetKept (takeLinkDown n s) := by
  unfold takeLinkDown
  split
  · exact failTraining_budget n _ h
  · exact enter_asleep_budget n .down _ rfl h
  · exact enter_asleep_budget n .down _ rfl h
  · exact heldReport_enter_budget n _ h
  · exact h

theorem takeSense_budget (n : LineNo) (rising : Bool) (h : BudgetKept s) : BudgetKept (takeSense n rising s) := by
  have hs : BudgetKept (senseSeen n rising s) :=
    (modLine_budget n (fun l => { l with sense := true }) (fun _ => rfl) h).beside (by simp [senseSeen])
  have hwake : BudgetKept (match ((senseSeen n rising s).line n).st with
      | .down => wakeRequest n .start (senseSeen n rising s)
      | .quiet | .dormant =>
        if (currentPolicy (senseSeen n rising s)).wakeSense then wakeRequest n .sense (senseSeen n rising s)
        else senseSeen n rising s
      | _ => senseSeen n rising s) := by
    split
    · exact wakeRequest_budget n _ hs
    · exact .ite (wakeRequest_budget n _ hs) hs
    · exact .ite (wakeRequest_budget n _ hs) hs
    · exact hs
  exact .ite hwake h

end

end Sys2Proof.Machine
end

