-- ==== Sys2Proof/Proofs/BudgetSteps.lean ====
section
/-! PROOF. The awake budget (R167) across every step (O57). -/

namespace Sys2Proof.Machine

section
variable {s t : State}

/-! ## The frame path -/

theorem queueFrame_budget (n : LineNo) (k : QueueKind) (c d : LineCause) (r : FrameRec) (h : BudgetKept s) :
    BudgetKept (queueFrame n k c d r s) := by
  have hmade : BudgetKept (makeRecord r s) := h.beside (by simp)
  have hpushed : BudgetKept (pushQueue n k s.pool.nextId (makeRecord r s)) :=
    hmade.aside ((pushQueue_figuresKept n k _ _).budgetView (by simp [pushQueue]))
  exact .ite (h.beside (by simp)) (.ite (h.beside (by simp)) hpushed)

/-- A frame for a DORMANT line is stored, and a wake asked for (R29). -/
theorem toWakeStore_budget (n : LineNo) (f : List Byte) (h : BudgetKept s) : BudgetKept (toWakeStore n f s) := by
  have hmade : BudgetKept (makeRecord (downRecord f 1) s) := h.beside (by simp)
  exact .ite (h.beside (by simp)) (.ite (h.beside (by simp)) (.ite (h.beside (by simp))
    (wakeRequest_budget n _ (modLine_budget n _ (fun _ => rfl) hmade))))

theorem decideUnicast_budget (n : LineNo) (f : List Byte) (h : BudgetKept s) : BudgetKept (decideUnicast n f s) := by
  have hq := queueFrame_budget n .down .downPoolFull .downQueueFull (downRecord f 1) h
  unfold decideUnicast
  dsimp only
  split
  · exact hq
  · exact .ite (wakeRequest_budget n _ hq) hq
  · exact toWakeStore_budget n f h
  all_goals exact h.beside (by simp)

theorem replicate_budget (f : List Byte) (h : BudgetKept s) : BudgetKept (replicate f s) := by
  have hno : ∀ ns : List LineNo, BudgetKept (ns.foldl (fun u n => countDrop n .downQueueFull u) s) := fun ns =>
    foldl_holds BudgetKept _ (fun _ _ hu => hu.beside (by simp)) ns s h
  have hmade : ∀ (ns : List LineNo) r, BudgetKept (makeRecord r (ns.foldl (fun u n => countDrop n .downQueueFull u) s)) :=
    fun ns _ => (hno ns).beside (by simp)
  exact .ite (h.beside (by simp)) (.ite (h.beside (by simp)) (.ite (hno _) (foldl_holds BudgetKept _
    (fun _ n hu => hu.aside ((pushQueue_figuresKept n .down _ _).budgetView (by simp [pushQueue]))) _ _
    (hmade _ _))))

theorem sortDownstream_budget (f : List Byte) (h : BudgetKept s) : BudgetKept (sortDownstream f s) := by
  refine .ite (h.beside (by simp)) (.ite (h.beside (by simp)) (.ite (replicate_budget f h) ?_))
  unfold unicast
  split
  · exact h.beside (by simp)
  · exact .ite (decideUnicast_budget _ f h) (h.beside (by simp))

theorem takeAdvisory_budget (v : Nat) (h : BudgetKept s) : BudgetKept (takeAdvisory v s) := by
  have hadv : ∀ f g, BudgetKept (((countDev .advisories s).modShares f).modShares g) := fun _ _ => h.beside (by simp)
  have hrest : ∀ f g d, BudgetKept ((raise none d ((countDev .advisories s).modShares f)).modShares g) :=
    fun _ _ _ => h.beside (by simp)
  unfold takeAdvisory
  dsimp only
  split
  · exact recompute_budget (hrest _ _ _)
  · exact recompute_budget (hadv _ _)

theorem queueControl_budget (p : Port) (f : List Byte) (h : BudgetKept s) : BudgetKept (queueControl p f s) :=
  .ite (h.aside rfl) (h.beside (by simp))

theorem recogniseUplink_budget (f : List Byte) (h : BudgetKept s) : BudgetKept (recogniseUplink f s) :=
  .ite (.ite (takeAdvisory_budget _ h) (.ite (h.aside rfl) (h.beside (by simp))))
    (.ite (.ite (h.beside (by simp)) (queueControl_budget _ f h)) (sortDownstream_budget f h))

theorem recogniseCraft_budget (b : Bool) (f : List Byte) (h : BudgetKept s) : BudgetKept (recogniseCraft b f s) :=
  .ite (h.beside (by simp)) (.ite (queueControl_budget _ f h) (h.beside (by simp)))

theorem sourceCheck_budget (n : LineNo) (a : Addr) (h : BudgetKept s) : BudgetKept (sourceCheck n a s).2 := by
  rcases sourceCheck_cases n a s with ⟨d, hd⟩ | ⟨c, es, hc⟩ | ⟨c, es, hc⟩
  · rw [hd]
    exact h.beside (by simp)
  · rw [hc]
    exact h.aside rfl
  · rw [hc]
    exact h.aside rfl

theorem upstream_budget (n : LineNo) (f : List Byte) (h : BudgetKept s) : BudgetKept (upstream n f s) := by
  refine .ite (h.beside (by simp)) (.ite (h.beside (by simp)) ?_)
  split
  · exact h.beside (by simp)
  · have hc := sourceCheck_budget n (frameSrc f) h
    split
    next hs =>
      rw [hs] at hc
      exact queueFrame_budget n _ _ _ _ hc
    next hs =>
      rw [hs] at hc
      exact hc
  · exact h.beside (by simp)

theorem receive_budget (k : Nat) (f : List Byte) (pass : State → State) (hp : BudgetKept (pass s)) (h : BudgetKept s) :
    BudgetKept (receive k f pass s) := by
  unfold receive
  split
  · exact h.beside (by simp)
  · exact .ite hp (h.beside (by simp))

/-! ## The upstream side -/

theorem takeHead_budget (n : LineNo) (c : Cls) (b : Bool) (h : BudgetKept s) : BudgetKept (takeHead n c b s) := by
  refine h.aside ((takeHead_figuresKept n c b s).budgetView ?_)
  unfold takeHead
  split <;> simp

theorem chargeHead_budget (n : LineNo) (c : Cls) (h : BudgetKept s) : BudgetKept (chargeHead n c s) := by
  unfold chargeHead
  split
  · exact h
  · exact modLine_budget n _ (fun _ => rfl) h

theorem makeChoice_budget (h : BudgetKept s) : BudgetKept (makeChoice s) := by
  refine .ite ?_ h
  cases choose s with
  | none => exact h
  | some p =>
    cases p with
    | management e => exact h.aside rfl
    | credited n c => exact (takeHead_budget n c false (chargeHead_budget n c h)).aside rfl
    | spare n c => exact (takeHead_budget n c true h).aside rfl

theorem coldState_budget (s : State) : BudgetKept (coldState s) := by
  have hline : ∀ n, (coldState s).line n = Line.reset n := fun n => Tab.get_ofFn _ _
  exact .of_asleep (fun n => by rw [hline]; rfl) fun _ => rfl

theorem warmReset_budget (f : ResetFlag) (s : State) : BudgetKept (warmReset f s) := by
  have hline : ∀ n, (warmReset f s).line n = Line.reset n := fun n => Tab.get_ofFn _ _
  exact .of_asleep (fun n => by rw [hline]; rfl) fun _ => rfl

theorem completeTransmission_budget (id : Nat) (b : Bool) (h : BudgetKept s) :
    BudgetKept (completeTransmission id b s) := by
  refine .ite (warmReset_budget _ s) ?_
  split
  · exact h
  · unfold countTransmission
    split <;> exact h.beside (by simp)

theorem dropCraftEntries_budget (h : BudgetKept s) : BudgetKept (dropCraftEntries s) :=
  h.aside (dropRefs_budgetView _ _)

/-! ## Resets and the start-up -/

/-- The start-up loads policies while no line is awake (R190). -/
theorem BudgetKept.loaded (h : BudgetKept s) (hrun : s.running = false) (k : FiguresKept s t) : BudgetKept t :=
  .of_asleep (fun n => by rw [(Line.figures_eq (k.lines n)).1]; exact h.asleep hrun n) fun _ => k.power.trans (h.2 hrun)

theorem enableLines_budget (h : BudgetKept s) : BudgetKept (enableLines s) := by
  refine foldl_holds BudgetKept _ (fun u n hu => .ite ?_ hu) _ s h
  exact hu.follows (enterCore_follows n .down .enabled (fun hon => by cases hon) (.refl u)) (enterCore_mgmt _ _ _ _)

theorem runStartUp_budget (cold : Bool) (hrun : s.running = false) (h : BudgetKept s) :
    BudgetKept (runStartUp cold s) := by
  have hid : FiguresKept s (readIdentity s) :=
    ⟨fun n => by simp [readIdentity, State.line, Line.figures], rfl, id, rfl, rfl⟩
  have hload : FiguresKept s (if cold = true then readIdentity s else warmLoad (readIdentity s)) := by
    split
    · exact hid
    · exact hid.trans (warmLoad_figuresKept _)
  have hmarked := hload.trans (settleMarker_figuresKept _)
  have hlines := enableLines_budget (h.loaded hrun hmarked)
  have hphase := (congrArg Mgmt.phase (enableLines_keeps State.mgmt (fun u n => enterCore_mgmt u n _ _) _)).trans
    hmarked.phase
  unfold runStartUp
  dsimp only
  generalize enableLines _ = u at hlines hphase
  have hurun : u.running = false := (running_congr hphase).trans hrun
  refine .of_asleep (fun n => ?_) fun _ => ?_
  · rw [State.modMgmt_line, State.line_of_lines (raise_lines _ _ _)]
    exact hlines.asleep hurun n
  · rw [State.modMgmt_power, raise_power]
    exact hlines.2 hurun

/-- The power state is chosen while no line is awake (R163, R191). -/
theorem completeStartUp_budget (mv : Nat) (hrun : s.running = false) (h : BudgetKept s) :
    BudgetKept (completeStartUp mv s) := by
  have hst : ∀ n, ((inService mv s).line n).st = (s.line n).st := fun n => by
    unfold inService
    dsimp only
    rw [State.modMgmt_line, State.modStations_line, State.modSched_line, apart_st (recompute_apart _ n)]
    rfl
  have hservice : (inService mv s).running = true := rfl
  rw [completeStartUp_eq]
  refine enterIdle_budget (.of_asleep (fun n => ?_) fun hr => ?_)
  · rw [hst]
    exact h.asleep hrun n
  · simp [hservice] at hr

/-- A traffic reset leaves no line awake, and the power state as it was (R87, R192). -/
theorem doTrafficReset_budget (h : BudgetKept s) : BudgetKept (doTrafficReset s) := by
  obtain ⟨-, hpower, -⟩ := doTrafficReset_frames s
  obtain ⟨hmgmt, -⟩ := doTrafficReset_beside s
  refine .of_asleep (fun n => ?_) fun hrun => ?_
  · rw [(doTrafficReset_line s n).1]
    split
    next hoff => rcases hoff with hoff | hoff <;> rw [hoff] <;> rfl
    · rfl
  · rw [running_congr (s := s) (by rw [hmgmt])] at hrun
    rw [hpower]
    exact h.2 hrun

/-! ## Commands -/

theorem afterLineWrite_budget (n : LineNo) (f : LineFields) (old : LineConfig) (h : BudgetKept s) :
    BudgetKept (afterLineWrite n f old s) := by
  have hx : BudgetKept (sharesWritten old n s) := .ite (recompute_budget h) h
  have hq : BudgetKept (if f.quietDelay.isSome then rederiveQuiet n (sharesWritten old n s)
      else sharesWritten old n s) := .ite (rederiveQuiet_budget n hx) hx
  rw [afterLineWrite_eq]
  exact .ite (rederiveDormant_budget n hq) hq

/-- A write of the entry in force sheds what the new budget does not allow, whatever it was before (R174). -/
theorem afterPolicyWrite_budget (b : Bool) (hrest : s.running = false → s.power.state = none) :
    BudgetKept (afterPolicyWrite b s) := by
  have hi : BudgetKept (idleStep (grantAll (shedToBudget s))) :=
    idleStep_budget (grants_budget _ (shedToBudget_budget hrest))
  exact .ite (rederiveAll_budget hi) hi

/-- A write of an entry that is not in force leaves the budget in force (R174). -/
theorem otherPolicy_budget {p : PowerState} (x : Policy) (hp : s.power.state ≠ some p) (h : BudgetKept s) :
    BudgetKept (s.modPower fun y => { y with policies := y.policies.set (PowerState.idx p) x }) := by
  have hidx : ∀ q : PowerState, q ≠ p → PowerState.idx q ≠ PowerState.idx p := fun q => by
    cases q <;> cases p <;> decide
  have hbudget : awakeBudget (s.modPower fun y => { y with policies := y.policies.set (PowerState.idx p) x })
      = awakeBudget s := by
    cases hst : s.power.state with
    | none => simp [awakeBudget, hst]
    | some q =>
      have hq : q ≠ p := fun he => hp (by rw [hst, he])
      simp [awakeBudget, currentPolicy, hst, Tab.get_set_other _ _ (hidx q hq)]
  exact ⟨hbudget ▸ h.1, h.2⟩

theorem makeExternal_budget (n : LineNo) (h : BudgetKept s) : BudgetKept (makeExternal n s) :=
  askForLine_budget n (.ite (h.beside (by simp)) (h.aside rfl))

/-- A command row keeps the budget. The rows below the named ones write no line's state and no policy. -/
theorem runRow_budget (c : Instr) (h : BudgetKept s) : BudgetKept (runRow c s).1 := by
  have hcfg : ∀ n (f : Line → LineConfig), BudgetKept (s.modLine n fun l => { l with cfg := f l }) :=
    fun n f => modLine_budget n _ (fun _ => rfl) h
  have hseq : ∀ f, BudgetKept (s.modSeq f) := fun _ => h.aside rfl
  cases c with
  | writeLine o line f =>
    simp only [runRow, cmdWriteLine]
    split
    · exact h
    · split
      · exact h
      · split
        · exact h
        · exact afterLineWrite_budget _ _ _ (hcfg _ _)
  | enableLine o line =>
    simp only [runRow, cmdEnableLine]
    split
    · exact h
    · split
      · exact h
      · split
        · exact enter_asleep_budget _ .down .enabled rfl (hcfg _ fun l => { l.cfg with enabled := true })
        · exact h
  | disableLine o line =>
    simp only [runRow, cmdDisableLine]
    split
    · exact h
    · split
      · exact h
      · split
        · exact h
        · exact enter_asleep_budget _ .disabled .disabled rfl (hcfg _ fun l => { l.cfg with enabled := false })
  | clearBar o line =>
    simp only [runRow, cmdClearBar]
    split
    · exact h
    · split
      · exact h
      · split
        · exact enter_asleep_budget _ .down .barCleared rfl h
        · exact h
  | clearSense o m =>
    simp only [runRow, cmdClearSense]
    split
    · exact h
    · exact h.aside (by simp [answer, State.budgetView, State.line])
  | setUplink o f =>
    simp only [runRow, cmdSetUplink]
    split
    · exact h
    · split
      · exact h
      · exact recompute_budget (h.aside (t := s.modShares _) rfl)
  | requestTest o line p v =>
    simp only [runRow, cmdRequestTest]
    split
    · split
      · exact h
      · split
        · exact idleStep_budget (hseq _)
        · exact h
    · exact h
  | abortTest o line =>
    simp only [runRow, cmdAbortTest, answer]
    split
    · exact h
    · split
      · dsimp only
        exact placesFreed_budget (hseq _)
      · split
        · exact h
        · split
          · split
            · exact h
            · exact abortTestNow_budget _ h
          · exact h
  | stopRoutineGroup o g =>
    simp only [runRow, cmdStopRoutineGroup]
    split
    · exact h
    · exact .ite (h.aside rfl) (placesFreed_budget (h.aside rfl))
  | setTestLimits o f =>
    simp only [runRow, cmdSetTestLimits]
    split
    · exact h
    · have hg : ∀ f g, BudgetKept (guardCheck ((s.modAccess f).modSeq g)) := fun _ _ => h.beside (by simp)
      exact hg _ _
  | connectExternal o line =>
    simp only [runRow, cmdConnectExternal]
    split
    · exact h
    · split
      · exact h
      · split
        · exact h
        · split
          · exact h
          · split
            · exact h
            · exact makeExternal_budget _ h
  | disconnectExternal o =>
    simp only [runRow, cmdDisconnectExternal]
    split
    · exact h
    · split
      · exact endExternal_budget h
      · exact h
  | writePowerPolicy o v f =>
    simp only [runRow, cmdWritePowerPolicy]
    split
    · exact h
    · split
      · exact h
      · split
        · exact h
        · refine recompute_budget ?_
          split
          · exact afterPolicyWrite_budget _ h.2
          next hst => exact otherPolicy_budget _ hst h
  | trafficReset o =>
    simp only [runRow, cmdTrafficReset, answer]
    exact doTrafficReset_budget h
  | _ =>
    simp only [runRow, cmdWriteStation, placeStation, cmdRemoveStation, cmdFlushLearned, cmdWriteStationTableForm,
      cmdReadStation, cmdReadLine, cmdEnableLineSettings, cmdReadUplink, cmdWriteProgram, cmdReadProgram,
      cmdReadTestQueue, cmdReadTestRecord, cmdSetRoutineGroup, cmdStartRoutineGroup, cmdSetBatteryThresholds,
      cmdReadPower, cmdReadCounters, cmdReadGlobalCounters, cmdClearEvents, cmdSetNotices, cmdClearResetCause,
      cmdReadStatus, cmdSetManagement, cmdSetTime, cmdLock, cmdSaveConfiguration, cmdDeviceReset, cmdUnknown]
    (repeat' split) <;> exact h.aside rfl

theorem runCommand_budget (cmd : State → State × CmdResult) (hc : BudgetKept (cmd s).1) (h : BudgetKept s) :
    BudgetKept (runCommand cmd s).1 := by
  unfold runCommand
  split
  · exact h
  · exact hc

/-! ## Control frames and notices -/

theorem runElement_budget (o : Origin) (i : Nat) (b : List Byte) (h : BudgetKept s) :
    BudgetKept (runElement o i b s).1 := by
  refine runCommand_budget _ ?_ h
  split
  · exact h
  · exact runRow_budget _ h

theorem runElements_budget (o : Origin) (es : List Element) (h : BudgetKept s) : BudgetKept (runElements o es s).1 := by
  induction es generalizing s with
  | nil => exact h
  | cons e es ih =>
    cases e with
    | truncated i => exact h
    | whole i b => exact ih (runElement_budget o i b h)

theorem runFrame_budget (o : Origin) (f : List Byte) (h : BudgetKept s) : BudgetKept (runFrame o f s).1 := by
  unfold runFrame
  dsimp only
  split
  · exact h
  · exact runElements_budget o _ h

theorem buildEntry_budget (b : List Byte) (p : Port) (q : TxPart) (h : BudgetKept s) :
    BudgetKept (buildEntry b p q s) := by
  have hmade : ∀ r, BudgetKept (makeRecord r s) := fun _ => h.beside (by simp)
  exact (hmade _).aside rfl

theorem placeReply_budget (b : List Byte) (p : Port) (h : BudgetKept s) : BudgetKept (placeReply b p s) := by
  have hbuilt : ∀ f : Option DevReset → Option DevReset, BudgetKept ((buildEntry b p .reply s).modMgmt fun m =>
      { m with devReset := f m.devReset }) := fun _ => (buildEntry_budget b p .reply h).aside rfl
  exact .ite (dropCraftEntries_budget (hbuilt _)) (hbuilt _)

theorem takeFrame_budget (b : Bool) (p : Port) (f : List Byte) (h : BudgetKept s) : BudgetKept (takeFrame b p f s) := by
  have hcounted : BudgetKept (countDev .framesTaken (s.modMgmt fun m =>
      { m with controlQ := m.controlQ.drop 1, service := b })) := h.aside rfl
  exact placeReply_budget _ p (runFrame_budget (originOf p b) f hcounted)

theorem noticeFrameBuild_budget (h : BudgetKept s) :
    BudgetKept ((noticeReady s).elim s fun f => buildNotice f s) := by
  cases noticeReady s with
  | none => exact h
  | some f =>
    have hnumbered : BudgetKept ((s.modCounts fun c =>
        { c with notices := dropBuilt (nextNotices s) c.notices }).modMgmt fun m =>
        { m with noticeNumber := m.noticeNumber + 1 }) := h.aside rfl
    exact buildEntry_budget f .uplink _ hnumbered

theorem endSave_budget (good : Bool) (h : BudgetKept s) : BudgetKept (endSave good s) := by
  unfold endSave
  split
  · exact h
  · exact h.aside (by simp [State.budgetView, State.line])

/-! ## Every step -/

/-- The budget across an occurrence, a command row apart. -/
theorem exec_event_budget {c : Instr} (hc : isCommand c = false) (hs : BudgetKept s) (h : exec c s = .next t) :
    BudgetKept t := by
  have key : ∀ u, exec c s = .next u → BudgetKept u → BudgetKept t := by
    rintro u hu hk
    rw [hu] at h
    cases h
    exact hk
  have sched : ∀ f : Sched → Sched, BudgetKept (s.modSched f) := fun _ => hs.aside rfl
  have hline : ∀ n (f : Line → Line), (∀ l, (f l).st = l.st) → BudgetKept (s.modLine n f) :=
    fun n f hf => modLine_budget n f hf hs
  cases c with
  | coldReset => exact key _ rfl (coldState_budget s)
  | pinReset => exact key _ rfl (warmReset_budget _ s)
  | supplyReset => exact key _ rfl (warmReset_budget _ s)
  | startUp =>
    refine key _ rfl ?_
    split
    next hp => exact runStartUp_budget _ (by simp [State.running, hp]) hs
    · exact hs
    · exact hs
  | startUpComplete v =>
    refine key _ rfl ?_
    split
    next hp => exact completeStartUp_budget v (by simp [State.running, hp]) hs
    · exact hs
    · exact hs
  | uplinkFrameReceived f => exact key _ rfl (receive_budget _ f _ (recogniseUplink_budget f hs) hs)
  | capacityAdvisory v => exact key _ rfl (.ite (takeAdvisory_budget v hs) (hs.aside rfl))
  | classPause m d => exact key _ rfl (.ite (hs.aside rfl) (hs.aside rfl))
  | craftFrameReceived b f =>
    have hservice : BudgetKept (s.modMgmt fun m => { m with service := b }) := hs.aside rfl
    exact key _ rfl (receive_budget _ f _ (recogniseCraft_budget b f hservice) hservice)
  | lineLinkFrameReceived n f => exact key _ rfl (receive_budget _ f _ (upstream_budget n f hs) hs)
  | ready n => exact key _ rfl (.ite (.ite (hline n _ fun _ => rfl) hs) hs)
  | activity n => exact key _ rfl (.ite (takeActivity_budget n hs) hs)
  | linkUp n d u => exact key _ rfl (.ite (takeLinkUp_budget n d u hs) hs)
  | rates n d u => exact key _ rfl (.ite (takeRatesReport_budget n d u hs) hs)
  | linkFail n => exact key _ rfl (.ite (.ite (failTraining_budget n _ hs) hs) hs)
  | linkDown n => exact key _ rfl (.ite (takeLinkDown_budget n hs) hs)
  | awake n => exact key _ rfl (.ite (.ite (hline n _ fun _ => rfl) hs) hs)
  | senseEdge n b => exact key _ rfl (.ite (takeSense_budget n b hs) hs)
  | wakeGrant => exact key _ rfl (grants_budget 1 hs)
  | agingSweep =>
    refine key _ rfl ?_
    split
    · exact hs
    · exact hs.aside rfl
  | holdTimerExpiry =>
    refine key _ rfl ?_
    split
    · exact hs
    · have hlost : ∀ f d, BudgetKept (raise none d (s.modShares f)) := fun _ _ => hs.beside (by simp)
      exact recompute_budget (hlost _ _)
  | refill =>
    refine key _ rfl ?_
    split
    · exact hs
    · exact hs.aside (by simp [State.budgetView, State.line, Line.refilled])
  | pauseTimerExpiry c => exact key _ rfl (sched _)
  | upstreamChoice => exact key _ rfl (makeChoice_budget hs)
  | transmissionComplete =>
    refine key _ rfl ?_
    split
    · exact hs
    · exact completeTransmission_budget _ _ (sched _)
  | handOffStart n =>
    exact key _ rfl (.ite (modLine_budget n _ (fun _ => rfl) (hline n Line.handed fun _ => rfl)) hs)
  | handOffComplete n =>
    refine key _ rfl ?_
    split
    · exact hs
    next id _ =>
      have hdropped : BudgetKept (dropRef id (s.modLine n fun l => { l with handOff := none })) :=
        (hline n (fun l => { l with handOff := none }) fun _ => rfl).beside (by simp)
      have hidle : BudgetKept (refreshIdle n (dropRef id (s.modLine n fun l => { l with handOff := none }))) :=
        modLine_budget n _ (fun _ => rfl) hdropped
      exact hidle.beside (by simp)
  | drainComplete n => exact key _ rfl (drainReport_budget n hs)
  | uplinkLinkDown =>
    refine key _ rfl ?_
    dsimp only
    split
    · exact sched _
    · exact hs.beside (by simp)
  | uplinkLinkUp => exact key _ rfl (makeChoice_budget (sched _))
  | craftTransmissionStart =>
    refine key _ rfl (.ite ?_ hs)
    split
    · exact hs
    · exact hs.aside rfl
  | craftTransmissionComplete =>
    refine key _ rfl ?_
    split
    · exact hs
    · exact completeTransmission_budget _ _ (sched _)
  | craftLinkDown =>
    refine key _ rfl (dropCraftEntries_budget ?_)
    split
    · exact sched _
    · exact hs.beside (by simp)
  | trainingTimerExpiry n => exact key _ rfl (.ite (failTraining_budget n _ hs) hs)
  | wakeTimerExpiry n => exact key _ rfl (.ite (enter_asleep_budget n _ _ rfl hs) hs)
  | idleTimerExpiry n => exact key _ rfl (.ite (enter_asleep_budget n _ _ rfl hs) hs)
  | dormantTimerExpiry n => exact key _ rfl (.ite (enter_asleep_budget n _ _ rfl hs) hs)
  | drainTimerExpiry n => exact key _ rfl (.ite (heldReport_enter_budget n _ hs) hs)
  | settleTimerExpiry => exact key _ rfl (settleEnds_budget hs)
  | windowEnd xs => exact key _ rfl (windowEnds_budget xs hs)
  | captureTargetReached v => exact key _ rfl (.ite (captureEnds_budget v _ hs) hs)
  | captureTimeout => exact key _ rfl (captureEnds_budget _ _ hs)
  | toneDurationElapsed => exact key _ rfl (toneEnds_budget hs)
  | dischargeWaitExpiry => exact key _ rfl (dischargeEnds_budget hs)
  | guardTrip v =>
    refine key _ rfl ?_
    split
    · exact hs
    · exact hs.beside (by simp)
  | extreqAsserted => exact key _ rfl (idleStep_budget (hs.aside rfl))
  | extreqReleased =>
    have hq : ∀ f, BudgetKept (s.modSeq f) := fun _ => hs.aside rfl
    exact key _ rfl (.ite (reclaimBus_budget (hq _)) (hq _))
  | suspendTimerExpiry => exact key _ rfl (.ite (abortTestNow_budget _ hs) hs)
  | halfTick g => exact key _ rfl (.ite (tickRequests_budget g _ (hs.aside rfl)) hs)
  | fullTick g => exact key _ rfl (.ite (tickRequests_budget g _ (hs.aside rfl)) hs)
  | batterySample v => exact key _ rfl (.ite (takeSample_budget v hs) hs)
  | mainsOkDeasserted => exact key _ rfl (loseMains_budget hs)
  | mainsOkAsserted => exact key _ rfl (gainMains_budget hs)
  | mainsStableTimerExpiry => exact key _ rfl (mainsStable_budget hs)
  | controlFrameTaken b =>
    refine key _ rfl ?_
    split
    · exact hs
    · exact .ite (takeFrame_budget b _ _ hs) hs
  | noticeFrameBuild => exact key _ rfl (noticeFrameBuild_budget hs)
  | saveDone b => exact key _ rfl (endSave_budget b hs)
  | deviceResetTimerExpiry => exact key _ rfl (.ite (warmReset_budget _ s) hs)
  | craftLinkUp => exact key _ rfl (sched _)
  | _ => cases hc

theorem exec_budget (c : Instr) (hs : BudgetKept s) (h : exec c s = .next t) : BudgetKept t := by
  by_cases hc : isCommand c = true
  · rw [exec_of_isCommand hc] at h
    cases h
    exact (runCommand_budget _ (runRow_budget c hs) hs).aside rfl
  · exact exec_event_budget (by simpa using hc) hs h

theorem passMs_budget (hs : BudgetKept s) : BudgetKept (passMs s) := by
  have htime : BudgetKept (passTime s) :=
    hs.aside (by simp [State.budgetView, passTime, State.line, Line.passMs])
  unfold passMs
  split
  · exact hs
  · exact htime
  · exact htime

theorem step_budget (hs : BudgetKept s) (h : step s = .next t) : BudgetKept t := by
  unfold step idle at h
  split at h
  next rest _ => exact exec_budget _ (s := { s with pending := rest }) (hs.aside rfl) h
  · split at h
    · exact exec_budget _ hs h
    · cases h
      exact passMs_budget hs

end

end Sys2Proof.Machine

namespace Sys2Proof
open Machine

/-- Settles O57: a grant has room, every other change of a line wakes none, and a new budget in force sheds down to it. -/
theorem budgetIsKept : Obligations.BudgetIsKept := fun _ _ hs h => step_budget hs h

end Sys2Proof
end
